-- ==== Sys2Proof/Word.lean ====
section
/-! DEFINITION. The word types of the 80386: what the manual calls byte, word, doubleword (00_scope.md R12). -/

namespace Sys2Proof

/-- 8 bits (R6, R12). -/
abbrev Byte := BitVec 8

/-- 16 bits: the manual's "word" (R12). -/
abbrev Word := BitVec 16

/-- 32 bits: the manual's "doubleword" or "dword" (R12). -/
abbrev DWord := BitVec 32

/-- 64 bits: the manual's "quadword" (R12); a descriptor as it is read from memory (R153). -/
abbrev QWord := BitVec 64

/-- OperandSize, AddressSize and StackSize are 16 or 32 (R9). -/
inductive Size where
  | s16
  | s32
  deriving DecidableEq, Repr, Inhabited

/-- The other of 16 and 32: what a 66 or 67 byte switches to (R93). -/
def Size.other : Size → Size
  | .s16 => .s32
  | .s32 => .s16

/-- The bytes of an operand of the size: the `n` of R143, R157 (2 or 4). -/
def Size.bytes : Size → Nat
  | .s16 => 2
  | .s32 => 4

end Sys2Proof
end

