-- ==== Sys2Proof/Config.lean ====
section
/-! DEFINITION. What is fixed for the machine and what the spec leaves free and does not depend on the state
(00_scope.md R6). The two parameters that read the whole state, Translate and SwitchTasks, are declared after State,
in Machine/Params.lean. -/

namespace Sys2Proof

/-- `PadBits` (R75, U1, D15): the 16 bits stored above a selector that is pushed as a doubleword, one fresh draw per
push; draw number `k` is `Config.padBits k`. A free value: no body, so nothing can be proved of it (log entry 9). -/
opaque Config.padBits : Nat → Word

/-- The byte that an address of physical memory not listed in `Memory` holds (R78, D6: memory is a total map).
DESIGN CHOICE, unsafe for the reset state only (log entry 3). -/
def Config.unlistedByte : Byte := 0

/-- The longest instruction, prefix bytes included (R95). -/
def Config.maxInstrBytes : Nat := 15

end Sys2Proof
end

