-- ==== Sys2Proof/Syntax.lean ====
section
/-! DEFINITION. The instructions of the page as syntax: one constructor of `Instr` per row of spec/opcode_table.json
(30_encoding.md R112), with every operand field of its encoding (R97 to R109). -/

namespace Sys2Proof

/-- The eight general registers, by the names of their 32-bit forms (R20). The same name stands for the 16-bit view
(R21). -/
inductive Reg where
  | eax | ecx | edx | ebx | esp | ebp | esi | edi
  deriving DecidableEq, Repr, Inhabited

/-- The eight 8-bit views (R21). -/
inductive Reg8 where
  | al | cl | dl | bl | ah | ch | dh | bh
  deriving DecidableEq, Repr, Inhabited

/-- The six segment registers (R33). -/
inductive SegName where
  | es | cs | ss | ds | fs | gs
  deriving DecidableEq, Repr, Inhabited

/-- The prefix bytes an instruction in scope may carry (R97, R98): at most one of each group. Their order in memory
has no effect and is not kept. -/
structure Prefixes where
  /-- the operand-size byte 66 is present -/
  opsize : Bool
  /-- the address-size byte 67 is present -/
  addrsize : Bool
  /-- the segment override, if there is one -/
  seg : Option SegName
  deriving DecidableEq, Repr, Inhabited

/-- The displacement that follows ModR/M or SIB: none, one sign-extended byte, or a full word of the address size
(R104, R105). -/
inductive Disp (w : Nat) where
  | none
  | d8 (v : Byte)
  | full (v : BitVec w)
  deriving DecidableEq, Repr

/-- The eight register sums of 16-bit addressing, in the order of their `rm` numbers (R104). -/
inductive Base16 where
  | bxSi | bxDi | bpSi | bpDi | si | di | bp | bx
  deriving DecidableEq, Repr, Inhabited

/-- A memory operand as ModR/M, SIB and displacement give it (R104, R105, R106). An index is a register with its
scale; no index means `index = 4` with `ss = 0`. -/
inductive Mem where
  /-- AddressSize 16, a register sum and a displacement -/
  | a16 (b : Base16) (d : Disp 16)
  /-- AddressSize 16, `mod = 0`, `rm = 6` -/
  | a16Direct (addr : Word)
  /-- AddressSize 32, a base register without a SIB byte -/
  | a32 (b : Reg) (d : Disp 32)
  /-- AddressSize 32, `mod = 0`, `rm = 5` -/
  | a32Direct (addr : DWord)
  /-- AddressSize 32 with a SIB byte that names a base -/
  | a32Sib (b : Reg) (index : Option (Reg × BitVec 2)) (d : Disp 32)
  /-- AddressSize 32 with a SIB byte, `base = 5`, `mod = 0`: no base, a doubleword displacement -/
  | a32SibNoBase (index : Option (Reg × BitVec 2)) (addr : DWord)
  deriving DecidableEq, Repr

/-- An `r/m` operand: a general register of the operand's width, or memory (R102). -/
inductive RM (ρ : Type) where
  | reg (r : ρ)
  | mem (m : Mem)
  deriving DecidableEq, Repr

/-- The 34 rows of the opcode table, in its order (R112). Every constructor carries its prefix bytes; the CMPS rows
carry their AddressSize, which no operand byte of theirs shows (R235). -/
inductive Instr where
  /-- E8 cw, OperandSize 16: R133 -/
  | callRel16 (p : Prefixes) (rel : Word)
  /-- FF /2, OperandSize 16: R135 -/
  | callRm16 (p : Prefixes) (d : RM Reg)
  /-- 9A cd, OperandSize 16: R139, R150 -/
  | callPtr1616 (p : Prefixes) (off : Word) (sel : Word)
  /-- FF /3, OperandSize 16, memory only: R141, R150 -/
  | callM1616 (p : Prefixes) (m : Mem)
  /-- E8 cd, OperandSize 32: R134 -/
  | callRel32 (p : Prefixes) (rel : DWord)
  /-- FF /2, OperandSize 32: R136 -/
  | callRm32 (p : Prefixes) (d : RM Reg)
  /-- 9A cp, OperandSize 32: R140, R150 -/
  | callPtr1632 (p : Prefixes) (off : DWord) (sel : Word)
  /-- FF /3, OperandSize 32, memory only: R142, R150 -/
  | callM1632 (p : Prefixes) (m : Mem)
  /-- 98, OperandSize 16: R190 -/
  | cbw (p : Prefixes)
  /-- 98, OperandSize 32: R191 -/
  | cwde (p : Prefixes)
  /-- F8: R195 -/
  | clc (p : Prefixes)
  /-- FC: R197 -/
  | cld (p : Prefixes)
  /-- FA: R200 -/
  | cli (p : Prefixes)
  /-- 0F 06: R203 -/
  | clts (p : Prefixes)
  /-- F5: R206 -/
  | cmc (p : Prefixes)
  /-- 3C ib: R214 -/
  | cmpAlImm8 (p : Prefixes) (imm : Byte)
  /-- 3D iw, OperandSize 16: R215 -/
  | cmpAxImm16 (p : Prefixes) (imm : Word)
  /-- 3D id, OperandSize 32: R216 -/
  | cmpEaxImm32 (p : Prefixes) (imm : DWord)
  /-- 80 /7 ib: R217 -/
  | cmpRm8Imm8 (p : Prefixes) (d : RM Reg8) (imm : Byte)
  /-- 81 /7 iw, OperandSize 16: R218 -/
  | cmpRm16Imm16 (p : Prefixes) (d : RM Reg) (imm : Word)
  /-- 81 /7 id, OperandSize 32: R219 -/
  | cmpRm32Imm32 (p : Prefixes) (d : RM Reg) (imm : DWord)
  /-- 83 /7 ib, OperandSize 16: R220 -/
  | cmpRm16Imm8 (p : Prefixes) (d : RM Reg) (imm : Byte)
  /-- 83 /7 ib, OperandSize 32: R221 -/
  | cmpRm32Imm8 (p : Prefixes) (d : RM Reg) (imm : Byte)
  /-- 38 /r: R222 -/
  | cmpRm8R8 (p : Prefixes) (d : RM Reg8) (r : Reg8)
  /-- 39 /r, OperandSize 16: R223 -/
  | cmpRm16R16 (p : Prefixes) (d : RM Reg) (r : Reg)
  /-- 39 /r, OperandSize 32: R224 -/
  | cmpRm32R32 (p : Prefixes) (d : RM Reg) (r : Reg)
  /-- 3A /r: R225 -/
  | cmpR8Rm8 (p : Prefixes) (r : Reg8) (d : RM Reg8)
  /-- 3B /r, OperandSize 16: R226 -/
  | cmpR16Rm16 (p : Prefixes) (r : Reg) (d : RM Reg)
  /-- 3B /r, OperandSize 32: R227 -/
  | cmpR32Rm32 (p : Prefixes) (r : Reg) (d : RM Reg)
  /-- A6: R238 -/
  | cmpsM8 (p : Prefixes) (asz : Size)
  /-- A7, OperandSize 16: R239 -/
  | cmpsM16 (p : Prefixes) (asz : Size)
  /-- A7, OperandSize 32: R240 -/
  | cmpsM32 (p : Prefixes) (asz : Size)
  /-- 99, OperandSize 16: R250 -/
  | cwd (p : Prefixes)
  /-- 99, OperandSize 32: R251 -/
  | cdq (p : Prefixes)
  deriving DecidableEq, Repr

end Sys2Proof
end

