-- ==== Sys2Proof/WellFormed.lean ====
section
/-! DEFINITION. When a term of `Instr` is one that the encoding admits in a code segment of a given default size
(30_encoding.md R93, R96, R102 to R106). -/

namespace Sys2Proof

/-- The attribute of an instruction: the code segment's default, switched by the size byte (R93). -/
def effSize (dflt : Size) (switch : Bool) : Size :=
  if switch then dflt.other else dflt

/-- OperandSize of an instruction with these prefix bytes (R93). -/
def Prefixes.operandSize (dflt : Size) (p : Prefixes) : Size := effSize dflt p.opsize

/-- AddressSize of an instruction with these prefix bytes (R93). -/
def Prefixes.addressSize (dflt : Size) (p : Prefixes) : Size := effSize dflt p.addrsize

/-- ESP is never an index (R106: `index = 4` means none). -/
def indexWf : Option (Reg × BitVec 2) → Bool
  | none => true
  | some (r, _) => r != .esp

/-- A memory operand that ModR/M and SIB can give, and its AddressSize (R104, R105, R106): `rm = 6` (16-bit) and
`rm = 5` (32-bit) with `mod = 0` have no base register, `rm = 4` (32-bit) calls for a SIB byte, and a SIB byte with
`base = 5` and `mod = 0` has no base. -/
def Mem.wf (asz : Size) : Mem → Bool
  | .a16 b d => asz == .s16 && !(b == .bp && d == .none)
  | .a16Direct _ => asz == .s16
  | .a32 b d => asz == .s32 && b != .esp && !(b == .ebp && d == .none)
  | .a32Direct _ => asz == .s32
  | .a32Sib b i d => asz == .s32 && indexWf i && !(b == .ebp && d == .none)
  | .a32SibNoBase i _ => asz == .s32 && indexWf i

/-- The memory form of an `r/m` operand is well formed; a register always is. -/
def RM.wf {ρ : Type} (asz : Size) : RM ρ → Bool
  | .reg _ => true
  | .mem m => m.wf asz

/-- The prefix bytes of an instruction. -/
def Instr.prefixes : Instr → Prefixes
  | .callRel16 p _ => p
  | .callRm16 p _ => p
  | .callPtr1616 p _ _ => p
  | .callM1616 p _ => p
  | .callRel32 p _ => p
  | .callRm32 p _ => p
  | .callPtr1632 p _ _ => p
  | .callM1632 p _ => p
  | .cbw p => p
  | .cwde p => p
  | .clc p => p
  | .cld p => p
  | .cli p => p
  | .clts p => p
  | .cmc p => p
  | .cmpAlImm8 p _ => p
  | .cmpAxImm16 p _ => p
  | .cmpEaxImm32 p _ => p
  | .cmpRm8Imm8 p _ _ => p
  | .cmpRm16Imm16 p _ _ => p
  | .cmpRm32Imm32 p _ _ => p
  | .cmpRm16Imm8 p _ _ => p
  | .cmpRm32Imm8 p _ _ => p
  | .cmpRm8R8 p _ _ => p
  | .cmpRm16R16 p _ _ => p
  | .cmpRm32R32 p _ _ => p
  | .cmpR8Rm8 p _ _ => p
  | .cmpR16Rm16 p _ _ => p
  | .cmpR32Rm32 p _ _ => p
  | .cmpsM8 p _ => p
  | .cmpsM16 p _ => p
  | .cmpsM32 p _ => p
  | .cwd p => p
  | .cdq p => p

/-- The row's `opsize` in spec/opcode_table.json: 16, 32, or none for "any" (R96, R121). -/
def Instr.opsize : Instr → Option Size
  | .callRel16 _ _ => some .s16
  | .callRm16 _ _ => some .s16
  | .callPtr1616 _ _ _ => some .s16
  | .callM1616 _ _ => some .s16
  | .callRel32 _ _ => some .s32
  | .callRm32 _ _ => some .s32
  | .callPtr1632 _ _ _ => some .s32
  | .callM1632 _ _ => some .s32
  | .cbw _ => some .s16
  | .cwde _ => some .s32
  | .clc _ => none
  | .cld _ => none
  | .cli _ => none
  | .clts _ => none
  | .cmc _ => none
  | .cmpAlImm8 _ _ => none
  | .cmpAxImm16 _ _ => some .s16
  | .cmpEaxImm32 _ _ => some .s32
  | .cmpRm8Imm8 _ _ _ => none
  | .cmpRm16Imm16 _ _ _ => some .s16
  | .cmpRm32Imm32 _ _ _ => some .s32
  | .cmpRm16Imm8 _ _ _ => some .s16
  | .cmpRm32Imm8 _ _ _ => some .s32
  | .cmpRm8R8 _ _ _ => none
  | .cmpRm16R16 _ _ _ => some .s16
  | .cmpRm32R32 _ _ _ => some .s32
  | .cmpR8Rm8 _ _ _ => none
  | .cmpR16Rm16 _ _ _ => some .s16
  | .cmpR32Rm32 _ _ _ => some .s32
  | .cmpsM8 _ _ => none
  | .cmpsM16 _ _ => some .s16
  | .cmpsM32 _ _ => some .s32
  | .cwd _ => some .s16
  | .cdq _ => some .s32

/-- The instruction's memory operand, if any, is one ModR/M gives under AddressSize `asz`; a CMPS row has the
AddressSize it says (R102, R235). -/
def Instr.operandWf (asz : Size) : Instr → Bool
  | .callRm16 _ d => d.wf asz
  | .callM1616 _ m => m.wf asz
  | .callRm32 _ d => d.wf asz
  | .callM1632 _ m => m.wf asz
  | .cmpRm8Imm8 _ d _ => d.wf asz
  | .cmpRm16Imm16 _ d _ => d.wf asz
  | .cmpRm32Imm32 _ d _ => d.wf asz
  | .cmpRm16Imm8 _ d _ => d.wf asz
  | .cmpRm32Imm8 _ d _ => d.wf asz
  | .cmpRm8R8 _ d _ => d.wf asz
  | .cmpRm16R16 _ d _ => d.wf asz
  | .cmpRm32R32 _ d _ => d.wf asz
  | .cmpR8Rm8 _ _ d => d.wf asz
  | .cmpR16Rm16 _ _ d => d.wf asz
  | .cmpR32Rm32 _ _ d => d.wf asz
  | .cmpsM8 _ a => a == asz
  | .cmpsM16 _ a => a == asz
  | .cmpsM32 _ a => a == asz
  | .callRel16 _ _ => true
  | .callPtr1616 _ _ _ => true
  | .callRel32 _ _ => true
  | .callPtr1632 _ _ _ => true
  | .cbw _ => true
  | .cwde _ => true
  | .clc _ => true
  | .cld _ => true
  | .cli _ => true
  | .clts _ => true
  | .cmc _ => true
  | .cmpAlImm8 _ _ => true
  | .cmpAxImm16 _ _ => true
  | .cmpEaxImm32 _ _ => true
  | .cwd _ => true
  | .cdq _ => true

/-- The instruction is one that its bytes can give in a code segment whose default size is `dflt`: the row's
OperandSize is the one in force, and the operand is one the AddressSize in force admits (R93, R96). -/
def Instr.wf (dflt : Size) (i : Instr) : Bool :=
  (match i.opsize with
    | none => true
    | some z => z == i.prefixes.operandSize dflt) &&
  i.operandWf (i.prefixes.addressSize dflt)

end Sys2Proof
end

