-- ==== Sys2Proof/Decode.lean ====
section
/-! DEFINITION. Decoding (30_encoding.md R90 to R118): a total function from bytes to an instruction and the bytes
that follow it, or to the named reason why there is none; and the encoder written from the same tables. -/

namespace Sys2Proof

/-! ## Byte order (20_memory.md R64, R65) -/

/-- The number whose bits `8k+7:8k` are byte `k` of the list: little-endian (R64). -/
def leNat : List Byte → Nat
  | [] => 0
  | b :: r => b.toNat + 256 * leNat r

/-- The low `n` bytes of a number, the least significant first (R64). -/
def leBytes : Nat → Nat → List Byte
  | 0, _ => []
  | n + 1, v => BitVec.ofNat 8 v :: leBytes n (v / 256)

/-! ## Register and segment numbers (10_state.md R20, R21, R33) -/

/-- The general register with a number (R20). -/
def Reg.ofNum (n : BitVec 3) : Reg :=
  if n = 0 then .eax else if n = 1 then .ecx else if n = 2 then .edx else if n = 3 then .ebx
  else if n = 4 then .esp else if n = 5 then .ebp else if n = 6 then .esi else .edi

/-- The number of a general register (R20). -/
def Reg.num : Reg → BitVec 3
  | .eax => 0 | .ecx => 1 | .edx => 2 | .ebx => 3 | .esp => 4 | .ebp => 5 | .esi => 6 | .edi => 7

/-- The 8-bit view with a number (R21). -/
def Reg8.ofNum (n : BitVec 3) : Reg8 :=
  if n = 0 then .al else if n = 1 then .cl else if n = 2 then .dl else if n = 3 then .bl
  else if n = 4 then .ah else if n = 5 then .ch else if n = 6 then .dh else .bh

/-- The number of an 8-bit view (R21). -/
def Reg8.num : Reg8 → BitVec 3
  | .al => 0 | .cl => 1 | .dl => 2 | .bl => 3 | .ah => 4 | .ch => 5 | .dh => 6 | .bh => 7

/-- The register sum of 16-bit addressing with an `rm` number (R104). -/
def Base16.ofNum (n : BitVec 3) : Base16 :=
  if n = 0 then .bxSi else if n = 1 then .bxDi else if n = 2 then .bpSi else if n = 3 then .bpDi
  else if n = 4 then .si else if n = 5 then .di else if n = 6 then .bp else .bx

/-- The `rm` number of a register sum of 16-bit addressing (R104). -/
def Base16.num : Base16 → BitVec 3
  | .bxSi => 0 | .bxDi => 1 | .bpSi => 2 | .bpDi => 3 | .si => 4 | .di => 5 | .bp => 6 | .bx => 7

/-! ## Reading the bytes of an instruction -/

/-- Why bytes give no instruction. `truncated` is no outcome of the machine: more bytes are needed. -/
inductive DecodeStop where
  /-- the bytes end before the instruction does -/
  | truncated
  /-- FF /3 with a register operand (R116) -/
  | invalidOpcode
  /-- an opcode that is no row of the table (R118) -/
  | outOfScopeOpcode
  /-- F0 before an instruction in scope (R99) -/
  | lockPrefix
  /-- F2 or F3 before an instruction in scope (R100) -/
  | repPrefix
  /-- two prefix bytes of one group (R98) -/
  | prefixRepeated
  /-- a SIB byte with no index and a scale (R106) -/
  | sibNoIndexScaled
  deriving DecidableEq, Repr, Inhabited

/-- What was read and the bytes that follow it, or why nothing was. -/
abbrev Parse (α : Type) := Except DecodeStop (α × List Byte)

/-- Go on with what was read and the bytes that follow. -/
def Parse.andThen {α β : Type} (x : Parse α) (f : α → List Byte → Parse β) : Parse β :=
  match x with
  | .ok (a, r) => f a r
  | .error e => .error e

/-- The next byte. -/
def take8 : List Byte → Parse Byte
  | b :: r => .ok (b, r)
  | [] => .error .truncated

/-- The next two bytes, little-endian (R65). -/
def take16 : List Byte → Parse Word
  | b0 :: b1 :: r => .ok (b1 ++ b0, r)
  | _ => .error .truncated

/-- The next four bytes, little-endian (R65). -/
def take32 : List Byte → Parse DWord
  | b0 :: b1 :: b2 :: b3 :: r => .ok (b3 ++ b2 ++ b1 ++ b0, r)
  | _ => .error .truncated

/-! ## Prefix bytes (R97 to R100) -/

/-- What a prefix byte says (R97). -/
inductive PrefixByte where
  | opsize
  | addrsize
  | seg (s : SegName)
  | lock
  | rep
  | repne
  deriving DecidableEq, Repr

/-- The table of prefix bytes (R97). -/
def prefixOf (b : Byte) : Option PrefixByte :=
  if b = 0x66 then some .opsize
  else if b = 0x67 then some .addrsize
  else if b = 0x2E then some (.seg .cs)
  else if b = 0x36 then some (.seg .ss)
  else if b = 0x3E then some (.seg .ds)
  else if b = 0x26 then some (.seg .es)
  else if b = 0x64 then some (.seg .fs)
  else if b = 0x65 then some (.seg .gs)
  else if b = 0xF3 then some .rep
  else if b = 0xF2 then some .repne
  else if b = 0xF0 then some .lock
  else none

/-- The third form of the group F0, F2, F3. -/
inductive LockRep where
  | lock
  | rep
  deriving DecidableEq, Repr

/-- The prefix bytes read so far: at most one of each of the four groups of R98. -/
structure SeenPrefixes where
  pfx : Prefixes
  lockRep : Option LockRep
  deriving DecidableEq, Repr

/-- No prefix byte read yet. -/
def SeenPrefixes.empty : SeenPrefixes := ⟨⟨false, false, none⟩, none⟩

/-- Note one more prefix byte; none if its group was seen before (R98). -/
def SeenPrefixes.add (q : SeenPrefixes) : PrefixByte → Option SeenPrefixes
  | .opsize => if q.pfx.opsize then none else some { q with pfx := { q.pfx with opsize := true } }
  | .addrsize => if q.pfx.addrsize then none else some { q with pfx := { q.pfx with addrsize := true } }
  | .seg s => if q.pfx.seg.isSome then none else some { q with pfx := { q.pfx with seg := some s } }
  | .lock => if q.lockRep.isSome then none else some { q with lockRep := some .lock }
  | .rep => if q.lockRep.isSome then none else some { q with lockRep := some .rep }
  | .repne => if q.lockRep.isSome then none else some { q with lockRep := some .rep }

/-- Read bytes while they are prefix bytes (R91 step 1); a second one of a group is refused (R98). -/
def scanPrefixes (q : SeenPrefixes) : List Byte → Parse SeenPrefixes
  | [] => .error .truncated
  | b :: r =>
    match prefixOf b with
    | none => .ok (q, b :: r)
    | some x =>
      match q.add x with
      | none => .error .prefixRepeated
      | some q' => scanPrefixes q' r

/-! ## ModR/M, SIB, displacement (R102 to R106) -/

/-- `mod`, bits 7 to 6 of ModR/M (R102). -/
def modOf (b : Byte) : BitVec 2 := b.extractLsb' 6 2

/-- `reg`, bits 5 to 3 of ModR/M (R102); `index` of SIB (R106). -/
def regOf (b : Byte) : BitVec 3 := b.extractLsb' 3 3

/-- `rm`, bits 2 to 0 of ModR/M (R102); `base` of SIB (R106). -/
def rmOf (b : Byte) : BitVec 3 := b.extractLsb' 0 3

/-- The displacement `mod` calls for with AddressSize 16 (R104). -/
def takeDisp16 (mod : BitVec 2) (r : List Byte) : Parse (Disp 16) :=
  if mod = 0 then .ok (.none, r)
  else if mod = 1 then (take8 r).andThen fun v r => .ok (.d8 v, r)
  else (take16 r).andThen fun v r => .ok (.full v, r)

/-- The displacement `mod` calls for with AddressSize 32 (R105). -/
def takeDisp32 (mod : BitVec 2) (r : List Byte) : Parse (Disp 32) :=
  if mod = 0 then .ok (.none, r)
  else if mod = 1 then (take8 r).andThen fun v r => .ok (.d8 v, r)
  else (take32 r).andThen fun v r => .ok (.full v, r)

/-- The memory operand of ModR/M with AddressSize 16 (R104). -/
def decodeMem16 (mod : BitVec 2) (rm : BitVec 3) (r : List Byte) : Parse Mem :=
  if mod = 0 ∧ rm = 6 then (take16 r).andThen fun a r => .ok (.a16Direct a, r)
  else (takeDisp16 mod r).andThen fun d r => .ok (.a16 (Base16.ofNum rm) d, r)

/-- The index of a SIB byte: none for `index` = 4 without a scale (R106). `index` = 4 with a scale is kept as the index
ESP, which no operand has, for `checkIndex` to refuse once every byte of the instruction is read. -/
def decodeIndex (sib : Byte) : Option (Reg × BitVec 2) :=
  if regOf sib = 4 ∧ modOf sib = 0 then none else some (Reg.ofNum (regOf sib), modOf sib)

/-- The memory operand of a SIB byte (R106). -/
def decodeSib (mod : BitVec 2) (r : List Byte) : Parse Mem :=
  (take8 r).andThen fun sib r =>
    if rmOf sib = 5 ∧ mod = 0 then (take32 r).andThen fun a r => .ok (.a32SibNoBase (decodeIndex sib) a, r)
    else (takeDisp32 mod r).andThen fun d r => .ok (.a32Sib (Reg.ofNum (rmOf sib)) (decodeIndex sib) d, r)

/-- The memory operand of ModR/M with AddressSize 32 (R105). -/
def decodeMem32 (mod : BitVec 2) (rm : BitVec 3) (r : List Byte) : Parse Mem :=
  if rm = 4 then decodeSib mod r
  else if mod = 0 ∧ rm = 5 then (take32 r).andThen fun a r => .ok (.a32Direct a, r)
  else (takeDisp32 mod r).andThen fun d r => .ok (.a32 (Reg.ofNum rm) d, r)

/-- The memory operand of ModR/M (R104, R105). -/
def decodeMem (asz : Size) (modrm : Byte) (r : List Byte) : Parse Mem :=
  match asz with
  | .s16 => decodeMem16 (modOf modrm) (rmOf modrm) r
  | .s32 => decodeMem32 (modOf modrm) (rmOf modrm) r

/-- The r/m operand: a register when `mod = 3`, else memory (R102). -/
def decodeRM {ρ : Type} (ofNum : BitVec 3 → ρ) (asz : Size) (modrm : Byte) (r : List Byte) : Parse (RM ρ) :=
  if modOf modrm = 3 then .ok (.reg (ofNum (rmOf modrm)), r)
  else (decodeMem asz modrm r).andThen fun m r => .ok (.mem m, r)

/-- The SIB byte of a memory operand, if it has one, does not scale a missing index (R106). -/
def Mem.indexOk : Mem → Bool
  | .a16 _ _ => true
  | .a16Direct _ => true
  | .a32 _ _ => true
  | .a32Direct _ => true
  | .a32Sib _ i _ => indexWf i
  | .a32SibNoBase i _ => indexWf i

/-- Refuse a SIB byte with no index and a scale (R106). It stands after the last byte of a row, since every byte is
fetched, and may fault, before anything is said of the instruction (R91, R272). -/
def checkIndex (m : Mem) (x : Parse Instr) : Parse Instr := if m.indexOk then x else .error .sibNoIndexScaled

/-- The same for an r/m operand. -/
def checkRM {ρ : Type} (d : RM ρ) (x : Parse Instr) : Parse Instr :=
  match d with
  | .reg _ => x
  | .mem m => checkIndex m x

/-- A `reg` field that the table does not list: the SIB byte and the displacement that ModR/M calls for are read
before a row is looked for, so a fault on one of them comes before the refusal (R91 steps 4 and 7, R118). -/
def decodeUnlisted (asz : Size) (modrm : Byte) (r : List Byte) : Parse Instr :=
  (decodeRM Reg.ofNum asz modrm r).andThen fun _ _ => .error .outOfScopeOpcode

/-! ## The opcode map (R96, R109, R112) -/

/-- One of two rows that share their bytes, by OperandSize (R96). -/
def bySize (osz : Size) (i16 i32 : Instr) : Instr :=
  match osz with
  | .s16 => i16
  | .s32 => i32

/-- The rows E8: a code offset by OperandSize (R133, R134). -/
def decodeCallRel (osz : Size) (p : Prefixes) (r : List Byte) : Parse Instr :=
  match osz with
  | .s16 => (take16 r).andThen fun v r => .ok (.callRel16 p v, r)
  | .s32 => (take32 r).andThen fun v r => .ok (.callRel32 p v, r)

/-- The rows 9A: the offset first, then the selector (R65, R109). -/
def decodeCallPtr (osz : Size) (p : Prefixes) (r : List Byte) : Parse Instr :=
  match osz with
  | .s16 => (take16 r).andThen fun o r => (take16 r).andThen fun s r => .ok (.callPtr1616 p o s, r)
  | .s32 => (take32 r).andThen fun o r => (take16 r).andThen fun s r => .ok (.callPtr1632 p o s, r)

/-- The rows FF: `/2` near, `/3` far; `/3` with a register is the invalid opcode (R113, R116, R118). -/
def decodeFF (osz asz : Size) (p : Prefixes) (r : List Byte) : Parse Instr :=
  (take8 r).andThen fun m r =>
    if regOf m = 2 then
      (decodeRM Reg.ofNum asz m r).andThen fun d r =>
        checkRM d (.ok (bySize osz (.callRm16 p d) (.callRm32 p d), r))
    else if regOf m = 3 then
      if modOf m = 3 then .error .invalidOpcode
      else (decodeMem asz m r).andThen fun d r =>
        checkIndex d (.ok (bySize osz (.callM1616 p d) (.callM1632 p d), r))
    else decodeUnlisted asz m r

/-- The row 3D (R215, R216). -/
def decodeCmpAcc (osz : Size) (p : Prefixes) (r : List Byte) : Parse Instr :=
  match osz with
  | .s16 => (take16 r).andThen fun v r => .ok (.cmpAxImm16 p v, r)
  | .s32 => (take32 r).andThen fun v r => .ok (.cmpEaxImm32 p v, r)

/-- The row 80 /7 (R217). -/
def decode80 (asz : Size) (p : Prefixes) (r : List Byte) : Parse Instr :=
  (take8 r).andThen fun m r =>
    if regOf m = 7 then
      (decodeRM Reg8.ofNum asz m r).andThen fun d r =>
        (take8 r).andThen fun v r => checkRM d (.ok (.cmpRm8Imm8 p d v, r))
    else decodeUnlisted asz m r

/-- The rows 81 /7 (R218, R219). -/
def decode81 (osz asz : Size) (p : Prefixes) (r : List Byte) : Parse Instr :=
  (take8 r).andThen fun m r =>
    if regOf m = 7 then
      (decodeRM Reg.ofNum asz m r).andThen fun d r =>
        match osz with
        | .s16 => (take16 r).andThen fun v r => checkRM d (.ok (.cmpRm16Imm16 p d v, r))
        | .s32 => (take32 r).andThen fun v r => checkRM d (.ok (.cmpRm32Imm32 p d v, r))
    else decodeUnlisted asz m r

/-- The rows 83 /7 (R220, R221). -/
def decode83 (osz asz : Size) (p : Prefixes) (r : List Byte) : Parse Instr :=
  (take8 r).andThen fun m r =>
    if regOf m = 7 then
      (decodeRM Reg.ofNum asz m r).andThen fun d r =>
        (take8 r).andThen fun v r => checkRM d (.ok (bySize osz (.cmpRm16Imm8 p d v) (.cmpRm32Imm8 p d v), r))
    else decodeUnlisted asz m r

/-- The row 38 /r (R222). -/
def decode38 (asz : Size) (p : Prefixes) (r : List Byte) : Parse Instr :=
  (take8 r).andThen fun m r =>
    (decodeRM Reg8.ofNum asz m r).andThen fun d r => checkRM d (.ok (.cmpRm8R8 p d (Reg8.ofNum (regOf m)), r))

/-- The rows 39 /r (R223, R224). -/
def decode39 (osz asz : Size) (p : Prefixes) (r : List Byte) : Parse Instr :=
  (take8 r).andThen fun m r =>
    (decodeRM Reg.ofNum asz m r).andThen fun d r =>
      checkRM d (.ok (bySize osz (.cmpRm16R16 p d (Reg.ofNum (regOf m))) (.cmpRm32R32 p d (Reg.ofNum (regOf m))), r))

/-- The row 3A /r (R225). -/
def decode3A (asz : Size) (p : Prefixes) (r : List Byte) : Parse Instr :=
  (take8 r).andThen fun m r =>
    (decodeRM Reg8.ofNum asz m r).andThen fun d r => checkRM d (.ok (.cmpR8Rm8 p (Reg8.ofNum (regOf m)) d, r))

/-- The rows 3B /r (R226, R227). -/
def decode3B (osz asz : Size) (p : Prefixes) (r : List Byte) : Parse Instr :=
  (take8 r).andThen fun m r =>
    (decodeRM Reg.ofNum asz m r).andThen fun d r =>
      checkRM d (.ok (bySize osz (.cmpR16Rm16 p (Reg.ofNum (regOf m)) d) (.cmpR32Rm32 p (Reg.ofNum (regOf m)) d), r))

/-- The row of an opcode and the operand bytes after it (R91 steps 2 to 7, R96, R112). Every opcode that is no row of
the table is refused by name (R118). -/
def decodeOpcode (dflt : Size) (p : Prefixes) (bs : List Byte) : Parse Instr :=
  let osz := p.operandSize dflt
  let asz := p.addressSize dflt
  (take8 bs).andThen fun op r =>
    if op = 0xE8 then decodeCallRel osz p r
    else if op = 0xFF then decodeFF osz asz p r
    else if op = 0x9A then decodeCallPtr osz p r
    else if op = 0x98 then .ok (bySize osz (.cbw p) (.cwde p), r)
    else if op = 0x99 then .ok (bySize osz (.cwd p) (.cdq p), r)
    else if op = 0xF8 then .ok (.clc p, r)
    else if op = 0xFC then .ok (.cld p, r)
    else if op = 0xFA then .ok (.cli p, r)
    else if op = 0x0F then
      (take8 r).andThen fun op2 r => if op2 = 0x06 then .ok (.clts p, r) else .error .outOfScopeOpcode
    else if op = 0xF5 then .ok (.cmc p, r)
    else if op = 0x3C then (take8 r).andThen fun v r => .ok (.cmpAlImm8 p v, r)
    else if op = 0x3D then decodeCmpAcc osz p r
    else if op = 0x80 then decode80 asz p r
    else if op = 0x81 then decode81 osz asz p r
    else if op = 0x83 then decode83 osz asz p r
    else if op = 0x38 then decode38 asz p r
    else if op = 0x39 then decode39 osz asz p r
    else if op = 0x3A then decode3A asz p r
    else if op = 0x3B then decode3B osz asz p r
    else if op = 0xA6 then .ok (.cmpsM8 p asz, r)
    else if op = 0xA7 then .ok (bySize osz (.cmpsM16 p asz) (.cmpsM32 p asz), r)
    else .error .outOfScopeOpcode

/-- The instruction at the head of a list of bytes and the bytes after it, in a code segment of default size `dflt`
(R91, R93). A second byte of a prefix group is refused where it stands; LOCK and REP are refused once the instruction
they precede is known to be one in scope (R99, R100; which refusal wins is a DESIGN CHOICE, log entry 13). -/
def decode (dflt : Size) (bs : List Byte) : Parse Instr :=
  (scanPrefixes SeenPrefixes.empty bs).andThen fun q r =>
    (decodeOpcode dflt q.pfx r).andThen fun i r =>
      match q.lockRep with
      | none => .ok (i, r)
      | some .lock => .error .lockPrefix
      | some .rep => .error .repPrefix

/-! ## The encoder -/

/-- The segment override byte (R97). -/
def segByte : SegName → Byte
  | .es => 0x26
  | .cs => 0x2E
  | .ss => 0x36
  | .ds => 0x3E
  | .fs => 0x64
  | .gs => 0x65

/-- The prefix bytes, in one fixed order (R97, R98: any order is admitted). -/
def encodePrefixes (p : Prefixes) : List Byte :=
  (if p.opsize then [0x66] else []) ++ (if p.addrsize then [0x67] else []) ++
    (match p.seg with
      | none => []
      | some s => [segByte s])

/-- A word, low byte first (R65). -/
def bytes16 (v : Word) : List Byte := [v.extractLsb' 0 8, v.extractLsb' 8 8]

/-- A doubleword, lowest byte first (R65). -/
def bytes32 (v : DWord) : List Byte :=
  [v.extractLsb' 0 8, v.extractLsb' 8 8, v.extractLsb' 16 8, v.extractLsb' 24 8]

/-- A byte of three fields: ModR/M of `mod`, `reg`, `rm` (R102), or SIB of `ss`, `index`, `base` (R106). -/
def packByte (hi : BitVec 2) (mid lo : BitVec 3) : Byte := hi ++ mid ++ lo

/-- `mod` of a displacement (R104, R105). -/
def dispMod {w : Nat} : Disp w → BitVec 2
  | .none => 0
  | .d8 _ => 1
  | .full _ => 2

/-- The bytes of a displacement with AddressSize 16 (R104). -/
def dispBytes16 : Disp 16 → List Byte
  | .none => []
  | .d8 v => [v]
  | .full v => bytes16 v

/-- The bytes of a displacement with AddressSize 32 (R105). -/
def dispBytes32 : Disp 32 → List Byte
  | .none => []
  | .d8 v => [v]
  | .full v => bytes32 v

/-- The SIB byte of an index and a base (R106). -/
def sibByte (i : Option (Reg × BitVec 2)) (base : BitVec 3) : Byte :=
  match i with
  | none => packByte 0 4 base
  | some (r, ss) => packByte ss r.num base

/-- ModR/M with a memory operand, SIB and displacement; `reg` is the digit or the register (R102 to R106). -/
def encodeMem (reg : BitVec 3) : Mem → List Byte
  | .a16 b d => packByte (dispMod d) reg b.num :: dispBytes16 d
  | .a16Direct a => packByte 0 reg 6 :: bytes16 a
  | .a32 b d => packByte (dispMod d) reg b.num :: dispBytes32 d
  | .a32Direct a => packByte 0 reg 5 :: bytes32 a
  | .a32Sib b i d => packByte (dispMod d) reg 4 :: sibByte i b.num :: dispBytes32 d
  | .a32SibNoBase i a => packByte 0 reg 4 :: sibByte i 5 :: bytes32 a

/-- ModR/M with an r/m operand (R102). -/
def encodeRM {ρ : Type} (num : ρ → BitVec 3) (reg : BitVec 3) : RM ρ → List Byte
  | .reg r => [packByte 3 reg (num r)]
  | .mem m => encodeMem reg m

/-- Opcode, ModR/M, SIB, displacement and immediate of an instruction (R90, R112). -/
def encodeBody : Instr → List Byte
  | .callRel16 _ v => 0xE8 :: bytes16 v
  | .callRm16 _ d => 0xFF :: encodeRM Reg.num 2 d
  | .callPtr1616 _ o s => 0x9A :: (bytes16 o ++ bytes16 s)
  | .callM1616 _ m => 0xFF :: encodeMem 3 m
  | .callRel32 _ v => 0xE8 :: bytes32 v
  | .callRm32 _ d => 0xFF :: encodeRM Reg.num 2 d
  | .callPtr1632 _ o s => 0x9A :: (bytes32 o ++ bytes16 s)
  | .callM1632 _ m => 0xFF :: encodeMem 3 m
  | .cbw _ => [0x98]
  | .cwde _ => [0x98]
  | .clc _ => [0xF8]
  | .cld _ => [0xFC]
  | .cli _ => [0xFA]
  | .clts _ => [0x0F, 0x06]
  | .cmc _ => [0xF5]
  | .cmpAlImm8 _ v => [0x3C, v]
  | .cmpAxImm16 _ v => 0x3D :: bytes16 v
  | .cmpEaxImm32 _ v => 0x3D :: bytes32 v
  | .cmpRm8Imm8 _ d v => 0x80 :: (encodeRM Reg8.num 7 d ++ [v])
  | .cmpRm16Imm16 _ d v => 0x81 :: (encodeRM Reg.num 7 d ++ bytes16 v)
  | .cmpRm32Imm32 _ d v => 0x81 :: (encodeRM Reg.num 7 d ++ bytes32 v)
  | .cmpRm16Imm8 _ d v => 0x83 :: (encodeRM Reg.num 7 d ++ [v])
  | .cmpRm32Imm8 _ d v => 0x83 :: (encodeRM Reg.num 7 d ++ [v])
  | .cmpRm8R8 _ d r => 0x38 :: encodeRM Reg8.num r.num d
  | .cmpRm16R16 _ d r => 0x39 :: encodeRM Reg.num r.num d
  | .cmpRm32R32 _ d r => 0x39 :: encodeRM Reg.num r.num d
  | .cmpR8Rm8 _ r d => 0x3A :: encodeRM Reg8.num r.num d
  | .cmpR16Rm16 _ r d => 0x3B :: encodeRM Reg.num r.num d
  | .cmpR32Rm32 _ r d => 0x3B :: encodeRM Reg.num r.num d
  | .cmpsM8 _ _ => [0xA6]
  | .cmpsM16 _ _ => [0xA7]
  | .cmpsM32 _ _ => [0xA7]
  | .cwd _ => [0x99]
  | .cdq _ => [0x99]

/-- The bytes of a well-formed instruction (R90). -/
def encode (i : Instr) : List Byte := encodePrefixes i.prefixes ++ encodeBody i

/-! ## Length (R94) -/

/-- How many prefix bytes an instruction has. -/
def Prefixes.count (p : Prefixes) : Nat := p.opsize.toNat + p.addrsize.toNat + p.seg.isSome.toNat

/-- The displacement bytes: 0, 1, or the bytes of the address size (R94). -/
def dispLength {w : Nat} (full : Nat) : Disp w → Nat
  | .none => 0
  | .d8 _ => 1
  | .full _ => full

/-- The bytes after ModR/M that a memory operand has: SIB and displacement (R94). -/
def Mem.extraLength : Mem → Nat
  | .a16 _ d => dispLength 2 d
  | .a16Direct _ => 2
  | .a32 _ d => dispLength 4 d
  | .a32Direct _ => 4
  | .a32Sib _ _ d => 1 + dispLength 4 d
  | .a32SibNoBase _ _ => 5

/-- The same for an r/m operand. -/
def RM.extraLength {ρ : Type} : RM ρ → Nat
  | .reg _ => 0
  | .mem m => m.extraLength

/-- The length without the prefix bytes, by the sum of R94 and the lengths it lists. -/
def Instr.bodyLength : Instr → Nat
  | .callRel16 _ _ => 3
  | .callRm16 _ d => 2 + d.extraLength
  | .callPtr1616 _ _ _ => 5
  | .callM1616 _ m => 2 + m.extraLength
  | .callRel32 _ _ => 5
  | .callRm32 _ d => 2 + d.extraLength
  | .callPtr1632 _ _ _ => 7
  | .callM1632 _ m => 2 + m.extraLength
  | .cbw _ => 1
  | .cwde _ => 1
  | .clc _ => 1
  | .cld _ => 1
  | .cli _ => 1
  | .clts _ => 2
  | .cmc _ => 1
  | .cmpAlImm8 _ _ => 2
  | .cmpAxImm16 _ _ => 3
  | .cmpEaxImm32 _ _ => 5
  | .cmpRm8Imm8 _ d _ => 2 + d.extraLength + 1
  | .cmpRm16Imm16 _ d _ => 2 + d.extraLength + 2
  | .cmpRm32Imm32 _ d _ => 2 + d.extraLength + 4
  | .cmpRm16Imm8 _ d _ => 2 + d.extraLength + 1
  | .cmpRm32Imm8 _ d _ => 2 + d.extraLength + 1
  | .cmpRm8R8 _ d _ => 2 + d.extraLength
  | .cmpRm16R16 _ d _ => 2 + d.extraLength
  | .cmpRm32R32 _ d _ => 2 + d.extraLength
  | .cmpR8Rm8 _ _ d => 2 + d.extraLength
  | .cmpR16Rm16 _ _ d => 2 + d.extraLength
  | .cmpR32Rm32 _ _ d => 2 + d.extraLength
  | .cmpsM8 _ _ => 1
  | .cmpsM16 _ _ => 1
  | .cmpsM32 _ _ => 1
  | .cwd _ => 1
  | .cdq _ => 1

/-- `len`: the length in bytes with the prefix bytes (R25, R94). -/
def Instr.length (i : Instr) : Nat := i.prefixes.count + i.bodyLength

/-! ## The host's table words -/

/-- The bytes of an instruction whose bits are `w`, `nbits` of them given by the table: bits 7 to 0 are the first byte
in memory; every bit above `nbits` is 0, up to the longest instruction (R65, R121). -/
def wordBytes (nbits w : Nat) : List Byte :=
  leBytes Config.maxInstrBytes (w % 2 ^ (8 * ((nbits + 7) / 8)))

/-- The instruction the decoder reads from a table word, with the default size of the reset state: 16, Real Address
Mode (R41, R93). Two rows that share their bytes are told apart by OperandSize only, so the 16-bit row is the one a
word without a 66 byte gives (log entry 17). -/
def decodeTableWord (nbits w : Nat) : Option Instr :=
  match decode .s16 (wordBytes nbits w) with
  | .ok (i, _) => some i
  | .error _ => none

end Sys2Proof
end

