-- ==== Sys2Proof/Machine/State.lean ====
section
/-! DEFINITION. The state of the machine (10_state.md), the reasons a step stops (60_exceptions.md R261, R271), and the
state after reset (10_state.md R41). -/

namespace Sys2Proof.Machine

/-- The eight general registers, 32 bits each (R20). The 16-bit and 8-bit views are computed from them (R21, R22). -/
structure Regs where
  eax : DWord
  ecx : DWord
  edx : DWord
  ebx : DWord
  esp : DWord
  ebp : DWord
  esi : DWord
  edi : DWord
  deriving DecidableEq, Repr, Inhabited

/-- A segment register: the visible selector and the hidden part (R33). -/
structure Seg where
  /-- the visible selector -/
  sel : Word
  /-- `S.base` -/
  base : DWord
  /-- `S.limit`: the last valid byte offset of an expand-up segment, granularity applied -/
  limit : DWord
  /-- `S.ar`: P, DPL, S and type (R154); it also says whether a data segment grows down -/
  ar : Byte
  /-- `S.D`: for CS the default size, for SS the stack size, set for 32 -/
  big : Bool
  deriving DecidableEq, Repr, Inhabited

/-- The six segment registers (R33). -/
structure Segs where
  es : Seg
  cs : Seg
  ss : Seg
  ds : Seg
  fs : Seg
  gs : Seg
  deriving DecidableEq, Repr, Inhabited

/-- GDTR and IDTR: a base and a limit (R37). -/
structure TableReg where
  base : DWord
  limit : Word
  deriving DecidableEq, Repr, Inhabited

/-- LDTR: a selector, the hidden base and limit, and whether it holds a table (R37). -/
structure LdtReg where
  sel : Word
  base : DWord
  limit : DWord
  valid : Bool
  deriving DecidableEq, Repr, Inhabited

/-- The two formats of a task state segment (R38, R164). -/
inductive TssFormat where
  | tss286
  | tss386
  deriving DecidableEq, Repr, Inhabited

/-- TR: a selector, the hidden base and limit, and the hidden type (R38). -/
structure TaskReg where
  sel : Word
  base : DWord
  limit : DWord
  format : TssFormat
  deriving DecidableEq, Repr, Inhabited

/-- The debug registers, which the spec names and no instruction in scope touches (R39). -/
structure DebugRegs where
  dr0 : DWord
  dr1 : DWord
  dr2 : DWord
  dr3 : DWord
  dr4 : DWord
  dr5 : DWord
  dr6 : DWord
  dr7 : DWord
  deriving DecidableEq, Repr, Inhabited

/-- The test registers, which the spec names and no instruction in scope touches (R39). -/
structure TestRegs where
  tr6 : DWord
  tr7 : DWord
  deriving DecidableEq, Repr, Inhabited

/-- What the parameter `InterruptSource` offers between two steps (R266): a request on the maskable line, with the vector
its controller gives, or on the nonmaskable one (R201). Which of two simultaneous requests is offered is the
source's own business (R268). -/
inductive InterruptOffer where
  | maskable (vector : Byte)
  | nonmaskable
  deriving DecidableEq, Repr, Inhabited

/-- Physical memory: a total map from 32-bit addresses to bytes (R60, R78), listed where a byte is not
`Config.unlistedByte`. Its one canonical form is `Memory.wf` (Machine/Ops.lean). -/
abbrev Memory := List Host.Cell

/-- The state of the machine: all that 10_state.md names, the parameters of a run that the step reads (R6), and one
field of the model's own, `draws`. -/
structure State where
  /-- the general registers (R20) -/
  regs : Regs
  /-- EIP, an offset in CS (R24) -/
  eip : DWord
  /-- EFLAGS (R27) -/
  eflags : DWord
  /-- the segment registers (R33) -/
  segs : Segs
  /-- CPL (R36) -/
  cpl : BitVec 2
  /-- CR0 (R31) -/
  cr0 : DWord
  /-- CR2 (R39) -/
  cr2 : DWord
  /-- CR3 (R39) -/
  cr3 : DWord
  /-- DR0 to DR7 (R39) -/
  dbg : DebugRegs
  /-- TR6 and TR7 (R39) -/
  test : TestRegs
  /-- GDTR (R37) -/
  gdtr : TableReg
  /-- IDTR (R37) -/
  idtr : TableReg
  /-- LDTR (R37) -/
  ldtr : LdtReg
  /-- TR (R38) -/
  tr : TaskReg
  /-- physical memory (R60, R78) -/
  mem : Memory
  /-- the parameter `halt_addr`: where the run ends, if it does (R306; log entry 10) -/
  haltAddr : Option DWord
  /-- the parameter `real_ss_operand_vector`: set for 12, clear for 13 (R70; log entry 12) -/
  realSsVector12 : Bool
  /-- what the parameter `InterruptSource` offers between two steps (R266; log entry 11) -/
  intrOffer : Option InterruptOffer
  /-- the model's own: how many `PadBits` were drawn (R75, U1; log entry 9) -/
  draws : Nat
  deriving DecidableEq, Repr

/-- The exceptions the rules raise (R261). -/
inductive Exc where
  /-- invalid opcode: FF /3 with a register operand (R116) -/
  | ud
  /-- invalid task state segment: far CALL to more privilege or to a task (R165, R175, R176) -/
  | ts
  /-- segment not present: far CALL (R181) -/
  | np
  /-- stack fault: pushes, operands in SS (R70, R77) -/
  | ss
  /-- general protection: operands, targets, far CALL, CLI, CLTS, fetch (R261) -/
  | gp
  /-- page fault (R264) -/
  | pf
  deriving DecidableEq, Repr, Inhabited

/-- The vector of an exception (R261). -/
def Exc.vector : Exc → Nat
  | .ud => 6
  | .ts => 10
  | .np => 11
  | .ss => 12
  | .gp => 13
  | .pf => 14

/-- Why the machine stops. -/
inductive Fault where
  /-- `Fault(vector, code)` of R270: an exception was raised. Delivery is not in the spec, `Deliver` is absent, and the
  run stops with the state unchanged (R265). Raised by every memory access, CALL, CLI, CLTS, CMP, CMPS and the fetch.
  Safe: no state after delivery is claimed (log entry 6). -/
  | exception (x : Exc) (code : Option Word)
  /-- EIP is `halt_addr` at the start of a step: the run is over (R306). Raised by `step`. Safe. -/
  | runEnded
  /-- An external interrupt with this vector is accepted between two steps and `Deliver` is absent (R265, R266).
  Raised by `step`. Safe. -/
  | externalInterrupt (vector : Byte)
  deriving DecidableEq, Repr

/-- Why the model gives a step no outcome (R271). -/
inductive Refusal where
  /-- an arm of `exec` without a meaning. Raised by no arm of this model. Safe. -/
  | notModelled (mnemonic : String)
  /-- `out_of_scope_opcode`: an opcode that is no row of the table (R118). Raised by `step`. Safe. -/
  | outOfScopeOpcode
  /-- `lock_prefix`: F0 before an instruction in scope (R99). Raised by `step`. Safe. -/
  | lockPrefix
  /-- `rep_prefix`: F2 or F3 before an instruction in scope (R100, R243). Raised by `step`. Safe. -/
  | repPrefix
  /-- `prefix_repeated`: two prefix bytes of one group (R98). Raised by `step`. Safe. -/
  | prefixRepeated
  /-- `sib_no_index_scaled`: a SIB byte with no index and a scale (R106). Raised by `step`. Safe. -/
  | sibNoIndexScaled
  deriving DecidableEq, Repr

/-- A segment register after reset: selector 0, base 0, limit FFFFh (R41); AR 93h and D = 0 are PRESUMED (log entry
5). -/
def Seg.reset : Seg := { sel := 0, base := 0, limit := 0xFFFF, ar := 0x93, big := false }

/-- The machine after reset: the values of R41. What R41 leaves unspecified is 0 (DESIGN CHOICE, log entries 1, 3, 4,
5); the parameters have the spec's defaults (R6). -/
def State.reset : State where
  regs := { eax := 0, ecx := 0, edx := 0x300, ebx := 0, esp := 0, ebp := 0, esi := 0, edi := 0 }
  eip := 0xFFF0
  eflags := 0x2
  segs :=
    { es := Seg.reset
      cs := { Seg.reset with sel := 0xF000, base := 0xFFFF0000 }
      ss := Seg.reset
      ds := Seg.reset
      fs := Seg.reset
      gs := Seg.reset }
  cpl := 0
  cr0 := 0
  cr2 := 0
  cr3 := 0
  dbg := { dr0 := 0, dr1 := 0, dr2 := 0, dr3 := 0, dr4 := 0, dr5 := 0, dr6 := 0, dr7 := 0 }
  test := { tr6 := 0, tr7 := 0 }
  gdtr := { base := 0, limit := 0 }
  idtr := { base := 0, limit := 0x3FF }
  ldtr := { sel := 0, base := 0, limit := 0, valid := false }
  tr := { sel := 0, base := 0, limit := 0, format := .tss386 }
  mem := []
  haltAddr := none
  realSsVector12 := false
  intrOffer := none
  draws := 0

end Sys2Proof.Machine
end

