-- ==== Sys2Proof/Machine/Params.lean ====
section
/-! DEFINITION. The two OPEN parameters of 00_scope.md R6 that read the state: `Translate` (20_memory.md R72) and
`SwitchTasks` (41_call_far_protected.md R178). Both are uninterpreted: nothing can be proved of what they answer, so a
claim holds for every function the spec admits. -/

namespace Sys2Proof.Machine

/-- What an access is for (R72). -/
inductive AccessKind where
  | read
  | write
  | execute
  deriving DecidableEq, Repr, Inhabited

/-- What `Translate` answers (R72). -/
inductive Translation where
  | physical (addr : DWord)
  | pageFault (code : Word)
  deriving DecidableEq, Repr, Inhabited

/-- `Translate` with paging on: the 80386's page-table walk, whose formats the spec does not give (R72, D9). It may
depend on everything in the state, so on the tables in memory and on CR3. A free value (log entry 7). -/
opaque Config.translate (s : State) (linear : DWord) (kind : AccessKind) (cpl : BitVec 2) : Translation

/-- What a task switch puts into the machine, as far as R178 lets it change anything: every register, segment register,
LDTR, TR and memory (the bytes stored, in order). -/
structure TaskImage where
  regs : Regs
  eip : DWord
  eflags : DWord
  segs : Segs
  cr2 : DWord
  cr3 : DWord
  dbg : DebugRegs
  test : TestRegs
  ldtr : LdtReg
  tr : TaskReg
  stores : List (DWord × Byte)
  deriving DecidableEq, Repr, Inhabited

/-- What `SwitchTasks` answers: the new task, or the fault it took itself (R178). -/
inductive SwitchResult where
  | switched (t : TaskImage)
  | faulted (x : Exc) (code : Option Word)
  deriving DecidableEq, Repr, Inhabited

/-- `SwitchTasks(nesting, tsel, td)` at a state, `nEIP` being where the outgoing task will resume (R178 c). The spec
defines it nowhere (D23). A free value; what R178 promises of every such function is added by `enterTask`
(Machine/Descriptor.lean; log entry 8). -/
opaque Config.switchTasks (s : State) (nEip : DWord) (nesting : Bool) (tsel : Word) (td : QWord) : SwitchResult

end Sys2Proof.Machine
end

