-- ==== Sys2Proof/Machine/Flags.lean ====
section
/-! DEFINITION. EFLAGS and CR0 bit by bit (10_state.md R27, R31), and the flags of a subtraction (44_cmp.md R211). -/

namespace Sys2Proof.Machine

/-- A doubleword with bit `i` replaced. -/
def setBit (v : DWord) (i : Nat) (b : Bool) : DWord :=
  if b then v ||| (1 : DWord) <<< i else v &&& ~~~((1 : DWord) <<< i)

/-- The one-bit fields of EFLAGS (R27). -/
inductive Flag where
  | cf | pf | af | zf | sf | tf | intr | df | ov | nt | rf | vm
  deriving DecidableEq, Repr

/-- The place of a flag in EFLAGS (R27). -/
def Flag.bit : Flag → Nat
  | .cf => 0 | .pf => 2 | .af => 4 | .zf => 6 | .sf => 7 | .tf => 8
  | .intr => 9 | .df => 10 | .ov => 11 | .nt => 14 | .rf => 16 | .vm => 17

/-- The fields of CR0 (R31). -/
inductive Cr0Bit where
  | pe | mp | em | ts | et | pg
  deriving DecidableEq, Repr

/-- The place of a field in CR0 (R31). -/
def Cr0Bit.bit : Cr0Bit → Nat
  | .pe => 0 | .mp => 1 | .em => 2 | .ts => 3 | .et => 4 | .pg => 31

/-- The bits of EFLAGS that R27 names; the others are reserved: bit 1 reads 1, the rest 0. -/
def eflagsNamed : DWord := 0x37FD5

/-- A flag of the state. -/
def State.flag (s : State) (f : Flag) : Bool := s.eflags.getLsbD f.bit

/-- IOPL, bits 13 and 12 of EFLAGS (R27, R29). -/
def State.iopl (s : State) : BitVec 2 := s.eflags.extractLsb' 12 2

/-- A field of CR0. -/
def State.cr0Bit (s : State) (b : Cr0Bit) : Bool := s.cr0.getLsbD b.bit

/-- The six status flags (R211). -/
structure SubFlags where
  cf : Bool
  pf : Bool
  af : Bool
  zf : Bool
  sf : Bool
  ov : Bool
  deriving DecidableEq, Repr

/-- PF: the byte has an even number of 1 bits (R211). -/
def evenParity (v : Byte) : Bool :=
  !(v.getLsbD 0 ^^ v.getLsbD 1 ^^ v.getLsbD 2 ^^ v.getLsbD 3 ^^
    v.getLsbD 4 ^^ v.getLsbD 5 ^^ v.getLsbD 6 ^^ v.getLsbD 7)

/-- `SubFlags_n(left, right)`: the flags of an n-bit subtraction (R211). -/
def subFlags {n : Nat} (left right : BitVec n) : SubFlags :=
  let res := left - right
  { cf := left.ult right
    pf := evenParity (res.setWidth 8)
    af := (left.setWidth 4).ult (right.setWidth 4)
    zf := res == 0
    sf := res.msb
    ov := left.msb != right.msb && res.msb != left.msb }

/-- EFLAGS with the six status flags written together and nothing else (R211). -/
def withSubFlags (e : DWord) (f : SubFlags) : DWord :=
  setBit (setBit (setBit (setBit (setBit (setBit e Flag.cf.bit f.cf) Flag.pf.bit f.pf) Flag.af.bit f.af)
    Flag.zf.bit f.zf) Flag.sf.bit f.sf) Flag.ov.bit f.ov

end Sys2Proof.Machine
end

