-- ==== Sys2Proof/Machine/Ops.lean ====
section
/-! DEFINITION. The named operations over the state: updates, register views (10_state.md R21, R22), modes
(60_exceptions.md R280), raising an exception (R270), memory (20_memory.md R64, R72), checked access through a segment
(R67 to R70) and the stack (R74 to R77). Every meaning is written over these. -/

namespace Sys2Proof.Machine

/-! ## Registers and their views (R20 to R22) -/

/-- The 32-bit register (R20). -/
def Regs.get (g : Regs) : Reg → DWord
  | .eax => g.eax | .ecx => g.ecx | .edx => g.edx | .ebx => g.ebx
  | .esp => g.esp | .ebp => g.ebp | .esi => g.esi | .edi => g.edi

/-- Write the 32-bit register (R20). -/
def Regs.set (g : Regs) (r : Reg) (v : DWord) : Regs :=
  match r with
  | .eax => { g with eax := v } | .ecx => { g with ecx := v }
  | .edx => { g with edx := v } | .ebx => { g with ebx := v }
  | .esp => { g with esp := v } | .ebp => { g with ebp := v }
  | .esi => { g with esi := v } | .edi => { g with edi := v }

/-- The 32-bit register that an 8-bit view lies in (R21). -/
def reg8Parent : Reg8 → Reg
  | .al => .eax | .cl => .ecx | .dl => .edx | .bl => .ebx
  | .ah => .eax | .ch => .ecx | .dh => .edx | .bh => .ebx

/-- Whether an 8-bit view is bits 15:8 of its register; otherwise it is bits 7:0 (R21). -/
def reg8High : Reg8 → Bool
  | .al => false | .cl => false | .dl => false | .bl => false
  | .ah => true | .ch => true | .dh => true | .bh => true

/-- The 16-bit view of a register value: bits 15:0 (R21). -/
def low16 (v : DWord) : Word := v.extractLsb' 0 16

/-- A register value with its 16-bit view written; bits 31:16 stay (R22). -/
def withLow16 (v : DWord) (w : Word) : DWord := v.extractLsb' 16 16 ++ w

/-- `r32[n]`, `x[n]` (R20). -/
def State.reg (s : State) (r : Reg) : DWord := s.regs.get r

/-- `r16[n]` (R21). -/
def State.reg16 (s : State) (r : Reg) : Word := low16 (s.reg r)

/-- `r8[n]` (R21). -/
def State.reg8 (s : State) (r : Reg8) : Byte :=
  if reg8High r then (s.reg (reg8Parent r)).extractLsb' 8 8 else (s.reg (reg8Parent r)).extractLsb' 0 8

/-! ## Updates of the state -/

/-- Write a 32-bit register. -/
def State.setReg (s : State) (r : Reg) (v : DWord) : State := { s with regs := s.regs.set r v }

/-- Write a 16-bit view (R22). -/
def State.setReg16 (s : State) (r : Reg) (v : Word) : State := s.setReg r (withLow16 (s.reg r) v)

/-- Write EIP. -/
def State.setEip (s : State) (v : DWord) : State := { s with eip := v }

/-- Write EFLAGS. -/
def State.setEflags (s : State) (v : DWord) : State := { s with eflags := v }

/-- Write one flag of EFLAGS. -/
def State.setFlag (s : State) (f : Flag) (b : Bool) : State := s.setEflags (setBit s.eflags f.bit b)

/-- Write CR0. -/
def State.setCr0 (s : State) (v : DWord) : State := { s with cr0 := v }

/-- Write CPL. -/
def State.setCpl (s : State) (v : BitVec 2) : State := { s with cpl := v }

/-- Write physical memory. -/
def State.setMem (s : State) (m : Memory) : State := { s with mem := m }

/-- Count the pads drawn (R75, U1). -/
def State.setDraws (s : State) (n : Nat) : State := { s with draws := n }

/-- A segment register (R33). -/
def Segs.get (g : Segs) : SegName → Seg
  | .es => g.es | .cs => g.cs | .ss => g.ss | .ds => g.ds | .fs => g.fs | .gs => g.gs

/-- Write CS, visible and hidden part. -/
def State.setCs (s : State) (c : Seg) : State := { s with segs := { s.segs with cs := c } }

/-- Write SS, visible and hidden part. -/
def State.setSs (s : State) (c : Seg) : State := { s with segs := { s.segs with ss := c } }

/-- A segment register of the state. -/
def State.seg (s : State) (n : SegName) : Seg := s.segs.get n

/-! ## Modes (R280) -/

/-- The three modes (R280). -/
inductive Mode where
  | real
  | prot
  | v86
  deriving DecidableEq, Repr

/-- The mode: Real Address Mode when PE = 0 whatever VM is (U10), Virtual 8086 Mode when PE = 1 and VM = 1, else
Protected Mode (R280). -/
def State.mode (s : State) : Mode :=
  if s.cr0Bit .pe then (if s.flag .vm then .v86 else .prot) else .real

/-- The default of OperandSize and AddressSize: 16 outside Protected Mode, CS.D in it (R93). -/
def State.defaultSize (s : State) : Size :=
  match s.mode with
  | .prot => if s.segs.cs.big then .s32 else .s16
  | .real => .s16
  | .v86 => .s16

/-- StackSize: 16 outside Protected Mode, the B bit of SS in it (R74). -/
def State.stackSize (s : State) : Size :=
  match s.mode with
  | .prot => if s.segs.ss.big then .s32 else .s16
  | .real => .s16
  | .v86 => .s16

/-! ## Raising an exception (R262, R263, R270) -/

/-- A result, or the fault that ended the step with the state unchanged (R270). -/
abbrev Res (α : Type) := Except Fault α

/-- Taking an exception: `raise #XX(code)`. The step ends with `Fault(vector, code)` and the state unchanged, EIP at the
faulting instruction (R270); in Real Address Mode there is no error code (R262). `Deliver` is absent and the run stops
(R265, D2; log entry 6). There is no return from an exception in scope (R274). -/
def raise (s : State) (x : Exc) (code : Word) : Fault :=
  match s.mode with
  | .real => .exception x none
  | .prot => .exception x (some code)
  | .v86 => .exception x (some code)

/-- The invalid opcode, which has no error code in any mode (R116, R261). -/
def raiseInvalidOpcode : Fault := .exception .ud none

/-- The error code made from a selector: its index and local/global bit (R263). -/
def selectorCode (sel : Word) : Word := sel &&& 0xFFFC

/-- `raise #XX(sel)` (R263). -/
def raiseSel (s : State) (x : Exc) (sel : Word) : Fault := raise s x (selectorCode sel)

/-- "X must be Y ELSE #E(c)" (R8). -/
def require (c : Bool) (f : Fault) : Res Unit := if c then .ok () else .error f

/-- The outcome of a step from a meaning's result. -/
def outcome : Res State → Host.Outcome State Fault Refusal
  | .ok t => .next t
  | .error f => .fault f

/-! ## Physical memory (R64, R78) -/

/-- The byte at a physical address (R78). -/
def Memory.read : Memory → Nat → Byte
  | [], _ => Config.unlistedByte
  | (a, b) :: r, x => if a = x then b else Memory.read r x

/-- Store a byte at a physical address, keeping the canonical form. -/
def Memory.write : Memory → Nat → Byte → Memory
  | [], x, v => if v = Config.unlistedByte then [] else [(x, v)]
  | (a, b) :: r, x, v =>
    if x < a then (if v = Config.unlistedByte then (a, b) :: r else (x, v) :: (a, b) :: r)
    else if x = a then (if v = Config.unlistedByte then r else (a, v) :: r)
    else (a, b) :: Memory.write r x v

/-- The canonical form from an address on: addresses strictly rising, within 32 bits, no entry equal to what an
unlisted address reads as. -/
def Memory.wfFrom : Nat → Memory → Bool
  | _, [] => true
  | lo, (a, b) :: r => decide (lo ≤ a) && decide (a < 2 ^ 32) && b != Config.unlistedByte && Memory.wfFrom (a + 1) r

/-- The canonical form of memory: equal memories are equal lists. -/
def Memory.wf (m : Memory) : Bool := Memory.wfFrom 0 m

/-! ## Linear memory (R64, R71, R72) -/

/-- Paging is on: PG = 1, and never in Real Address Mode (R72). -/
def State.pagingOn (s : State) : Bool := s.cr0Bit .pe && s.cr0Bit .pg

/-- The physical address of a linear address, or #PF (R72, R264). -/
def translateByte (s : State) (kind : AccessKind) (cpl : BitVec 2) (linear : DWord) : Res DWord :=
  if s.pagingOn then
    match Config.translate s linear kind cpl with
    | .physical a => .ok a
    | .pageFault code => .error (raise s .pf code)
  else .ok linear

/-- The physical addresses of `n` bytes from a linear address on, each translated, modulo 2^32 (R64, R72). -/
def physAddrs (s : State) (kind : AccessKind) (cpl : BitVec 2) : Nat → DWord → Res (List DWord)
  | 0, _ => .ok []
  | n + 1, linear => do
    let a ← translateByte s kind cpl linear
    let r ← physAddrs s kind cpl n (linear + 1)
    .ok (a :: r)

/-- `MemRead(addr, n)`: the little-endian number of the `n` bytes (R64). -/
def memRead (s : State) (kind : AccessKind) (cpl : BitVec 2) (linear : DWord) (n : Nat) : Res Nat := do
  let as ← physAddrs s kind cpl n linear
  .ok (leNat (as.map fun a => s.mem.read a.toNat))

/-- Store bytes at physical addresses, in order. -/
def storeBytes : List DWord → List Byte → Memory → Memory
  | a :: as, b :: bs, m => storeBytes as bs (m.write a.toNat b)
  | _, _, m => m

/-- `MemWrite(addr, n, v)`: every byte is translated, then all are stored, little-endian (R64, R72; log entry 15). -/
def memWrite (s : State) (cpl : BitVec 2) (linear : DWord) (n : Nat) (v : Nat) : Res State := do
  let as ← physAddrs s .write cpl n linear
  .ok (s.setMem (storeBytes as (leBytes n v) s.mem))

/-! ## Segment checks (R67 to R71) -/

/-- AR: a code segment (S = 1, type bit 3 = 1) (R154). -/
def Seg.isCode (g : Seg) : Bool := g.ar.getLsbD 4 && g.ar.getLsbD 3

/-- AR: a readable code segment (R154). -/
def Seg.readable (g : Seg) : Bool := g.ar.getLsbD 1

/-- AR: a data segment (S = 1, type bit 3 = 0) (R154). -/
def Seg.isData (g : Seg) : Bool := g.ar.getLsbD 4 && !g.ar.getLsbD 3

/-- AR: a writable data segment (R154). -/
def Seg.writableData (g : Seg) : Bool := g.isData && g.ar.getLsbD 1

/-- AR: an expand-down data segment (R154). -/
def Seg.expandDown (g : Seg) : Bool := g.isData && g.ar.getLsbD 2

/-- A null selector: index 0 of the global table (R151). -/
def selNull (sel : Word) : Bool := sel.extractLsb' 2 14 == 0

/-- R69 (a): DS, ES, FS and GS may not hold a null selector. -/
def nullHeld (name : SegName) (g : Seg) : Bool :=
  match name with
  | .ds => selNull g.sel
  | .es => selNull g.sel
  | .fs => selNull g.sel
  | .gs => selNull g.sel
  | .cs => false
  | .ss => false

/-- R69 (b), (c): the rights of the segment admit the access. -/
def Seg.rightsOk (g : Seg) : AccessKind → Bool
  | .read => !(g.isCode && !g.readable)
  | .write => g.writableData
  | .execute => true

/-- R69 (d), (e): the `n` bytes at `off` are inside the limit; the sum does not wrap. -/
def Seg.inLimit (g : Seg) (off n : Nat) : Bool :=
  if g.expandDown then
    decide (g.limit.toNat < off) && decide (off + n ≤ (if g.big then 2 ^ 32 else 2 ^ 16))
  else decide (off + n ≤ g.limit.toNat + 1)

/-- An instruction fetch needs only R69 (d). (d) speaks of expand-up segments, and R301 wants CS executable: that a CS
whose AR byte is a data segment, expand-down too, is held to its limit in the same way is a DESIGN CHOICE (log entry
28). -/
def Seg.fetchInLimit (g : Seg) (off n : Nat) : Bool := decide (off + n ≤ g.limit.toNat + 1)

/-- The check of R68 (Real Address and Virtual 8086 Mode: the 64K window) or R69 (Protected Mode). -/
def segLegal (m : Mode) (name : SegName) (g : Seg) (kind : AccessKind) (off n : Nat) : Bool :=
  match m with
  | .real => decide (off + n ≤ 2 ^ 16)
  | .v86 => decide (off + n ≤ 2 ^ 16)
  | .prot =>
    match kind with
    | .execute => g.fetchInLimit off n
    | .read => !nullHeld name g && g.rightsOk .read && g.inLimit off n
    | .write => !nullHeld name g && g.rightsOk .write && g.inLimit off n

/-- `n` bytes at `off` do not pass the end of the 16-bit or 32-bit offset range (R76, R241), the sum taken without
wrap-around. -/
def insideOffsets (z : Size) (off n : Nat) : Bool := decide (off + n ≤ 2 ^ (8 * z.bytes))

/-- The exception for an illegal operand address (R70): #SS(0) through SS in Protected Mode, else #GP(0); through SS in
Real Address and Virtual 8086 Mode by the parameter `real_ss_operand_vector` (D13; log entry 12). -/
def operandFault (s : State) (name : SegName) : Fault :=
  match name, s.mode with
  | .ss, .prot => raise s .ss 0
  | .ss, .real => if s.realSsVector12 then raise s .ss 0 else raise s .gp 0
  | .ss, .v86 => if s.realSsVector12 then raise s .ss 0 else raise s .gp 0
  | .cs, _ => raise s .gp 0
  | .ds, _ => raise s .gp 0
  | .es, _ => raise s .gp 0
  | .fs, _ => raise s .gp 0
  | .gs, _ => raise s .gp 0

/-- The linear address of an offset in a segment (R71). -/
def linearAddr (g : Seg) (off : DWord) : DWord := g.base + off

/-- `SegRead(S, off, n)`: check, then read with the rights of CPL (R67). -/
def segRead (s : State) (name : SegName) (off : DWord) (n : Nat) : Res Nat := do
  require (segLegal s.mode name (s.seg name) .read off.toNat n) (operandFault s name)
  memRead s .read s.cpl (linearAddr (s.seg name) off) n

/-! ## The stack (R74 to R77) -/

/-- The stack fault of a push (R77): #SS(0), interrupt 12 in Real Address Mode. -/
def stackFault (s : State) : Fault := raise s .ss 0

/-- `(eSP - d) mod 2^StackSize` as an offset (R75, R76). -/
def stackBelow (z : Size) (sp : DWord) (d : Nat) : DWord :=
  match z with
  | .s16 => (low16 sp - BitVec.ofNat 16 d).setWidth 32
  | .s32 => sp - BitVec.ofNat 32 d

/-- `(eSP + d) mod 2^StackSize` as an offset (R167). -/
def stackAbove (z : Size) (sp : DWord) (d : Nat) : DWord :=
  match z with
  | .s16 => (low16 sp + BitVec.ofNat 16 d).setWidth 32
  | .s32 => sp + BitVec.ofNat 32 d

/-- The value of eSP as an offset: ESP, or SP extended with zeros (R167). -/
def stackTop (z : Size) (sp : DWord) : DWord :=
  match z with
  | .s16 => (low16 sp).setWidth 32
  | .s32 => sp

/-- Write eSP: ESP, or SP only (R22, R75). -/
def State.setStackPtr (s : State) (z : Size) (v : DWord) : State :=
  match z with
  | .s16 => s.setReg16 .esp (low16 v)
  | .s32 => s.setReg .esp v

/-- A slot of `n` bytes at `off` has room: it passes the write check of R68 or R69 and does not pass the end of the
offset range of the stack size (R76). R69 alone would pass a slot across FFFFh of a 16-bit stack in a larger segment
(DEDUCED, log entry 20). -/
def slotFits (m : Mode) (g : Seg) (z : Size) (off n : Nat) : Bool :=
  segLegal m .ss g .write off n && insideOffsets z off n

/-- `StackRoom(k, n)` for a segment, a stack size and a stack pointer: each of the `k/n` slots fits where it will land
(R76). -/
def stackRoomIn (m : Mode) (g : Seg) (z : Size) (sp : DWord) (k n : Nat) : Bool :=
  (List.range (k / n)).all fun j => slotFits m g z (stackBelow z sp ((j + 1) * n)).toNat n

/-- `StackRoom(k, n)` on the current stack (R76). -/
def stackRoom (s : State) (k n : Nat) : Bool :=
  stackRoomIn s.mode s.segs.ss s.stackSize (s.reg .esp) k n

/-- The offset in SS where the next push of `n` bytes lands (R75). -/
def pushOffset (s : State) (n : Nat) : DWord := stackBelow s.stackSize (s.reg .esp) n

/-- `Push_n(v)`: store at the new top, then move the pointer (R75); the stack fault of R77 if the checked write of R75
fails. Every CALL asks `StackRoom` before its first push, so what that checks more (R76) holds of every push made. -/
def push (n : Nat) (v : Nat) (s : State) : Res State := do
  require (segLegal s.mode .ss s.segs.ss .write (pushOffset s n).toNat n) (stackFault s)
  let t ← memWrite s s.cpl (linearAddr s.segs.ss (pushOffset s n)) n v
  .ok (t.setStackPtr s.stackSize (pushOffset s n))

/-- Push a selector: as a word, or as a doubleword whose upper half is the next free pad (R75, U1). The pads are
`Config.padBits` in every meaning. -/
def pushSelector (pads : Nat → Word) (z : Size) (sel : Word) (s : State) : Res State :=
  match z with
  | .s16 => push 2 sel.toNat s
  | .s32 => push 4 (pads s.draws ++ sel).toNat (s.setDraws (s.draws + 1))

/-- Push an offset: its low 16 bits, or all of it (R75). -/
def pushOffsetValue (z : Size) (v : DWord) (s : State) : Res State :=
  match z with
  | .s16 => push 2 (low16 v).toNat s
  | .s32 => push 4 v.toNat s

/-! ## The end of an instruction (R25) -/

/-- `nEIP`: the address of the next instruction (R25). -/
def State.nEip (s : State) (i : Instr) : DWord := s.eip + BitVec.ofNat 32 i.length

end Sys2Proof.Machine
end

