-- ==== Sys2Proof/Machine/Operands.lean ====
section
/-! DEFINITION. Operands: effective addresses and their segments (30_encoding.md R104 to R108), r/m and register
operands (R102, R103), the long pointer in memory (40_call_near_and_real.md R138). Register values are those of the
start of the step (R108, R137): every function here reads the state the meaning was given. -/

namespace Sys2Proof.Machine

/-- The register sum of 16-bit addressing, modulo 2^16 (R104). -/
def baseSum16 (s : State) : Base16 → Word
  | .bxSi => s.reg16 .ebx + s.reg16 .esi
  | .bxDi => s.reg16 .ebx + s.reg16 .edi
  | .bpSi => s.reg16 .ebp + s.reg16 .esi
  | .bpDi => s.reg16 .ebp + s.reg16 .edi
  | .si => s.reg16 .esi
  | .di => s.reg16 .edi
  | .bp => s.reg16 .ebp
  | .bx => s.reg16 .ebx

/-- A displacement as a number of the address size, a byte sign-extended (R104, R105). -/
def dispValue {w : Nat} : Disp w → BitVec w
  | .none => 0
  | .d8 v => v.signExtend w
  | .full v => v

/-- `index_value * 2^ss` (R106). -/
def indexValue (s : State) : Option (Reg × BitVec 2) → DWord
  | none => 0
  | some (r, ss) => s.reg r <<< ss.toNat

/-- `EA`: the effective address, 16-bit sums extended with zeros (R104, R105, R106). -/
def effAddr (s : State) : Mem → DWord
  | .a16 b d => (baseSum16 s b + dispValue d).setWidth 32
  | .a16Direct a => a.setWidth 32
  | .a32 b d => s.reg b + dispValue d
  | .a32Direct a => a
  | .a32Sib b i d => s.reg b + indexValue s i + dispValue d
  | .a32SibNoBase i a => indexValue s i + a

/-- The default segment of a base register in 32-bit addressing: SS for ESP and EBP (R105, R106). -/
def baseSegment : Reg → SegName
  | .esp => .ss
  | .ebp => .ss
  | .eax => .ds
  | .ecx => .ds
  | .edx => .ds
  | .ebx => .ds
  | .esi => .ds
  | .edi => .ds

/-- The default segment of a memory operand: SS when the base is (E)BP or ESP (R104, R105, R106). -/
def defaultSegment : Mem → SegName
  | .a16 .bpSi _ => .ss
  | .a16 .bpDi _ => .ss
  | .a16 .bp _ => .ss
  | .a16 .bxSi _ => .ds
  | .a16 .bxDi _ => .ds
  | .a16 .si _ => .ds
  | .a16 .di _ => .ds
  | .a16 .bx _ => .ds
  | .a16Direct _ => .ds
  | .a32 b _ => baseSegment b
  | .a32Direct _ => .ds
  | .a32Sib b _ _ => baseSegment b
  | .a32SibNoBase _ _ => .ds

/-- The segment an override names, or the default given (R107, R237). -/
def overrideOr (p : Prefixes) (dflt : SegName) : SegName := p.seg.getD dflt

/-- `SegOf`: the segment of a memory operand (R107). -/
def segOf (p : Prefixes) (m : Mem) : SegName := overrideOr p (defaultSegment m)

/-- Read `n` bytes of a memory operand (R103). -/
def readMem (p : Prefixes) (m : Mem) (n : Nat) (s : State) : Res Nat := segRead s (segOf p m) (effAddr s m) n

/-- `ReadRM_1` (R103). -/
def readRM8 (p : Prefixes) (d : RM Reg8) (s : State) : Res Byte :=
  match d with
  | .reg r => .ok (s.reg8 r)
  | .mem m => (readMem p m 1 s).map (BitVec.ofNat 8)

/-- `ReadRM_2` (R103). -/
def readRM16 (p : Prefixes) (d : RM Reg) (s : State) : Res Word :=
  match d with
  | .reg r => .ok (s.reg16 r)
  | .mem m => (readMem p m 2 s).map (BitVec.ofNat 16)

/-- `ReadRM_4` (R103). -/
def readRM32 (p : Prefixes) (d : RM Reg) (s : State) : Res DWord :=
  match d with
  | .reg r => .ok (s.reg r)
  | .mem m => (readMem p m 4 s).map (BitVec.ofNat 32)

/-- A long pointer: an offset and a selector (R138). -/
structure FarPtr where
  off : DWord
  sel : Word
  deriving DecidableEq, Repr

/-- The long pointer of an m16:16 or m16:32 operand: the offset first, the selector after it, read as one access of 4
or 6 bytes (R65, R73, R138). -/
def readFarPtr (p : Prefixes) (m : Mem) (z : Size) (s : State) : Res FarPtr :=
  match z with
  | .s16 => (readMem p m 4 s).map fun v => ⟨BitVec.ofNat 32 (v % 2 ^ 16), BitVec.ofNat 16 (v / 2 ^ 16)⟩
  | .s32 => (readMem p m 6 s).map fun v => ⟨BitVec.ofNat 32 (v % 2 ^ 32), BitVec.ofNat 16 (v / 2 ^ 32)⟩

end Sys2Proof.Machine
end

