-- ==== Sys2Proof/Machine/Descriptor.lean ====
section
/-! DEFINITION. Selectors, descriptors, the AR byte, loading CS and SS, the inner stack pointers of a TSS and the task
switch (41_call_far_protected.md R151 to R156, R164, R178). -/

namespace Sys2Proof.Machine

/-! ## Selectors (R151) -/

/-- `index = sel[15:3]`. -/
def selIndex (sel : Word) : Nat := (sel.extractLsb' 3 13).toNat

/-- `TI = sel[2]`: set for the local table. -/
def selLocal (sel : Word) : Bool := sel.getLsbD 2

/-- `RPL = sel[1:0]`. -/
def selRpl (sel : Word) : BitVec 2 := sel.extractLsb' 0 2

/-! ## Descriptors (R153, R154) -/

/-- A descriptor as read from its table, with the linear address it stands at (R152). -/
structure Desc where
  addr : DWord
  bits : QWord
  deriving DecidableEq, Repr

/-- The AR byte, bits 47:40 (R153). -/
def descAr (d : QWord) : Byte := d.extractLsb' 40 8

/-- P, bit 47 (R153). -/
def descPresent (d : QWord) : Bool := d.getLsbD 47

/-- DPL, bits 46:45 (R153). -/
def descDpl (d : QWord) : BitVec 2 := d.extractLsb' 45 2

/-- The segment base: bits 63:56 and 39:16 (R153). -/
def descBase (d : QWord) : DWord := d.extractLsb' 56 8 ++ d.extractLsb' 16 24

/-- The byte limit: the 20 limit bits, in units of 4096 bytes when G (bit 55) is 1 (R153). -/
def descLimit (d : QWord) : DWord :=
  let raw : BitVec 20 := d.extractLsb' 48 4 ++ d.extractLsb' 0 16
  if d.getLsbD 55 then raw ++ (0xFFF : BitVec 12) else raw.setWidth 32

/-- D of a code segment, B of a stack segment: bit 54 (R153). -/
def descBig (d : QWord) : Bool := d.getLsbD 54

/-- The selector of a call gate or task gate: bits 31:16 (R153). -/
def gateSelector (d : QWord) : Word := d.extractLsb' 16 16

/-- The count of a call gate: bits 36:32 (R153). -/
def gateCount (d : QWord) : Nat := (d.extractLsb' 32 5).toNat

/-- The offset of a call gate: bits 63:48 and 15:0 of a 386 gate, bits 15:0 of a 286 gate (R153, R163). -/
def gateOffset (z : Size) (d : QWord) : DWord :=
  match z with
  | .s16 => (d.extractLsb' 0 16).setWidth 32
  | .s32 => d.extractLsb' 48 16 ++ d.extractLsb' 0 16

/-- What a descriptor is (R154). A call gate carries `GateSize`, 16 for a 286 gate and 32 for a 386 gate (R162). -/
inductive DescKind where
  | code (conforming : Bool)
  | data (writable : Bool)
  | tss (format : TssFormat) (busy : Bool)
  | callGate (size : Size)
  | taskGate
  | other
  deriving DecidableEq, Repr

/-- `Kind(d)`: the reading of the AR byte (R154). -/
def descKind (d : QWord) : DescKind :=
  let type : BitVec 4 := d.extractLsb' 40 4
  if d.getLsbD 44 then
    if d.getLsbD 43 then .code (d.getLsbD 42) else .data (d.getLsbD 41)
  else if type = 0x1 then .tss .tss286 false
  else if type = 0x3 then .tss .tss286 true
  else if type = 0x9 then .tss .tss386 false
  else if type = 0xB then .tss .tss386 true
  else if type = 0x4 then .callGate .s16
  else if type = 0xC then .callGate .s32
  else if type = 0x5 then .taskGate
  else .other

/-- The entry of a table, read by the processor for itself, as a supervisor read; the exception the caller names if it
is outside the table's limit (R152). -/
def fetchEntry (s : State) (base limit : DWord) (index : Nat) (outside : Fault) : Res Desc := do
  require (decide (index * 8 + 7 ≤ limit.toNat)) outside
  let addr := base + BitVec.ofNat 32 (index * 8)
  let v ← memRead s .read 0 addr 8
  .ok ⟨addr, BitVec.ofNat 64 v⟩

/-- `FetchDescriptor(sel)`: the entry of the GDT or the LDT; an LDTR that holds no table is outside the table (R152). -/
def fetchDescriptor (s : State) (sel : Word) (outside : Fault) : Res Desc :=
  if selLocal sel then do
    require s.ldtr.valid outside
    fetchEntry s s.ldtr.base s.ldtr.limit (selIndex sel) outside
  else fetchEntry s s.gdtr.base (s.gdtr.limit.setWidth 32) (selIndex sel) outside

/-! ## Loading CS and SS (R34, R155) -/

/-- A segment register loaded in Real Address or Virtual 8086 Mode: selector and base; the limit and the rest of the
hidden part stay (R34). -/
def realSeg (g : Seg) (sel : Word) : Seg := { g with sel := sel, base := sel.setWidth 32 * 16 }

/-- The segment register a descriptor gives, Accessed set (R155). -/
def segOfDesc (sel : Word) (d : QWord) : Seg :=
  { sel := sel, base := descBase d, limit := descLimit d, ar := descAr d ||| 1, big := descBig d }

/-- Set the Accessed bit of a descriptor in memory, if it is clear: a store of its AR byte (R155, D42). -/
def markAccessed (d : Desc) (s : State) : Res State :=
  if (descAr d.bits).getLsbD 0 then .ok s
  else memWrite s 0 (d.addr + 5) 1 (descAr d.bits ||| 1).toNat

/-- A selector with its RPL replaced: `(sel AND FFFCh) OR cpl` (R155). -/
def withRpl (sel : Word) (cpl : BitVec 2) : Word := (sel &&& 0xFFFC) ||| cpl.setWidth 16

/-- `LoadCS(sel, d, cpl)` (R155). -/
def loadCs (sel : Word) (d : Desc) (cpl : BitVec 2) (s : State) : Res State := do
  let t ← markAccessed d s
  .ok (t.setCs (segOfDesc (withRpl sel cpl) d.bits))

/-- `LoadSS(sel, d)` (R155). -/
def loadSs (sel : Word) (d : Desc) (s : State) : Res State := do
  let t ← markAccessed d s
  .ok (t.setSs (segOfDesc sel d.bits))

/-! ## The inner stack pointer (R164) -/

/-- A stack pointer and an SS selector taken from the TSS. -/
structure InnerStack where
  esp : DWord
  ss : Word
  deriving DecidableEq, Repr

/-- "Get new SS selector for new privilege level from TSS": level `l` of the running task's TSS, #TS(TR selector) if
the TSS is too short (R164, D22). Read as a supervisor, as R152 reads tables (log entry 16). -/
def innerStack (s : State) (l : Nat) : Res InnerStack :=
  match s.tr.format with
  | .tss386 => do
    require (decide (8 * l + 9 ≤ s.tr.limit.toNat)) (raiseSel s .ts s.tr.sel)
    let e ← memRead s .read 0 (s.tr.base + BitVec.ofNat 32 (4 + 8 * l)) 4
    let g ← memRead s .read 0 (s.tr.base + BitVec.ofNat 32 (8 + 8 * l)) 2
    .ok ⟨BitVec.ofNat 32 e, BitVec.ofNat 16 g⟩
  | .tss286 => do
    require (decide (4 * l + 5 ≤ s.tr.limit.toNat)) (raiseSel s .ts s.tr.sel)
    let e ← memRead s .read 0 (s.tr.base + BitVec.ofNat 32 (2 + 4 * l)) 2
    let g ← memRead s .read 0 (s.tr.base + BitVec.ofNat 32 (4 + 4 * l)) 2
    .ok ⟨BitVec.ofNat 32 e, BitVec.ofNat 16 g⟩

/-! ## The task switch (R178) -/

/-- A segment register as Virtual 8086 Mode has it: base = selector * 16, limit FFFFh (R34, R280). -/
def v86Seg (g : Seg) : Seg := { g with base := g.sel.setWidth 32 * 16, limit := 0xFFFF }

/-- The six segment registers as Virtual 8086 Mode has them. -/
def v86Segs (g : Segs) : Segs :=
  { es := v86Seg g.es, cs := v86Seg g.cs, ss := v86Seg g.ss, ds := v86Seg g.ds, fs := v86Seg g.fs, gs := v86Seg g.gs }

/-- EFLAGS of a new task: every named flag from the task, the reserved bits as they were (R178 b, U8); a 286 TSS does
not set VM (R178 e). -/
def taskEflags (old : DWord) (format : TssFormat) (new : DWord) : DWord :=
  let e := (new &&& eflagsNamed) ||| (old &&& ~~~eflagsNamed)
  match format with
  | .tss286 => setBit e Flag.vm.bit false
  | .tss386 => e

/-- Store the bytes a task switch stores, in order. -/
def storeAll : List (DWord × Byte) → Memory → Memory
  | [], m => m
  | (a, b) :: r, m => storeAll r (m.write a.toNat b)

/-- The machine after `SwitchTasks` put a task into it: CR0.TS is 1 and no other bit of CR0 changes (R31, R178 a),
GDTR and IDTR stay (R37), CPL is 3 in Virtual 8086 Mode, whose segments are its own, and the RPL of CS otherwise (R34,
R36, R280; log entry 8). -/
def enterTask (s : State) (format : TssFormat) (t : TaskImage) : State :=
  let e := taskEflags s.eflags format t.eflags
  let vm := e.getLsbD Flag.vm.bit
  { s with
    regs := t.regs
    eip := t.eip
    eflags := e
    segs := if vm then v86Segs t.segs else t.segs
    cpl := if vm then 3 else selRpl t.segs.cs.sel
    cr0 := setBit s.cr0 Cr0Bit.ts.bit true
    cr2 := t.cr2
    cr3 := t.cr3
    dbg := t.dbg
    test := t.test
    ldtr := t.ldtr
    tr := t.tr
    mem := storeAll t.stores s.mem }

/-- `SwitchTasks(nesting, tsel, td)` and the check of the new EIP in the new task: #TS(0) (R175, R176, R178 f). `ret`
is where the outgoing task will resume (R178 c). -/
def switchTasks (s : State) (ret : DWord) (tsel : Word) (format : TssFormat) (td : QWord) : Res State :=
  match Config.switchTasks s ret true tsel td with
  | .faulted x code => .error (.exception x code)
  | .switched t =>
    let u := enterTask s format t
    do
      require (decide (u.eip ≤ u.segs.cs.limit)) (raise u .ts 0)
      .ok u

end Sys2Proof.Machine
end

