-- ==== Sys2Proof/Machine/FarProtected.lean ====
section
/-! DEFINITION. Far CALL in Protected Mode (41_call_far_protected.md R150, R157 to R176). `ret` is `nEIP`; `z` is the
instruction's OperandSize; `pads` gives the free upper halves of pushed selectors (R75). -/

namespace Sys2Proof.Machine

/-- Push the return address: the old CS selector, then `nEIP`, each as wide as `z` says (R158, R163, R167). -/
def pushReturn (pads : Nat → Word) (z : Size) (sel : Word) (ret : DWord) (s : State) : Res State := do
  let t ← pushSelector pads z sel s
  pushOffsetValue z ret t

/-- The new offset of a direct far CALL (R157). -/
def farTarget (z : Size) (off : DWord) : DWord :=
  match z with
  | .s16 => off &&& 0xFFFF
  | .s32 => off

/-- Room for the return address, then the target inside the new segment, then the push, CS and EIP, CPL unchanged: what
R159, R160 and R163 end with. -/
def enterSegment (pads : Nat → Word) (z : Size) (ret : DWord) (sel : Word) (d : Desc) (tgt : DWord) (s : State) :
    Res State := do
  require (stackRoom s (2 * z.bytes) z.bytes) (stackFault s)
  require (decide (tgt ≤ descLimit d.bits)) (raise s .gp 0)
  let t ← pushReturn pads z s.segs.cs.sel ret s
  let u ← loadCs sel d s.cpl t
  .ok (u.setEip tgt)

/-- CONFORMING-CODE-SEGMENT (R159). -/
def farConforming (pads : Nat → Word) (z : Size) (ret : DWord) (ptr : FarPtr) (d : Desc) (s : State) : Res State := do
  require (decide (descDpl d.bits ≤ s.cpl)) (raiseSel s .gp ptr.sel)
  require (descPresent d.bits) (raiseSel s .np ptr.sel)
  enterSegment pads z ret ptr.sel d (farTarget z ptr.off) s

/-- NONCONFORMING-CODE-SEGMENT (R160). -/
def farNonconforming (pads : Nat → Word) (z : Size) (ret : DWord) (ptr : FarPtr) (d : Desc) (s : State) :
    Res State := do
  require (decide (selRpl ptr.sel ≤ s.cpl)) (raiseSel s .gp ptr.sel)
  require (descDpl d.bits == s.cpl) (raiseSel s .gp ptr.sel)
  require (descPresent d.bits) (raiseSel s .np ptr.sel)
  enterSegment pads z ret ptr.sel d (farTarget z ptr.off) s

/-- The parameters on the old stack, `count` slots of `n` bytes upward from slot `i` (R167). -/
def readParams (s : State) (n : Nat) : Nat → Nat → Res (List Nat)
  | 0, _ => .ok []
  | count + 1, i => do
    let v ← segRead s .ss (stackAbove s.stackSize (s.reg .esp) (i * n)) n
    let r ← readParams s n count (i + 1)
    .ok (v :: r)

/-- Push values in order. -/
def pushList (n : Nat) : List Nat → State → Res State
  | [], s => .ok s
  | v :: r, s => do
    let t ← push n v s
    pushList n r t

/-- The checks on the new stack segment's selector and descriptor (R165). -/
def newStackSegment (s : State) (nss : Word) (dpl : BitVec 2) : Res Desc := do
  require (!selNull nss) (raise s .ts 0)
  let d ← fetchDescriptor s nss (raiseSel s .ts nss)
  require (selRpl nss == dpl) (raiseSel s .ts nss)
  require (descDpl d.bits == dpl) (raiseSel s .ts nss)
  require (descKind d.bits == .data true) (raiseSel s .ts nss)
  require (descPresent d.bits) (raiseSel s .ss nss)
  .ok d

/-- The stack size of a stack segment: its B bit (R74, R166). -/
def segStackSize (g : Seg) : Size := if g.big then .s32 else .s16

/-- The stack switch and the pushes of a call to more privilege: the new SS and eSP, CPL, the old stack's pointer, the
parameters in their order, the return address (R167, R169). -/
def switchStack (pads : Nat → Word) (z : Size) (ret : DWord) (inner : InnerStack) (sd : Desc) (params : List Nat)
    (s : State) : Res State := do
  let t ← loadSs inner.ss sd s
  let t := (t.setStackPtr (segStackSize t.segs.ss) inner.esp).setCpl (descDpl sd.bits)
  let t ← pushSelector pads z s.segs.ss.sel t
  let t ← pushOffsetValue z (stackTop s.stackSize (s.reg .esp)) t
  let t ← pushList z.bytes params.reverse t
  pushReturn pads z s.segs.cs.sel ret t

/-- MORE-PRIVILEGE: all the checks, then the actions (R164 to R167). `gs` is `GateSize(g)` (R162). -/
def morePrivilege (pads : Nat → Word) (gs : Size) (ret : DWord) (g : QWord) (csel : Word) (c : Desc) (s : State) :
    Res State := do
  let inner ← innerStack s (descDpl c.bits).toNat
  let sd ← newStackSegment s inner.ss (descDpl c.bits)
  let nseg := segOfDesc inner.ss sd.bits
  require (stackRoomIn .prot nseg (segStackSize nseg) inner.esp ((gateCount g + 4) * gs.bytes) gs.bytes) (stackFault s)
  require (decide (gateOffset gs g ≤ descLimit c.bits)) (raise s .gp 0)
  let params ← readParams s gs.bytes (gateCount g) 0
  let t ← switchStack pads gs ret inner sd params s
  let u ← loadCs csel c t.cpl t
  .ok (u.setEip (gateOffset gs g))

/-- The checks on the code segment a call gate points to (R161). -/
def gateTarget (s : State) (csel : Word) : Res Desc := do
  require (!selNull csel) (raise s .gp 0)
  let c ← fetchDescriptor s csel (raiseSel s .gp csel)
  require (descKind c.bits == .code true || descKind c.bits == .code false) (raiseSel s .gp csel)
  require (decide (descDpl c.bits ≤ s.cpl)) (raiseSel s .gp csel)
  require (descPresent c.bits) (raiseSel s .np csel)
  .ok c

/-- CALL-GATE: the gate's checks, its code segment's, then MORE-PRIVILEGE for a nonconforming segment of a lower DPL
and SAME-PRIVILEGE otherwise (R161, R163). -/
def farCallGate (pads : Nat → Word) (gs : Size) (ret : DWord) (ptr : FarPtr) (g : Desc) (s : State) : Res State := do
  require (decide (s.cpl ≤ descDpl g.bits)) (raiseSel s .gp ptr.sel)
  require (decide (selRpl ptr.sel ≤ descDpl g.bits)) (raiseSel s .gp ptr.sel)
  require (descPresent g.bits) (raiseSel s .np ptr.sel)
  let c ← gateTarget s (gateSelector g.bits)
  if descKind c.bits = .code false ∧ descDpl c.bits < s.cpl then
    morePrivilege pads gs ret g.bits (gateSelector g.bits) c s
  else
    enterSegment pads gs ret (gateSelector g.bits) c (gateOffset gs g.bits) s

/-- The format of an available TSS; none if the descriptor is anything else (R154, R175, R176). -/
def availableTss (d : QWord) : Option TssFormat :=
  match descKind d with
  | .tss f false => some f
  | .tss _ true => none
  | .code _ => none
  | .data _ => none
  | .callGate _ => none
  | .taskGate => none
  | .other => none

/-- An available TSS, then present, then the switch: what R175 and R176 end with. -/
def enterTss (ret : DWord) (tsel : Word) (td : QWord) (s : State) : Res State :=
  match availableTss td with
  | none => .error (raiseSel s .ts tsel)
  | some f => do
    require (descPresent td) (raiseSel s .np tsel)
    switchTasks s ret tsel f td

/-- TASK-GATE (R175). -/
def farTaskGate (ret : DWord) (ptr : FarPtr) (g : Desc) (s : State) : Res State := do
  require (decide (s.cpl ≤ descDpl g.bits)) (raiseSel s .ts ptr.sel)
  require (decide (selRpl ptr.sel ≤ descDpl g.bits)) (raiseSel s .ts ptr.sel)
  require (descPresent g.bits) (raiseSel s .np ptr.sel)
  let tsel := gateSelector g.bits
  require (!selLocal tsel) (raiseSel s .ts tsel)
  let td ← fetchEntry s s.gdtr.base (s.gdtr.limit.setWidth 32) (selIndex tsel) (raiseSel s .ts tsel)
  enterTss ret tsel td.bits s

/-- TASK-STATE-SEGMENT (R176). -/
def farTss (ret : DWord) (ptr : FarPtr) (d : Desc) (s : State) : Res State := do
  require (decide (s.cpl ≤ descDpl d.bits)) (raiseSel s .ts ptr.sel)
  require (decide (selRpl ptr.sel ≤ descDpl d.bits)) (raiseSel s .ts ptr.sel)
  enterTss ret ptr.sel d.bits s

/-- The path a descriptor's AR byte selects (R150, R183). -/
def farByKind (pads : Nat → Word) (z : Size) (ret : DWord) (ptr : FarPtr) (d : Desc) (s : State) : Res State :=
  match descKind d.bits with
  | .code true => farConforming pads z ret ptr d s
  | .code false => farNonconforming pads z ret ptr d s
  | .callGate gs => farCallGate pads gs ret ptr d s
  | .taskGate => farTaskGate ret ptr d s
  | .tss _ _ => farTss ret ptr d s
  | .data _ => .error (raiseSel s .gp ptr.sel)
  | .other => .error (raiseSel s .gp ptr.sel)

/-- Far CALL in Protected Mode: a null selector, a selector outside its table, then the path by kind (R150). -/
def farProtected (pads : Nat → Word) (z : Size) (ret : DWord) (ptr : FarPtr) (s : State) : Res State := do
  require (!selNull ptr.sel) (raise s .gp 0)
  let d ← fetchDescriptor s ptr.sel (raiseSel s .gp ptr.sel)
  farByKind pads z ret ptr d s

end Sys2Proof.Machine
end

