-- ==== Sys2Proof/Machine/Call.lean ====
section
/-! DEFINITION. CALL in its eight forms (40_call_near_and_real.md, and 41_call_far_protected.md by farProtected). -/

namespace Sys2Proof.Machine

/-! ## Near CALL (R131 to R137) -/

/-- Room on the stack, the target inside CS, the push, the transfer, in that order (R131, R132). -/
def nearCall (z : Size) (ret tgt : DWord) (s : State) : Res State := do
  require (stackRoom s z.bytes z.bytes) (stackFault s)
  require (decide (tgt ≤ s.segs.cs.limit)) (raise s .gp 0)
  let t ← pushOffsetValue z ret s
  .ok (t.setEip tgt)

/-- CALL rel16: the sum is masked to 16 bits (R133). -/
def execCallRel16 (p : Prefixes) (rel : Word) (s : State) : Host.Outcome State Fault Refusal :=
  let ret := s.nEip (.callRel16 p rel)
  outcome (nearCall .s16 ret ((ret + rel.signExtend 32) &&& 0xFFFF) s)

/-- CALL rel32 (R134). -/
def execCallRel32 (p : Prefixes) (rel : DWord) (s : State) : Host.Outcome State Fault Refusal :=
  let ret := s.nEip (.callRel32 p rel)
  outcome (nearCall .s32 ret (ret + rel) s)

/-- CALL r/m16: the operand is read before the push (R135, R137). -/
def execCallRm16 (p : Prefixes) (d : RM Reg) (s : State) : Host.Outcome State Fault Refusal :=
  outcome do
    let t ← readRM16 p d s
    nearCall .s16 (s.nEip (.callRm16 p d)) (t.setWidth 32) s

/-- CALL r/m32: the operand is read before the push (R136, R137). -/
def execCallRm32 (p : Prefixes) (d : RM Reg) (s : State) : Host.Outcome State Fault Refusal :=
  outcome do
    let t ← readRM32 p d s
    nearCall .s32 (s.nEip (.callRm32 p d)) t s

/-! ## Far CALL (R138 to R143, R150) -/

/-- Far CALL in Real Address and Virtual 8086 Mode: room, the offset within 64K, CS and the return offset pushed, then
CS by R34 and EIP (R143). -/
def farReal (pads : Nat → Word) (z : Size) (ret : DWord) (ptr : FarPtr) (s : State) : Res State := do
  require (stackRoom s (2 * z.bytes) z.bytes) (stackFault s)
  require (decide (ptr.off ≤ 0xFFFF)) (raise s .gp 0)
  let t ← pushReturn pads z s.segs.cs.sel ret s
  .ok ((t.setCs (realSeg t.segs.cs ptr.sel)).setEip ptr.off)

/-- Far CALL: the path by mode (R138). -/
def farCall (pads : Nat → Word) (z : Size) (ret : DWord) (ptr : FarPtr) (s : State) : Res State :=
  match s.mode with
  | .real => farReal pads z ret ptr s
  | .v86 => farReal pads z ret ptr s
  | .prot => farProtected pads z ret ptr s

/-- CALL ptr16:16 (R139, R150). -/
def execCallPtr1616 (p : Prefixes) (off : Word) (sel : Word) (s : State) : Host.Outcome State Fault Refusal :=
  outcome (farCall Config.padBits .s16 (s.nEip (.callPtr1616 p off sel)) ⟨off.setWidth 32, sel⟩ s)

/-- CALL ptr16:32 (R140, R150). -/
def execCallPtr1632 (p : Prefixes) (off : DWord) (sel : Word) (s : State) : Host.Outcome State Fault Refusal :=
  outcome (farCall Config.padBits .s32 (s.nEip (.callPtr1632 p off sel)) ⟨off, sel⟩ s)

/-- CALL m16:16: the pointer is read before anything is pushed (R141, R150). -/
def execCallM1616 (p : Prefixes) (m : Mem) (s : State) : Host.Outcome State Fault Refusal :=
  outcome do
    let ptr ← readFarPtr p m .s16 s
    farCall Config.padBits .s16 (s.nEip (.callM1616 p m)) ptr s

/-- CALL m16:32: the pointer is read before anything is pushed (R142, R150). -/
def execCallM1632 (p : Prefixes) (m : Mem) (s : State) : Host.Outcome State Fault Refusal :=
  outcome do
    let ptr ← readFarPtr p m .s32 s
    farCall Config.padBits .s32 (s.nEip (.callM1632 p m)) ptr s

end Sys2Proof.Machine
end

