-- ==== Sys2Proof/Machine/Cmp.lean ====
section
/-! DEFINITION. CMP in its fourteen forms (44_cmp.md). -/

namespace Sys2Proof.Machine

/-- What every form does: read the two operands, write the six flags of `left - right`, advance EIP (R210). -/
def compareOperands {n : Nat} (s : State) (next : DWord) (left right : Res (BitVec n)) : Res State := do
  let l ← left
  let r ← right
  .ok ((s.setEflags (withSubFlags s.eflags (subFlags l r))).setEip next)

/-- CMP AL,imm8 (R214). -/
def execCmpAlImm8 (p : Prefixes) (imm : Byte) (s : State) : Host.Outcome State Fault Refusal :=
  outcome (compareOperands s (s.nEip (.cmpAlImm8 p imm)) (.ok (s.reg8 .al)) (.ok imm))

/-- CMP AX,imm16 (R215). -/
def execCmpAxImm16 (p : Prefixes) (imm : Word) (s : State) : Host.Outcome State Fault Refusal :=
  outcome (compareOperands s (s.nEip (.cmpAxImm16 p imm)) (.ok (s.reg16 .eax)) (.ok imm))

/-- CMP EAX,imm32 (R216). -/
def execCmpEaxImm32 (p : Prefixes) (imm : DWord) (s : State) : Host.Outcome State Fault Refusal :=
  outcome (compareOperands s (s.nEip (.cmpEaxImm32 p imm)) (.ok (s.reg .eax)) (.ok imm))

/-- CMP r/m8,imm8 (R217). -/
def execCmpRm8Imm8 (p : Prefixes) (d : RM Reg8) (imm : Byte) (s : State) : Host.Outcome State Fault Refusal :=
  outcome (compareOperands s (s.nEip (.cmpRm8Imm8 p d imm)) (readRM8 p d s) (.ok imm))

/-- CMP r/m16,imm16 (R218). -/
def execCmpRm16Imm16 (p : Prefixes) (d : RM Reg) (imm : Word) (s : State) : Host.Outcome State Fault Refusal :=
  outcome (compareOperands s (s.nEip (.cmpRm16Imm16 p d imm)) (readRM16 p d s) (.ok imm))

/-- CMP r/m32,imm32 (R219). -/
def execCmpRm32Imm32 (p : Prefixes) (d : RM Reg) (imm : DWord) (s : State) : Host.Outcome State Fault Refusal :=
  outcome (compareOperands s (s.nEip (.cmpRm32Imm32 p d imm)) (readRM32 p d s) (.ok imm))

/-- CMP r/m16,imm8: the byte is sign-extended (R220). -/
def execCmpRm16Imm8 (p : Prefixes) (d : RM Reg) (imm : Byte) (s : State) : Host.Outcome State Fault Refusal :=
  outcome (compareOperands s (s.nEip (.cmpRm16Imm8 p d imm)) (readRM16 p d s) (.ok (imm.signExtend 16)))

/-- CMP r/m32,imm8: the byte is sign-extended (R221). -/
def execCmpRm32Imm8 (p : Prefixes) (d : RM Reg) (imm : Byte) (s : State) : Host.Outcome State Fault Refusal :=
  outcome (compareOperands s (s.nEip (.cmpRm32Imm8 p d imm)) (readRM32 p d s) (.ok (imm.signExtend 32)))

/-- CMP r/m8,r8 (R222). -/
def execCmpRm8R8 (p : Prefixes) (d : RM Reg8) (r : Reg8) (s : State) : Host.Outcome State Fault Refusal :=
  outcome (compareOperands s (s.nEip (.cmpRm8R8 p d r)) (readRM8 p d s) (.ok (s.reg8 r)))

/-- CMP r/m16,r16 (R223). -/
def execCmpRm16R16 (p : Prefixes) (d : RM Reg) (r : Reg) (s : State) : Host.Outcome State Fault Refusal :=
  outcome (compareOperands s (s.nEip (.cmpRm16R16 p d r)) (readRM16 p d s) (.ok (s.reg16 r)))

/-- CMP r/m32,r32 (R224). -/
def execCmpRm32R32 (p : Prefixes) (d : RM Reg) (r : Reg) (s : State) : Host.Outcome State Fault Refusal :=
  outcome (compareOperands s (s.nEip (.cmpRm32R32 p d r)) (readRM32 p d s) (.ok (s.reg r)))

/-- CMP r8,r/m8 (R225). -/
def execCmpR8Rm8 (p : Prefixes) (r : Reg8) (d : RM Reg8) (s : State) : Host.Outcome State Fault Refusal :=
  outcome (compareOperands s (s.nEip (.cmpR8Rm8 p r d)) (.ok (s.reg8 r)) (readRM8 p d s))

/-- CMP r16,r/m16 (R226). -/
def execCmpR16Rm16 (p : Prefixes) (r : Reg) (d : RM Reg) (s : State) : Host.Outcome State Fault Refusal :=
  outcome (compareOperands s (s.nEip (.cmpR16Rm16 p r d)) (.ok (s.reg16 r)) (readRM16 p d s))

/-- CMP r32,r/m32 (R227). -/
def execCmpR32Rm32 (p : Prefixes) (r : Reg) (d : RM Reg) (s : State) : Host.Outcome State Fault Refusal :=
  outcome (compareOperands s (s.nEip (.cmpR32Rm32 p r d)) (.ok (s.reg r)) (readRM32 p d s))

end Sys2Proof.Machine
end

