-- ==== Sys2Proof/Machine/Cmps.lean ====
section
/-! DEFINITION. CMPS on bytes, words and doublewords (45_cmps.md). -/

namespace Sys2Proof.Machine

/-- The offset an index register gives: SI or DI extended with zeros, or ESI or EDI (R235, R241). -/
def indexOffset (s : State) (asz : Size) (r : Reg) : DWord :=
  match asz with
  | .s16 => (s.reg16 r).setWidth 32
  | .s32 => s.reg r

/-- Move an index register by `n`, up when DF = 0 and down when DF = 1, modulo the width in use (R236, R241). -/
def stepIndex (asz : Size) (r : Reg) (n : Nat) (down : Bool) (s : State) : State :=
  match asz with
  | .s16 => s.setReg16 r (if down then s.reg16 r - BitVec.ofNat 16 n else s.reg16 r + BitVec.ofNat 16 n)
  | .s32 => s.setReg r (if down then s.reg r - BitVec.ofNat 32 n else s.reg r + BitVec.ofNat 32 n)

/-- The segment of the source operand: DS or the override (R237). -/
def cmpsSource (p : Prefixes) : SegName := overrideOr p .ds

/-- One operand of CMPS: it must not cross the end of the offset range of the AddressSize, 64K or 4G (R241), which R69
alone does not ask of a 16-bit offset in a larger segment (DEDUCED, log entry 30); then the checked read (R67). -/
def stringRead (s : State) (asz : Size) (name : SegName) (off : DWord) (n : Nat) : Res Nat := do
  require (insideOffsets asz off.toNat n) (operandFault s name)
  segRead s name off n

/-- What the three do, with operands of `n` bytes: both reads first, the source before the destination, then the flags,
then both index registers (R235). -/
def compareStrings (p : Prefixes) (asz : Size) (n : Nat) (next : DWord) (s : State) : Res State := do
  let l ← stringRead s asz (cmpsSource p) (indexOffset s asz .esi) n
  let r ← stringRead s asz .es (indexOffset s asz .edi) n
  let t := s.setEflags (withSubFlags s.eflags (subFlags (BitVec.ofNat (8 * n) l) (BitVec.ofNat (8 * n) r)))
  .ok ((stepIndex asz .edi n (s.flag .df) (stepIndex asz .esi n (s.flag .df) t)).setEip next)

/-- CMPS m8,m8 = CMPSB (R238). -/
def execCmpsM8 (p : Prefixes) (asz : Size) (s : State) : Host.Outcome State Fault Refusal :=
  outcome (compareStrings p asz 1 (s.nEip (.cmpsM8 p asz)) s)

/-- CMPS m16,m16 = CMPSW (R239). -/
def execCmpsM16 (p : Prefixes) (asz : Size) (s : State) : Host.Outcome State Fault Refusal :=
  outcome (compareStrings p asz 2 (s.nEip (.cmpsM16 p asz)) s)

/-- CMPS m32,m32 = CMPSD (R240). -/
def execCmpsM32 (p : Prefixes) (asz : Size) (s : State) : Host.Outcome State Fault Refusal :=
  outcome (compareStrings p asz 4 (s.nEip (.cmpsM32 p asz)) s)

end Sys2Proof.Machine
end

