-- ==== Sys2Proof/Machine/Convert.lean ====
section
/-! DEFINITION. CBW, CWDE (42_cbw_cwde.md) and CWD, CDQ (46_cwd_cdq.md). -/

namespace Sys2Proof.Machine

/-- CBW: AX becomes the sign extension of AL; bits 31:16 of EAX stay (R190). -/
def execCbw (p : Prefixes) (s : State) : Host.Outcome State Fault Refusal :=
  .next ((s.setReg16 .eax ((s.reg8 .al).signExtend 16)).setEip (s.nEip (.cbw p)))

/-- CWDE: EAX becomes the sign extension of AX (R191). -/
def execCwde (p : Prefixes) (s : State) : Host.Outcome State Fault Refusal :=
  .next ((s.setReg .eax ((s.reg16 .eax).signExtend 32)).setEip (s.nEip (.cwde p)))

/-- CWD: every bit of DX becomes the sign of AX; bits 31:16 of EDX stay (R250). -/
def execCwd (p : Prefixes) (s : State) : Host.Outcome State Fault Refusal :=
  .next ((s.setReg16 .edx (if (s.reg16 .eax).msb then 0xFFFF else 0)).setEip (s.nEip (.cwd p)))

/-- CDQ: every bit of EDX becomes the sign of EAX (R251). -/
def execCdq (p : Prefixes) (s : State) : Host.Outcome State Fault Refusal :=
  .next ((s.setReg .edx (if (s.reg .eax).msb then 0xFFFFFFFF else 0)).setEip (s.nEip (.cdq p)))

end Sys2Proof.Machine
end

