-- ==== Sys2Proof/Machine/FlagControl.lean ====
section
/-! DEFINITION. CLC, CLD, CLI, CLTS, CMC (43_flag_control.md). -/

namespace Sys2Proof.Machine

/-- CLC: CF becomes 0 (R195). -/
def execClc (p : Prefixes) (s : State) : Host.Outcome State Fault Refusal :=
  .next ((s.setFlag .cf false).setEip (s.nEip (.clc p)))

/-- CLD: DF becomes 0 (R197). -/
def execCld (p : Prefixes) (s : State) : Host.Outcome State Fault Refusal :=
  .next ((s.setFlag .df false).setEip (s.nEip (.cld p)))

/-- CLI may run: in Real Address Mode, or when CPL is not above IOPL (R200, R202). -/
def cliAllowed (s : State) : Bool := !(s.cr0Bit .pe && decide (s.iopl < s.cpl))

/-- CLI: IF becomes 0, or #GP(0) (R200). -/
def execCli (p : Prefixes) (s : State) : Host.Outcome State Fault Refusal :=
  outcome do
    require (cliAllowed s) (raise s .gp 0)
    .ok ((s.setFlag .intr false).setEip (s.nEip (.cli p)))

/-- CLTS may run: in Real Address Mode, or at CPL 0; CPL is 3 in Virtual 8086 Mode, so never there (R36, R203, D27). -/
def cltsAllowed (s : State) : Bool := !(s.cr0Bit .pe && s.cpl != 0)

/-- CLTS: CR0.TS becomes 0, or #GP(0) (R203). -/
def execClts (p : Prefixes) (s : State) : Host.Outcome State Fault Refusal :=
  outcome do
    require (cltsAllowed s) (raise s .gp 0)
    .ok ((s.setCr0 (setBit s.cr0 Cr0Bit.ts.bit false)).setEip (s.nEip (.clts p)))

/-- CMC: CF is complemented (R206). -/
def execCmc (p : Prefixes) (s : State) : Host.Outcome State Fault Refusal :=
  .next ((s.setFlag .cf (!s.flag .cf)).setEip (s.nEip (.cmc p)))

end Sys2Proof.Machine
end

