-- ==== Sys2Proof/Machine/Dispatch.lean ====
section
/-! DEFINITION. The meaning of an instruction: one arm per constructor of Instr, in the order of the opcode table. -/

namespace Sys2Proof.Machine

def exec (i : Instr) (s : State) : Host.Outcome State Fault Refusal :=
  match i with
  | .callRel16 p rel => Sys2Proof.Machine.execCallRel16 p rel s
  | .callRm16 p d => Sys2Proof.Machine.execCallRm16 p d s
  | .callPtr1616 p off sel => Sys2Proof.Machine.execCallPtr1616 p off sel s
  | .callM1616 p m => Sys2Proof.Machine.execCallM1616 p m s
  | .callRel32 p rel => Sys2Proof.Machine.execCallRel32 p rel s
  | .callRm32 p d => Sys2Proof.Machine.execCallRm32 p d s
  | .callPtr1632 p off sel => Sys2Proof.Machine.execCallPtr1632 p off sel s
  | .callM1632 p m => Sys2Proof.Machine.execCallM1632 p m s
  | .cbw p => Sys2Proof.Machine.execCbw p s
  | .cwde p => Sys2Proof.Machine.execCwde p s
  | .clc p => Sys2Proof.Machine.execClc p s
  | .cld p => Sys2Proof.Machine.execCld p s
  | .cli p => Sys2Proof.Machine.execCli p s
  | .clts p => Sys2Proof.Machine.execClts p s
  | .cmc p => Sys2Proof.Machine.execCmc p s
  | .cmpAlImm8 p imm => Sys2Proof.Machine.execCmpAlImm8 p imm s
  | .cmpAxImm16 p imm => Sys2Proof.Machine.execCmpAxImm16 p imm s
  | .cmpEaxImm32 p imm => Sys2Proof.Machine.execCmpEaxImm32 p imm s
  | .cmpRm8Imm8 p d imm => Sys2Proof.Machine.execCmpRm8Imm8 p d imm s
  | .cmpRm16Imm16 p d imm => Sys2Proof.Machine.execCmpRm16Imm16 p d imm s
  | .cmpRm32Imm32 p d imm => Sys2Proof.Machine.execCmpRm32Imm32 p d imm s
  | .cmpRm16Imm8 p d imm => Sys2Proof.Machine.execCmpRm16Imm8 p d imm s
  | .cmpRm32Imm8 p d imm => Sys2Proof.Machine.execCmpRm32Imm8 p d imm s
  | .cmpRm8R8 p d r => Sys2Proof.Machine.execCmpRm8R8 p d r s
  | .cmpRm16R16 p d r => Sys2Proof.Machine.execCmpRm16R16 p d r s
  | .cmpRm32R32 p d r => Sys2Proof.Machine.execCmpRm32R32 p d r s
  | .cmpR8Rm8 p r d => Sys2Proof.Machine.execCmpR8Rm8 p r d s
  | .cmpR16Rm16 p r d => Sys2Proof.Machine.execCmpR16Rm16 p r d s
  | .cmpR32Rm32 p r d => Sys2Proof.Machine.execCmpR32Rm32 p r d s
  | .cmpsM8 p asz => Sys2Proof.Machine.execCmpsM8 p asz s
  | .cmpsM16 p asz => Sys2Proof.Machine.execCmpsM16 p asz s
  | .cmpsM32 p asz => Sys2Proof.Machine.execCmpsM32 p asz s
  | .cwd p => Sys2Proof.Machine.execCwd p s
  | .cdq p => Sys2Proof.Machine.execCdq p s

end Sys2Proof.Machine
end

