-- ==== Sys2Proof/Machine/Fetch.lean ====
section
/-! DEFINITION. Fetching and decoding the instruction at CS:EIP (20_memory.md R63, 30_encoding.md R91, R92, R95), what
precedes a fetch (60_exceptions.md R266, 70_reset_and_hazards.md R306), and placing bytes where the fetch reads. -/

namespace Sys2Proof.Machine

/-- The offset in CS of byte `k` of the instruction (R63). -/
def fetchOffset (s : State) (k : Nat) : DWord := s.eip + BitVec.ofNat 32 k

/-- Byte `k` of the instruction, or the fetch fault on it: #GP(0), Interrupt 13 in Real Address Mode, or #PF (R63,
R92). The check is made on `EIP + k` without wrap-around, so an instruction whose bytes run past offset FFFFFFFFh
faults, as R25 and D36 say; R63's offset modulo 2^32 alone would let it go on at offset 0. That the fault is R92's is
DEDUCED (log entry 27). -/
def fetchByte (s : State) (k : Nat) : Res Byte := do
  require (segLegal s.mode .cs s.segs.cs .execute (s.eip.toNat + k) 1) (raise s .gp 0)
  let v ← memRead s .execute s.cpl (linearAddr s.segs.cs (fetchOffset s k)) 1
  .ok (BitVec.ofNat 8 v)

/-- The bytes from byte `k` on that can be fetched, at most `fuel` of them, and the fault that a need for one more
meets: the fetch fault on it, or #GP(0) for an instruction that is too long (R91, R92, R95). -/
def fetchFrom (s : State) : Nat → Nat → List Byte × Fault
  | 0, _ => ([], raise s .gp 0)
  | fuel + 1, k =>
    match fetchByte s k with
    | .error f => ([], f)
    | .ok b => (b :: (fetchFrom s fuel (k + 1)).1, (fetchFrom s fuel (k + 1)).2)

/-- What the fetch and decode of a step give: an instruction, or a fault, or a refusal (R11, R91). -/
inductive Fetched where
  | instr (i : Instr)
  | fault (f : Fault)
  | refused (r : Refusal)
  deriving DecidableEq, Repr

/-- What decoded bytes mean to the machine: bytes that end too soon meet the fault `more` of the byte they lack (R91),
the invalid opcode is Fault(6, none) (R116), the rest are the refusals of R271. -/
def fetchedOf (more : Fault) : Parse Instr → Fetched
  | .ok (i, _) => .instr i
  | .error .truncated => .fault more
  | .error .invalidOpcode => .fault raiseInvalidOpcode
  | .error .outOfScopeOpcode => .refused .outOfScopeOpcode
  | .error .lockPrefix => .refused .lockPrefix
  | .error .repPrefix => .refused .repPrefix
  | .error .prefixRepeated => .refused .prefixRepeated
  | .error .sibNoIndexScaled => .refused .sibNoIndexScaled

/-- Fetch and decode at CS:EIP: only the bytes the instruction has are asked for, in address order (R91, R92). -/
def fetchInstr (s : State) : Fetched :=
  fetchedOf (fetchFrom s Config.maxInstrBytes 0).2 (decode s.defaultSize (fetchFrom s Config.maxInstrBytes 0).1)

/-- The run is over: EIP is `halt_addr` (R306). -/
def atHalt (s : State) : Bool := s.haltAddr == some s.eip

/-- The vector of the nonmaskable interrupt (R266). -/
def nmiVector : Byte := 2

/-- The external interrupt accepted before the instruction: a maskable one that is offered while IF = 1, or the
nonmaskable one whatever IF is (R201, R266). -/
def acceptedInterrupt (s : State) : Option Byte :=
  match s.intrOffer with
  | none => none
  | some (.maskable v) => if s.flag .intr then some v else none
  | some .nonmaskable => some nmiVector

/-- The physical address the fetch reads byte `k` at; its linear address where translation answers with a fault. -/
def fetchAddr (s : State) (k : Nat) : DWord :=
  match translateByte s .execute s.cpl (linearAddr s.segs.cs (fetchOffset s k)) with
  | .ok a => a
  | .error _ => linearAddr s.segs.cs (fetchOffset s k)

/-- The state with bytes stored where the fetch reads its next instruction, no interrupt offered and no end of the run
here. -/
def placeBytes (s : State) (bs : List Byte) : State :=
  { s with
    mem := storeBytes ((List.range bs.length).map (fetchAddr s)) bs s.mem
    haltAddr := none
    intrOffer := none }

end Sys2Proof.Machine
end

