-- ==== Sys2Proof/Machine/Step.lean ====
section
/-! DEFINITION. One step: the whole execution of one instruction (00_scope.md R11). -/

namespace Sys2Proof.Machine

/-- One step (R11): the end of the run at `halt_addr` (R306); an accepted external interrupt, which stops the run since
`Deliver` is absent (R265, R266); else fetch, decode and run the instruction at CS:EIP. -/
def step (s : State) : Host.Outcome State Fault Refusal :=
  if atHalt s then .fault .runEnded
  else
    match acceptedInterrupt s with
    | some v => .fault (.externalInterrupt v)
    | none =>
      match fetchInstr s with
      | .instr i => exec i s
      | .fault f => .fault f
      | .refused r => .refused r

/-- The state with a table word's bytes where the next step fetches (R65, R121); the interrupt offer and `halt_addr`
are taken away, so that the step fetches at all (log entry 24). -/
def State.withFetchWord (s : State) (nbits w : Nat) : State := placeBytes s (wordBytes nbits w)

end Sys2Proof.Machine
end

