-- ==== Sys2Proof/Safety.lean ====
section
/-! DEFINITION. What claims are stated in: the invariant of the machine, safe runs, what a step keeps, what a push
leaves, the operands of the instructions of one shape, entering a task. -/

namespace Sys2Proof.Machine

/-- In Virtual 8086 Mode a segment register has base = selector * 16 and limit FFFFh (R34, R280). -/
def Seg.v86Ok (g : Seg) : Bool := g.base == g.sel.setWidth 32 * 16 && g.limit == 0xFFFF

/-- All six segment registers satisfy a check. -/
def Segs.all (g : Segs) (f : Seg → Bool) : Bool := f g.es && f g.cs && f g.ss && f g.ds && f g.fs && f g.gs

/-- What the spec says a state of each mode is (R34, R36, R280, R301): in Real Address Mode CPL = 0 and every limit is
FFFFh; in Virtual 8086 Mode CPL = 3 and every segment is its selector's 64K; in Protected Mode the RPL of CS is CPL.
R301 also wants base = selector * 16 in Real Address Mode; that is not asked here, since the CS of R41 (selector F000h,
base FFFF0000h) does not have it (DESIGN CHOICE, log entry 29). -/
def State.modeOk (s : State) : Bool :=
  match s.mode with
  | .real => s.cpl == 0 && s.segs.all (fun g => g.limit == 0xFFFF)
  | .v86 => s.cpl == 3 && s.segs.all Seg.v86Ok
  | .prot => selRpl s.segs.cs.sel == s.cpl

/-- The reserved bits of EFLAGS read as R27 says: bit 1 is 1, the others 0. -/
def State.reservedOk (s : State) : Bool := s.eflags &&& ~~~eflagsNamed == 2

/-- The invariant: memory in canonical form, the reserved bits of EFLAGS, the mode's requirements. -/
def State.Inv (s : State) : Prop := s.mem.wf = true ∧ s.reservedOk = true ∧ s.modeOk = true

/-- A state from which the run of `k` steps stops neither with a fault nor with a refusal. -/
def SafeFor : Nat → State → Prop
  | 0, _ => True
  | k + 1, s => ∃ t, step s = .next t ∧ SafeFor k t

/-! ## What a step keeps -/

/-- Every general register but those listed is as it was. -/
def RegsKept (except : List Reg) (s t : State) : Prop := ∀ r, r ∉ except → t.reg r = s.reg r

/-- Every bit of EFLAGS but those listed is as it was. -/
def FlagsKept (except : List Nat) (s t : State) : Prop :=
  ∀ j, j < 32 → j ∉ except → t.eflags.getLsbD j = s.eflags.getLsbD j

/-- Every byte of memory is as it was. -/
def MemoryKept (s t : State) : Prop := ∀ a : Nat, t.mem.read a = s.mem.read a

/-- Every byte of memory but those at the listed addresses is as it was. -/
def MemoryKeptBut (as : List DWord) (s t : State) : Prop :=
  ∀ a : Nat, (∀ b ∈ as, b.toNat ≠ a) → t.mem.read a = s.mem.read a

/-- CPL, every system register but CR0, and the parameters of the run are as they were. -/
structure SystemKept (s t : State) : Prop where
  cpl : t.cpl = s.cpl
  cr2 : t.cr2 = s.cr2
  cr3 : t.cr3 = s.cr3
  dbg : t.dbg = s.dbg
  test : t.test = s.test
  gdtr : t.gdtr = s.gdtr
  idtr : t.idtr = s.idtr
  ldtr : t.ldtr = s.ldtr
  tr : t.tr = s.tr
  haltAddr : t.haltAddr = s.haltAddr
  realSsVector12 : t.realSsVector12 = s.realSsVector12
  intrOffer : t.intrOffer = s.intrOffer

/-- The frame of an instruction that changes no segment register and no CR0: all but EIP, memory, the listed registers
and the listed bits of EFLAGS. -/
structure Kept (regs : List Reg) (flags : List Nat) (s t : State) : Prop where
  regs : RegsKept regs s t
  flags : FlagsKept flags s t
  segs : t.segs = s.segs
  cr0 : t.cr0 = s.cr0
  system : SystemKept s t
  draws : t.draws = s.draws

/-- EIP is at the instruction after `i` (R25). -/
def Advanced (i : Instr) (s t : State) : Prop := t.eip = s.eip + BitVec.ofNat 32 i.length

/-! ## Prefix bytes (R97, R98) -/

/-- The group of a prefix byte: 66; 67; the segment overrides; F0, F2, F3 (R98). -/
def prefixGroup (b : Byte) : Option (Fin 4) :=
  if b = 0x66 then some 0
  else if b = 0x67 then some 1
  else if b ∈ [0x2E, 0x36, 0x3E, 0x26, 0x64, 0x65] then some 2
  else if b ∈ [0xF0, 0xF2, 0xF3] then some 3
  else none

/-- The first opcode bytes of the table (R112), 0F among them. -/
def scopeOpcodes : List Byte :=
  [0xE8, 0xFF, 0x9A, 0x98, 0x99, 0xF8, 0xFC, 0xFA, 0x0F, 0xF5, 0x3C, 0x3D, 0x80, 0x81, 0x83, 0x38, 0x39, 0x3A, 0x3B,
    0xA6, 0xA7]

/-! ## Comparisons (R210, R211) -/

/-- The six flags of R211 in EFLAGS `e`, for the subtraction `left - right` of `n`-bit numbers. -/
structure ComparedFlags {n : Nat} (e : DWord) (left right : BitVec n) : Prop where
  cf : e.getLsbD 0 = decide (left.toNat < right.toNat)
  pf : e.getLsbD 2 = decide (((List.range 8).filter fun k => (left - right).getLsbD k).length % 2 = 0)
  af : e.getLsbD 4 = decide (left.toNat % 16 < right.toNat % 16)
  zf : e.getLsbD 6 = decide ((left - right).toNat = 0)
  sf : e.getLsbD 7 = (left - right).getLsbD (n - 1)
  ov : e.getLsbD 11 =
    (left.getLsbD (n - 1) != right.getLsbD (n - 1) && (left - right).getLsbD (n - 1) != left.getLsbD (n - 1))

/-- The places of the six status flags in EFLAGS (R27). -/
def statusBits : List Nat := [0, 2, 4, 6, 7, 11]

/-- `t` is `s` after a comparison of `left` with `right` by the CMP instruction `i` (R210). -/
structure Compared {n : Nat} (i : Instr) (left right : BitVec n) (s t : State) : Prop where
  next : Advanced i s t
  flags : ComparedFlags t.eflags left right
  kept : Kept [] statusBits s t
  memory : MemoryKept s t

/-- The left and right operand of each CMP form, where they can be read (R214 to R227). -/
inductive CmpOperands (s : State) : Instr → (n : Nat) → BitVec n → BitVec n → Prop where
  | alImm8 (p : Prefixes) (imm : Byte) : CmpOperands s (.cmpAlImm8 p imm) 8 (s.reg8 .al) imm
  | axImm16 (p : Prefixes) (imm : Word) : CmpOperands s (.cmpAxImm16 p imm) 16 (s.reg16 .eax) imm
  | eaxImm32 (p : Prefixes) (imm : DWord) : CmpOperands s (.cmpEaxImm32 p imm) 32 (s.reg .eax) imm
  | rm8Imm8 (p : Prefixes) (d : RM Reg8) (imm v : Byte) (h : readRM8 p d s = .ok v) :
    CmpOperands s (.cmpRm8Imm8 p d imm) 8 v imm
  | rm16Imm16 (p : Prefixes) (d : RM Reg) (imm v : Word) (h : readRM16 p d s = .ok v) :
    CmpOperands s (.cmpRm16Imm16 p d imm) 16 v imm
  | rm32Imm32 (p : Prefixes) (d : RM Reg) (imm v : DWord) (h : readRM32 p d s = .ok v) :
    CmpOperands s (.cmpRm32Imm32 p d imm) 32 v imm
  | rm16Imm8 (p : Prefixes) (d : RM Reg) (imm : Byte) (v : Word) (h : readRM16 p d s = .ok v) :
    CmpOperands s (.cmpRm16Imm8 p d imm) 16 v (imm.signExtend 16)
  | rm32Imm8 (p : Prefixes) (d : RM Reg) (imm : Byte) (v : DWord) (h : readRM32 p d s = .ok v) :
    CmpOperands s (.cmpRm32Imm8 p d imm) 32 v (imm.signExtend 32)
  | rm8R8 (p : Prefixes) (d : RM Reg8) (r : Reg8) (v : Byte) (h : readRM8 p d s = .ok v) :
    CmpOperands s (.cmpRm8R8 p d r) 8 v (s.reg8 r)
  | rm16R16 (p : Prefixes) (d : RM Reg) (r : Reg) (v : Word) (h : readRM16 p d s = .ok v) :
    CmpOperands s (.cmpRm16R16 p d r) 16 v (s.reg16 r)
  | rm32R32 (p : Prefixes) (d : RM Reg) (r : Reg) (v : DWord) (h : readRM32 p d s = .ok v) :
    CmpOperands s (.cmpRm32R32 p d r) 32 v (s.reg r)
  | r8Rm8 (p : Prefixes) (r : Reg8) (d : RM Reg8) (v : Byte) (h : readRM8 p d s = .ok v) :
    CmpOperands s (.cmpR8Rm8 p r d) 8 (s.reg8 r) v
  | r16Rm16 (p : Prefixes) (r : Reg) (d : RM Reg) (v : Word) (h : readRM16 p d s = .ok v) :
    CmpOperands s (.cmpR16Rm16 p r d) 16 (s.reg16 r) v
  | r32Rm32 (p : Prefixes) (r : Reg) (d : RM Reg) (v : DWord) (h : readRM32 p d s = .ok v) :
    CmpOperands s (.cmpR32Rm32 p r d) 32 (s.reg r) v

/-- The memory operand of a CMP form and its width in bytes (R213). -/
inductive CmpMemory : Instr → Prefixes → Mem → Nat → Prop where
  | rm8Imm8 (p : Prefixes) (m : Mem) (imm : Byte) : CmpMemory (.cmpRm8Imm8 p (.mem m) imm) p m 1
  | rm16Imm16 (p : Prefixes) (m : Mem) (imm : Word) : CmpMemory (.cmpRm16Imm16 p (.mem m) imm) p m 2
  | rm32Imm32 (p : Prefixes) (m : Mem) (imm : DWord) : CmpMemory (.cmpRm32Imm32 p (.mem m) imm) p m 4
  | rm16Imm8 (p : Prefixes) (m : Mem) (imm : Byte) : CmpMemory (.cmpRm16Imm8 p (.mem m) imm) p m 2
  | rm32Imm8 (p : Prefixes) (m : Mem) (imm : Byte) : CmpMemory (.cmpRm32Imm8 p (.mem m) imm) p m 4
  | rm8R8 (p : Prefixes) (m : Mem) (r : Reg8) : CmpMemory (.cmpRm8R8 p (.mem m) r) p m 1
  | rm16R16 (p : Prefixes) (m : Mem) (r : Reg) : CmpMemory (.cmpRm16R16 p (.mem m) r) p m 2
  | rm32R32 (p : Prefixes) (m : Mem) (r : Reg) : CmpMemory (.cmpRm32R32 p (.mem m) r) p m 4
  | r8Rm8 (p : Prefixes) (r : Reg8) (m : Mem) : CmpMemory (.cmpR8Rm8 p r (.mem m)) p m 1
  | r16Rm16 (p : Prefixes) (r : Reg) (m : Mem) : CmpMemory (.cmpR16Rm16 p r (.mem m)) p m 2
  | r32Rm32 (p : Prefixes) (r : Reg) (m : Mem) : CmpMemory (.cmpR32Rm32 p r (.mem m)) p m 4

/-- The three CMPS instructions with their prefix bytes, AddressSize and operand width in bytes (R238 to R240). -/
inductive CmpsForm : Instr → Prefixes → Size → Nat → Prop where
  | m8 (p : Prefixes) (asz : Size) : CmpsForm (.cmpsM8 p asz) p asz 1
  | m16 (p : Prefixes) (asz : Size) : CmpsForm (.cmpsM16 p asz) p asz 2
  | m32 (p : Prefixes) (asz : Size) : CmpsForm (.cmpsM32 p asz) p asz 4

/-- An index register moved by `n`, down when DF = 1: with AddressSize 16 its low half only (R236, R241). -/
def IndexMoved (asz : Size) (r : Reg) (n : Nat) (s t : State) : Prop :=
  match asz with
  | .s16 =>
    t.reg16 r = (if s.flag .df then s.reg16 r - BitVec.ofNat 16 n else s.reg16 r + BitVec.ofNat 16 n) ∧
      (t.reg r).extractLsb' 16 16 = (s.reg r).extractLsb' 16 16
  | .s32 => t.reg r = if s.flag .df then s.reg r - BitVec.ofNat 32 n else s.reg r + BitVec.ofNat 32 n

/-! ## Pushes (R75, R76) -/

/-- The linear addresses of `n` bytes in a row, modulo 2^32. -/
def addrRun (a : DWord) : Nat → List DWord
  | 0 => []
  | n + 1 => a :: addrRun (a + 1) n

/-- The bytes `bs` stand at the addresses `as`, and every other byte is as it was. Where two of the addresses are one,
which paging can bring about, nothing is said of the bytes there. -/
def Stored (as : List DWord) (bs : List Byte) (s t : State) : Prop :=
  MemoryKeptBut as s t ∧
    (as.Nodup → ∀ (k : Nat) (a : DWord) (b : Byte), as[k]? = some a → bs[k]? = some b → t.mem.read a.toNat = b)

/-- The stack pointer, SP or ESP by the stack size, is `d` less than it was; with SP the upper half of ESP stays
(R22, R75). -/
def StackLowered (d : Nat) (s t : State) : Prop :=
  match s.stackSize with
  | .s16 =>
    t.reg16 .esp = s.reg16 .esp - BitVec.ofNat 16 d ∧
      (t.reg .esp).extractLsb' 16 16 = (s.reg .esp).extractLsb' 16 16
  | .s32 => t.reg .esp = s.reg .esp - BitVec.ofNat 32 d

/-- The linear address of the `j`-th slot of `n` bytes below the top of the stack, `j` from 1 (R76). -/
def stackSlot (s : State) (n j : Nat) : DWord :=
  linearAddr s.segs.ss (stackBelow s.stackSize (s.reg .esp) (j * n))

/-- The near CALL forms with their OperandSize and target, where the operand can be read (R133 to R136). -/
inductive NearTarget (s : State) : Instr → Size → DWord → Prop where
  | rel16 (p : Prefixes) (rel : Word) :
    NearTarget s (.callRel16 p rel) .s16
      ((s.eip + BitVec.ofNat 32 (Instr.callRel16 p rel).length + rel.signExtend 32) &&& 0xFFFF)
  | rel32 (p : Prefixes) (rel : DWord) :
    NearTarget s (.callRel32 p rel) .s32 (s.eip + BitVec.ofNat 32 (Instr.callRel32 p rel).length + rel)
  | rm16 (p : Prefixes) (d : RM Reg) (v : Word) (h : readRM16 p d s = .ok v) :
    NearTarget s (.callRm16 p d) .s16 (v.setWidth 32)
  | rm32 (p : Prefixes) (d : RM Reg) (v : DWord) (h : readRM32 p d s = .ok v) :
    NearTarget s (.callRm32 p d) .s32 v

/-- The far CALL forms with their OperandSize and long pointer, where the pointer can be read (R138). -/
inductive FarPointer (s : State) : Instr → Size → FarPtr → Prop where
  | ptr1616 (p : Prefixes) (off sel : Word) : FarPointer s (.callPtr1616 p off sel) .s16 ⟨off.setWidth 32, sel⟩
  | ptr1632 (p : Prefixes) (off : DWord) (sel : Word) : FarPointer s (.callPtr1632 p off sel) .s32 ⟨off, sel⟩
  | m1616 (p : Prefixes) (m : Mem) (ptr : FarPtr) (h : readFarPtr p m .s16 s = .ok ptr) :
    FarPointer s (.callM1616 p m) .s16 ptr
  | m1632 (p : Prefixes) (m : Mem) (ptr : FarPtr) (h : readFarPtr p m .s32 s = .ok ptr) :
    FarPointer s (.callM1632 p m) .s32 ptr

/-- `t` is `s` after pushes: nothing but ESP, memory and the count of pads differs. -/
structure OnlyPushed (s t : State) : Prop where
  regs : RegsKept [.esp] s t
  eip : t.eip = s.eip
  eflags : t.eflags = s.eflags
  segs : t.segs = s.segs
  cr0 : t.cr0 = s.cr0
  system : SystemKept s t

/-- The far return address was pushed (R143, R158, R163), `n` bytes a slot: `ret` (its low `n` bytes) at the new top,
the selector above it, the rest of the selector's slot left open; every other byte and the rest of the state are as
they were. -/
structure ReturnPushed (z : Size) (sel : Word) (ret : DWord) (s t : State) : Prop where
  lowered : StackLowered (2 * z.bytes) s t
  offset : ∀ k, k < z.bytes →
    t.mem.read (stackSlot s z.bytes 2 + BitVec.ofNat 32 k).toNat = ret.extractLsb' (8 * k) 8
  selector : ∀ k, k < 2 →
    t.mem.read (stackSlot s z.bytes 1 + BitVec.ofNat 32 k).toNat = sel.extractLsb' (8 * k) 8
  others : MemoryKeptBut (addrRun (stackSlot s z.bytes 1) z.bytes ++ addrRun (stackSlot s z.bytes 2) z.bytes) s t
  kept : OnlyPushed s t

/-- `t` is `s` with the Accessed bit of a descriptor set in memory if it was clear, and nothing else (R155). -/
def AccessedMarked (d : Desc) (s t : State) : Prop :=
  t = if (descAr d.bits).getLsbD 0 then s else s.setMem (s.mem.write (d.addr + 5).toNat (descAr d.bits ||| 1))

/-! ## Far CALL in Protected Mode -/

/-- The table check of FetchDescriptor holds: the entry of `sel` is inside the GDT or the LDT (R152). -/
def inTable (s : State) (sel : Word) : Bool :=
  if selLocal sel then s.ldtr.valid && decide (selIndex sel * 8 + 7 ≤ s.ldtr.limit.toNat)
  else decide (selIndex sel * 8 + 7 ≤ s.gdtr.limit.toNat)

/-- The linear address of the entry of `sel` (R152). -/
def entryAddr (s : State) (sel : Word) : DWord :=
  (if selLocal sel then s.ldtr.base else s.gdtr.base) + BitVec.ofNat 32 (selIndex sel * 8)

/-- `d` is the descriptor of `sel`: its entry is inside the table and `d` is its eight bytes (R152). -/
def DescriptorAt (s : State) (sel : Word) (d : Desc) : Prop :=
  inTable s sel = true ∧ d.addr = entryAddr s sel ∧
    memRead s .read 0 (entryAddr s sel) 8 = .ok d.bits.toNat

/-- `t` is a new task that a far CALL at `s` entered through SwitchTasks (R175, R176, R178). -/
def TaskEntered (s t : State) : Prop :=
  ∃ ret tsel td format image,
    Config.switchTasks s ret true tsel td = .switched image ∧ t = enterTask s format image

/-- The new stack segment of a call to more privilege passes the checks of R165 and `d` is its descriptor. -/
structure NewStackOk (s : State) (nss : Word) (dpl : BitVec 2) (d : Desc) : Prop where
  notNull : selNull nss = false
  entry : DescriptorAt s nss d
  rpl : selRpl nss = dpl
  dpl : descDpl d.bits = dpl
  kind : descKind d.bits = .data true
  present : descPresent d.bits = true

/-- A far CALL reaches the code segment `c` through the call gate `g` (R161): every check of the gate and of its code
segment passes. -/
structure GateReached (s : State) (ptr : FarPtr) (g c : Desc) (gs : Size) (conf : Bool) : Prop where
  mode : s.mode = .prot
  notNull : selNull ptr.sel = false
  gate : DescriptorAt s ptr.sel g
  gateKind : descKind g.bits = .callGate gs
  gateDpl : s.cpl ≤ descDpl g.bits
  gateRpl : selRpl ptr.sel ≤ descDpl g.bits
  gatePresent : descPresent g.bits = true
  codeNotNull : selNull (gateSelector g.bits) = false
  code : DescriptorAt s (gateSelector g.bits) c
  codeKind : descKind c.bits = .code conf
  codeDpl : descDpl c.bits ≤ s.cpl
  codePresent : descPresent c.bits = true

/-- A far CALL selects a code segment directly and passes its privilege and present checks (R159, R160). -/
structure CodeReached (s : State) (ptr : FarPtr) (d : Desc) (conf : Bool) : Prop where
  mode : s.mode = .prot
  notNull : selNull ptr.sel = false
  entry : DescriptorAt s ptr.sel d
  kind : descKind d.bits = .code conf
  rights : if conf then descDpl d.bits ≤ s.cpl else selRpl ptr.sel ≤ s.cpl ∧ descDpl d.bits = s.cpl
  present : descPresent d.bits = true

/-- A far CALL selects a TSS, directly or by a task gate, and passes every check up to the task switch; `tsel` and `td`
are the TSS's selector and descriptor (R175, R176). -/
inductive TssReached (s : State) (ptr : FarPtr) : Word → Desc → TssFormat → Prop where
  | direct (d : Desc) (f : TssFormat) (hm : s.mode = .prot) (hn : selNull ptr.sel = false)
    (hd : DescriptorAt s ptr.sel d) (hk : descKind d.bits = .tss f false) (hc : s.cpl ≤ descDpl d.bits)
    (hr : selRpl ptr.sel ≤ descDpl d.bits) (hp : descPresent d.bits = true) : TssReached s ptr ptr.sel d f
  | gate (g d : Desc) (f : TssFormat) (hm : s.mode = .prot) (hn : selNull ptr.sel = false)
    (hg : DescriptorAt s ptr.sel g) (hk : descKind g.bits = .taskGate) (hc : s.cpl ≤ descDpl g.bits)
    (hr : selRpl ptr.sel ≤ descDpl g.bits) (hp : descPresent g.bits = true)
    (hl : selLocal (gateSelector g.bits) = false) (hd : DescriptorAt s (gateSelector g.bits) d)
    (hkd : descKind d.bits = .tss f false) (hpd : descPresent d.bits = true) :
    TssReached s ptr (gateSelector g.bits) d f

/-- The far CALL forms. -/
def isFarCall : Instr → Bool
  | .callPtr1616 _ _ _ => true
  | .callM1616 _ _ => true
  | .callPtr1632 _ _ _ => true
  | .callM1632 _ _ => true
  | _ => false

/-- The CALL forms, near and far. -/
def isCall (i : Instr) : Bool :=
  isFarCall i ||
    match i with
    | .callRel16 _ _ => true
    | .callRm16 _ _ => true
    | .callRel32 _ _ => true
    | .callRm32 _ _ => true
    | _ => false

end Sys2Proof.Machine
end

