-- ==== Sys2Proof/Certificates/Slice0/Obligations.lean ====
section
/-! DEFINITION. The statements for the provers, in the order of OBLIGATIONS.json. `R<n>` is a rule of spec/, "log entry"
a row of notes/assumptions/. -/

open Sys2Proof Sys2Proof.Machine

/-! ## Reset and what every step keeps -/

/-- What reset leaves where the spec gives a value (R41). That the machine starts from these values at all is the
model's choice (log entry 2), as are the registers not named here (log entry 1). -/
def Obligations.ResetHoldsTheGivenValues : Prop :=
  State.reset.eip = 0x0000FFF0 ∧
  State.reset.segs.cs.sel = 0xF000 ∧ State.reset.segs.cs.base = 0xFFFF0000 ∧
  (∀ n, (State.reset.seg n).limit = 0xFFFF) ∧
  (∀ n, n ≠ .cs → (State.reset.seg n).sel = 0 ∧ (State.reset.seg n).base = 0) ∧
  State.reset.eflags.setWidth 18 = 2 ∧
  (∀ b : Cr0Bit, b ≠ .et → State.reset.cr0Bit b = false) ∧
  State.reset.cpl = 0 ∧ State.reset.idtr.base = 0 ∧ State.reset.idtr.limit = 0x3FF ∧
  State.reset.reg8 .dh = 3 ∧ State.reset.mode = .real ∧
  linearAddr State.reset.segs.cs State.reset.eip = 0xFFFFFFF0

/-- The state after reset meets the invariant: memory in canonical form, the reserved bits of EFLAGS, and in Real
Address Mode CPL 0 and limits FFFFh (R27, R34, R36, R280). -/
def Obligations.ResetMeetsInvariant : Prop := State.reset.Inv

/-- Every step keeps the invariant, from every state that meets it: the canonical form of memory; bit 1 of EFLAGS 1 and
its other reserved bits 0 (R27); in Real Address Mode CPL = 0 and every limit FFFFh; in Virtual 8086 Mode CPL = 3 and
every segment its selector's 64K; in Protected Mode CS.sel[1:0] = CPL (R34, R36, R280). For a task switch this rests on
how the model enters the task (log entry 8). -/
def Obligations.StepKeepsInvariant : Prop := ∀ s t : State, s.Inv → step s = .next t → t.Inv

/-- No step writes GDTR or IDTR (R37), a bit of CR0 other than TS (R31), or a parameter of the run. -/
def Obligations.StepKeepsTablesAndCr0 : Prop :=
  ∀ s t : State, step s = .next t →
    t.gdtr = s.gdtr ∧ t.idtr = s.idtr ∧
    t.haltAddr = s.haltAddr ∧ t.realSsVector12 = s.realSsVector12 ∧ t.intrOffer = s.intrOffer ∧
    ∀ j, j ≠ 3 → t.cr0.getLsbD j = s.cr0.getLsbD j

/-- The mode changes only by a task switch, from Protected Mode to Virtual 8086 Mode, and TS is then set (R283, R178);
without a task switch no step raises CPL numerically. -/
def Obligations.ModeChangesOnlyByTaskSwitch : Prop :=
  ∀ s t : State, step s = .next t →
    (t.mode = s.mode ∨ s.mode = .prot ∧ t.mode = .v86 ∧ TaskEntered s t ∧ t.cr0Bit .ts = true) ∧
    (t.cpl ≤ s.cpl ∨ TaskEntered s t)

/-- A CALL changes CPL only through a call gate to a nonconforming code segment of a smaller DPL, to that DPL, and
through a task switch; it never lowers privilege otherwise. No other instruction changes CPL (R170, which the spec
derives from R160, R161 and R167). -/
def Obligations.CallChangesPrivilegeOnlyByGate : Prop :=
  ∀ (i : Instr) (s t : State), exec i s = .next t →
    (isCall i = false → t.cpl = s.cpl) ∧
    (t.cpl = s.cpl ∨ TaskEntered s t ∨
      (t.cpl < s.cpl ∧ ∃ z ptr g gs c,
        FarPointer s i z ptr ∧ GateReached s ptr g c gs false ∧ t.cpl = descDpl c.bits))

/-- No instruction writes memory except CALL (R62), and none but a far CALL changes a segment register, CPL or another
system register (R34 to R39), but CR0, in which CLTS writes TS (R31, R203). -/
def Obligations.OnlyCallsStore : Prop :=
  ∀ (i : Instr) (s t : State), exec i s = .next t →
    (isCall i = false → MemoryKept s t) ∧
    (isFarCall i = false →
      t.segs = s.segs ∧ SystemKept s t ∧ (∀ j, j ≠ 3 → t.cr0.getLsbD j = s.cr0.getLsbD j) ∧
        ((∀ p, i ≠ .clts p) → t.cr0 = s.cr0))

/-- A far CALL that switches no task changes no flag (R180), no bit of CR0, no general register but ESP (R23), no
segment register but CS and SS, and no system register but CPL. -/
def Obligations.FarCallWithoutTaskSwitchKeeps : Prop :=
  ∀ (i : Instr) (s t : State), isFarCall i = true → exec i s = .next t →
    TaskEntered s t ∨
    (t.eflags = s.eflags ∧ t.cr0 = s.cr0 ∧ RegsKept [.esp] s t ∧
      (∀ n, n ≠ .cs → n ≠ .ss → t.seg n = s.seg n) ∧
      SystemKept s { t with cpl := s.cpl })

/-- `exec` refuses no instruction, and a fault of it is an exception: in Real Address Mode #GP or #SS without an error
code, in Virtual 8086 Mode #GP(0), #SS(0) or #PF with a code (R261, R262, R270, R275). -/
def Obligations.ExecRaisesOnlyExceptions : Prop :=
  ∀ (i : Instr) (s : State),
    (∀ r, exec i s ≠ .refused r) ∧
    ∀ f, exec i s = .fault f →
      ∃ x code, f = .exception x code ∧
        (s.mode = .real → (x = .gp ∨ x = .ss) ∧ code = none) ∧
        (s.mode = .v86 → ((x = .gp ∨ x = .ss) ∧ code = some 0) ∨ (x = .pf ∧ code ≠ none))

/-! ## Decoding -/

/-- Decoding the bytes of a well-formed instruction gives it back, with every operand field at every value, and leaves
the bytes that follow (R90, R91, R96, R102 to R106, R109, R112). -/
def Obligations.DecodeOfEncode : Prop :=
  ∀ (dflt : Size) (i : Instr) (rest : List Byte), i.wf dflt = true →
    decode dflt (encode i ++ rest) = .ok (i, rest)

/-- What the decoder answers is well formed, took exactly the instruction's length in bytes (R94), and that is at most
14 (R95). -/
def Obligations.DecodedIsWellFormed : Prop :=
  ∀ (dflt : Size) (bs : List Byte) (i : Instr) (rest : List Byte), decode dflt bs = .ok (i, rest) →
    i.wf dflt = true ∧ i.length ≤ 14 ∧ ∃ used, bs = used ++ rest ∧ used.length = i.length

/-- The prefix bytes of an instruction may stand in any order (R98). -/
def Obligations.PrefixOrderIsFree : Prop :=
  ∀ (dflt : Size) (i : Instr) (ps rest : List Byte), i.wf dflt = true → ps.Perm (encodePrefixes i.prefixes) →
    decode dflt (ps ++ encodeBody i ++ rest) = .ok (i, rest)

/-- A second prefix byte of a group is refused (R98), and that whatever follows it, an opcode outside the table too, which
is the model's choice (log entry 13); F0 among the prefix bytes of an instruction is refused as LOCK (R99), F2 or F3 as
REP (R100), in any place. -/
def Obligations.RepeatedLockAndRepPrefixesRefused : Prop :=
  (∀ (dflt : Size) (ps : List Byte) (b : Byte) (rest : List Byte),
    (∀ x ∈ ps, prefixGroup x ≠ none) → (ps.map prefixGroup).Nodup → prefixGroup b ∈ ps.map prefixGroup →
      decode dflt (ps ++ b :: rest) = .error .prefixRepeated) ∧
  (∀ (dflt : Size) (i : Instr) (b : Byte) (ps rest : List Byte), i.wf dflt = true →
    ps.Perm (b :: encodePrefixes i.prefixes) →
      (b = 0xF0 → decode dflt (ps ++ encodeBody i ++ rest) = .error .lockPrefix) ∧
      (b = 0xF2 ∨ b = 0xF3 → decode dflt (ps ++ encodeBody i ++ rest) = .error .repPrefix))

/-- Every byte that is neither a prefix byte nor a first opcode byte of the table, 0F with another second byte than 06,
and 80, 81, 83, FF with a `reg` field that the table does not list, are refused as out of scope (R113, R118); the last
once the SIB byte and the displacement that ModR/M calls for are there (R91 steps 4 and 7). -/
def Obligations.OutOfScopeOpcodesRefused : Prop :=
  ∀ (dflt : Size) (p : Prefixes) (op m : Byte) (rest : List Byte),
    (prefixGroup op = none → op ∉ scopeOpcodes →
      decode dflt (encodePrefixes p ++ op :: rest) = .error .outOfScopeOpcode) ∧
    (m ≠ 0x06 → decode dflt (encodePrefixes p ++ 0x0F :: m :: rest) = .error .outOfScopeOpcode) ∧
    ((op = 0x80 ∨ op = 0x81 ∨ op = 0x83) ∧ regOf m ≠ 7 ∨ op = 0xFF ∧ regOf m ≠ 2 ∧ regOf m ≠ 3 →
      let operand := decodeRM Reg.ofNum (p.addressSize dflt) m rest
      (∀ d r, operand = .ok (d, r) →
        decode dflt (encodePrefixes p ++ op :: m :: rest) = .error .outOfScopeOpcode) ∧
      (operand = .error .truncated → decode dflt (encodePrefixes p ++ op :: m :: rest) = .error .truncated))

/-- FF /3 with `mod` = 3 is the invalid opcode: a step that fetches it ends with Fault(6, none) (R116). -/
def Obligations.FarCallWithRegisterIsInvalidOpcode : Prop :=
  ∀ (s : State) (p : Prefixes) (m : Byte) (rest : List Byte),
    atHalt s = false → acceptedInterrupt s = none → modOf m = 3 → regOf m = 3 →
    (fetchFrom s Config.maxInstrBytes 0).1 = encodePrefixes p ++ 0xFF :: m :: rest →
      step s = .fault (.exception .ud none) ∧ Exc.vector .ud = 6

/-- Every row of the opcode table (R112): after any prefix bytes, the row's opcode bytes with its operand bytes are the
row's instruction where its OperandSize is in force. `row` takes that size, or none for "any"; `ops` are the SIB and
displacement bytes of a ModR/M byte `m`, and `d` the operand they give. The sequences at the end are of fixed bytes: the
last is written out from R97 and R112, the others are printed in the spec. -/
def Obligations.OpcodeRowsDecode : Prop :=
  (∀ (dflt : Size) (p : Prefixes) (b : Byte) (w sel : Word) (v : DWord) (rest : List Byte),
    let row := fun (z : Option Size) (bytes : List Byte) (i : Instr) =>
      (∀ k, z = some k → p.operandSize dflt = k) → decode dflt (encodePrefixes p ++ (bytes ++ rest)) = .ok (i, rest)
    let asz := p.addressSize dflt
    row (some .s16) (0xE8 :: bytes16 w) (.callRel16 p w) ∧ row (some .s32) (0xE8 :: bytes32 v) (.callRel32 p v) ∧
    row (some .s16) (0x9A :: (bytes16 w ++ bytes16 sel)) (.callPtr1616 p w sel) ∧
    row (some .s32) (0x9A :: (bytes32 v ++ bytes16 sel)) (.callPtr1632 p v sel) ∧
    row (some .s16) [0x98] (.cbw p) ∧ row (some .s32) [0x98] (.cwde p) ∧
    row none [0xF8] (.clc p) ∧ row none [0xFC] (.cld p) ∧ row none [0xFA] (.cli p) ∧ row none [0x0F, 0x06] (.clts p) ∧
    row none [0xF5] (.cmc p) ∧ row none [0x3C, b] (.cmpAlImm8 p b) ∧
    row (some .s16) (0x3D :: bytes16 w) (.cmpAxImm16 p w) ∧ row (some .s32) (0x3D :: bytes32 v) (.cmpEaxImm32 p v) ∧
    row none [0xA6] (.cmpsM8 p asz) ∧ row (some .s16) [0xA7] (.cmpsM16 p asz) ∧ row (some .s32) [0xA7] (.cmpsM32 p asz) ∧
    row (some .s16) [0x99] (.cwd p) ∧ row (some .s32) [0x99] (.cdq p) ∧
    ∀ (m : Byte) (ops : List Byte),
      (∀ d, (∀ x, decodeRM Reg.ofNum asz m (ops ++ x) = .ok (d, x)) → d.wf asz = true →
        (regOf m = 2 →
          row (some .s16) (0xFF :: m :: ops) (.callRm16 p d) ∧ row (some .s32) (0xFF :: m :: ops) (.callRm32 p d)) ∧
        (∀ a, d = .mem a → regOf m = 3 →
          row (some .s16) (0xFF :: m :: ops) (.callM1616 p a) ∧ row (some .s32) (0xFF :: m :: ops) (.callM1632 p a)) ∧
        (regOf m = 7 →
          row (some .s16) (0x81 :: m :: (ops ++ bytes16 w)) (.cmpRm16Imm16 p d w) ∧
          row (some .s32) (0x81 :: m :: (ops ++ bytes32 v)) (.cmpRm32Imm32 p d v) ∧
          row (some .s16) (0x83 :: m :: (ops ++ [b])) (.cmpRm16Imm8 p d b) ∧
          row (some .s32) (0x83 :: m :: (ops ++ [b])) (.cmpRm32Imm8 p d b)) ∧
        row (some .s16) (0x39 :: m :: ops) (.cmpRm16R16 p d (Reg.ofNum (regOf m))) ∧
        row (some .s32) (0x39 :: m :: ops) (.cmpRm32R32 p d (Reg.ofNum (regOf m))) ∧
        row (some .s16) (0x3B :: m :: ops) (.cmpR16Rm16 p (Reg.ofNum (regOf m)) d) ∧
        row (some .s32) (0x3B :: m :: ops) (.cmpR32Rm32 p (Reg.ofNum (regOf m)) d)) ∧
      (∀ d, (∀ x, decodeRM Reg8.ofNum asz m (ops ++ x) = .ok (d, x)) → d.wf asz = true →
        (regOf m = 7 → row none (0x80 :: m :: (ops ++ [b])) (.cmpRm8Imm8 p d b)) ∧
        row none (0x38 :: m :: ops) (.cmpRm8R8 p d (Reg8.ofNum (regOf m))) ∧
        row none (0x3A :: m :: ops) (.cmpR8Rm8 p (Reg8.ofNum (regOf m)) d))) ∧
  decode .s16 [0xE8, 0x10, 0x00] = .ok (.callRel16 ⟨false, false, none⟩ 0x0010, []) ∧
  decode .s32 [0xFF, 0x15, 0x00, 0x30, 0x00, 0x00] =
    .ok (.callRm32 ⟨false, false, none⟩ (.mem (.a32Direct 0x3000)), []) ∧
  decode .s16 [0x66, 0x9A, 0x00, 0x02, 0x00, 0x00, 0x00, 0x30] =
    .ok (.callPtr1632 ⟨true, false, none⟩ 0x00000200 0x3000, []) ∧
  decode .s16 [0xFF, 0x1F] = .ok (.callM1616 ⟨false, false, none⟩ (.a16 .bx .none), []) ∧
  decode .s16 [0x80, 0xFC, 0x10] = .ok (.cmpRm8Imm8 ⟨false, false, none⟩ (.reg .ah) 0x10, []) ∧
  decode .s16 [0x81, 0x3E, 0x00, 0x20, 0x34, 0x12] =
    .ok (.cmpRm16Imm16 ⟨false, false, none⟩ (.mem (.a16Direct 0x2000)) 0x1234, []) ∧
  decode .s32 [0x3B, 0x44, 0x24, 0x04] =
    .ok (.cmpR32Rm32 ⟨false, false, none⟩ .eax (.mem (.a32Sib .esp none (.d8 0x04))), []) ∧
  decode .s16 [0x0F, 0x06] = .ok (.clts ⟨false, false, none⟩, []) ∧
  decode .s32 [0x26, 0x67, 0xA7] = .ok (.cmpsM32 ⟨false, true, some .es⟩ .s16, [])

/-- 98 is CBW or CWDE, and 99 is CWD or CDQ, by OperandSize alone: the code segment's default size, which is 16 outside
Protected Mode and CS.D in it, switched by a 66 byte; the address-size byte and a segment override change nothing but
the length (R192, R252, which the spec derives from R93). -/
def Obligations.ConversionIsChosenByOperandSize : Prop :=
  (∀ s : State, s.defaultSize = if s.mode = .prot ∧ s.segs.cs.big = true then .s32 else .s16) ∧
  ∀ (dflt : Size) (p : Prefixes) (rest : List Byte),
    decode dflt (encodePrefixes p ++ 0x98 :: rest) =
      .ok (if dflt = .s16 ∧ p.opsize = false ∨ dflt = .s32 ∧ p.opsize = true then .cbw p else .cwde p, rest) ∧
    decode dflt (encodePrefixes p ++ 0x99 :: rest) =
      .ok (if dflt = .s16 ∧ p.opsize = false ∨ dflt = .s32 ∧ p.opsize = true then .cwd p else .cdq p, rest) ∧
    ∀ (q : Prefixes) (s t u : State),
      (exec (.cbw p) s = .next t → exec (.cbw q) s = .next u → u = t.setEip u.eip) ∧
      (exec (.cwde p) s = .next t → exec (.cwde q) s = .next u → u = t.setEip u.eip) ∧
      (exec (.cwd p) s = .next t → exec (.cwd q) s = .next u → u = t.setEip u.eip) ∧
      (exec (.cdq p) s = .next t → exec (.cdq q) s = .next u → u = t.setEip u.eip)

/-- The table of effective addresses with AddressSize 16 (R104), row by row: the bytes ModR/M takes, the address, the
default segment. `b` is a disp8, `w` a disp16, `reg` the field ModR/M has for other use. -/
def Obligations.Address16FollowsTheTable : Prop :=
  ∀ (s : State) (reg : BitVec 3) (b : Byte) (w : Word) (rest : List Byte),
    let row := fun (rm : BitVec 3) (mod : BitVec 2) (bytes : List Byte) (ea : Word) (seg : SegName) =>
      ∃ m, decodeMem .s16 (packByte mod reg rm) (bytes ++ rest) = .ok (m, rest) ∧
        effAddr s m = ea.setWidth 32 ∧ defaultSegment m = seg
    let sum := fun (rm : BitVec 3) (base : Word) (seg : SegName) =>
      row rm 1 [b] (base + b.signExtend 16) seg ∧ row rm 2 (bytes16 w) (base + w) seg
    let bx := s.reg16 .ebx
    let bp := s.reg16 .ebp
    let si := s.reg16 .esi
    let di := s.reg16 .edi
    row 0 0 [] (bx + si) .ds ∧ sum 0 (bx + si) .ds ∧
    row 1 0 [] (bx + di) .ds ∧ sum 1 (bx + di) .ds ∧
    row 2 0 [] (bp + si) .ss ∧ sum 2 (bp + si) .ss ∧
    row 3 0 [] (bp + di) .ss ∧ sum 3 (bp + di) .ss ∧
    row 4 0 [] si .ds ∧ sum 4 si .ds ∧
    row 5 0 [] di .ds ∧ sum 5 di .ds ∧
    row 6 0 (bytes16 w) w .ds ∧ sum 6 bp .ss ∧
    row 7 0 [] bx .ds ∧ sum 7 bx .ds

/-- The table of effective addresses with AddressSize 32 (R105), row by row; `rm` = 4 goes on with a SIB byte. `b` is a
disp8, `d` a disp32. -/
def Obligations.Address32FollowsTheTable : Prop :=
  ∀ (s : State) (reg : BitVec 3) (b : Byte) (d : DWord) (rest : List Byte),
    let row := fun (rm : BitVec 3) (mod : BitVec 2) (bytes : List Byte) (ea : DWord) (seg : SegName) =>
      ∃ m, decodeMem .s32 (packByte mod reg rm) (bytes ++ rest) = .ok (m, rest) ∧
        effAddr s m = ea ∧ defaultSegment m = seg
    let sum := fun (rm : BitVec 3) (base : DWord) (seg : SegName) =>
      row rm 1 [b] (base + b.signExtend 32) seg ∧ row rm 2 (bytes32 d) (base + d) seg
    row 0 0 [] (s.reg .eax) .ds ∧ sum 0 (s.reg .eax) .ds ∧
    row 1 0 [] (s.reg .ecx) .ds ∧ sum 1 (s.reg .ecx) .ds ∧
    row 2 0 [] (s.reg .edx) .ds ∧ sum 2 (s.reg .edx) .ds ∧
    row 3 0 [] (s.reg .ebx) .ds ∧ sum 3 (s.reg .ebx) .ds ∧
    (∀ mod, decodeMem .s32 (packByte mod reg 4) rest = decodeSib mod rest) ∧
    row 5 0 (bytes32 d) d .ds ∧ sum 5 (s.reg .ebp) .ss ∧
    row 6 0 [] (s.reg .esi) .ds ∧ sum 6 (s.reg .esi) .ds ∧
    row 7 0 [] (s.reg .edi) .ds ∧ sum 7 (s.reg .edi) .ds

/-- The SIB byte (R106): base, index times `2^ss` and displacement; no index for `index` = 4; no base for `base` = 5 with
`mod` = 0; SS when the base register is ESP or EBP. `index` = 4 with a scale is refused in every row that has a ModR/M
byte, once the bytes of the instruction are there (R91; four more bytes are enough for any immediate). -/
def Obligations.SibAddressFollowsTheRule : Prop :=
  ∀ (s : State) (reg : BitVec 3) (mod ss : BitVec 2) (index base : BitVec 3) (disp rest : List Byte) (dv : DWord),
    mod ≠ 3 →
    let modrm := packByte mod reg 4
    let sib := packByte ss index base
    let noBase := base = 5 ∧ mod = 0
    (if noBase ∨ mod = 2 then disp = bytes32 dv
      else if mod = 1 then ∃ b : Byte, disp = [b] ∧ dv = b.signExtend 32
      else disp = [] ∧ dv = 0) →
    (index ≠ 4 ∨ ss = 0 →
      ∃ m, decodeMem .s32 modrm (sib :: disp ++ rest) = .ok (m, rest) ∧ m.indexOk = true ∧
        effAddr s m =
          (if noBase then 0 else s.reg (Reg.ofNum base)) +
            (if index = 4 then 0 else s.reg (Reg.ofNum index) * BitVec.ofNat 32 (2 ^ ss.toNat)) + dv ∧
        defaultSegment m = if base = 4 ∨ base = 5 ∧ mod ≠ 0 then .ss else .ds) ∧
    (index = 4 → ss ≠ 0 → 4 ≤ rest.length →
      ∀ (dflt : Size) (p : Prefixes) (op : Byte), p.addressSize dflt = .s32 →
        op ∈ [0x38, 0x39, 0x3A, 0x3B] ∨ op = 0xFF ∧ (reg = 2 ∨ reg = 3) ∨ op ∈ [0x80, 0x81, 0x83] ∧ reg = 7 →
        decode dflt (encodePrefixes p ++ op :: modrm :: (sib :: disp ++ rest)) = .error .sibNoIndexScaled)

/-! ## The step -/

/-- A step runs the decoded instruction: where the run is not over and no interrupt is accepted, if the bytes from
CS:EIP on can be fetched and they are those of a well-formed instruction `i`, the step is `exec i` (R11, R91). EIP is
moved by `exec` itself; the step adds nothing. -/
def Obligations.StepRunsDecodedInstruction : Prop :=
  ∀ (s : State) (i : Instr), atHalt s = false → acceptedInterrupt s = none → i.wf s.defaultSize = true →
    (∀ (k : Nat) (b : Byte), (encode i)[k]? = some b → fetchByte s k = .ok b) →
      step s = exec i s

/-- An instruction stored in memory is the one that runs: with paging off, if the bytes of a well-formed instruction
stand at linear CS.base + EIP on and lie inside the segment, the step is `exec` of it (R63, R71, R82, R93). -/
def Obligations.StoredInstructionRuns : Prop :=
  ∀ (s : State) (i : Instr), atHalt s = false → acceptedInterrupt s = none → s.pagingOn = false →
    i.wf s.defaultSize = true →
    s.eip.toNat + i.length ≤ (if s.mode = .prot then s.segs.cs.limit.toNat + 1 else 0x10000) →
    (∀ (k : Nat) (b : Byte), (encode i)[k]? = some b →
      s.mem.read (s.segs.cs.base + s.eip + BitVec.ofNat 32 k).toNat = b) →
      step s = exec i s

/-- A fault on the byte an unfinished instruction needs next ends the step with that fault (R91, R92), and #GP(0),
Interrupt 13 in Real Address Mode, is the fault of a byte beyond the limit, one past offset FFFFFFFFh included (R25;
log entry 27). -/
def Obligations.FetchFaultEndsTheStep : Prop :=
  ∀ (s : State) (bs : List Byte) (f : Fault), atHalt s = false → acceptedInterrupt s = none →
    bs.length < Config.maxInstrBytes →
    (∀ (k : Nat) (b : Byte), bs[k]? = some b → fetchByte s k = .ok b) →
    decode s.defaultSize bs = .error .truncated →
    fetchByte s bs.length = .error f →
      step s = .fault f ∧
      ((if s.mode = .prot then s.segs.cs.limit.toNat else 0xFFFF) <
          s.eip.toNat + bs.length →
        f = .exception .gp (if s.mode = .real then none else some 0))

/-- What precedes the fetch: at `halt_addr` the run is over (R306); otherwise an offered maskable interrupt is accepted
when IF = 1 and never when IF = 0, and the nonmaskable one, vector 2, whatever IF is (R201, R266). -/
def Obligations.HaltAddressAndInterruptComeFirst : Prop :=
  ∀ (s : State) (v : Byte),
    (s.haltAddr = some s.eip → step s = .fault .runEnded) ∧
    (s.haltAddr ≠ some s.eip → s.intrOffer = some (.maskable v) → s.flag .intr = true →
      step s = .fault (.externalInterrupt v)) ∧
    (s.haltAddr ≠ some s.eip → s.intrOffer = some .nonmaskable → step s = .fault (.externalInterrupt 2)) ∧
    (s.flag .intr = false → s.intrOffer ≠ some .nonmaskable → step s ≠ .fault (.externalInterrupt v))

/-! ## Memory and operands -/

/-- Memory is a map from addresses to bytes: a write is read back and changes no other byte (R64); the canonical form,
the model's own (log entry 3), is kept, and makes memories with the same bytes equal. -/
def Obligations.MemoryIsAMap : Prop :=
  (∀ (m : Memory) (a b : DWord) (v : Byte), m.wf = true →
    (m.write a.toNat v).wf = true ∧
    (m.write a.toNat v).read b.toNat = if b = a then v else m.read b.toNat) ∧
  (∀ m n : Memory, m.wf = true → n.wf = true → (∀ a : DWord, m.read a.toNat = n.read a.toNat) → m = n)

/-- `MemWrite` then `MemRead` (R64), with paging off: the number written comes back, byte `k` of it stands at address
`a + k` modulo 2^32, and no other byte changes. -/
def Obligations.MemReadOfMemWrite : Prop :=
  ∀ (s : State) (cpl c : BitVec 2) (kind : AccessKind) (a : DWord) (n v : Nat),
    s.pagingOn = false → s.mem.wf = true → n ≤ 8 → v < 2 ^ (8 * n) →
    ∃ t, memWrite s cpl a n v = .ok t ∧ memRead t kind c a n = .ok v ∧
      (∀ k, k < n → t.mem.read (a + BitVec.ofNat 32 k).toNat = BitVec.ofNat 8 (v / 2 ^ (8 * k))) ∧
      MemoryKeptBut (addrRun a n) s t ∧ t = s.setMem t.mem

/-- The segment check. In Real Address and Virtual 8086 Mode an access of `n` bytes is legal if and only if its last byte
is at FFFFh or below, the sum taken without wrap-around, whatever the segment and the kind of access (R68). In Protected
Mode it is illegal if and only if one of (a) to (e) of R69 holds; a fetch needs only (d) on CS. That a segment register with
S = 0 counts as expand-up and readable, and that a fetch holds every CS to its limit, an expand-down one too, is the
model's choice (log entries 18 and 28). -/
def Obligations.SegmentCheck : Prop :=
  (∀ (mode : Mode) (name : SegName) (g : Seg) (kind : AccessKind) (off : DWord) (n : Nat), mode ≠ .prot → 0 < n →
    (segLegal mode name g kind off.toNat n = true ↔ off.toNat + n - 1 ≤ 0xFFFF)) ∧
  ∀ (name : SegName) (g : Seg) (off : DWord) (n : Nat), 0 < n →
    let code := g.ar.getLsbD 4 = true ∧ g.ar.getLsbD 3 = true
    let data := g.ar.getLsbD 4 = true ∧ g.ar.getLsbD 3 = false
    let down := data ∧ g.ar.getLsbD 2 = true
    let a := name ≠ .cs ∧ name ≠ .ss ∧ g.sel.toNat / 4 = 0
    let b := code ∧ g.ar.getLsbD 1 = false
    let c := ¬ (data ∧ g.ar.getLsbD 1 = true)
    let d := ¬ down ∧ g.limit.toNat < off.toNat + n - 1
    let e := down ∧ (off.toNat ≤ g.limit.toNat ∨ (if g.big then 0xFFFFFFFF else 0xFFFF) < off.toNat + n - 1)
    (segLegal .prot name g .read off.toNat n = false ↔ a ∨ b ∨ d ∨ e) ∧
    (segLegal .prot name g .write off.toNat n = false ↔ a ∨ c ∨ d ∨ e) ∧
    (segLegal .prot .cs g .execute off.toNat n = false ↔ g.limit.toNat < off.toNat + n - 1)

/-- The exception for an illegal address (R70), read off a segment read that fails its check: #SS(0) through SS and
#GP(0) through the others in Protected Mode; Interrupt 13 in Real Address Mode and #GP(0) in Virtual 8086 Mode; through
SS in these two the vector of the parameter. -/
def Obligations.IllegalAddressException : Prop :=
  ∀ (s : State) (name : SegName) (off : DWord) (n : Nat),
    segLegal s.mode name (s.seg name) .read off.toNat n = false →
    segRead s name off n = .error
      (if s.mode = .prot then .exception (if name = .ss then .ss else .gp) (some 0)
        else .exception (if name = .ss ∧ s.realSsVector12 = true then .ss else .gp)
          (if s.mode = .real then none else some 0))

/-- An r/m operand (R103): a register by its view; a memory operand, with paging off and a legal address, the
little-endian number of the bytes at the segment's base plus the effective address, the segment being the override or
the default one (R64, R67, R71, R107). The views are the bits of R21's table, under its numbers; a write of a 16-bit
view keeps bits 31:16 and every other register (R22). -/
def Obligations.OperandReads : Prop :=
  (List.range 8).map (fun n => Reg.ofNum (BitVec.ofNat 3 n)) = [.eax, .ecx, .edx, .ebx, .esp, .ebp, .esi, .edi] ∧
  (List.range 8).map (fun n => Reg8.ofNum (BitVec.ofNat 3 n)) = [.al, .cl, .dl, .bl, .ah, .ch, .dh, .bh] ∧
  ∀ (s : State) (p : Prefixes),
    [s.reg .eax, s.reg .ecx, s.reg .edx, s.reg .ebx, s.reg .esp, s.reg .ebp, s.reg .esi, s.reg .edi] =
      [s.regs.eax, s.regs.ecx, s.regs.edx, s.regs.ebx, s.regs.esp, s.regs.ebp, s.regs.esi, s.regs.edi] ∧
    (∀ r, s.reg16 r = (s.reg r).extractLsb' 0 16) ∧
    [s.reg8 .al, s.reg8 .cl, s.reg8 .dl, s.reg8 .bl] =
      [s.regs.eax, s.regs.ecx, s.regs.edx, s.regs.ebx].map (fun x => x.extractLsb' 0 8) ∧
    [s.reg8 .ah, s.reg8 .ch, s.reg8 .dh, s.reg8 .bh] =
      [s.regs.eax, s.regs.ecx, s.regs.edx, s.regs.ebx].map (fun x => x.extractLsb' 8 8) ∧
    (∀ r q v, (s.setReg r v).reg q = if q = r then v else s.reg q) ∧
    (∀ r q v, (s.setReg16 r v).reg q = if q = r then (s.reg r).extractLsb' 16 16 ++ v else s.reg q) ∧
    (∀ r, readRM8 p (.reg r) s = .ok (s.reg8 r)) ∧
    (∀ r, readRM16 p (.reg r) s = .ok (s.reg16 r)) ∧
    (∀ r, readRM32 p (.reg r) s = .ok (s.reg r)) ∧
    ∀ m, s.pagingOn = false →
      let name := p.seg.getD (defaultSegment m)
      let byte := fun k => s.mem.read ((s.seg name).base + effAddr s m + BitVec.ofNat 32 k).toNat
      (segLegal s.mode name (s.seg name) .read (effAddr s m).toNat 1 = true →
        readRM8 p (.mem m) s = .ok (byte 0)) ∧
      (segLegal s.mode name (s.seg name) .read (effAddr s m).toNat 2 = true →
        readRM16 p (.mem m) s = .ok (byte 1 ++ byte 0)) ∧
      (segLegal s.mode name (s.seg name) .read (effAddr s m).toNat 4 = true →
        readRM32 p (.mem m) s = .ok (byte 3 ++ byte 2 ++ byte 1 ++ byte 0))

/-- The long pointer of an m16:16 or m16:32 operand (R65, R138): the offset at the operand's address, the selector two
or four bytes above. A pointer that cannot be read ends the instruction, before its other checks: with the exception for
an illegal address (R70), and with #PF where the address is legal. -/
def Obligations.LongPointerReads : Prop :=
  ∀ (s : State) (p : Prefixes) (m : Mem),
    let name := p.seg.getD (defaultSegment m)
    let legal := fun n => segLegal s.mode name (s.seg name) .read (effAddr s m).toNat n
    let byte := fun k => s.mem.read ((s.seg name).base + effAddr s m + BitVec.ofNat 32 k).toNat
    (s.pagingOn = false → legal 4 = true →
      readFarPtr p m .s16 s = .ok ⟨(byte 1 ++ byte 0).setWidth 32, byte 3 ++ byte 2⟩) ∧
    (s.pagingOn = false → legal 6 = true →
      readFarPtr p m .s32 s = .ok ⟨byte 3 ++ byte 2 ++ byte 1 ++ byte 0, byte 5 ++ byte 4⟩) ∧
    (legal 4 = false → exec (.callM1616 p m) s = .fault (operandFault s name)) ∧
    (legal 6 = false → exec (.callM1632 p m) s = .fault (operandFault s name)) ∧
    (∀ f, legal 4 = true → readFarPtr p m .s16 s = .error f →
      exec (.callM1616 p m) s = .fault f ∧ ∃ code, f = raise s .pf code) ∧
    (∀ f, legal 6 = true → readFarPtr p m .s32 s = .error f →
      exec (.callM1632 p m) s = .fault f ∧ ∃ code, f = raise s .pf code)

/-! ## CBW, CWDE, CWD, CDQ -/

/-- CBW makes AX the signed number in AL, CWDE makes EAX the signed number in AX (R190, R191); bits 31:16 of EAX stay
under CBW, no flag and nothing else changes. -/
def Obligations.CbwAndCwdeSignExtend : Prop :=
  ∀ (p : Prefixes) (s : State),
    (∃ t, exec (.cbw p) s = .next t ∧ (t.reg16 .eax).toInt = (s.reg8 .al).toInt ∧
      (t.reg .eax).extractLsb' 16 16 = (s.reg .eax).extractLsb' 16 16 ∧
      Advanced (.cbw p) s t ∧ Kept [.eax] [] s t ∧ MemoryKept s t) ∧
    (∃ t, exec (.cwde p) s = .next t ∧ (t.reg .eax).toInt = (s.reg16 .eax).toInt ∧
      Advanced (.cwde p) s t ∧ Kept [.eax] [] s t ∧ MemoryKept s t)

/-- After CWD the pair DX:AX is the signed number in AX, after CDQ the pair EDX:EAX is the signed number in EAX (R250,
R251); bits 31:16 of EDX stay under CWD, no flag and nothing else changes. -/
def Obligations.CwdAndCdqExtendIntoPair : Prop :=
  ∀ (p : Prefixes) (s : State),
    (∃ t, exec (.cwd p) s = .next t ∧ (t.reg16 .edx ++ t.reg16 .eax).toInt = (s.reg16 .eax).toInt ∧
      (t.reg .edx).extractLsb' 16 16 = (s.reg .edx).extractLsb' 16 16 ∧
      Advanced (.cwd p) s t ∧ Kept [.edx] [] s t ∧ MemoryKept s t) ∧
    (∃ t, exec (.cdq p) s = .next t ∧ (t.reg .edx ++ t.reg .eax).toInt = (s.reg .eax).toInt ∧
      Advanced (.cdq p) s t ∧ Kept [.edx] [] s t ∧ MemoryKept s t)

/-! ## CLC, CLD, CLI, CLTS, CMC -/

/-- CLC clears CF, CLD clears DF, CMC complements CF, and nothing else changes (R195, R197, R206). -/
def Obligations.ClcCldCmcWriteOneFlag : Prop :=
  ∀ (p : Prefixes) (s : State),
    (∃ t, exec (.clc p) s = .next t ∧ t.eflags.getLsbD 0 = false ∧
      Advanced (.clc p) s t ∧ Kept [] [0] s t ∧ MemoryKept s t) ∧
    (∃ t, exec (.cld p) s = .next t ∧ t.eflags.getLsbD 10 = false ∧
      Advanced (.cld p) s t ∧ Kept [] [10] s t ∧ MemoryKept s t) ∧
    (∃ t, exec (.cmc p) s = .next t ∧ t.eflags.getLsbD 0 = !s.eflags.getLsbD 0 ∧
      Advanced (.cmc p) s t ∧ Kept [] [0] s t ∧ MemoryKept s t)

/-- CLI clears IF, and no maskable interrupt can then be accepted, while a nonmaskable one still is, unless PE = 1 and
CPL > IOPL, when it raises #GP(0) (R200, R201). -/
def Obligations.CliClearsInterruptFlag : Prop :=
  ∀ (p : Prefixes) (s : State),
    (s.cr0Bit .pe = false ∨ s.cpl.toNat ≤ s.iopl.toNat →
      ∃ t, exec (.cli p) s = .next t ∧ t.eflags.getLsbD 9 = false ∧
        acceptedInterrupt t = (if s.intrOffer = some .nonmaskable then some 2 else none) ∧
        Advanced (.cli p) s t ∧ Kept [] [9] s t ∧ MemoryKept s t) ∧
    (s.cr0Bit .pe = true → s.iopl.toNat < s.cpl.toNat → exec (.cli p) s = .fault (.exception .gp (some 0)))

/-- The table of CLI's cases, and its example (R202, which the spec derives from R200). -/
def Obligations.CliTable : Prop :=
  (∀ (p : Prefixes) (s : State),
    let clears := ∃ t, exec (.cli p) s = .next t ∧ t.flag .intr = false
    let faults := exec (.cli p) s = .fault (.exception .gp (some 0))
    (s.mode = .real → clears) ∧
    (s.mode = .prot → s.cpl = 0 → clears) ∧
    (s.mode = .prot → s.cpl = 1 → s.iopl = 0 → faults) ∧
    (s.mode = .prot → s.cpl = 1 → s.iopl = 1 ∨ s.iopl = 2 ∨ s.iopl = 3 → clears) ∧
    (s.mode = .prot → s.cpl = 2 → s.iopl = 0 ∨ s.iopl = 1 → faults) ∧
    (s.mode = .prot → s.cpl = 2 → s.iopl = 2 ∨ s.iopl = 3 → clears) ∧
    (s.mode = .prot → s.cpl = 3 → s.iopl = 0 ∨ s.iopl = 1 ∨ s.iopl = 2 → faults) ∧
    (s.mode = .prot → s.cpl = 3 → s.iopl = 3 → clears) ∧
    (s.mode = .v86 → s.cpl = 3 → s.iopl = 0 ∨ s.iopl = 1 ∨ s.iopl = 2 → faults) ∧
    (s.mode = .v86 → s.cpl = 3 → s.iopl = 3 → clears)) ∧
  ∀ s : State, s.mode = .prot → s.cpl = 3 → s.eip = 0x100 →
    (s.eflags = 0x202 → exec (.cli ⟨false, false, none⟩) s = .fault (.exception .gp (some 0))) ∧
    (s.eflags = 0x3202 →
      ∃ t, exec (.cli ⟨false, false, none⟩) s = .next t ∧ t.eflags = 0x3002 ∧ t.eip = 0x101)

/-- CLTS clears TS in CR0 and nothing else, in Real Address Mode and at CPL 0; with PE = 1 at another CPL it raises
#GP(0) (R203). In Virtual 8086 Mode CPL is 3 (R36), so it always faults there. -/
def Obligations.CltsClearsTaskSwitched : Prop :=
  ∀ (p : Prefixes) (s : State),
    (s.cr0Bit .pe = false ∨ s.cpl = 0 →
      ∃ t, exec (.clts p) s = .next t ∧ t.cr0.getLsbD 3 = false ∧ (∀ j, j ≠ 3 → t.cr0.getLsbD j = s.cr0.getLsbD j) ∧
        Advanced (.clts p) s t ∧ Kept [] [] s { t with cr0 := s.cr0 } ∧ MemoryKept s t) ∧
    (s.cr0Bit .pe = true → s.cpl ≠ 0 → exec (.clts p) s = .fault (.exception .gp (some 0))) ∧
    (s.Inv → s.mode = .v86 → exec (.clts p) s = .fault (.exception .gp (some 0)))

/-- What CLC, CLD, CLI, CLTS and CMC have in common (R207, which the spec derives from their five rules): prefix bytes
change the length only, no general register is read or written, and the state each may write is CF, DF, IF, TS, CF and
EIP. -/
def Obligations.FlagControlTouchesOneBit : Prop :=
  ∀ (make : Prefixes → Instr) (flag : List Nat) (ts : List Nat),
    (make = Instr.clc ∧ flag = [0] ∧ ts = []) ∨ (make = Instr.cld ∧ flag = [10] ∧ ts = []) ∨
      (make = Instr.cli ∧ flag = [9] ∧ ts = []) ∨ (make = Instr.clts ∧ flag = [] ∧ ts = [3]) ∨
      (make = Instr.cmc ∧ flag = [0] ∧ ts = []) →
    ∀ (p q : Prefixes) (g : Regs) (s t : State), exec (make p) s = .next t →
      (∃ u, exec (make q) s = .next u ∧ u = t.setEip (s.eip + BitVec.ofNat 32 (make q).length)) ∧
      exec (make p) { s with regs := g } = .next { t with regs := g } ∧
      (∀ j, j ∉ ts → t.cr0.getLsbD j = s.cr0.getLsbD j) ∧
      Kept [] flag s { t with cr0 := s.cr0 } ∧ MemoryKept s t

/-! ## CMP -/

/-- Every form of CMP whose operands can be read completes: it writes the six flags of `left - right`, advances EIP, and
changes nothing else (R210 to R212, R214 to R227). -/
def Obligations.CompareCompletes : Prop :=
  ∀ (s : State) (i : Instr) (n : Nat) (left right : BitVec n), CmpOperands s i n left right →
    ∃ t, exec i s = .next t ∧ Compared i left right s t

/-- A CMP whose memory operand cannot be read raises the fault of the read (R213): the exception for an illegal address
where the segment check fails (R70), and #PF where it passes. -/
def Obligations.CompareFaultsOnIllegalOperand : Prop :=
  ∀ (s : State) (i : Instr) (p : Prefixes) (m : Mem) (n : Nat), CmpMemory i p m n →
    let name := segOf p m
    let legal := segLegal s.mode name (s.seg name) .read (effAddr s m).toNat n
    (legal = false → exec i s = .fault (operandFault s name)) ∧
    (∀ f, segRead s name (effAddr s m) n = .error f → exec i s = .fault f) ∧
    (∀ f, legal = true → segRead s name (effAddr s m) n = .error f → ∃ code, f = raise s .pf code)

/-- What the six flags say of the operands (R211): the values of the rule's table; as unsigned numbers left < right
exactly when CF = 1, as signed numbers exactly when SF differs from OF; ZF for equal operands; AF is bit 4 of
left XOR right XOR res. -/
def Obligations.SubtractionFlagsOrderNumbers : Prop :=
  ∀ (n : Nat) (left right : BitVec n) (e : DWord), 8 ≤ n →
    let f := subFlags left right
    ComparedFlags (withSubFlags e f) left right ∧
    (left.toNat < right.toNat ↔ f.cf = true) ∧
    (left.toInt < right.toInt ↔ f.sf ≠ f.ov) ∧
    (left = right ↔ f.zf = true) ∧
    f.af = (left ^^^ right ^^^ (left - right)).getLsbD 4

/-- Equivalent encodings (R228): with both operands in registers `38 /r` and `3A /r` (39, 3B) with `reg` and `rm`
exchanged; `3C ib` and `80 F8 ib`; `83 /7 ib` and `81 /7 iw` when the word is the sign extension of the byte. The
results are equal; only a different length shows in EIP. The spec derives the rule from R211, R222 and R225. -/
def Obligations.EquivalentCompareEncodings : Prop :=
  ∀ (p : Prefixes) (s t : State),
    (∀ a b, exec (.cmpRm8R8 p (.reg a) b) s = exec (.cmpR8Rm8 p a (.reg b)) s) ∧
    (∀ a b, exec (.cmpRm16R16 p (.reg a) b) s = exec (.cmpR16Rm16 p a (.reg b)) s) ∧
    (∀ a b, exec (.cmpRm32R32 p (.reg a) b) s = exec (.cmpR32Rm32 p a (.reg b)) s) ∧
    (∀ v, exec (.cmpAlImm8 p v) s = .next t →
      exec (.cmpRm8Imm8 p (.reg .al) v) s = .next (t.setEip (t.eip + 1))) ∧
    (∀ d v, exec (.cmpRm16Imm8 p d v) s = .next t →
      exec (.cmpRm16Imm16 p d (v.signExtend 16)) s = .next (t.setEip (t.eip + 1))) ∧
    decode .s16 [0x38, 0xD8] = .ok (.cmpRm8R8 ⟨false, false, none⟩ (.reg .al) .bl, []) ∧
    decode .s16 [0x3A, 0xC3] = .ok (.cmpR8Rm8 ⟨false, false, none⟩ .al (.reg .bl), []) ∧
    decode .s16 [0x80, 0xF8, 0x05] = .ok (.cmpRm8Imm8 ⟨false, false, none⟩ (.reg .al) 0x05, [])

/-! ## CMPS -/

/-- CMPS on bytes, words or doublewords whose two operands can be read and lie inside the offset range of the
AddressSize (R235 to R241): the source at (E)SI through DS or the override, the destination at (E)DI through ES whatever
the override; the six flags of source minus destination; both index registers moved by the width, up or down by DF;
nothing else changes. -/
def Obligations.CompareStringsCompletes : Prop :=
  ∀ (s : State) (i : Instr) (p : Prefixes) (asz : Size) (n l r : Nat), CmpsForm i p asz n →
    let offset := fun x => if asz = .s16 then (s.reg16 x).setWidth 32 else s.reg x
    let inside := fun x => (offset x).toNat + n ≤ if asz = .s16 then 0x10000 else 0x100000000
    inside .esi → inside .edi →
    segRead s (p.seg.getD .ds) (offset .esi) n = .ok l → segRead s .es (offset .edi) n = .ok r →
    ∃ t, exec i s = .next t ∧ Advanced i s t ∧
      ComparedFlags t.eflags (BitVec.ofNat (8 * n) l) (BitVec.ofNat (8 * n) r) ∧
      IndexMoved asz .esi n s t ∧ IndexMoved asz .edi n s t ∧
      Kept [.esi, .edi] statusBits s t ∧ MemoryKept s t

/-- The fault of a CMPS is that of the source operand if it cannot be read, and otherwise that of the destination
(R235, R242). An operand that would cross the end of the offset range is not wrapped and has the fault of an illegal
address (R241; log entry 30). -/
def Obligations.CompareStringsFaultsSourceFirst : Prop :=
  ∀ (s : State) (i : Instr) (p : Prefixes) (asz : Size) (n : Nat), CmpsForm i p asz n →
    let offset := fun x => if asz = .s16 then (s.reg16 x).setWidth 32 else s.reg x
    let inside := fun x => (offset x).toNat + n ≤ if asz = .s16 then 0x10000 else 0x100000000
    let source := p.seg.getD .ds
    (¬ inside .esi → exec i s = .fault (operandFault s source)) ∧
    (inside .esi → ∀ f, segRead s source (offset .esi) n = .error f → exec i s = .fault f) ∧
    (inside .esi → ∀ l, segRead s source (offset .esi) n = .ok l →
      (¬ inside .edi → exec i s = .fault (operandFault s .es)) ∧
      (inside .edi → ∀ f, segRead s .es (offset .edi) n = .error f → exec i s = .fault f))

/-! ## Pushes and near CALL -/

/-- `Push_n` (R75, R77): at the new top, `n` below eSP modulo the stack size, if the slot passes the check; the bytes are
stored, then the pointer is moved; SP leaves the upper half of ESP. A slot that fails the check is the stack fault. -/
def Obligations.PushStoresThenMovesPointer : Prop :=
  ∀ (s : State) (n v : Nat), n = 2 ∨ n = 4 → s.mem.wf = true → v < 2 ^ (8 * n) →
    let off := stackBelow s.stackSize (s.reg .esp) n
    let legal := segLegal s.mode .ss s.segs.ss .write off.toNat n
    (legal = false → push n v s = .error (.exception .ss (if s.mode = .real then none else some 0))) ∧
    (legal = true →
      (∀ f, physAddrs s .write s.cpl n (s.segs.ss.base + off) = .error f → push n v s = .error f) ∧
      (∀ as, physAddrs s .write s.cpl n (s.segs.ss.base + off) = .ok as →
        ∃ t, push n v s = .ok t ∧ StackLowered n s t ∧ OnlyPushed s t ∧ t.draws = s.draws ∧
          Stored as ((List.range n).map fun k => BitVec.ofNat 8 (v / 2 ^ (8 * k))) s t))

/-- `StackRoom(k, n)` for `k = m * n` (R76): it holds if and only if each of the `m` slots passes the write check where
it will land and does not pass the end of the 16-bit or 32-bit offset range (log entry 20); then `m` pushes of `n` bytes
cannot fail on the segment check, only with #PF, and not at all with paging off. -/
def Obligations.StackRoomMakesPushesFit : Prop :=
  ∀ (s : State) (m n : Nat), n = 2 ∨ n = 4 →
    (stackRoom s (m * n) n = true ↔
      ∀ j, 1 ≤ j → j ≤ m →
        let off := (stackBelow s.stackSize (s.reg .esp) (j * n)).toNat
        segLegal s.mode .ss s.segs.ss .write off n = true ∧
          off + n ≤ if s.stackSize = .s16 then 0x10000 else 0x100000000) ∧
    (stackRoom s (m * n) n = true → ∀ vs : List Nat, vs.length = m →
      (s.pagingOn = false → ∃ t, pushList n vs s = .ok t ∧ StackLowered (m * n) s t) ∧
      (∀ f, pushList n vs s = .error f → ∃ code, f = raise s .pf code))

/-- A near CALL with a readable operand, room on the stack, a target inside CS and a stack slot that translates
completes (R131 to R136): the return offset `nEIP`, 2 or 4 bytes by OperandSize, is stored at the new top, the stack
pointer moves, EIP is the target; no other register, flag, system register or byte of memory changes. -/
def Obligations.NearCallCompletes : Prop :=
  ∀ (s : State) (i : Instr) (z : Size) (tgt : DWord) (as : List DWord), NearTarget s i z tgt →
    s.mem.wf = true → stackRoom s z.bytes z.bytes = true → tgt ≤ s.segs.cs.limit →
    physAddrs s .write s.cpl z.bytes (stackSlot s z.bytes 1) = .ok as →
    let ret := s.eip + BitVec.ofNat 32 i.length
    ∃ t, exec i s = .next t ∧ t.eip = tgt ∧ StackLowered z.bytes s t ∧ Kept [.esp] [] s t ∧
      Stored as (match z with
        | .s16 => bytes16 (ret.setWidth 16)
        | .s32 => bytes32 ret) s t

/-- The faults of a CALL that is near, or far outside Protected Mode, in their order (R131, R132, R135, R136, R143, R268).
An operand of a near indirect CALL that cannot be read is that fault, whatever the stack and CS: the exception for an
illegal address, or #PF. Then no room on the stack is the stack fault, whatever the target; with room, a near target
beyond the CS limit, or a far offset above FFFFh, is #GP(0), Interrupt 13 in Real Address Mode. Last, a slot of a near
CALL that does not translate is its #PF. -/
def Obligations.CallFaultOrder : Prop :=
  ∀ (s : State) (i : Instr) (z : Size),
    let code := if s.mode = .real then none else some 0
    (∀ p d f, readRM16 p d s = .error f → exec (.callRm16 p d) s = .fault f) ∧
    (∀ p d f, readRM32 p d s = .error f → exec (.callRm32 p d) s = .fault f) ∧
    (∀ p m,
      let legal := fun n => segLegal s.mode (segOf p m) (s.seg (segOf p m)) .read (effAddr s m).toNat n
      (legal 2 = false → readRM16 p (.mem m) s = .error (operandFault s (segOf p m))) ∧
      (legal 4 = false → readRM32 p (.mem m) s = .error (operandFault s (segOf p m))) ∧
      (∀ f, legal 2 = true → readRM16 p (.mem m) s = .error f → ∃ code, f = raise s .pf code) ∧
      (∀ f, legal 4 = true → readRM32 p (.mem m) s = .error f → ∃ code, f = raise s .pf code)) ∧
    (∀ tgt, NearTarget s i z tgt →
      (stackRoom s z.bytes z.bytes = false → exec i s = .fault (.exception .ss code)) ∧
      (stackRoom s z.bytes z.bytes = true → s.segs.cs.limit < tgt → exec i s = .fault (.exception .gp code)) ∧
      (stackRoom s z.bytes z.bytes = true → tgt ≤ s.segs.cs.limit →
        ∀ f, physAddrs s .write s.cpl z.bytes (stackSlot s z.bytes 1) = .error f →
          exec i s = .fault f ∧ ∃ code, f = raise s .pf code)) ∧
    (∀ ptr, FarPointer s i z ptr → s.mode ≠ .prot →
      (stackRoom s (2 * z.bytes) z.bytes = false → exec i s = .fault (.exception .ss code)) ∧
      (stackRoom s (2 * z.bytes) z.bytes = true → 0xFFFF < ptr.off → exec i s = .fault (.exception .gp code)))

/-- An indirect near CALL reads its operand before it pushes (R137): CALL SP and CALL ESP go to the old value of the
pointer, and a CALL through memory goes to what stood there before, even in the very slot it pushes to. -/
def Obligations.IndirectCallReadsOperandFirst : Prop :=
  ∀ (p : Prefixes) (s t : State),
    (exec (.callRm16 p (.reg .esp)) s = .next t → t.eip = (s.reg16 .esp).setWidth 32) ∧
    (exec (.callRm32 p (.reg .esp)) s = .next t → t.eip = s.reg .esp) ∧
    (∀ m v, readRM16 p (.mem m) s = .ok v → exec (.callRm16 p (.mem m)) s = .next t → t.eip = v.setWidth 32) ∧
    (∀ m v, readRM32 p (.mem m) s = .ok v → exec (.callRm32 p (.mem m)) s = .next t → t.eip = v)

/-! ## Far CALL outside Protected Mode -/

/-- A far CALL in Real Address or Virtual 8086 Mode, paging off, with a readable pointer, room on the stack and an
offset of at most FFFFh completes (R139 to R143): old CS and `nEIP` are on the stack, CS is the selector with base
selector * 16, EIP is the offset; the pad of a 32-bit push is free (log entry 9). -/
def Obligations.FarCallRealCompletes : Prop :=
  ∀ (s : State) (i : Instr) (z : Size) (ptr : FarPtr), FarPointer s i z ptr →
    s.mode ≠ .prot → s.pagingOn = false → s.mem.wf = true →
    stackRoom s (2 * z.bytes) z.bytes = true → ptr.off ≤ 0xFFFF →
    ∃ u, ReturnPushed z s.segs.cs.sel (s.eip + BitVec.ofNat 32 i.length) s u ∧
      exec i s = .next ((u.setCs { s.segs.cs with sel := ptr.sel, base := ptr.sel.setWidth 32 * 16 }).setEip ptr.off)

/-- A far CALL that switches no task, with paging on or off and every check passed: outside Protected Mode, to a code
segment directly, through a gate to the same privilege, and through a gate to more privilege, where the stack is switched
first. The pushes and the stores of Accessed bits decide: if they succeed the instruction is them and the transfer, if
one meets a fault, which is #PF, the instruction is that fault (R143, R155, R159, R160, R163, R167, R270). -/
def Obligations.FarCallIsPushThenTransfer : Prop :=
  ∀ (s : State) (i : Instr) (z : Size) (ptr : FarPtr), FarPointer s i z ptr →
    let ret := s.eip + BitVec.ofNat 32 i.length
    let pushed := fun n => pushReturn Config.padBits n s.segs.cs.sel ret s
    (s.mode ≠ .prot → stackRoom s (2 * z.bytes) z.bytes = true → ptr.off ≤ 0xFFFF →
      (∀ u, pushed z = .ok u → exec i s = .next ((u.setCs (realSeg s.segs.cs ptr.sel)).setEip ptr.off)) ∧
      (∀ f, pushed z = .error f → exec i s = .fault f ∧ ∃ code, f = raise s .pf code)) ∧
    (∀ d conf, CodeReached s ptr d conf → stackRoom s (2 * z.bytes) z.bytes = true →
      farTarget z ptr.off ≤ descLimit d.bits →
      (∀ u v, pushed z = .ok u → markAccessed d u = .ok v →
        exec i s = .next ((v.setCs (segOfDesc (withRpl ptr.sel s.cpl) d.bits)).setEip (farTarget z ptr.off))) ∧
      (∀ f, pushed z = .error f ∨ (∃ u, pushed z = .ok u ∧ markAccessed d u = .error f) →
        exec i s = .fault f ∧ ∃ code, f = raise s .pf code)) ∧
    (∀ g c gs conf, GateReached s ptr g c gs conf → gateOffset gs g.bits ≤ descLimit c.bits →
      let sel := gateSelector g.bits
      (conf = true ∨ descDpl c.bits = s.cpl → stackRoom s (2 * gs.bytes) gs.bytes = true →
        (∀ u v, pushed gs = .ok u → markAccessed c u = .ok v →
          exec i s = .next ((v.setCs (segOfDesc (withRpl sel s.cpl) c.bits)).setEip (gateOffset gs g.bits))) ∧
        (∀ f, pushed gs = .error f ∨ (∃ u, pushed gs = .ok u ∧ markAccessed c u = .error f) →
          exec i s = .fault f ∧ ∃ code, f = raise s .pf code)) ∧
      (conf = false → descDpl c.bits < s.cpl → ∀ inner sd params,
        innerStack s (descDpl c.bits).toNat = .ok inner → NewStackOk s inner.ss (descDpl c.bits) sd →
        stackRoomIn .prot (segOfDesc inner.ss sd.bits) (if descBig sd.bits then .s32 else .s16) inner.esp
          ((gateCount g.bits + 4) * gs.bytes) gs.bytes = true →
        readParams s gs.bytes (gateCount g.bits) 0 = .ok params →
        let switched := switchStack Config.padBits gs ret inner sd params s
        (∀ u v, switched = .ok u → markAccessed c u = .ok v →
          exec i s = .next ((v.setCs (segOfDesc (withRpl sel (descDpl c.bits)) c.bits)).setEip
            (gateOffset gs g.bits)) ∧ v.cpl = descDpl c.bits ∧ v.segs.ss = segOfDesc inner.ss sd.bits) ∧
        (∀ f, switched = .error f ∨ (∃ u, switched = .ok u ∧ markAccessed c u = .error f) →
          exec i s = .fault f ∧ ∃ code, f = raise s .pf code)))

/-! ## Far CALL in Protected Mode -/

/-- The fields of a descriptor (R153): a 64-bit value put together from limit, base, AR byte, D and G by the rule's
table has that base, the limit in bytes with the granularity applied, that AR byte with P, DPL, S and type in it, and
that D; a gate put together from offset, selector, count and AR byte has these, a 286 gate only offset[15:0]. -/
def Obligations.DescriptorFields : Prop :=
  (∀ (limLo : Word) (baseLo : BitVec 24) (p : Bool) (dpl : BitVec 2) (sys : Bool) (type : BitVec 4) (limHi : BitVec 4)
      (avl zero d g : Bool) (baseHi : Byte),
    let ar : Byte := BitVec.ofBool p ++ dpl ++ BitVec.ofBool sys ++ type
    let v : QWord := baseHi ++ BitVec.ofBool g ++ BitVec.ofBool d ++ BitVec.ofBool zero ++ BitVec.ofBool avl ++
      limHi ++ ar ++ baseLo ++ limLo
    let lim := limHi.toNat * 65536 + limLo.toNat
    descBase v = baseHi ++ baseLo ∧ (descLimit v).toNat = (if g then lim * 4096 + 4095 else lim) ∧
    descAr v = ar ∧ descPresent v = p ∧ descDpl v = dpl ∧ descBig v = d) ∧
  (∀ (offHi offLo sel : Word) (ar : Byte) (unused : BitVec 3) (count : BitVec 5),
    let v : QWord := offHi ++ ar ++ unused ++ count ++ sel ++ offLo
    gateOffset .s32 v = offHi ++ offLo ∧ gateOffset .s16 v = offLo.setWidth 32 ∧
    gateSelector v = sel ∧ gateCount v = count.toNat ∧ descAr v = ar)

/-- What a descriptor is, by S and type (R154); P is bit 7 and DPL bits 6 to 5 of the AR byte. -/
def Obligations.DescriptorKinds : Prop :=
  ∀ d : QWord,
    let sys := (descAr d).getLsbD 4
    let type := (descAr d).extractLsb' 0 4
    descPresent d = (descAr d).getLsbD 7 ∧ descDpl d = (descAr d).extractLsb' 5 2 ∧
    (sys = true → type.getLsbD 3 = true → descKind d = .code (type.getLsbD 2)) ∧
    (sys = true → type.getLsbD 3 = false → descKind d = .data (type.getLsbD 1)) ∧
    (sys = false → type = 0b0001 → descKind d = .tss .tss286 false) ∧
    (sys = false → type = 0b0011 → descKind d = .tss .tss286 true) ∧
    (sys = false → type = 0b1001 → descKind d = .tss .tss386 false) ∧
    (sys = false → type = 0b1011 → descKind d = .tss .tss386 true) ∧
    (sys = false → type = 0b0100 → descKind d = .callGate .s16) ∧
    (sys = false → type = 0b1100 → descKind d = .callGate .s32) ∧
    (sys = false → type = 0b0101 → descKind d = .taskGate) ∧
    (sys = false → type.toNat ∈ [2, 6, 7, 14, 15, 0, 8, 10, 13] → descKind d = .other)

/-- A direct far CALL to a code segment, paging off, with every check passed completes (R157 to R160): the return
address is pushed, the Accessed bit set, CS loaded with RPL = CPL, EIP the target; CPL and the rest stay. -/
def Obligations.ProtectedDirectCallCompletes : Prop :=
  ∀ (s : State) (i : Instr) (z : Size) (ptr : FarPtr) (d : Desc) (conf : Bool), FarPointer s i z ptr →
    CodeReached s ptr d conf → s.pagingOn = false → s.mem.wf = true →
    stackRoom s (2 * z.bytes) z.bytes = true →
    let tgt := match z with
      | .s16 => ptr.off &&& 0xFFFF
      | .s32 => ptr.off
    tgt ≤ descLimit d.bits →
    ∃ u v, ReturnPushed z s.segs.cs.sel (s.eip + BitVec.ofNat 32 i.length) s u ∧ AccessedMarked d u v ∧
      exec i s = .next ((v.setCs
        { sel := (ptr.sel &&& 0xFFFC) ||| s.cpl.setWidth 16, base := descBase d.bits, limit := descLimit d.bits
          ar := descAr d.bits ||| 1, big := descBig d.bits }).setEip tgt)

/-- A far CALL through a call gate to the same privilege, or to a conforming segment, paging off, with every check passed
completes (R161 to R163): as the direct call, with the gate's size, selector and offset; the pointer's offset is not
used. -/
def Obligations.CallGateSamePrivilegeCompletes : Prop :=
  ∀ (s : State) (i : Instr) (z : Size) (ptr : FarPtr) (g c : Desc) (gs : Size) (conf : Bool), FarPointer s i z ptr →
    GateReached s ptr g c gs conf → conf = true ∨ descDpl c.bits = s.cpl →
    s.pagingOn = false → s.mem.wf = true → stackRoom s (2 * gs.bytes) gs.bytes = true →
    gateOffset gs g.bits ≤ descLimit c.bits →
    ∃ u v, ReturnPushed gs s.segs.cs.sel (s.eip + BitVec.ofNat 32 i.length) s u ∧ AccessedMarked c u v ∧
      exec i s = .next ((v.setCs
        { sel := (gateSelector g.bits &&& 0xFFFC) ||| s.cpl.setWidth 16, base := descBase c.bits
          limit := descLimit c.bits, ar := descAr c.bits ||| 1, big := descBig c.bits }).setEip
        (gateOffset gs g.bits))

/-- A far CALL through a call gate to more privilege, paging off, with every check passed completes (R164 to R167, R169):
CPL is the code segment's DPL, SS and eSP are those of the TSS, CS and EIP those of the gate. The new stack holds, from
its new top upward in slots of `n` bytes, `nEIP`, old CS, the parameters in their order, old eSP, old SS. The Accessed
bits of the new SS and CS are set in memory where they were clear (R155): SS's before the pushes, which may overlay it,
CS's after them, so that a byte of the stack it is set in holds it. Every other byte of memory, and every register, flag
and system register but those named, is as it was. -/
def Obligations.CallGateMorePrivilegeCompletes : Prop :=
  ∀ (s : State) (i : Instr) (z : Size) (ptr : FarPtr) (g c : Desc) (gs : Size) (inner : InnerStack) (sd : Desc)
      (params : List Nat),
    FarPointer s i z ptr → GateReached s ptr g c gs false → descDpl c.bits < s.cpl →
    s.pagingOn = false → s.mem.wf = true →
    innerStack s (descDpl c.bits).toNat = .ok inner → NewStackOk s inner.ss (descDpl c.bits) sd →
    let n := gs.bytes
    let count := gateCount g.bits
    let newSs := segOfDesc inner.ss sd.bits
    let newSize := if descBig sd.bits then Size.s32 else Size.s16
    stackRoomIn .prot newSs newSize inner.esp ((count + 4) * n) n = true →
    gateOffset gs g.bits ≤ descLimit c.bits → readParams s n count 0 = .ok params →
    let ret := s.eip + BitVec.ofNat 32 i.length
    let slot := fun j => linearAddr newSs (stackBelow newSize inner.esp ((count + 4 - j) * n))
    let stack := ((List.range (count + 4)).map fun j => addrRun (slot j) n).flatten
    let marks := fun d : Desc => if (descAr d.bits).getLsbD 0 then [] else [d.addr + 5]
    ∃ t, exec i s = .next t ∧ t.eip = gateOffset gs g.bits ∧ t.cpl = descDpl c.bits ∧
      t.segs = { s.segs with
        ss := newSs, cs := segOfDesc ((gateSelector g.bits &&& 0xFFFC) ||| (descDpl c.bits).setWidth 16) c.bits } ∧
      (match newSize with
        | .s16 =>
          t.reg16 .esp = low16 inner.esp - BitVec.ofNat 16 ((count + 4) * n) ∧
            (t.reg .esp).extractLsb' 16 16 = (s.reg .esp).extractLsb' 16 16
        | .s32 => t.reg .esp = inner.esp - BitVec.ofNat 32 ((count + 4) * n)) ∧
      RegsKept [.esp] s t ∧ t.eflags = s.eflags ∧ t.cr0 = s.cr0 ∧ SystemKept s { t with cpl := s.cpl } ∧
      (let holds := fun j k (b : Byte) =>
        slot j + BitVec.ofNat 32 k ∉ marks c → t.mem.read (slot j + BitVec.ofNat 32 k).toNat = b
      (∀ k, k < n → holds 0 k (ret.extractLsb' (8 * k) 8)) ∧
      (∀ k, k < 2 → holds 1 k (s.segs.cs.sel.extractLsb' (8 * k) 8)) ∧
      (∀ j v k, params[j]? = some v → k < n → holds (2 + j) k (BitVec.ofNat 8 (v / 2 ^ (8 * k)))) ∧
      (∀ k, k < n → holds (2 + count) k ((stackTop s.stackSize (s.reg .esp)).extractLsb' (8 * k) 8)) ∧
      (∀ k, k < 2 → holds (3 + count) k (s.segs.ss.sel.extractLsb' (8 * k) 8))) ∧
      (∀ a ∈ marks c, t.mem.read a.toNat = descAr c.bits ||| 1) ∧
      (∀ a ∈ marks sd, a ∉ stack → t.mem.read a.toNat = descAr sd.bits ||| 1) ∧
      MemoryKeptBut (stack ++ marks sd ++ marks c) s t

/-- A far CALL to a TSS, directly or by a task gate, with every check passed and a task from SwitchTasks whose EIP is
inside its CS, enters that task (R175, R176, R178): TS is set and no other bit of CR0 changes, the new EIP is within the
CS limit; the rest is what SwitchTasks says (log entry 8). If the new EIP is beyond the limit it is #TS(0), and a fault
of SwitchTasks is the instruction's. -/
def Obligations.TaskCallEntersTask : Prop :=
  ∀ (s : State) (i : Instr) (z : Size) (ptr : FarPtr) (tsel : Word) (d : Desc) (f : TssFormat), FarPointer s i z ptr →
    TssReached s ptr tsel d f →
    let answer := Config.switchTasks s (s.eip + BitVec.ofNat 32 i.length) true tsel d.bits
    (∀ image, answer = .switched image →
      let t := enterTask s f image
      (t.eip ≤ t.segs.cs.limit → exec i s = .next t ∧ t.regs = image.regs ∧ t.eip = image.eip ∧
        t.cr0.getLsbD 3 = true ∧ (∀ j, j ≠ 3 → t.cr0.getLsbD j = s.cr0.getLsbD j) ∧
        t.gdtr = s.gdtr ∧ t.idtr = s.idtr) ∧
      (t.segs.cs.limit < t.eip → exec i s = .fault (.exception .ts (some 0)))) ∧
    (∀ x code, answer = .faulted x code → exec i s = .fault (.exception x code))

/-- The first check that fails on the way to a code segment is the one reported, with its error code (R150, R157 to
R160, R181, R263): null selector #GP(0); entry outside its table #GP(sel); a kind that cannot be called #GP(sel); the
privilege checks #GP(sel); not present #NP(sel); no room #SS(0); target beyond the limit #GP(0). An error code made of
a selector is the selector with its low two bits 0. -/
def Obligations.ProtectedDirectCallFaults : Prop :=
  ∀ (s : State) (i : Instr) (z : Size) (ptr : FarPtr), FarPointer s i z ptr → s.mode = .prot →
    let sel := ptr.sel
    let fault := fun x (c : Word) => exec i s = .fault (.exception x (some (c &&& 0xFFFC)))
    (sel.toNat < 4 → fault .gp 0) ∧
    (selNull sel = false → inTable s sel = false → fault .gp sel) ∧
    ∀ d, selNull sel = false → DescriptorAt s sel d →
      (descKind d.bits = .other ∨ (∃ w, descKind d.bits = .data w) → fault .gp sel) ∧
      (descKind d.bits = .code true → s.cpl < descDpl d.bits → fault .gp sel) ∧
      (descKind d.bits = .code false → s.cpl < selRpl sel ∨ descDpl d.bits ≠ s.cpl → fault .gp sel) ∧
      (∀ conf, descKind d.bits = .code conf →
        (if conf then descDpl d.bits ≤ s.cpl else selRpl sel ≤ s.cpl ∧ descDpl d.bits = s.cpl) →
        (descPresent d.bits = false → fault .np sel) ∧
        (descPresent d.bits = true → stackRoom s (2 * z.bytes) z.bytes = false → fault .ss 0) ∧
        (descPresent d.bits = true → stackRoom s (2 * z.bytes) z.bytes = true →
          descLimit d.bits < farTarget z ptr.off → fault .gp 0))

/-- The first check of a call gate that fails is the one reported (R161, R163, R165, R166, R181): the gate's privilege
#GP(sel), not present #NP(sel); the code segment's selector null #GP(0), outside its table, no code segment or of a
greater DPL #GP(csel), not present #NP(csel); to the same privilege no room #SS(0), target beyond the limit #GP(0); to
more privilege the fault of the TSS's stack pointer, a null stack selector #TS(0), a stack segment of the wrong kind or
privilege #TS(nSS), not present #SS(nSS), no room #SS(0), target beyond the limit #GP(0), then the fault of reading a
parameter. -/
def Obligations.CallGateFaults : Prop :=
  ∀ (s : State) (i : Instr) (z : Size) (ptr : FarPtr) (g : Desc) (gs : Size), FarPointer s i z ptr → s.mode = .prot →
    selNull ptr.sel = false → DescriptorAt s ptr.sel g → descKind g.bits = .callGate gs →
    let sel := ptr.sel
    let csel := gateSelector g.bits
    let fault := fun x (c : Word) => exec i s = .fault (.exception x (some (c &&& 0xFFFC)))
    (descDpl g.bits < s.cpl ∨ descDpl g.bits < selRpl sel → fault .gp sel) ∧
    (s.cpl ≤ descDpl g.bits → selRpl sel ≤ descDpl g.bits →
      (descPresent g.bits = false → fault .np sel) ∧
      (descPresent g.bits = true → selNull csel = true → fault .gp 0) ∧
      (descPresent g.bits = true → selNull csel = false → inTable s csel = false → fault .gp csel) ∧
      ∀ c, descPresent g.bits = true → selNull csel = false → DescriptorAt s csel c →
        ((∀ conf, descKind c.bits ≠ .code conf) → fault .gp csel) ∧
        (∀ conf, descKind c.bits = .code conf →
          (s.cpl < descDpl c.bits → fault .gp csel) ∧
          (descDpl c.bits ≤ s.cpl → descPresent c.bits = false → fault .np csel))) ∧
    (∀ c conf, GateReached s ptr g c gs conf →
      (conf = true ∨ descDpl c.bits = s.cpl →
        (stackRoom s (2 * gs.bytes) gs.bytes = false → fault .ss 0) ∧
        (stackRoom s (2 * gs.bytes) gs.bytes = true → descLimit c.bits < gateOffset gs g.bits → fault .gp 0)) ∧
      (conf = false → descDpl c.bits < s.cpl → ∀ f, innerStack s (descDpl c.bits).toNat = .error f →
        exec i s = .fault f) ∧
      (conf = false → descDpl c.bits < s.cpl → ∀ inner, innerStack s (descDpl c.bits).toNat = .ok inner →
        (selNull inner.ss = true → fault .ts 0) ∧
        (selNull inner.ss = false → inTable s inner.ss = false → fault .ts inner.ss) ∧
        (∀ sd, selNull inner.ss = false → DescriptorAt s inner.ss sd →
          (selRpl inner.ss ≠ descDpl c.bits ∨ descDpl sd.bits ≠ descDpl c.bits ∨ descKind sd.bits ≠ .data true →
            fault .ts inner.ss) ∧
          (selRpl inner.ss = descDpl c.bits → descDpl sd.bits = descDpl c.bits → descKind sd.bits = .data true →
            descPresent sd.bits = false → fault .ss inner.ss)) ∧
        (∀ sd, NewStackOk s inner.ss (descDpl c.bits) sd →
          let newSize := if descBig sd.bits then Size.s32 else Size.s16
          let room := stackRoomIn .prot (segOfDesc inner.ss sd.bits) newSize inner.esp
            ((gateCount g.bits + 4) * gs.bytes) gs.bytes
          (room = false → fault .ss 0) ∧
          (room = true → descLimit c.bits < gateOffset gs g.bits → fault .gp 0) ∧
          (room = true → gateOffset gs g.bits ≤ descLimit c.bits →
            ∀ f, readParams s gs.bytes (gateCount g.bits) 0 = .error f → exec i s = .fault f))))

/-- The checks of a call to a task (R175, R176, R181): a task gate's or TSS's privilege #TS(sel), gate not present
#NP(sel); the gate's TSS selector local or outside the GDT #TS(tsel), its TSS not available #TS(tsel), not present
#NP(tsel); a busy TSS called directly #TS(sel), not present #NP(sel). -/
def Obligations.TaskCallFaults : Prop :=
  ∀ (s : State) (i : Instr) (z : Size) (ptr : FarPtr) (g : Desc), FarPointer s i z ptr → s.mode = .prot →
    selNull ptr.sel = false → DescriptorAt s ptr.sel g →
    let sel := ptr.sel
    let tsel := gateSelector g.bits
    let fault := fun x (c : Word) => exec i s = .fault (.exception x (some (c &&& 0xFFFC)))
    let rights := s.cpl ≤ descDpl g.bits ∧ selRpl sel ≤ descDpl g.bits
    (descKind g.bits = .taskGate →
      (¬ rights → fault .ts sel) ∧
      (rights → descPresent g.bits = false → fault .np sel) ∧
      (rights → descPresent g.bits = true →
        (selLocal tsel = true → fault .ts tsel) ∧
        (selLocal tsel = false → inTable s tsel = false → fault .ts tsel) ∧
        (∀ d, selLocal tsel = false → DescriptorAt s tsel d →
          ((∀ f, descKind d.bits ≠ .tss f false) → fault .ts tsel) ∧
          (∀ f, descKind d.bits = .tss f false → descPresent d.bits = false → fault .np tsel)))) ∧
    (∀ f busy, descKind g.bits = .tss f busy →
      (¬ rights → fault .ts sel) ∧
      (rights → busy = true → fault .ts sel) ∧
      (rights → busy = false → descPresent g.bits = false → fault .np sel))

/-- The stack pointer and SS selector for a more privileged level `l` come from the running task's TSS (R164): with
paging off, from offsets 4 + 8l and 8 + 8l of a 386 TSS, 2 + 4l and 4 + 4l of a 286 TSS; a TSS too short for them is
#TS(TR selector). -/
def Obligations.InnerStackComesFromTss : Prop :=
  ∀ (s : State) (l : Nat), l < 3 →
    let byte := fun k => s.mem.read (s.tr.base + BitVec.ofNat 32 k).toNat
    let last := match s.tr.format with
      | .tss386 => 8 * l + 9
      | .tss286 => 4 * l + 5
    (s.tr.limit.toNat < last → innerStack s l = .error (raise s .ts (s.tr.sel &&& 0xFFFC))) ∧
    (last ≤ s.tr.limit.toNat → s.pagingOn = false →
      innerStack s l = .ok (match s.tr.format with
        | .tss386 =>
          { esp := byte (7 + 8 * l) ++ byte (6 + 8 * l) ++ byte (5 + 8 * l) ++ byte (4 + 8 * l)
            ss := byte (9 + 8 * l) ++ byte (8 + 8 * l) }
        | .tss286 =>
          { esp := (byte (3 + 4 * l) ++ byte (2 + 4 * l)).setWidth 32
            ss := byte (5 + 4 * l) ++ byte (4 + 4 * l) }))
end

