-- ==== Sys2Proof/Laws/State.lean ====
section
/-! SUPPORT. One lemma per field per update of the state, true by rfl, so that no proof unfolds a record update; the
register, segment and mode reads of an updated state. -/

namespace Sys2Proof.Machine

/-! ### setReg -/

@[simp] theorem State.setReg_regs (s : State) (r : Reg) (v : DWord) : (s.setReg r v).regs = s.regs.set r v := rfl
@[simp] theorem State.setReg_eip (s : State) (r : Reg) (v : DWord) : (s.setReg r v).eip = s.eip := rfl
@[simp] theorem State.setReg_eflags (s : State) (r : Reg) (v : DWord) : (s.setReg r v).eflags = s.eflags := rfl
@[simp] theorem State.setReg_segs (s : State) (r : Reg) (v : DWord) : (s.setReg r v).segs = s.segs := rfl
@[simp] theorem State.setReg_cpl (s : State) (r : Reg) (v : DWord) : (s.setReg r v).cpl = s.cpl := rfl
@[simp] theorem State.setReg_cr0 (s : State) (r : Reg) (v : DWord) : (s.setReg r v).cr0 = s.cr0 := rfl
@[simp] theorem State.setReg_cr2 (s : State) (r : Reg) (v : DWord) : (s.setReg r v).cr2 = s.cr2 := rfl
@[simp] theorem State.setReg_cr3 (s : State) (r : Reg) (v : DWord) : (s.setReg r v).cr3 = s.cr3 := rfl
@[simp] theorem State.setReg_dbg (s : State) (r : Reg) (v : DWord) : (s.setReg r v).dbg = s.dbg := rfl
@[simp] theorem State.setReg_test (s : State) (r : Reg) (v : DWord) : (s.setReg r v).test = s.test := rfl
@[simp] theorem State.setReg_gdtr (s : State) (r : Reg) (v : DWord) : (s.setReg r v).gdtr = s.gdtr := rfl
@[simp] theorem State.setReg_idtr (s : State) (r : Reg) (v : DWord) : (s.setReg r v).idtr = s.idtr := rfl
@[simp] theorem State.setReg_ldtr (s : State) (r : Reg) (v : DWord) : (s.setReg r v).ldtr = s.ldtr := rfl
@[simp] theorem State.setReg_tr (s : State) (r : Reg) (v : DWord) : (s.setReg r v).tr = s.tr := rfl
@[simp] theorem State.setReg_mem (s : State) (r : Reg) (v : DWord) : (s.setReg r v).mem = s.mem := rfl
@[simp] theorem State.setReg_haltAddr (s : State) (r : Reg) (v : DWord) : (s.setReg r v).haltAddr = s.haltAddr := rfl
@[simp] theorem State.setReg_realSsVector12 (s : State) (r : Reg) (v : DWord) : (s.setReg r v).realSsVector12 = s.realSsVector12 := rfl
@[simp] theorem State.setReg_intrOffer (s : State) (r : Reg) (v : DWord) : (s.setReg r v).intrOffer = s.intrOffer := rfl
@[simp] theorem State.setReg_draws (s : State) (r : Reg) (v : DWord) : (s.setReg r v).draws = s.draws := rfl

/-! ### setReg16 -/

@[simp] theorem State.setReg16_regs (s : State) (r : Reg) (v : Word) : (s.setReg16 r v).regs = s.regs.set r (withLow16 (s.reg r) v) := rfl
@[simp] theorem State.setReg16_eip (s : State) (r : Reg) (v : Word) : (s.setReg16 r v).eip = s.eip := rfl
@[simp] theorem State.setReg16_eflags (s : State) (r : Reg) (v : Word) : (s.setReg16 r v).eflags = s.eflags := rfl
@[simp] theorem State.setReg16_segs (s : State) (r : Reg) (v : Word) : (s.setReg16 r v).segs = s.segs := rfl
@[simp] theorem State.setReg16_cpl (s : State) (r : Reg) (v : Word) : (s.setReg16 r v).cpl = s.cpl := rfl
@[simp] theorem State.setReg16_cr0 (s : State) (r : Reg) (v : Word) : (s.setReg16 r v).cr0 = s.cr0 := rfl
@[simp] theorem State.setReg16_cr2 (s : State) (r : Reg) (v : Word) : (s.setReg16 r v).cr2 = s.cr2 := rfl
@[simp] theorem State.setReg16_cr3 (s : State) (r : Reg) (v : Word) : (s.setReg16 r v).cr3 = s.cr3 := rfl
@[simp] theorem State.setReg16_dbg (s : State) (r : Reg) (v : Word) : (s.setReg16 r v).dbg = s.dbg := rfl
@[simp] theorem State.setReg16_test (s : State) (r : Reg) (v : Word) : (s.setReg16 r v).test = s.test := rfl
@[simp] theorem State.setReg16_gdtr (s : State) (r : Reg) (v : Word) : (s.setReg16 r v).gdtr = s.gdtr := rfl
@[simp] theorem State.setReg16_idtr (s : State) (r : Reg) (v : Word) : (s.setReg16 r v).idtr = s.idtr := rfl
@[simp] theorem State.setReg16_ldtr (s : State) (r : Reg) (v : Word) : (s.setReg16 r v).ldtr = s.ldtr := rfl
@[simp] theorem State.setReg16_tr (s : State) (r : Reg) (v : Word) : (s.setReg16 r v).tr = s.tr := rfl
@[simp] theorem State.setReg16_mem (s : State) (r : Reg) (v : Word) : (s.setReg16 r v).mem = s.mem := rfl
@[simp] theorem State.setReg16_haltAddr (s : State) (r : Reg) (v : Word) : (s.setReg16 r v).haltAddr = s.haltAddr := rfl
@[simp] theorem State.setReg16_realSsVector12 (s : State) (r : Reg) (v : Word) : (s.setReg16 r v).realSsVector12 = s.realSsVector12 := rfl
@[simp] theorem State.setReg16_intrOffer (s : State) (r : Reg) (v : Word) : (s.setReg16 r v).intrOffer = s.intrOffer := rfl
@[simp] theorem State.setReg16_draws (s : State) (r : Reg) (v : Word) : (s.setReg16 r v).draws = s.draws := rfl

/-! ### setEip -/

@[simp] theorem State.setEip_regs (s : State) (v : DWord) : (s.setEip v).regs = s.regs := rfl
@[simp] theorem State.setEip_eip (s : State) (v : DWord) : (s.setEip v).eip = v := rfl
@[simp] theorem State.setEip_eflags (s : State) (v : DWord) : (s.setEip v).eflags = s.eflags := rfl
@[simp] theorem State.setEip_segs (s : State) (v : DWord) : (s.setEip v).segs = s.segs := rfl
@[simp] theorem State.setEip_cpl (s : State) (v : DWord) : (s.setEip v).cpl = s.cpl := rfl
@[simp] theorem State.setEip_cr0 (s : State) (v : DWord) : (s.setEip v).cr0 = s.cr0 := rfl
@[simp] theorem State.setEip_cr2 (s : State) (v : DWord) : (s.setEip v).cr2 = s.cr2 := rfl
@[simp] theorem State.setEip_cr3 (s : State) (v : DWord) : (s.setEip v).cr3 = s.cr3 := rfl
@[simp] theorem State.setEip_dbg (s : State) (v : DWord) : (s.setEip v).dbg = s.dbg := rfl
@[simp] theorem State.setEip_test (s : State) (v : DWord) : (s.setEip v).test = s.test := rfl
@[simp] theorem State.setEip_gdtr (s : State) (v : DWord) : (s.setEip v).gdtr = s.gdtr := rfl
@[simp] theorem State.setEip_idtr (s : State) (v : DWord) : (s.setEip v).idtr = s.idtr := rfl
@[simp] theorem State.setEip_ldtr (s : State) (v : DWord) : (s.setEip v).ldtr = s.ldtr := rfl
@[simp] theorem State.setEip_tr (s : State) (v : DWord) : (s.setEip v).tr = s.tr := rfl
@[simp] theorem State.setEip_mem (s : State) (v : DWord) : (s.setEip v).mem = s.mem := rfl
@[simp] theorem State.setEip_haltAddr (s : State) (v : DWord) : (s.setEip v).haltAddr = s.haltAddr := rfl
@[simp] theorem State.setEip_realSsVector12 (s : State) (v : DWord) : (s.setEip v).realSsVector12 = s.realSsVector12 := rfl
@[simp] theorem State.setEip_intrOffer (s : State) (v : DWord) : (s.setEip v).intrOffer = s.intrOffer := rfl
@[simp] theorem State.setEip_draws (s : State) (v : DWord) : (s.setEip v).draws = s.draws := rfl

/-! ### setEflags -/

@[simp] theorem State.setEflags_regs (s : State) (v : DWord) : (s.setEflags v).regs = s.regs := rfl
@[simp] theorem State.setEflags_eip (s : State) (v : DWord) : (s.setEflags v).eip = s.eip := rfl
@[simp] theorem State.setEflags_eflags (s : State) (v : DWord) : (s.setEflags v).eflags = v := rfl
@[simp] theorem State.setEflags_segs (s : State) (v : DWord) : (s.setEflags v).segs = s.segs := rfl
@[simp] theorem State.setEflags_cpl (s : State) (v : DWord) : (s.setEflags v).cpl = s.cpl := rfl
@[simp] theorem State.setEflags_cr0 (s : State) (v : DWord) : (s.setEflags v).cr0 = s.cr0 := rfl
@[simp] theorem State.setEflags_cr2 (s : State) (v : DWord) : (s.setEflags v).cr2 = s.cr2 := rfl
@[simp] theorem State.setEflags_cr3 (s : State) (v : DWord) : (s.setEflags v).cr3 = s.cr3 := rfl
@[simp] theorem State.setEflags_dbg (s : State) (v : DWord) : (s.setEflags v).dbg = s.dbg := rfl
@[simp] theorem State.setEflags_test (s : State) (v : DWord) : (s.setEflags v).test = s.test := rfl
@[simp] theorem State.setEflags_gdtr (s : State) (v : DWord) : (s.setEflags v).gdtr = s.gdtr := rfl
@[simp] theorem State.setEflags_idtr (s : State) (v : DWord) : (s.setEflags v).idtr = s.idtr := rfl
@[simp] theorem State.setEflags_ldtr (s : State) (v : DWord) : (s.setEflags v).ldtr = s.ldtr := rfl
@[simp] theorem State.setEflags_tr (s : State) (v : DWord) : (s.setEflags v).tr = s.tr := rfl
@[simp] theorem State.setEflags_mem (s : State) (v : DWord) : (s.setEflags v).mem = s.mem := rfl
@[simp] theorem State.setEflags_haltAddr (s : State) (v : DWord) : (s.setEflags v).haltAddr = s.haltAddr := rfl
@[simp] theorem State.setEflags_realSsVector12 (s : State) (v : DWord) : (s.setEflags v).realSsVector12 = s.realSsVector12 := rfl
@[simp] theorem State.setEflags_intrOffer (s : State) (v : DWord) : (s.setEflags v).intrOffer = s.intrOffer := rfl
@[simp] theorem State.setEflags_draws (s : State) (v : DWord) : (s.setEflags v).draws = s.draws := rfl

/-! ### setFlag -/

@[simp] theorem State.setFlag_regs (s : State) (f : Flag) (b : Bool) : (s.setFlag f b).regs = s.regs := rfl
@[simp] theorem State.setFlag_eip (s : State) (f : Flag) (b : Bool) : (s.setFlag f b).eip = s.eip := rfl
@[simp] theorem State.setFlag_eflags (s : State) (f : Flag) (b : Bool) : (s.setFlag f b).eflags = setBit s.eflags f.bit b := rfl
@[simp] theorem State.setFlag_segs (s : State) (f : Flag) (b : Bool) : (s.setFlag f b).segs = s.segs := rfl
@[simp] theorem State.setFlag_cpl (s : State) (f : Flag) (b : Bool) : (s.setFlag f b).cpl = s.cpl := rfl
@[simp] theorem State.setFlag_cr0 (s : State) (f : Flag) (b : Bool) : (s.setFlag f b).cr0 = s.cr0 := rfl
@[simp] theorem State.setFlag_cr2 (s : State) (f : Flag) (b : Bool) : (s.setFlag f b).cr2 = s.cr2 := rfl
@[simp] theorem State.setFlag_cr3 (s : State) (f : Flag) (b : Bool) : (s.setFlag f b).cr3 = s.cr3 := rfl
@[simp] theorem State.setFlag_dbg (s : State) (f : Flag) (b : Bool) : (s.setFlag f b).dbg = s.dbg := rfl
@[simp] theorem State.setFlag_test (s : State) (f : Flag) (b : Bool) : (s.setFlag f b).test = s.test := rfl
@[simp] theorem State.setFlag_gdtr (s : State) (f : Flag) (b : Bool) : (s.setFlag f b).gdtr = s.gdtr := rfl
@[simp] theorem State.setFlag_idtr (s : State) (f : Flag) (b : Bool) : (s.setFlag f b).idtr = s.idtr := rfl
@[simp] theorem State.setFlag_ldtr (s : State) (f : Flag) (b : Bool) : (s.setFlag f b).ldtr = s.ldtr := rfl
@[simp] theorem State.setFlag_tr (s : State) (f : Flag) (b : Bool) : (s.setFlag f b).tr = s.tr := rfl
@[simp] theorem State.setFlag_mem (s : State) (f : Flag) (b : Bool) : (s.setFlag f b).mem = s.mem := rfl
@[simp] theorem State.setFlag_haltAddr (s : State) (f : Flag) (b : Bool) : (s.setFlag f b).haltAddr = s.haltAddr := rfl
@[simp] theorem State.setFlag_realSsVector12 (s : State) (f : Flag) (b : Bool) : (s.setFlag f b).realSsVector12 = s.realSsVector12 := rfl
@[simp] theorem State.setFlag_intrOffer (s : State) (f : Flag) (b : Bool) : (s.setFlag f b).intrOffer = s.intrOffer := rfl
@[simp] theorem State.setFlag_draws (s : State) (f : Flag) (b : Bool) : (s.setFlag f b).draws = s.draws := rfl

/-! ### setCr0 -/

@[simp] theorem State.setCr0_regs (s : State) (v : DWord) : (s.setCr0 v).regs = s.regs := rfl
@[simp] theorem State.setCr0_eip (s : State) (v : DWord) : (s.setCr0 v).eip = s.eip := rfl
@[simp] theorem State.setCr0_eflags (s : State) (v : DWord) : (s.setCr0 v).eflags = s.eflags := rfl
@[simp] theorem State.setCr0_segs (s : State) (v : DWord) : (s.setCr0 v).segs = s.segs := rfl
@[simp] theorem State.setCr0_cpl (s : State) (v : DWord) : (s.setCr0 v).cpl = s.cpl := rfl
@[simp] theorem State.setCr0_cr0 (s : State) (v : DWord) : (s.setCr0 v).cr0 = v := rfl
@[simp] theorem State.setCr0_cr2 (s : State) (v : DWord) : (s.setCr0 v).cr2 = s.cr2 := rfl
@[simp] theorem State.setCr0_cr3 (s : State) (v : DWord) : (s.setCr0 v).cr3 = s.cr3 := rfl
@[simp] theorem State.setCr0_dbg (s : State) (v : DWord) : (s.setCr0 v).dbg = s.dbg := rfl
@[simp] theorem State.setCr0_test (s : State) (v : DWord) : (s.setCr0 v).test = s.test := rfl
@[simp] theorem State.setCr0_gdtr (s : State) (v : DWord) : (s.setCr0 v).gdtr = s.gdtr := rfl
@[simp] theorem State.setCr0_idtr (s : State) (v : DWord) : (s.setCr0 v).idtr = s.idtr := rfl
@[simp] theorem State.setCr0_ldtr (s : State) (v : DWord) : (s.setCr0 v).ldtr = s.ldtr := rfl
@[simp] theorem State.setCr0_tr (s : State) (v : DWord) : (s.setCr0 v).tr = s.tr := rfl
@[simp] theorem State.setCr0_mem (s : State) (v : DWord) : (s.setCr0 v).mem = s.mem := rfl
@[simp] theorem State.setCr0_haltAddr (s : State) (v : DWord) : (s.setCr0 v).haltAddr = s.haltAddr := rfl
@[simp] theorem State.setCr0_realSsVector12 (s : State) (v : DWord) : (s.setCr0 v).realSsVector12 = s.realSsVector12 := rfl
@[simp] theorem State.setCr0_intrOffer (s : State) (v : DWord) : (s.setCr0 v).intrOffer = s.intrOffer := rfl
@[simp] theorem State.setCr0_draws (s : State) (v : DWord) : (s.setCr0 v).draws = s.draws := rfl

/-! ### setCpl -/

@[simp] theorem State.setCpl_regs (s : State) (v : BitVec 2) : (s.setCpl v).regs = s.regs := rfl
@[simp] theorem State.setCpl_eip (s : State) (v : BitVec 2) : (s.setCpl v).eip = s.eip := rfl
@[simp] theorem State.setCpl_eflags (s : State) (v : BitVec 2) : (s.setCpl v).eflags = s.eflags := rfl
@[simp] theorem State.setCpl_segs (s : State) (v : BitVec 2) : (s.setCpl v).segs = s.segs := rfl
@[simp] theorem State.setCpl_cpl (s : State) (v : BitVec 2) : (s.setCpl v).cpl = v := rfl
@[simp] theorem State.setCpl_cr0 (s : State) (v : BitVec 2) : (s.setCpl v).cr0 = s.cr0 := rfl
@[simp] theorem State.setCpl_cr2 (s : State) (v : BitVec 2) : (s.setCpl v).cr2 = s.cr2 := rfl
@[simp] theorem State.setCpl_cr3 (s : State) (v : BitVec 2) : (s.setCpl v).cr3 = s.cr3 := rfl
@[simp] theorem State.setCpl_dbg (s : State) (v : BitVec 2) : (s.setCpl v).dbg = s.dbg := rfl
@[simp] theorem State.setCpl_test (s : State) (v : BitVec 2) : (s.setCpl v).test = s.test := rfl
@[simp] theorem State.setCpl_gdtr (s : State) (v : BitVec 2) : (s.setCpl v).gdtr = s.gdtr := rfl
@[simp] theorem State.setCpl_idtr (s : State) (v : BitVec 2) : (s.setCpl v).idtr = s.idtr := rfl
@[simp] theorem State.setCpl_ldtr (s : State) (v : BitVec 2) : (s.setCpl v).ldtr = s.ldtr := rfl
@[simp] theorem State.setCpl_tr (s : State) (v : BitVec 2) : (s.setCpl v).tr = s.tr := rfl
@[simp] theorem State.setCpl_mem (s : State) (v : BitVec 2) : (s.setCpl v).mem = s.mem := rfl
@[simp] theorem State.setCpl_haltAddr (s : State) (v : BitVec 2) : (s.setCpl v).haltAddr = s.haltAddr := rfl
@[simp] theorem State.setCpl_realSsVector12 (s : State) (v : BitVec 2) : (s.setCpl v).realSsVector12 = s.realSsVector12 := rfl
@[simp] theorem State.setCpl_intrOffer (s : State) (v : BitVec 2) : (s.setCpl v).intrOffer = s.intrOffer := rfl
@[simp] theorem State.setCpl_draws (s : State) (v : BitVec 2) : (s.setCpl v).draws = s.draws := rfl

/-! ### setMem -/

@[simp] theorem State.setMem_regs (s : State) (m : Memory) : (s.setMem m).regs = s.regs := rfl
@[simp] theorem State.setMem_eip (s : State) (m : Memory) : (s.setMem m).eip = s.eip := rfl
@[simp] theorem State.setMem_eflags (s : State) (m : Memory) : (s.setMem m).eflags = s.eflags := rfl
@[simp] theorem State.setMem_segs (s : State) (m : Memory) : (s.setMem m).segs = s.segs := rfl
@[simp] theorem State.setMem_cpl (s : State) (m : Memory) : (s.setMem m).cpl = s.cpl := rfl
@[simp] theorem State.setMem_cr0 (s : State) (m : Memory) : (s.setMem m).cr0 = s.cr0 := rfl
@[simp] theorem State.setMem_cr2 (s : State) (m : Memory) : (s.setMem m).cr2 = s.cr2 := rfl
@[simp] theorem State.setMem_cr3 (s : State) (m : Memory) : (s.setMem m).cr3 = s.cr3 := rfl
@[simp] theorem State.setMem_dbg (s : State) (m : Memory) : (s.setMem m).dbg = s.dbg := rfl
@[simp] theorem State.setMem_test (s : State) (m : Memory) : (s.setMem m).test = s.test := rfl
@[simp] theorem State.setMem_gdtr (s : State) (m : Memory) : (s.setMem m).gdtr = s.gdtr := rfl
@[simp] theorem State.setMem_idtr (s : State) (m : Memory) : (s.setMem m).idtr = s.idtr := rfl
@[simp] theorem State.setMem_ldtr (s : State) (m : Memory) : (s.setMem m).ldtr = s.ldtr := rfl
@[simp] theorem State.setMem_tr (s : State) (m : Memory) : (s.setMem m).tr = s.tr := rfl
@[simp] theorem State.setMem_mem (s : State) (m : Memory) : (s.setMem m).mem = m := rfl
@[simp] theorem State.setMem_haltAddr (s : State) (m : Memory) : (s.setMem m).haltAddr = s.haltAddr := rfl
@[simp] theorem State.setMem_realSsVector12 (s : State) (m : Memory) : (s.setMem m).realSsVector12 = s.realSsVector12 := rfl
@[simp] theorem State.setMem_intrOffer (s : State) (m : Memory) : (s.setMem m).intrOffer = s.intrOffer := rfl
@[simp] theorem State.setMem_draws (s : State) (m : Memory) : (s.setMem m).draws = s.draws := rfl

/-! ### setDraws -/

@[simp] theorem State.setDraws_regs (s : State) (n : Nat) : (s.setDraws n).regs = s.regs := rfl
@[simp] theorem State.setDraws_eip (s : State) (n : Nat) : (s.setDraws n).eip = s.eip := rfl
@[simp] theorem State.setDraws_eflags (s : State) (n : Nat) : (s.setDraws n).eflags = s.eflags := rfl
@[simp] theorem State.setDraws_segs (s : State) (n : Nat) : (s.setDraws n).segs = s.segs := rfl
@[simp] theorem State.setDraws_cpl (s : State) (n : Nat) : (s.setDraws n).cpl = s.cpl := rfl
@[simp] theorem State.setDraws_cr0 (s : State) (n : Nat) : (s.setDraws n).cr0 = s.cr0 := rfl
@[simp] theorem State.setDraws_cr2 (s : State) (n : Nat) : (s.setDraws n).cr2 = s.cr2 := rfl
@[simp] theorem State.setDraws_cr3 (s : State) (n : Nat) : (s.setDraws n).cr3 = s.cr3 := rfl
@[simp] theorem State.setDraws_dbg (s : State) (n : Nat) : (s.setDraws n).dbg = s.dbg := rfl
@[simp] theorem State.setDraws_test (s : State) (n : Nat) : (s.setDraws n).test = s.test := rfl
@[simp] theorem State.setDraws_gdtr (s : State) (n : Nat) : (s.setDraws n).gdtr = s.gdtr := rfl
@[simp] theorem State.setDraws_idtr (s : State) (n : Nat) : (s.setDraws n).idtr = s.idtr := rfl
@[simp] theorem State.setDraws_ldtr (s : State) (n : Nat) : (s.setDraws n).ldtr = s.ldtr := rfl
@[simp] theorem State.setDraws_tr (s : State) (n : Nat) : (s.setDraws n).tr = s.tr := rfl
@[simp] theorem State.setDraws_mem (s : State) (n : Nat) : (s.setDraws n).mem = s.mem := rfl
@[simp] theorem State.setDraws_haltAddr (s : State) (n : Nat) : (s.setDraws n).haltAddr = s.haltAddr := rfl
@[simp] theorem State.setDraws_realSsVector12 (s : State) (n : Nat) : (s.setDraws n).realSsVector12 = s.realSsVector12 := rfl
@[simp] theorem State.setDraws_intrOffer (s : State) (n : Nat) : (s.setDraws n).intrOffer = s.intrOffer := rfl
@[simp] theorem State.setDraws_draws (s : State) (n : Nat) : (s.setDraws n).draws = n := rfl

/-! ### setCs -/

@[simp] theorem State.setCs_regs (s : State) (c : Seg) : (s.setCs c).regs = s.regs := rfl
@[simp] theorem State.setCs_eip (s : State) (c : Seg) : (s.setCs c).eip = s.eip := rfl
@[simp] theorem State.setCs_eflags (s : State) (c : Seg) : (s.setCs c).eflags = s.eflags := rfl
@[simp] theorem State.setCs_segs (s : State) (c : Seg) : (s.setCs c).segs = { s.segs with cs := c } := rfl
@[simp] theorem State.setCs_cpl (s : State) (c : Seg) : (s.setCs c).cpl = s.cpl := rfl
@[simp] theorem State.setCs_cr0 (s : State) (c : Seg) : (s.setCs c).cr0 = s.cr0 := rfl
@[simp] theorem State.setCs_cr2 (s : State) (c : Seg) : (s.setCs c).cr2 = s.cr2 := rfl
@[simp] theorem State.setCs_cr3 (s : State) (c : Seg) : (s.setCs c).cr3 = s.cr3 := rfl
@[simp] theorem State.setCs_dbg (s : State) (c : Seg) : (s.setCs c).dbg = s.dbg := rfl
@[simp] theorem State.setCs_test (s : State) (c : Seg) : (s.setCs c).test = s.test := rfl
@[simp] theorem State.setCs_gdtr (s : State) (c : Seg) : (s.setCs c).gdtr = s.gdtr := rfl
@[simp] theorem State.setCs_idtr (s : State) (c : Seg) : (s.setCs c).idtr = s.idtr := rfl
@[simp] theorem State.setCs_ldtr (s : State) (c : Seg) : (s.setCs c).ldtr = s.ldtr := rfl
@[simp] theorem State.setCs_tr (s : State) (c : Seg) : (s.setCs c).tr = s.tr := rfl
@[simp] theorem State.setCs_mem (s : State) (c : Seg) : (s.setCs c).mem = s.mem := rfl
@[simp] theorem State.setCs_haltAddr (s : State) (c : Seg) : (s.setCs c).haltAddr = s.haltAddr := rfl
@[simp] theorem State.setCs_realSsVector12 (s : State) (c : Seg) : (s.setCs c).realSsVector12 = s.realSsVector12 := rfl
@[simp] theorem State.setCs_intrOffer (s : State) (c : Seg) : (s.setCs c).intrOffer = s.intrOffer := rfl
@[simp] theorem State.setCs_draws (s : State) (c : Seg) : (s.setCs c).draws = s.draws := rfl

/-! ### setSs -/

@[simp] theorem State.setSs_regs (s : State) (c : Seg) : (s.setSs c).regs = s.regs := rfl
@[simp] theorem State.setSs_eip (s : State) (c : Seg) : (s.setSs c).eip = s.eip := rfl
@[simp] theorem State.setSs_eflags (s : State) (c : Seg) : (s.setSs c).eflags = s.eflags := rfl
@[simp] theorem State.setSs_segs (s : State) (c : Seg) : (s.setSs c).segs = { s.segs with ss := c } := rfl
@[simp] theorem State.setSs_cpl (s : State) (c : Seg) : (s.setSs c).cpl = s.cpl := rfl
@[simp] theorem State.setSs_cr0 (s : State) (c : Seg) : (s.setSs c).cr0 = s.cr0 := rfl
@[simp] theorem State.setSs_cr2 (s : State) (c : Seg) : (s.setSs c).cr2 = s.cr2 := rfl
@[simp] theorem State.setSs_cr3 (s : State) (c : Seg) : (s.setSs c).cr3 = s.cr3 := rfl
@[simp] theorem State.setSs_dbg (s : State) (c : Seg) : (s.setSs c).dbg = s.dbg := rfl
@[simp] theorem State.setSs_test (s : State) (c : Seg) : (s.setSs c).test = s.test := rfl
@[simp] theorem State.setSs_gdtr (s : State) (c : Seg) : (s.setSs c).gdtr = s.gdtr := rfl
@[simp] theorem State.setSs_idtr (s : State) (c : Seg) : (s.setSs c).idtr = s.idtr := rfl
@[simp] theorem State.setSs_ldtr (s : State) (c : Seg) : (s.setSs c).ldtr = s.ldtr := rfl
@[simp] theorem State.setSs_tr (s : State) (c : Seg) : (s.setSs c).tr = s.tr := rfl
@[simp] theorem State.setSs_mem (s : State) (c : Seg) : (s.setSs c).mem = s.mem := rfl
@[simp] theorem State.setSs_haltAddr (s : State) (c : Seg) : (s.setSs c).haltAddr = s.haltAddr := rfl
@[simp] theorem State.setSs_realSsVector12 (s : State) (c : Seg) : (s.setSs c).realSsVector12 = s.realSsVector12 := rfl
@[simp] theorem State.setSs_intrOffer (s : State) (c : Seg) : (s.setSs c).intrOffer = s.intrOffer := rfl
@[simp] theorem State.setSs_draws (s : State) (c : Seg) : (s.setSs c).draws = s.draws := rfl

/-! ### setStackPtr -/

@[simp] theorem State.setStackPtr_eip (s : State) (z : Size) (v : DWord) : (s.setStackPtr z v).eip = s.eip := by
  cases z <;> rfl
@[simp] theorem State.setStackPtr_eflags (s : State) (z : Size) (v : DWord) : (s.setStackPtr z v).eflags = s.eflags := by
  cases z <;> rfl
@[simp] theorem State.setStackPtr_segs (s : State) (z : Size) (v : DWord) : (s.setStackPtr z v).segs = s.segs := by
  cases z <;> rfl
@[simp] theorem State.setStackPtr_cpl (s : State) (z : Size) (v : DWord) : (s.setStackPtr z v).cpl = s.cpl := by
  cases z <;> rfl
@[simp] theorem State.setStackPtr_cr0 (s : State) (z : Size) (v : DWord) : (s.setStackPtr z v).cr0 = s.cr0 := by
  cases z <;> rfl
@[simp] theorem State.setStackPtr_cr2 (s : State) (z : Size) (v : DWord) : (s.setStackPtr z v).cr2 = s.cr2 := by
  cases z <;> rfl
@[simp] theorem State.setStackPtr_cr3 (s : State) (z : Size) (v : DWord) : (s.setStackPtr z v).cr3 = s.cr3 := by
  cases z <;> rfl
@[simp] theorem State.setStackPtr_dbg (s : State) (z : Size) (v : DWord) : (s.setStackPtr z v).dbg = s.dbg := by
  cases z <;> rfl
@[simp] theorem State.setStackPtr_test (s : State) (z : Size) (v : DWord) : (s.setStackPtr z v).test = s.test := by
  cases z <;> rfl
@[simp] theorem State.setStackPtr_gdtr (s : State) (z : Size) (v : DWord) : (s.setStackPtr z v).gdtr = s.gdtr := by
  cases z <;> rfl
@[simp] theorem State.setStackPtr_idtr (s : State) (z : Size) (v : DWord) : (s.setStackPtr z v).idtr = s.idtr := by
  cases z <;> rfl
@[simp] theorem State.setStackPtr_ldtr (s : State) (z : Size) (v : DWord) : (s.setStackPtr z v).ldtr = s.ldtr := by
  cases z <;> rfl
@[simp] theorem State.setStackPtr_tr (s : State) (z : Size) (v : DWord) : (s.setStackPtr z v).tr = s.tr := by
  cases z <;> rfl
@[simp] theorem State.setStackPtr_mem (s : State) (z : Size) (v : DWord) : (s.setStackPtr z v).mem = s.mem := by
  cases z <;> rfl
@[simp] theorem State.setStackPtr_haltAddr (s : State) (z : Size) (v : DWord) : (s.setStackPtr z v).haltAddr = s.haltAddr := by
  cases z <;> rfl
@[simp] theorem State.setStackPtr_realSsVector12 (s : State) (z : Size) (v : DWord) : (s.setStackPtr z v).realSsVector12 = s.realSsVector12 := by
  cases z <;> rfl
@[simp] theorem State.setStackPtr_intrOffer (s : State) (z : Size) (v : DWord) : (s.setStackPtr z v).intrOffer = s.intrOffer := by
  cases z <;> rfl
@[simp] theorem State.setStackPtr_draws (s : State) (z : Size) (v : DWord) : (s.setStackPtr z v).draws = s.draws := by
  cases z <;> rfl

/-! ### Registers -/

theorem Regs.get_set (g : Regs) (r q : Reg) (v : DWord) : (g.set r v).get q = if q = r then v else g.get q := by
  cases r <;> cases q <;> rfl

@[simp] theorem Regs.get_set_same (g : Regs) (r : Reg) (v : DWord) : (g.set r v).get r = v := by
  cases r <;> rfl

theorem Regs.get_set_ne (g : Regs) {r q : Reg} (h : q ≠ r) (v : DWord) : (g.set r v).get q = g.get q := by
  rw [Regs.get_set, if_neg h]

@[simp] theorem State.reg_setReg (s : State) (r q : Reg) (v : DWord) :
    (s.setReg r v).reg q = if q = r then v else s.reg q := Regs.get_set s.regs r q v

@[simp] theorem State.reg_setReg16 (s : State) (r q : Reg) (v : Word) :
    (s.setReg16 r v).reg q = if q = r then withLow16 (s.reg r) v else s.reg q := Regs.get_set s.regs r q _

@[simp] theorem State.reg_setEip (s : State) (v : DWord) (q : Reg) : (s.setEip v).reg q = s.reg q := rfl
@[simp] theorem State.reg_setEflags (s : State) (v : DWord) (q : Reg) : (s.setEflags v).reg q = s.reg q := rfl
@[simp] theorem State.reg_setFlag (s : State) (f : Flag) (b : Bool) (q : Reg) : (s.setFlag f b).reg q = s.reg q := rfl
@[simp] theorem State.reg_setCr0 (s : State) (v : DWord) (q : Reg) : (s.setCr0 v).reg q = s.reg q := rfl
@[simp] theorem State.reg_setCpl (s : State) (v : BitVec 2) (q : Reg) : (s.setCpl v).reg q = s.reg q := rfl
@[simp] theorem State.reg_setMem (s : State) (m : Memory) (q : Reg) : (s.setMem m).reg q = s.reg q := rfl
@[simp] theorem State.reg_setDraws (s : State) (n : Nat) (q : Reg) : (s.setDraws n).reg q = s.reg q := rfl
@[simp] theorem State.reg_setCs (s : State) (c : Seg) (q : Reg) : (s.setCs c).reg q = s.reg q := rfl
@[simp] theorem State.reg_setSs (s : State) (c : Seg) (q : Reg) : (s.setSs c).reg q = s.reg q := rfl

/-! ### Segment registers -/

@[simp] theorem State.seg_setReg (s : State) (r : Reg) (v : DWord) (q : SegName) : (s.setReg r v).seg q = s.seg q := rfl
@[simp] theorem State.seg_setReg16 (s : State) (r : Reg) (v : Word) (q : SegName) : (s.setReg16 r v).seg q = s.seg q := rfl
@[simp] theorem State.seg_setEip (s : State) (v : DWord) (q : SegName) : (s.setEip v).seg q = s.seg q := rfl
@[simp] theorem State.seg_setEflags (s : State) (v : DWord) (q : SegName) : (s.setEflags v).seg q = s.seg q := rfl
@[simp] theorem State.seg_setFlag (s : State) (f : Flag) (b : Bool) (q : SegName) : (s.setFlag f b).seg q = s.seg q := rfl
@[simp] theorem State.seg_setCr0 (s : State) (v : DWord) (q : SegName) : (s.setCr0 v).seg q = s.seg q := rfl
@[simp] theorem State.seg_setCpl (s : State) (v : BitVec 2) (q : SegName) : (s.setCpl v).seg q = s.seg q := rfl
@[simp] theorem State.seg_setMem (s : State) (m : Memory) (q : SegName) : (s.setMem m).seg q = s.seg q := rfl
@[simp] theorem State.seg_setDraws (s : State) (n : Nat) (q : SegName) : (s.setDraws n).seg q = s.seg q := rfl
@[simp] theorem State.seg_setStackPtr (s : State) (z : Size) (v : DWord) (q : SegName) :
    (s.setStackPtr z v).seg q = s.seg q := by cases z <;> rfl

@[simp] theorem State.seg_setCs (s : State) (c : Seg) (q : SegName) :
    (s.setCs c).seg q = if q = .cs then c else s.seg q := by cases q <;> rfl

@[simp] theorem State.seg_setSs (s : State) (c : Seg) (q : SegName) :
    (s.setSs c).seg q = if q = .ss then c else s.seg q := by cases q <;> rfl

/-! ### Mode, paging and flags read CR0 and EFLAGS only -/

theorem State.flag_congr {s t : State} (h : t.eflags = s.eflags) (f : Flag) : t.flag f = s.flag f := by
  simp [State.flag, h]

theorem State.cr0Bit_congr {s t : State} (h : t.cr0 = s.cr0) (b : Cr0Bit) : t.cr0Bit b = s.cr0Bit b := by
  simp [State.cr0Bit, h]

theorem State.mode_congr {s t : State} (hc : t.cr0 = s.cr0) (he : t.eflags = s.eflags) : t.mode = s.mode := by
  simp [State.mode, State.cr0Bit_congr hc, State.flag_congr he]

theorem State.pagingOn_congr {s t : State} (hc : t.cr0 = s.cr0) : t.pagingOn = s.pagingOn := by
  simp [State.pagingOn, State.cr0Bit_congr hc]

@[simp] theorem State.mode_setReg (s : State) (r : Reg) (v : DWord) : (s.setReg r v).mode = s.mode := rfl
@[simp] theorem State.pagingOn_setReg (s : State) (r : Reg) (v : DWord) : (s.setReg r v).pagingOn = s.pagingOn := rfl
@[simp] theorem State.mode_setReg16 (s : State) (r : Reg) (v : Word) : (s.setReg16 r v).mode = s.mode := rfl
@[simp] theorem State.pagingOn_setReg16 (s : State) (r : Reg) (v : Word) : (s.setReg16 r v).pagingOn = s.pagingOn := rfl
@[simp] theorem State.mode_setEip (s : State) (v : DWord) : (s.setEip v).mode = s.mode := rfl
@[simp] theorem State.pagingOn_setEip (s : State) (v : DWord) : (s.setEip v).pagingOn = s.pagingOn := rfl
@[simp] theorem State.mode_setCpl (s : State) (v : BitVec 2) : (s.setCpl v).mode = s.mode := rfl
@[simp] theorem State.pagingOn_setCpl (s : State) (v : BitVec 2) : (s.setCpl v).pagingOn = s.pagingOn := rfl
@[simp] theorem State.mode_setMem (s : State) (m : Memory) : (s.setMem m).mode = s.mode := rfl
@[simp] theorem State.pagingOn_setMem (s : State) (m : Memory) : (s.setMem m).pagingOn = s.pagingOn := rfl
@[simp] theorem State.mode_setDraws (s : State) (n : Nat) : (s.setDraws n).mode = s.mode := rfl
@[simp] theorem State.pagingOn_setDraws (s : State) (n : Nat) : (s.setDraws n).pagingOn = s.pagingOn := rfl
@[simp] theorem State.mode_setCs (s : State) (c : Seg) : (s.setCs c).mode = s.mode := rfl
@[simp] theorem State.pagingOn_setCs (s : State) (c : Seg) : (s.setCs c).pagingOn = s.pagingOn := rfl
@[simp] theorem State.mode_setSs (s : State) (c : Seg) : (s.setSs c).mode = s.mode := rfl
@[simp] theorem State.pagingOn_setSs (s : State) (c : Seg) : (s.setSs c).pagingOn = s.pagingOn := rfl
@[simp] theorem State.mode_setStackPtr (s : State) (z : Size) (v : DWord) : (s.setStackPtr z v).mode = s.mode := by
  cases z <;> rfl
@[simp] theorem State.pagingOn_setStackPtr (s : State) (z : Size) (v : DWord) :
    (s.setStackPtr z v).pagingOn = s.pagingOn := by
  cases z <;> rfl

/-- The mode is Protected exactly when PE = 1 and VM = 0 (R280). -/
theorem State.mode_eq_prot (s : State) : s.mode = .prot ↔ s.cr0Bit .pe = true ∧ s.flag .vm = false := by
  unfold State.mode
  cases s.cr0Bit .pe <;> cases s.flag .vm <;> simp

theorem State.mode_eq_v86 (s : State) : s.mode = .v86 ↔ s.cr0Bit .pe = true ∧ s.flag .vm = true := by
  unfold State.mode
  cases s.cr0Bit .pe <;> cases s.flag .vm <;> simp

theorem State.mode_eq_real (s : State) : s.mode = .real ↔ s.cr0Bit .pe = false := by
  unfold State.mode
  cases s.cr0Bit .pe <;> cases s.flag .vm <;> simp

/-- Paging is never on in Real Address Mode (R72). -/
theorem State.pagingOff_of_real {s : State} (h : s.mode = .real) : s.pagingOn = false := by
  simp [State.pagingOn, (State.mode_eq_real s).mp h]

end Sys2Proof.Machine
end

