-- ==== Sys2Proof/Laws/Bits.lean ====
section
/-! SUPPORT. Single bits, register views, the six flags. -/

namespace Sys2Proof.Machine

/-- The doubleword with one bit set, bit by bit. -/
theorem getLsbD_oneBit {i : Nat} (hi : i < 32) (j : Nat) : ((1 : DWord) <<< i).getLsbD j = decide (j = i) := by
  rw [BitVec.getLsbD_shiftLeft]
  by_cases h : j = i
  · subst h; simp [hi]
  · rcases Nat.lt_or_ge j i with hlt | hge
    · simp [hlt, h]
    · have : j - i ≠ 0 := by omega
      simp [h, this, BitVec.getLsbD_one]

/-- Replacing one bit changes that bit only. -/
theorem getLsbD_setBit (v : DWord) {i : Nat} (hi : i < 32) (b : Bool) (j : Nat) :
    (setBit v i b).getLsbD j = if j = i then b else v.getLsbD j := by
  unfold setBit
  have h1 := getLsbD_oneBit hi j
  by_cases hj : j < 32
  · by_cases h : j = i
    · rw [if_pos h]
      rw [decide_eq_true h] at h1
      cases b
      · rw [if_neg Bool.false_ne_true, BitVec.getLsbD_and, BitVec.getLsbD_not, h1]; simp
      · rw [if_pos rfl, BitVec.getLsbD_or, h1]; simp
    · rw [if_neg h]
      rw [decide_eq_false h] at h1
      cases b
      · rw [if_neg Bool.false_ne_true, BitVec.getLsbD_and, BitVec.getLsbD_not, h1]; simp [hj]
      · rw [if_pos rfl, BitVec.getLsbD_or, h1]; simp
  · have hne : ¬ j = i := by omega
    rw [if_neg hne, BitVec.getLsbD_of_ge v j (by omega), BitVec.getLsbD_of_ge _ j (by omega)]

theorem Flag.bit_lt (f : Flag) : f.bit < 32 := by cases f <;> decide

theorem Flag.bit_inj {f g : Flag} (h : f.bit = g.bit) : f = g := by
  cases f <;> cases g <;> first | rfl | (exact absurd h (by decide))

@[simp] theorem State.flag_setFlag (s : State) (f g : Flag) (b : Bool) :
    (s.setFlag f b).flag g = if g = f then b else s.flag g := by
  simp only [State.flag, State.setFlag_eflags, getLsbD_setBit _ f.bit_lt]
  by_cases h : g = f
  · simp [h]
  · rw [if_neg h, if_neg fun e => h (Flag.bit_inj e)]

/-- EFLAGS after the six status flags are written: those six bits, every other bit as it was (R211). -/
theorem getLsbD_withSubFlags (e : DWord) (f : SubFlags) (j : Nat) :
    (withSubFlags e f).getLsbD j =
      if j = 11 then f.ov else if j = 7 then f.sf else if j = 6 then f.zf else if j = 4 then f.af
      else if j = 2 then f.pf else if j = 0 then f.cf else e.getLsbD j := by
  rw [withSubFlags, getLsbD_setBit _ (Flag.bit_lt _), getLsbD_setBit _ (Flag.bit_lt _),
    getLsbD_setBit _ (Flag.bit_lt _), getLsbD_setBit _ (Flag.bit_lt _), getLsbD_setBit _ (Flag.bit_lt _),
    getLsbD_setBit _ (Flag.bit_lt _)]
  rfl

/-- A register value with its 16-bit view written, bit by bit (R22). -/
theorem getLsbD_withLow16 (v : DWord) (w : Word) (j : Nat) :
    (withLow16 v w).getLsbD j = if j < 16 then w.getLsbD j else v.getLsbD j := by
  refine (BitVec.getLsbD_append (x := v.extractLsb' 16 16) (y := w) (i := j)).trans ?_
  by_cases h : j < 16
  · simp [h]
  · rw [if_neg h, if_neg h, BitVec.getLsbD_extractLsb']
    by_cases h' : j < 32
    · have : j - 16 < 16 := by omega
      have h2 : 16 + (j - 16) = j := by omega
      simp [this, h2]
    · have : ¬ j - 16 < 16 := by omega
      simp [this, BitVec.getLsbD_of_ge v j (by omega)]

@[simp] theorem low16_withLow16 (v : DWord) (w : Word) : low16 (withLow16 v w) = w := by
  apply BitVec.eq_of_getLsbD_eq
  intro i hi
  simp [low16, getLsbD_withLow16, hi]

/-- A write to a 16-bit view leaves bits 31:16 as they were (R22). -/
@[simp] theorem high16_withLow16 (v : DWord) (w : Word) :
    (withLow16 v w).extractLsb' 16 16 = v.extractLsb' 16 16 := by
  apply BitVec.eq_of_getLsbD_eq
  intro i hi
  simp [getLsbD_withLow16, hi]

@[simp] theorem State.reg16_setReg16 (s : State) (r : Reg) (v : Word) : (s.setReg16 r v).reg16 r = v := by
  simp [State.reg16]

end Sys2Proof.Machine
end

