-- ==== Sys2Proof/Laws/Decode.lean ====
section
/-! SUPPORT. The parts of the decoder and the encoder: numbers of registers, the fields of ModR/M and SIB, byte order of
the instruction stream, lengths. -/

namespace Sys2Proof

/-! ### Reading on -/

@[simp] theorem Parse.andThen_ok {α β : Type} (a : α) (r : List Byte) (f : α → List Byte → Parse β) :
    Parse.andThen (.ok (a, r)) f = f a r := rfl

@[simp] theorem Parse.andThen_error {α β : Type} (e : DecodeStop) (f : α → List Byte → Parse β) :
    Parse.andThen (.error e : Parse α) f = .error e := rfl

/-- What was read and used, when reading on succeeded. -/
theorem Parse.andThen_eq_ok {α β : Type} {x : Parse α} {f : α → List Byte → Parse β} {b : β} {r' : List Byte} :
    x.andThen f = .ok (b, r') ↔ ∃ a r, x = .ok (a, r) ∧ f a r = .ok (b, r') := by
  cases x with
  | error e => simp [Parse.andThen]
  | ok p => obtain ⟨a, r⟩ := p; simp [Parse.andThen]

/-! ### Register numbers (R20, R21, R104) -/

@[simp] theorem Reg.ofNum_num (r : Reg) : Reg.ofNum r.num = r := by cases r <;> rfl

@[simp] theorem Reg8.ofNum_num (r : Reg8) : Reg8.ofNum r.num = r := by cases r <;> rfl

@[simp] theorem Base16.ofNum_num (b : Base16) : Base16.ofNum b.num = b := by cases b <;> rfl

theorem Reg.num_ofNum (n : BitVec 3) : (Reg.ofNum n).num = n := by revert n; decide

theorem Reg8.num_ofNum (n : BitVec 3) : (Reg8.ofNum n).num = n := by revert n; decide

theorem Base16.num_ofNum (n : BitVec 3) : (Base16.ofNum n).num = n := by revert n; decide

/-! ### The fields of a packed byte (R102, R106) -/

@[simp] theorem modOf_packByte (hi : BitVec 2) (mid lo : BitVec 3) : modOf (packByte hi mid lo) = hi := by
  revert hi mid lo; decide

@[simp] theorem regOf_packByte (hi : BitVec 2) (mid lo : BitVec 3) : regOf (packByte hi mid lo) = mid := by
  revert hi mid lo; decide

@[simp] theorem rmOf_packByte (hi : BitVec 2) (mid lo : BitVec 3) : rmOf (packByte hi mid lo) = lo := by
  revert hi mid lo; decide

/-- A byte is its three fields. -/
theorem packByte_fields (b : Byte) : packByte (modOf b) (regOf b) (rmOf b) = b := by
  revert b; decide

/-! ### Byte order of the instruction stream (R65) -/

@[simp] theorem take8_cons (b : Byte) (r : List Byte) : take8 (b :: r) = .ok (b, r) := rfl

theorem append_bytes16 (v : Word) : v.extractLsb' 8 8 ++ v.extractLsb' 0 8 = v := by
  apply BitVec.eq_of_getLsbD_eq
  intro i hi
  refine (BitVec.getLsbD_append (x := v.extractLsb' 8 8) (y := v.extractLsb' 0 8) (i := i)).trans ?_
  by_cases h : i < 8
  · simp [h]
  · have h2 : i - 8 < 8 := by omega
    have h3 : 8 + (i - 8) = i := by omega
    simp [h, h2, h3]

@[simp] theorem take16_bytes16 (v : Word) (r : List Byte) : take16 (bytes16 v ++ r) = .ok (v, r) := by
  simp only [bytes16, List.cons_append, List.nil_append, take16]
  rw [append_bytes16]

theorem append_bytes32 (v : DWord) :
    v.extractLsb' 24 8 ++ v.extractLsb' 16 8 ++ v.extractLsb' 8 8 ++ v.extractLsb' 0 8 = v := by
  apply BitVec.eq_of_getLsbD_eq
  intro i hi
  refine (BitVec.getLsbD_append (i := i)).trans ?_
  by_cases h : i < 8
  · simp [h]
  · rw [if_neg h]
    refine (BitVec.getLsbD_append (i := i - 8)).trans ?_
    by_cases h1 : i - 8 < 8
    · have h3 : 8 + (i - 8) = i := by omega
      simp [h1, h3]
    · rw [if_neg h1]
      refine (BitVec.getLsbD_append (i := i - 8 - 8)).trans ?_
      by_cases h2 : i - 8 - 8 < 8
      · have h3 : 16 + (i - 8 - 8) = i := by omega
        simp [h2, h3]
      · have h4 : i - 8 - 8 - 8 < 8 := by omega
        have h3 : 24 + (i - 8 - 8 - 8) = i := by omega
        simp [h2, h4, h3]

@[simp] theorem take32_bytes32 (v : DWord) (r : List Byte) : take32 (bytes32 v ++ r) = .ok (v, r) := by
  simp only [bytes32, List.cons_append, List.nil_append, take32]
  rw [append_bytes32]

@[simp] theorem bytes16_length (v : Word) : (bytes16 v).length = 2 := rfl

@[simp] theorem bytes32_length (v : DWord) : (bytes32 v).length = 4 := rfl

/-! ### Lengths (R94) -/

theorem encodePrefixes_length (p : Prefixes) : (encodePrefixes p).length = p.count := by
  obtain ⟨a, b, c⟩ := p
  cases a <;> cases b <;> cases c <;> rfl

@[simp] theorem dispBytes16_length (d : Disp 16) : (dispBytes16 d).length = dispLength 2 d := by cases d <;> rfl

@[simp] theorem dispBytes32_length (d : Disp 32) : (dispBytes32 d).length = dispLength 4 d := by cases d <;> rfl

@[simp] theorem encodeMem_length (reg : BitVec 3) (m : Mem) : (encodeMem reg m).length = 1 + m.extraLength := by
  cases m <;> simp [encodeMem, Mem.extraLength] <;> omega

@[simp] theorem encodeRM_length {ρ : Type} (num : ρ → BitVec 3) (reg : BitVec 3) (d : RM ρ) :
    (encodeRM num reg d).length = 1 + d.extraLength := by
  cases d <;> simp [encodeRM, RM.extraLength]

/-! ### Prefix bytes (R97, R98) -/

theorem scanPrefixes_encodePrefixes (p : Prefixes) (b : Byte) (rest : List Byte) (hb : prefixOf b = none) :
    scanPrefixes SeenPrefixes.empty (encodePrefixes p ++ b :: rest) = .ok (⟨p, none⟩, b :: rest) := by
  have stop : ∀ q, scanPrefixes q (b :: rest) = .ok (q, b :: rest) := fun q => by rw [scanPrefixes, hb]
  obtain ⟨o, a, s⟩ := p
  rcases o <;> rcases a <;> rcases s with _ | (_ | _ | _ | _ | _ | _) <;> exact stop _

/-- The first byte after the prefix bytes is no prefix byte. -/
theorem encodeBody_head (i : Instr) : ∃ b r, encodeBody i = b :: r ∧ prefixOf b = none := by
  cases i <;> exact ⟨_, _, rfl, by decide⟩

/-- Decoding after the prefix bytes of `p` is decoding the opcode with `p`. -/
theorem decode_encodePrefixes (dflt : Size) (p : Prefixes) (b : Byte) (r : List Byte) (hb : prefixOf b = none) :
    decode dflt (encodePrefixes p ++ b :: r) = (decodeOpcode dflt p (b :: r)).andThen fun i r => .ok (i, r) := by
  rw [decode, scanPrefixes_encodePrefixes p b r hb]
  rfl

/-! ### Operands (R102 to R106) -/

theorem sibByte_fields (i : Option (Reg × BitVec 2)) (h : indexWf i = true) (base : BitVec 3) :
    decodeIndex (sibByte i base) = i ∧ rmOf (sibByte i base) = base := by
  cases i with
  | none => simp [decodeIndex, sibByte]
  | some x =>
    obtain ⟨r, ss⟩ := x
    simp only [decodeIndex, sibByte, regOf_packByte, modOf_packByte, rmOf_packByte, Reg.ofNum_num, and_true]
    rw [if_neg]
    cases r <;> simp_all [indexWf, Reg.num]

/-- What `decodeIndex` reads is an index but for `index` = 4 with a scale (R106). -/
theorem indexWf_decodeIndex (sib : Byte) : indexWf (decodeIndex sib) = !(regOf sib == 4 && modOf sib != 0) := by
  revert sib; decide

/-- A well-formed operand passes the check of its index. -/
theorem Mem.indexOk_of_wf {asz : Size} {m : Mem} (h : m.wf asz = true) : m.indexOk = true := by
  cases m <;> simp_all [Mem.wf, Mem.indexOk]

@[simp] theorem checkIndex_true {m : Mem} (h : m.indexOk = true) (x : Parse Instr) : checkIndex m x = x := by
  rw [checkIndex, if_pos h]

@[simp] theorem checkIndex_false {m : Mem} (h : m.indexOk = false) (x : Parse Instr) :
    checkIndex m x = .error .sibNoIndexScaled := by
  rw [checkIndex, h]
  rfl

@[simp] theorem checkRM_reg {ρ : Type} (r : ρ) (x : Parse Instr) : checkRM (.reg r) x = x := rfl

@[simp] theorem checkRM_mem {ρ : Type} (m : Mem) (x : Parse Instr) : checkRM (.mem m : RM ρ) x = checkIndex m x := rfl

theorem checkRM_of_wf {ρ : Type} {asz : Size} {d : RM ρ} (h : d.wf asz = true) (x : Parse Instr) : checkRM d x = x := by
  cases d with
  | reg r => rfl
  | mem m => exact checkIndex_true (Mem.indexOk_of_wf h) x

/-- What the check of an index lets through. -/
theorem checkIndex_eq_ok {m : Mem} {x : Parse Instr} {y : Instr × List Byte} :
    checkIndex m x = .ok y ↔ m.indexOk = true ∧ x = .ok y := by
  cases h : m.indexOk <;> simp [h]

/-- A row the table does not list is no instruction: it is refused, once its operand bytes are there. -/
theorem decodeUnlisted_eq (asz : Size) (modrm : Byte) (r : List Byte) :
    decodeUnlisted asz modrm r =
      .error (match decodeRM Reg.ofNum asz modrm r with
        | .ok _ => .outOfScopeOpcode
        | .error e => e) := by
  unfold decodeUnlisted
  cases decodeRM Reg.ofNum asz modrm r <;> rfl

theorem dispMod_ne_three {w : Nat} (d : Disp w) : dispMod d ≠ 3 := by
  cases d <;> simp [dispMod]

theorem takeDisp16_dispBytes (d : Disp 16) (r : List Byte) :
    takeDisp16 (dispMod d) (dispBytes16 d ++ r) = .ok (d, r) := by
  cases d <;> simp [takeDisp16, dispMod, dispBytes16]

theorem takeDisp32_dispBytes (d : Disp 32) (r : List Byte) :
    takeDisp32 (dispMod d) (dispBytes32 d ++ r) = .ok (d, r) := by
  cases d <;> simp [takeDisp32, dispMod, dispBytes32]

/-- A memory operand is read back from its ModR/M, SIB and displacement bytes. -/
theorem decodeMem_encodeMem (asz : Size) (reg : BitVec 3) (m : Mem) (hw : m.wf asz = true) (rest : List Byte) :
    ∃ b r, encodeMem reg m = b :: r ∧ regOf b = reg ∧ modOf b ≠ 3 ∧ decodeMem asz b (r ++ rest) = .ok (m, rest) := by
  cases m with
  | a16 b d =>
    simp only [Mem.wf, Bool.and_eq_true, beq_iff_eq] at hw
    obtain ⟨rfl, hw⟩ := hw
    refine ⟨_, _, rfl, by simp, by simpa using dispMod_ne_three d, ?_⟩
    simp only [decodeMem, decodeMem16, modOf_packByte, rmOf_packByte, Base16.ofNum_num, takeDisp16_dispBytes,
      Parse.andThen_ok]
    rw [if_neg]
    rintro ⟨h1, h2⟩
    cases d <;> simp [dispMod] at h1
    cases b <;> simp [Base16.num] at h2
    simp at hw
  | a16Direct a =>
    simp only [Mem.wf, beq_iff_eq] at hw
    subst hw
    exact ⟨_, _, rfl, by simp, by simp, by simp [decodeMem, decodeMem16]⟩
  | a32 b d =>
    simp only [Mem.wf, Bool.and_eq_true, beq_iff_eq] at hw
    obtain ⟨⟨rfl, hb⟩, hw⟩ := hw
    refine ⟨_, _, rfl, by simp, by simpa using dispMod_ne_three d, ?_⟩
    simp only [decodeMem, decodeMem32, modOf_packByte, rmOf_packByte, Reg.ofNum_num, takeDisp32_dispBytes,
      Parse.andThen_ok]
    rw [if_neg, if_neg]
    · rintro ⟨h1, h2⟩
      cases d <;> simp [dispMod] at h1
      cases b <;> simp [Reg.num] at h2
      simp at hw
    · cases b <;> simp_all [Reg.num]
  | a32Direct a =>
    simp only [Mem.wf, beq_iff_eq] at hw
    subst hw
    exact ⟨_, _, rfl, by simp, by simp, by simp [decodeMem, decodeMem32]⟩
  | a32Sib b i d =>
    simp only [Mem.wf, Bool.and_eq_true, beq_iff_eq] at hw
    obtain ⟨⟨rfl, hi⟩, hw⟩ := hw
    refine ⟨_, _, rfl, by simp, by simpa using dispMod_ne_three d, ?_⟩
    obtain ⟨h1, h2⟩ := sibByte_fields i hi b.num
    simp only [decodeMem, decodeMem32, modOf_packByte, rmOf_packByte, if_true, decodeSib, List.cons_append, take8_cons,
      Parse.andThen_ok, h1, h2, Reg.ofNum_num, takeDisp32_dispBytes]
    rw [if_neg]
    rintro ⟨h1, h2⟩
    cases d <;> simp [dispMod] at h2
    cases b <;> simp [Reg.num] at h1
    simp at hw
  | a32SibNoBase i a =>
    simp only [Mem.wf, Bool.and_eq_true, beq_iff_eq] at hw
    obtain ⟨rfl, hi⟩ := hw
    obtain ⟨h1, h2⟩ := sibByte_fields i hi 5
    refine ⟨_, _, rfl, by simp, by simp, ?_⟩
    simp only [decodeMem, decodeMem32, modOf_packByte, rmOf_packByte, if_true, decodeSib, List.cons_append, take8_cons,
      Parse.andThen_ok, h1, h2, and_self, take32_bytes32]

/-- An r/m operand is read back from its bytes. -/
theorem decodeRM_encodeRM {ρ : Type} (ofNum : BitVec 3 → ρ) (num : ρ → BitVec 3) (hn : ∀ r, ofNum (num r) = r)
    (asz : Size) (reg : BitVec 3) (d : RM ρ) (hw : d.wf asz = true) (rest : List Byte) :
    ∃ b r, encodeRM num reg d = b :: r ∧ regOf b = reg ∧ decodeRM ofNum asz b (r ++ rest) = .ok (d, rest) := by
  cases d with
  | reg r => exact ⟨_, _, rfl, by simp, by simp [decodeRM, hn]⟩
  | mem m =>
    obtain ⟨b, r, h1, h2, h3, h4⟩ := decodeMem_encodeMem asz reg m hw rest
    refine ⟨b, r, h1, h2, ?_⟩
    rw [decodeRM, if_neg h3, h4]
    rfl

end Sys2Proof
end

