-- ==== Sys2Proof/Laws/Memory.lean ====
section
/-! SUPPORT. What memory does: the canonical form is kept by every operation, a read after a write gives the byte
written, and every other byte stays. -/

namespace Sys2Proof.Machine

@[simp] theorem Memory.read_nil (x : Nat) : Memory.read [] x = Config.unlistedByte := rfl

@[simp] theorem Memory.wfFrom_nil (lo : Nat) : Memory.wfFrom lo [] = true := rfl

theorem Memory.wfFrom_cons (lo a : Nat) (b : Byte) (r : Memory) :
    Memory.wfFrom lo ((a, b) :: r) = true ↔
      lo ≤ a ∧ a < 2 ^ 32 ∧ b ≠ Config.unlistedByte ∧ Memory.wfFrom (a + 1) r = true := by
  simp [Memory.wfFrom, and_assoc]

/-- The canonical form from an address on is one from any lower address on. -/
theorem Memory.wfFrom_mono {lo lo' : Nat} (h : lo' ≤ lo) {m : Memory} (hm : m.wfFrom lo = true) :
    m.wfFrom lo' = true := by
  cases m with
  | nil => rfl
  | cons e r =>
    obtain ⟨a, b⟩ := e
    rw [Memory.wfFrom_cons] at hm ⊢
    exact ⟨by omega, hm.2⟩

/-- An address below the first listed one reads as an unlisted byte. -/
theorem Memory.read_below {lo x : Nat} {m : Memory} (hm : m.wfFrom lo = true) (hx : x < lo) :
    m.read x = Config.unlistedByte := by
  induction m generalizing lo with
  | nil => rfl
  | cons e r ih =>
    obtain ⟨a, b⟩ := e
    rw [Memory.wfFrom_cons] at hm
    have hne : a ≠ x := by omega
    simp only [Memory.read, if_neg hne]
    exact ih hm.2.2.2 (by omega)

/-- A write keeps the canonical form. -/
theorem Memory.wfFrom_write {lo x : Nat} {m : Memory} (v : Byte) (hm : m.wfFrom lo = true) (hlo : lo ≤ x)
    (hx : x < 2 ^ 32) : (m.write x v).wfFrom lo = true := by
  induction m generalizing lo with
  | nil =>
    unfold Memory.write
    split
    · rfl
    · rename_i hv
      exact (Memory.wfFrom_cons ..).mpr ⟨hlo, hx, hv, rfl⟩
  | cons e r ih =>
    obtain ⟨a, b⟩ := e
    have hc := (Memory.wfFrom_cons ..).mp hm
    unfold Memory.write
    split
    · split
      · exact hm
      · rename_i hxa hv
        exact (Memory.wfFrom_cons ..).mpr ⟨hlo, hx, hv, (Memory.wfFrom_cons ..).mpr ⟨by omega, hc.2⟩⟩
    · split
      · split
        · exact Memory.wfFrom_mono (by omega) hc.2.2.2
        · rename_i hv
          exact (Memory.wfFrom_cons ..).mpr ⟨hc.1, hc.2.1, hv, hc.2.2.2⟩
      · exact (Memory.wfFrom_cons ..).mpr ⟨hc.1, hc.2.1, hc.2.2.1, ih hc.2.2.2 (by omega)⟩

/-- A write keeps the canonical form (Memory.wf). -/
theorem Memory.wf_write {m : Memory} (hm : m.wf = true) (a : DWord) (v : Byte) : (m.write a.toNat v).wf = true :=
  Memory.wfFrom_write v hm (Nat.zero_le _) a.isLt

/-- A read after a write, in a memory in canonical form. -/
theorem Memory.read_write_from {lo x : Nat} {m : Memory} (hm : m.wfFrom lo = true) (v : Byte) (y : Nat) :
    (m.write x v).read y = if y = x then v else m.read y := by
  induction m generalizing lo with
  | nil =>
    unfold Memory.write
    split
    · rename_i hv
      by_cases h : y = x <;> simp [h, hv]
    · by_cases h : y = x
      · simp [Memory.read, h]
      · have : ¬ x = y := fun e => h e.symm
        simp [Memory.read, h, this]
  | cons e r ih =>
    obtain ⟨a, b⟩ := e
    have hc := (Memory.wfFrom_cons ..).mp hm
    unfold Memory.write
    split
    · rename_i hxa
      have hread : Memory.read ((a, b) :: r) x = Config.unlistedByte :=
        Memory.read_below (lo := a) ((Memory.wfFrom_cons ..).mpr ⟨Nat.le_refl _, hc.2⟩) hxa
      split
      · rename_i hv
        by_cases h : y = x
        · subst h
          rw [if_pos rfl, hread, hv]
        · rw [if_neg h]
      · by_cases h : y = x
        · simp [Memory.read, h]
        · have h' : ¬ x = y := fun e => h e.symm
          rw [if_neg h]
          show (if x = y then v else Memory.read ((a, b) :: r) y) = _
          rw [if_neg h']
    · split
      · rename_i hxa
        subst hxa
        split
        · rename_i hv
          by_cases h : y = x
          · subst h
            rw [if_pos rfl, hv]
            exact Memory.read_below hc.2.2.2 (by omega)
          · have h' : ¬ x = y := fun e => h e.symm
            simp [Memory.read, h, h']
        · by_cases h : y = x
          · simp [Memory.read, h]
          · have h' : ¬ x = y := fun e => h e.symm
            simp [Memory.read, h, h']
      · rename_i hxa hne
        by_cases ha : a = y
        · subst ha
          have h' : ¬ a = x := fun e => hne e.symm
          simp [Memory.read, h']
        · simp only [Memory.read, if_neg ha]
          exact ih hc.2.2.2

/-- A read after a write. -/
theorem Memory.read_write {m : Memory} (hm : m.wf = true) (x : Nat) (v : Byte) (y : Nat) :
    (m.write x v).read y = if y = x then v else m.read y := Memory.read_write_from hm v y

/-! ### Runs of bytes -/

@[simp] theorem storeBytes_nil_left (bs : List Byte) (m : Memory) : storeBytes [] bs m = m := rfl
@[simp] theorem storeBytes_nil_right (as : List DWord) (m : Memory) : storeBytes as [] m = m := by cases as <;> rfl
@[simp] theorem storeBytes_cons (a : DWord) (as : List DWord) (b : Byte) (bs : List Byte) (m : Memory) :
    storeBytes (a :: as) (b :: bs) m = storeBytes as bs (m.write a.toNat b) := rfl

theorem storeBytes_wf (as : List DWord) (bs : List Byte) {m : Memory} (hm : m.wf = true) :
    (storeBytes as bs m).wf = true := by
  induction as generalizing bs m with
  | nil => exact hm
  | cons a as ih =>
    cases bs with
    | nil => exact hm
    | cons b bs => exact ih bs (Memory.wf_write hm a b)

/-- A byte outside the addresses stored to stays. -/
theorem storeBytes_read_other (as : List DWord) (bs : List Byte) {m : Memory} (hm : m.wf = true) {x : Nat}
    (hx : ∀ a ∈ as, x ≠ a.toNat) : (storeBytes as bs m).read x = m.read x := by
  induction as generalizing bs m with
  | nil => rfl
  | cons a as ih =>
    cases bs with
    | nil => rfl
    | cons b bs =>
      rw [storeBytes_cons, ih bs (Memory.wf_write hm a b) fun c hc => hx c (List.mem_cons_of_mem _ hc),
        Memory.read_write hm, if_neg (hx a List.mem_cons_self)]

/-- The bytes stored at distinct addresses are read back. -/
theorem storeBytes_read_back (as : List DWord) (bs : List Byte) {m : Memory} (hm : m.wf = true) (hd : as.Nodup)
    (hl : as.length = bs.length) : as.map (fun a => (storeBytes as bs m).read a.toNat) = bs := by
  induction as generalizing bs m with
  | nil =>
    cases bs with
    | nil => rfl
    | cons b bs => simp at hl
  | cons a as ih =>
    cases bs with
    | nil => simp at hl
    | cons b bs =>
      obtain ⟨hna, hd'⟩ := List.nodup_cons.mp hd
      simp only [List.map_cons, storeBytes_cons]
      rw [storeBytes_read_other as bs (Memory.wf_write hm a b), Memory.read_write hm, if_pos rfl]
      · exact congrArg (b :: ·) (ih bs (Memory.wf_write hm a b) hd' (by simpa using hl))
      · intro c hc he
        exact hna (BitVec.eq_of_toNat_eq he ▸ hc)

theorem storeAll_wf (l : List (DWord × Byte)) {m : Memory} (hm : m.wf = true) : (storeAll l m).wf = true := by
  induction l generalizing m with
  | nil => exact hm
  | cons e r ih => exact ih (Memory.wf_write hm e.1 e.2)

/-! ### Byte order -/

@[simp] theorem leBytes_length (n v : Nat) : (leBytes n v).length = n := by
  induction n generalizing v with
  | zero => rfl
  | succ n ih => simp [leBytes, ih]

/-- The bytes of a number, put together again, are its low `n` bytes (R64). -/
theorem leNat_leBytes (n v : Nat) : leNat (leBytes n v) = v % 256 ^ n := by
  induction n generalizing v with
  | zero => simp [leBytes, leNat, Nat.mod_one]
  | succ n ih =>
    simp only [leBytes, leNat, ih, BitVec.toNat_ofNat]
    have h : 256 ^ (n + 1) = 256 * 256 ^ n := by ring
    rw [h, Nat.mod_mul (x := v) (a := 256)]

theorem leNat_lt (bs : List Byte) : leNat bs < 256 ^ bs.length := by
  induction bs with
  | nil => simp [leNat]
  | cons b r ih =>
    have := b.isLt
    simp only [leNat, List.length_cons, Nat.pow_succ']
    omega

end Sys2Proof.Machine
end

