-- ==== Sys2Proof/Laws/Ops.lean ====
section
/-! SUPPORT. What each shared operation can do, once: if it answers a state, what that state is. Provers cite these
instead of unfolding the operation. -/

namespace Sys2Proof.Machine

/-! ### Results -/

theorem bind_eq_ok {α β : Type} {x : Res α} {f : α → Res β} {b : β} :
    (x >>= f) = .ok b ↔ ∃ a, x = .ok a ∧ f a = .ok b := by
  cases x with
  | error e => simp [bind, Except.bind]
  | ok a => simp [bind, Except.bind]

@[simp] theorem ok_bind {α β : Type} (a : α) (f : α → Res β) : ((.ok a : Res α) >>= f) = f a := rfl

@[simp] theorem error_bind {α β : Type} (e : Fault) (f : α → Res β) : ((.error e : Res α) >>= f) = .error e := rfl

theorem map_eq_ok {α β : Type} {x : Res α} {f : α → β} {b : β} : x.map f = .ok b ↔ ∃ a, x = .ok a ∧ f a = b := by
  cases x with
  | error e => simp [Except.map]
  | ok a => simp [Except.map]

@[simp] theorem require_eq_ok {c : Bool} {f : Fault} {u : Unit} : require c f = .ok u ↔ c = true := by
  cases c <;> simp [require]

theorem require_true (f : Fault) : require true f = .ok () := rfl

theorem require_false (f : Fault) : require false f = .error f := rfl

@[simp] theorem outcome_eq_next {r : Res State} {t : State} : outcome r = .next t ↔ r = .ok t := by
  cases r <;> simp [outcome]

@[simp] theorem outcome_eq_fault {r : Res State} {f : Fault} : outcome r = .fault f ↔ r = .error f := by
  cases r <;> simp [outcome]

@[simp] theorem outcome_ne_refused (r : Res State) (x : Refusal) : outcome r ≠ .refused x := by
  cases r <;> simp [outcome]

/-! ### Raising (R262, R263, R270) -/

theorem raise_real {s : State} (h : s.mode = .real) (x : Exc) (c : Word) : raise s x c = .exception x none := by
  simp [raise, h]

theorem raise_prot {s : State} (h : s.mode = .prot) (x : Exc) (c : Word) : raise s x c = .exception x (some c) := by
  simp [raise, h]

theorem raise_v86 {s : State} (h : s.mode = .v86) (x : Exc) (c : Word) : raise s x c = .exception x (some c) := by
  simp [raise, h]

/-! ### Translation and memory (R64, R72) -/

theorem translate_off {s : State} (h : s.pagingOn = false) (k : AccessKind) (c : BitVec 2) (a : DWord) :
    translateByte s k c a = .ok a := by
  simp [translateByte, h]

/-- With paging off the physical addresses are the linear ones (R72). -/
theorem physAddrs_off {s : State} (h : s.pagingOn = false) (k : AccessKind) (c : BitVec 2) (n : Nat) (a : DWord) :
    physAddrs s k c n a = .ok (addrRun a n) := by
  induction n generalizing a with
  | zero => rfl
  | succ n ih => simp [physAddrs, translate_off h, ih, addrRun]

theorem physAddrs_length {s : State} {k : AccessKind} {c : BitVec 2} {n : Nat} {a : DWord} {as : List DWord}
    (h : physAddrs s k c n a = .ok as) : as.length = n := by
  induction n generalizing a as with
  | zero => simp [physAddrs] at h; simp [← h]
  | succ n ih =>
    simp only [physAddrs, bind_eq_ok] at h
    obtain ⟨b, _, r, hr, he⟩ := h
    simp only [Except.ok.injEq] at he
    simp [← he, ih hr]

theorem addrRun_length (a : DWord) (n : Nat) : (addrRun a n).length = n := by
  induction n generalizing a with
  | zero => rfl
  | succ n ih => simp [addrRun, ih]

theorem mem_addrRun {a b : DWord} {n : Nat} : b ∈ addrRun a n ↔ ∃ k, k < n ∧ b = a + BitVec.ofNat 32 k := by
  induction n generalizing a with
  | zero => simp [addrRun]
  | succ n ih =>
    simp only [addrRun, List.mem_cons, ih]
    constructor
    · rintro (h | ⟨k, hk, h⟩)
      · exact ⟨0, by omega, by simp [h]⟩
      · refine ⟨k + 1, by omega, ?_⟩
        rw [h, BitVec.add_assoc]
        congr 1
        apply BitVec.eq_of_toNat_eq
        simp [BitVec.toNat_add, Nat.add_comm]
    · rintro ⟨k, hk, h⟩
      cases k with
      | zero => left; simpa using h
      | succ k =>
        right
        refine ⟨k, by omega, ?_⟩
        rw [h, BitVec.add_assoc]
        congr 1
        apply BitVec.eq_of_toNat_eq
        simp [BitVec.toNat_add, Nat.add_comm]

/-- Fewer than 2^32 addresses in a row are distinct. -/
theorem addrRun_nodup (a : DWord) {n : Nat} (h : n ≤ 2 ^ 32) : (addrRun a n).Nodup := by
  induction n generalizing a with
  | zero => simp [addrRun]
  | succ n ih =>
    refine List.nodup_cons.mpr ⟨?_, ih _ (by omega)⟩
    intro hm
    obtain ⟨k, hk, he⟩ := mem_addrRun.mp hm
    have := congrArg BitVec.toNat he
    simp only [BitVec.toNat_add, BitVec.toNat_ofNat] at this
    have ha := a.isLt
    have h1 : (1 : DWord).toNat = 1 := rfl
    rw [h1, Nat.mod_eq_of_lt (a := k) (by omega)] at this
    omega

theorem memRead_eq_ok {s : State} {k : AccessKind} {c : BitVec 2} {a : DWord} {n v : Nat} :
    memRead s k c a n = .ok v ↔
      ∃ as, physAddrs s k c n a = .ok as ∧ v = leNat (as.map fun b => s.mem.read b.toNat) := by
  simp only [memRead, bind_eq_ok, Except.ok.injEq]
  exact ⟨fun ⟨as, h, e⟩ => ⟨as, h, e.symm⟩, fun ⟨as, h, e⟩ => ⟨as, h, e.symm⟩⟩

/-- A memory write changes memory only, at the physical addresses of its bytes. -/
theorem memWrite_eq_ok {s t : State} {c : BitVec 2} {a : DWord} {n v : Nat} :
    memWrite s c a n v = .ok t ↔
      ∃ as, physAddrs s .write c n a = .ok as ∧ t = s.setMem (storeBytes as (leBytes n v) s.mem) := by
  simp only [memWrite, bind_eq_ok, Except.ok.injEq]
  exact ⟨fun ⟨as, h, e⟩ => ⟨as, h, e.symm⟩, fun ⟨as, h, e⟩ => ⟨as, h, e.symm⟩⟩

/-! ### Segment reads (R67) -/

/-- A segment read answers exactly when the check passes and every byte translates: the little-endian number of the
bytes. -/
theorem segRead_eq_ok {s : State} {g : SegName} {off : DWord} {n v : Nat} :
    segRead s g off n = .ok v ↔
      segLegal s.mode g (s.seg g) .read off.toNat n = true ∧
        ∃ as, physAddrs s .read s.cpl n (linearAddr (s.seg g) off) = .ok as ∧
          v = leNat (as.map fun b => s.mem.read b.toNat) := by
  simp only [segRead, bind_eq_ok, require_eq_ok, memRead_eq_ok, exists_and_left, exists_const]

theorem segRead_illegal {s : State} {g : SegName} {off : DWord} {n : Nat}
    (h : segLegal s.mode g (s.seg g) .read off.toNat n = false) : segRead s g off n = .error (operandFault s g) := by
  simp [segRead, h, require_false]

theorem insideOffsets_iff {z : Size} {off n : Nat} :
    insideOffsets z off n = true ↔ off + n ≤ if z = .s16 then 0x10000 else 0x100000000 := by
  cases z <;> exact decide_eq_true_iff

/-- Inside the offset range a string operand is a segment read, across its end it is the fault of an illegal address
(R241). -/
theorem stringRead_eq (s : State) (asz : Size) (g : SegName) (off : DWord) (n : Nat) :
    stringRead s asz g off n =
      if off.toNat + n ≤ 2 ^ (8 * asz.bytes) then segRead s g off n else .error (operandFault s g) := by
  unfold stringRead insideOffsets
  split
  · rw [decide_eq_true ‹_›, require_true, ok_bind]
  · rw [decide_eq_false ‹_›, require_false, error_bind]

/-! ### What pushes leave alone -/

/-- `t` is `s` but for ESP, memory and the count of pads drawn, and memory keeps its canonical form: what pushes do. -/
structure PushFrame (s t : State) : Prop where
  regs : ∀ r, r ≠ .esp → t.reg r = s.reg r
  eip : t.eip = s.eip
  eflags : t.eflags = s.eflags
  segs : t.segs = s.segs
  cpl : t.cpl = s.cpl
  cr0 : t.cr0 = s.cr0
  cr2 : t.cr2 = s.cr2
  cr3 : t.cr3 = s.cr3
  dbg : t.dbg = s.dbg
  test : t.test = s.test
  gdtr : t.gdtr = s.gdtr
  idtr : t.idtr = s.idtr
  ldtr : t.ldtr = s.ldtr
  tr : t.tr = s.tr
  haltAddr : t.haltAddr = s.haltAddr
  realSsVector12 : t.realSsVector12 = s.realSsVector12
  intrOffer : t.intrOffer = s.intrOffer
  wf : s.mem.wf = true → t.mem.wf = true

theorem PushFrame.refl (s : State) : PushFrame s s := by
  constructor <;> simp

theorem PushFrame.trans {s t u : State} (h : PushFrame s t) (k : PushFrame t u) : PushFrame s u where
  regs r hr := (k.regs r hr).trans (h.regs r hr)
  eip := k.eip.trans h.eip
  eflags := k.eflags.trans h.eflags
  segs := k.segs.trans h.segs
  cpl := k.cpl.trans h.cpl
  cr0 := k.cr0.trans h.cr0
  cr2 := k.cr2.trans h.cr2
  cr3 := k.cr3.trans h.cr3
  dbg := k.dbg.trans h.dbg
  test := k.test.trans h.test
  gdtr := k.gdtr.trans h.gdtr
  idtr := k.idtr.trans h.idtr
  ldtr := k.ldtr.trans h.ldtr
  tr := k.tr.trans h.tr
  haltAddr := k.haltAddr.trans h.haltAddr
  realSsVector12 := k.realSsVector12.trans h.realSsVector12
  intrOffer := k.intrOffer.trans h.intrOffer
  wf hm := k.wf (h.wf hm)

theorem PushFrame.mode {s t : State} (h : PushFrame s t) : t.mode = s.mode := State.mode_congr h.cr0 h.eflags

theorem PushFrame.pagingOn {s t : State} (h : PushFrame s t) : t.pagingOn = s.pagingOn := State.pagingOn_congr h.cr0

theorem PushFrame.stackSize {s t : State} (h : PushFrame s t) : t.stackSize = s.stackSize := by
  simp [State.stackSize, h.mode, h.segs]

theorem pushFrame_memWrite {s t : State} {c : BitVec 2} {a : DWord} {n v : Nat} (h : memWrite s c a n v = .ok t) :
    PushFrame s t := by
  obtain ⟨as, _, rfl⟩ := memWrite_eq_ok.mp h
  constructor <;> simp
  exact fun hm => storeBytes_wf as _ hm

theorem pushFrame_setStackPtr (s : State) (z : Size) (v : DWord) : PushFrame s (s.setStackPtr z v) := by
  constructor <;> simp
  intro r hr
  cases z <;> simp [State.setStackPtr, hr]

/-! ### Pushes (R75) -/

/-- A push answers exactly when its slot passes the check and translates; then it is a store and a move of eSP. -/
theorem push_eq_ok {s t : State} {n v : Nat} :
    push n v s = .ok t ↔
      segLegal s.mode .ss s.segs.ss .write (pushOffset s n).toNat n = true ∧
        ∃ as, physAddrs s .write s.cpl n (linearAddr s.segs.ss (pushOffset s n)) = .ok as ∧
          t = (s.setMem (storeBytes as (leBytes n v) s.mem)).setStackPtr s.stackSize (pushOffset s n) := by
  simp only [push, bind_eq_ok, require_eq_ok, memWrite_eq_ok, Except.ok.injEq]
  constructor
  · rintro ⟨_, hl, u, ⟨as, ha, rfl⟩, rfl⟩
    exact ⟨hl, as, ha, rfl⟩
  · rintro ⟨hl, as, ha, rfl⟩
    exact ⟨(), hl, _, ⟨as, ha, rfl⟩, rfl⟩

theorem pushFrame_push {s t : State} {n v : Nat} (h : push n v s = .ok t) : PushFrame s t := by
  obtain ⟨_, as, _, rfl⟩ := push_eq_ok.mp h
  refine PushFrame.trans ?_ (pushFrame_setStackPtr _ _ _)
  constructor <;> simp
  exact fun hm => storeBytes_wf as _ hm

theorem pushFrame_pushSelector {pads : Nat → Word} {z : Size} {sel : Word} {s t : State}
    (h : pushSelector pads z sel s = .ok t) : PushFrame s t := by
  cases z with
  | s16 => exact pushFrame_push h
  | s32 =>
    refine PushFrame.trans ?_ (pushFrame_push h)
    constructor <;> simp

theorem pushFrame_pushOffsetValue {z : Size} {v : DWord} {s t : State} (h : pushOffsetValue z v s = .ok t) :
    PushFrame s t := by
  cases z with
  | s16 => exact pushFrame_push h
  | s32 => exact pushFrame_push h

theorem pushFrame_pushReturn {pads : Nat → Word} {z : Size} {sel : Word} {ret : DWord} {s t : State}
    (h : pushReturn pads z sel ret s = .ok t) : PushFrame s t := by
  simp only [pushReturn, bind_eq_ok] at h
  obtain ⟨u, hu, ht⟩ := h
  exact (pushFrame_pushSelector hu).trans (pushFrame_pushOffsetValue ht)

theorem pushFrame_pushList {n : Nat} {vs : List Nat} {s t : State} (h : pushList n vs s = .ok t) : PushFrame s t := by
  induction vs generalizing s with
  | nil =>
    simp only [pushList, Except.ok.injEq] at h
    exact h ▸ PushFrame.refl s
  | cons v r ih =>
    simp only [pushList, bind_eq_ok] at h
    obtain ⟨u, hu, ht⟩ := h
    exact (pushFrame_push hu).trans (ih ht)

/-! ### Loading CS and SS (R155) -/

theorem pushFrame_markAccessed {d : Desc} {s t : State} (h : markAccessed d s = .ok t) : PushFrame s t := by
  unfold markAccessed at h
  split at h
  · simp only [Except.ok.injEq] at h
    exact h ▸ PushFrame.refl s
  · exact pushFrame_memWrite h

/-- LoadCS is a possible store of the Accessed bit and then CS. -/
theorem loadCs_eq_ok {sel : Word} {d : Desc} {cpl : BitVec 2} {s t : State} :
    loadCs sel d cpl s = .ok t ↔
      ∃ u, markAccessed d s = .ok u ∧ t = u.setCs (segOfDesc (withRpl sel cpl) d.bits) := by
  simp only [loadCs, bind_eq_ok, Except.ok.injEq]
  exact ⟨fun ⟨u, h, e⟩ => ⟨u, h, e.symm⟩, fun ⟨u, h, e⟩ => ⟨u, h, e.symm⟩⟩

/-- LoadSS is a possible store of the Accessed bit and then SS. -/
theorem loadSs_eq_ok {sel : Word} {d : Desc} {s t : State} :
    loadSs sel d s = .ok t ↔ ∃ u, markAccessed d s = .ok u ∧ t = u.setSs (segOfDesc sel d.bits) := by
  simp only [loadSs, bind_eq_ok, Except.ok.injEq]
  exact ⟨fun ⟨u, h, e⟩ => ⟨u, h, e.symm⟩, fun ⟨u, h, e⟩ => ⟨u, h, e.symm⟩⟩

/-- The RPL of a selector whose RPL was replaced (R155). -/
theorem selRpl_withRpl (sel : Word) (cpl : BitVec 2) : selRpl (withRpl sel cpl) = cpl := by
  apply BitVec.eq_of_getLsbD_eq
  intro i hi
  have h : (0xFFFC : Word).getLsbD i = false := by
    have : i = 0 ∨ i = 1 := by omega
    rcases this with rfl | rfl <;> rfl
  have h16 : i < 16 := by omega
  have hc : (0xFFFC#16).getLsbD i = false := h
  simp only [selRpl, withRpl, BitVec.getLsbD_extractLsb', hi, decide_true, Bool.true_and, Nat.zero_add,
    BitVec.getLsbD_or, BitVec.getLsbD_and, BitVec.getLsbD_setWidth, h16]
  rw [h]
  simp

/-! ### Far CALL in Protected Mode: what each path ends with -/

/-- What a direct call or a call through a gate to the same privilege ends with (R159, R160, R163). -/
theorem enterSegment_eq_ok {pads : Nat → Word} {z : Size} {ret : DWord} {sel : Word} {d : Desc} {tgt : DWord}
    {s t : State} :
    enterSegment pads z ret sel d tgt s = .ok t ↔
      stackRoom s (2 * z.bytes) z.bytes = true ∧ tgt ≤ descLimit d.bits ∧
        ∃ u v, pushReturn pads z s.segs.cs.sel ret s = .ok u ∧ markAccessed d u = .ok v ∧
          t = (v.setCs (segOfDesc (withRpl sel s.cpl) d.bits)).setEip tgt := by
  simp only [enterSegment, bind_eq_ok, require_eq_ok, loadCs_eq_ok, Except.ok.injEq, decide_eq_true_eq]
  constructor
  · rintro ⟨_, h1, _, h2, u, h3, _, ⟨v, h4, rfl⟩, rfl⟩
    exact ⟨h1, h2, u, v, h3, h4, rfl⟩
  · rintro ⟨h1, h2, u, v, h3, h4, rfl⟩
    exact ⟨(), h1, (), h2, u, h3, _, ⟨v, h4, rfl⟩, rfl⟩

/-- What a near CALL does when it answers a state (R131). -/
theorem nearCall_eq_ok {z : Size} {ret tgt : DWord} {s t : State} :
    nearCall z ret tgt s = .ok t ↔
      stackRoom s z.bytes z.bytes = true ∧ tgt ≤ s.segs.cs.limit ∧
        ∃ u, pushOffsetValue z ret s = .ok u ∧ t = u.setEip tgt := by
  simp only [nearCall, bind_eq_ok, require_eq_ok, Except.ok.injEq, decide_eq_true_eq]
  constructor
  · rintro ⟨_, h1, _, h2, u, h3, rfl⟩
    exact ⟨h1, h2, u, h3, rfl⟩
  · rintro ⟨h1, h2, u, h3, rfl⟩
    exact ⟨(), h1, (), h2, u, h3, rfl⟩

/-- What a far CALL outside Protected Mode does when it answers a state (R143). -/
theorem farReal_eq_ok {pads : Nat → Word} {z : Size} {ret : DWord} {ptr : FarPtr} {s t : State} :
    farReal pads z ret ptr s = .ok t ↔
      stackRoom s (2 * z.bytes) z.bytes = true ∧ ptr.off ≤ 0xFFFF ∧
        ∃ u, pushReturn pads z s.segs.cs.sel ret s = .ok u ∧
          t = (u.setCs (realSeg u.segs.cs ptr.sel)).setEip ptr.off := by
  simp only [farReal, bind_eq_ok, require_eq_ok, Except.ok.injEq, decide_eq_true_eq]
  constructor
  · rintro ⟨_, h1, _, h2, u, h3, rfl⟩
    exact ⟨h1, h2, u, h3, rfl⟩
  · rintro ⟨h1, h2, u, h3, rfl⟩
    exact ⟨(), h1, (), h2, u, h3, rfl⟩

/-- A task switch that answers a state: the parameter answered a task, the state is that task entered, and its EIP is
inside its CS (R178). -/
theorem switchTasks_eq_ok {s t : State} {ret : DWord} {tsel : Word} {f : TssFormat} {td : QWord} :
    switchTasks s ret tsel f td = .ok t ↔
      ∃ image, Config.switchTasks s ret true tsel td = .switched image ∧ t = enterTask s f image ∧
        t.eip ≤ t.segs.cs.limit := by
  unfold switchTasks
  cases h : Config.switchTasks s ret true tsel td with
  | faulted x c => simp
  | switched image =>
    simp only [bind_eq_ok, require_eq_ok, Except.ok.injEq, decide_eq_true_eq, SwitchResult.switched.injEq,
      exists_eq_left']
    constructor
    · rintro ⟨_, h1, rfl⟩
      exact ⟨rfl, h1⟩
    · rintro ⟨rfl, h1⟩
      exact ⟨(), h1, rfl⟩

/-- A call to a TSS that answers a state went through SwitchTasks with an available, present TSS (R175, R176). -/
theorem enterTss_eq_ok {ret : DWord} {tsel : Word} {td : QWord} {s t : State} :
    enterTss ret tsel td s = .ok t ↔
      ∃ f, availableTss td = some f ∧ descPresent td = true ∧ switchTasks s ret tsel f td = .ok t := by
  unfold enterTss
  cases h : availableTss td with
  | none => simp
  | some f =>
    simp only [bind_eq_ok, require_eq_ok, Option.some.injEq, exists_eq_left']
    exact ⟨fun ⟨_, h1, h2⟩ => ⟨h1, h2⟩, fun ⟨h1, h2⟩ => ⟨(), h1, h2⟩⟩

/-- MORE-PRIVILEGE when it answers a state: the new stack, the checks of R165, and what the actions of R167 leave. -/
theorem morePrivilege_eq_ok {pads : Nat → Word} {z : Size} {ret : DWord} {g : QWord} {csel : Word} {c : Desc}
    {s t : State} (h : morePrivilege pads z ret g csel c s = .ok t) :
    ∃ inner sd params u v w,
      innerStack s (descDpl c.bits).toNat = .ok inner ∧
      newStackSegment s inner.ss (descDpl c.bits) = .ok sd ∧
      readParams s z.bytes (gateCount g) 0 = .ok params ∧
      gateOffset z g ≤ descLimit c.bits ∧
      markAccessed sd s = .ok u ∧
      PushFrame (((u.setSs (segOfDesc inner.ss sd.bits)).setStackPtr
        (segStackSize (segOfDesc inner.ss sd.bits)) inner.esp).setCpl (descDpl sd.bits)) v ∧
      markAccessed c v = .ok w ∧
      t = (w.setCs (segOfDesc (withRpl csel (descDpl sd.bits)) c.bits)).setEip (gateOffset z g) := by
  simp only [morePrivilege, bind_eq_ok, require_eq_ok, loadCs_eq_ok, decide_eq_true_eq, Except.ok.injEq] at h
  obtain ⟨inner, hi, sd, hs, _, _, _, hl, params, hp, v, hv, _, ⟨w, hw, rfl⟩, rfl⟩ := h
  simp only [switchStack, bind_eq_ok, loadSs_eq_ok] at hv
  obtain ⟨_, ⟨u, hu, rfl⟩, a, ha, b, hb, d, hd, hr⟩ := hv
  have hf := (((pushFrame_pushSelector ha).trans (pushFrame_pushOffsetValue hb)).trans (pushFrame_pushList hd)).trans
    (pushFrame_pushReturn hr)
  refine ⟨inner, sd, params, u, v, w, hi, hs, hp, hl, hu, ?_, hw, ?_⟩
  · simpa using hf
  · rw [hf.cpl]
    simp

/-- The new stack segment has the DPL it was asked for (R165). -/
theorem newStackSegment_dpl {s : State} {nss : Word} {l : BitVec 2} {d : Desc}
    (h : newStackSegment s nss l = .ok d) : descDpl d.bits = l := by
  simp only [newStackSegment, bind_eq_ok, require_eq_ok, Except.ok.injEq] at h
  obtain ⟨_, _, e, _, _, _, _, hd, _, _, _, _, rfl⟩ := h
  simpa using hd

end Sys2Proof.Machine
end

