-- ==== Sys2Proof/Laws/Stack.lean ====
section
/-! SUPPORT. Consecutive pushes with paging off: where each slot lies, that slots do not overlap, and what a list of
pushes leaves (20_memory.md R74 to R76). -/

namespace Sys2Proof.Machine

/-! ### Lists of addresses and bytes -/

theorem addrRun_getElem? (a : DWord) (n k : Nat) :
    (addrRun a n)[k]? = if k < n then some (a + BitVec.ofNat 32 k) else none := by
  induction n generalizing a k with
  | zero => simp [addrRun]
  | succ n ih =>
    cases k with
    | zero => simp [addrRun]
    | succ k =>
      have e : a + 1 + BitVec.ofNat 32 k = a + BitVec.ofNat 32 (k + 1) := by
        rw [BitVec.add_assoc]
        congr 1
        apply BitVec.eq_of_toNat_eq
        simp [BitVec.toNat_add, Nat.add_comm]
      simp only [addrRun, List.getElem?_cons_succ, ih, e, Nat.add_lt_add_iff_right]

theorem leBytes_getElem? (n v k : Nat) :
    (leBytes n v)[k]? = if k < n then some (BitVec.ofNat 8 (v / 2 ^ (8 * k))) else none := by
  induction n generalizing v k with
  | zero => simp [leBytes]
  | succ n ih =>
    cases k with
    | zero => simp [leBytes]
    | succ k =>
      have e : v / 256 / 2 ^ (8 * k) = v / 2 ^ (8 * (k + 1)) := by
        rw [Nat.div_div_eq_div_mul, Nat.mul_succ, Nat.pow_add, Nat.mul_comm]
      simp [leBytes, ih, e]

/-- After bytes are stored at distinct addresses, each reads back. -/
theorem storeBytes_read_at {as : List DWord} {bs : List Byte} {m : Memory} (hm : m.wf = true) (hd : as.Nodup)
    (hl : as.length = bs.length) {k : Nat} {a : DWord} {b : Byte} (ha : as[k]? = some a) (hb : bs[k]? = some b) :
    (storeBytes as bs m).read a.toNat = b := by
  have h := storeBytes_read_back as bs hm hd hl
  have h2 := congrArg (fun l => l[k]?) h
  simp only [List.getElem?_map, ha, hb, Option.map_some, Option.some.injEq] at h2
  exact h2

/-! ### Where a slot lies -/

/-- The number of offsets of a stack: 2^16 or 2^32 (R74). -/
def stackSpan : Size → Nat
  | .s16 => 2 ^ 16
  | .s32 => 2 ^ 32

theorem stackBelow_toNat (z : Size) (sp : DWord) (d : Nat) :
    (stackBelow z sp d).toNat = ((stackTop z sp).toNat + (stackSpan z - d % stackSpan z)) % stackSpan z := by
  cases z with
  | s16 =>
    have h : (low16 sp).toNat < 2 ^ 16 := (low16 sp).isLt
    simp only [stackBelow, stackTop, stackSpan, BitVec.toNat_setWidth, BitVec.toNat_sub, BitVec.toNat_ofNat]
    omega
  | s32 =>
    simp only [stackBelow, stackTop, stackSpan, BitVec.toNat_sub, BitVec.toNat_ofNat]
    omega

/-- A slot that passes the write check ends within 32-bit offsets. -/
theorem segLegal_write_bound {m : Mode} {g : Seg} {off n : Nat} (h : segLegal m .ss g .write off n = true) :
    off + n ≤ 2 ^ 32 := by
  cases m with
  | real => simp only [segLegal, decide_eq_true_eq] at h; omega
  | v86 => simp only [segLegal, decide_eq_true_eq] at h; omega
  | prot =>
    simp only [segLegal, Bool.and_eq_true] at h
    have h2 := h.2
    have hl := g.limit.isLt
    unfold Seg.inLimit at h2
    split at h2
    · simp only [Bool.and_eq_true, decide_eq_true_eq] at h2
      cases hb : g.big <;> simp [hb] at h2 <;> omega
    · simp only [decide_eq_true_eq] at h2
      omega

/-- Two slots of one size, not more than the stack's span apart, share no byte. -/
theorem slot_bytes_distinct {z : Size} {sp base : DWord} {n i j k l : Nat} (hn : n = 2 ∨ n = 4)
    (hi : i * n < 2 ^ 16) (hj : j * n < 2 ^ 16) (hk : k < n) (hl : l < n)
    (bi : (stackBelow z sp (i * n)).toNat + n ≤ 2 ^ 32) (bj : (stackBelow z sp (j * n)).toNat + n ≤ 2 ^ 32)
    (h : base + stackBelow z sp (i * n) + BitVec.ofNat 32 k = base + stackBelow z sp (j * n) + BitVec.ofNat 32 l) :
    i = j ∧ k = l := by
  have h1 : stackBelow z sp (i * n) + BitVec.ofNat 32 k = stackBelow z sp (j * n) + BitVec.ofNat 32 l := by
    rw [BitVec.add_assoc, BitVec.add_assoc] at h
    exact (BitVec.add_right_inj base).mp h
  have h2 := congrArg BitVec.toNat h1
  simp only [BitVec.toNat_add, BitVec.toNat_ofNat] at h2
  rw [Nat.mod_eq_of_lt (a := k) (by omega), Nat.mod_eq_of_lt (a := l) (by omega),
    Nat.mod_eq_of_lt (by omega), Nat.mod_eq_of_lt (by omega)] at h2
  rw [stackBelow_toNat, stackBelow_toNat] at h2
  have hs : (stackTop z sp).toNat < stackSpan z := by
    cases z with
    | s16 =>
      have h : (low16 sp).toNat < 2 ^ 16 := (low16 sp).isLt
      simp only [stackTop, stackSpan, BitVec.toNat_setWidth]
      omega
    | s32 => simpa only [stackTop, stackSpan] using sp.isLt
  generalize (stackTop z sp).toNat = t at *
  rcases hn with rfl | rfl <;> cases z <;> simp only [stackSpan] at * <;> omega

/-! ### One push -/

theorem stackTop_setStackPtr (s : State) (z : Size) (v : DWord) (h : z = .s16 → v.toNat < 2 ^ 16) :
    stackTop z ((s.setStackPtr z v).reg .esp) = v := by
  cases z with
  | s16 =>
    have h := h rfl
    have h2 := State.reg16_setReg16 s .esp (low16 v)
    simp only [State.setStackPtr, stackTop]
    rw [State.reg16] at h2
    rw [h2]
    apply BitVec.eq_of_toNat_eq
    simp only [low16, BitVec.toNat_setWidth, BitVec.extractLsb'_toNat, Nat.shiftRight_zero]
    omega
  | s32 => simp [State.setStackPtr, stackTop]

theorem stackBelow_lt (sp : DWord) (d : Nat) : (stackBelow .s16 sp d).toNat < 2 ^ 16 := by
  rw [stackBelow_toNat]
  exact Nat.mod_lt _ (by simp [stackSpan])

/-- Below the new top after a push. -/
theorem stackBelow_setStackPtr (s : State) (z : Size) (sp : DWord) (d e : Nat) :
    stackBelow z ((s.setStackPtr z (stackBelow z sp d)).reg .esp) e = stackBelow z sp (d + e) := by
  apply BitVec.eq_of_toNat_eq
  rw [stackBelow_toNat, stackTop_setStackPtr, stackBelow_toNat, stackBelow_toNat]
  · cases z <;> simp only [stackSpan] <;> omega
  · rintro rfl
    exact stackBelow_lt _ _

/-- The state after one push with paging off. -/
def pushedState (n v : Nat) (s : State) : State :=
  (s.setMem (storeBytes (addrRun (linearAddr s.segs.ss (pushOffset s n)) n) (leBytes n v) s.mem)).setStackPtr
    s.stackSize (pushOffset s n)

theorem push_off {s : State} {n : Nat} (v : Nat) (hp : s.pagingOn = false)
    (hl : segLegal s.mode .ss s.segs.ss .write (pushOffset s n).toNat n = true) :
    push n v s = .ok (pushedState n v s) :=
  push_eq_ok.mpr ⟨hl, _, physAddrs_off hp _ _ _ _, rfl⟩

theorem pushFrame_pushedState (n v : Nat) (s : State) : PushFrame s (pushedState n v s) := by
  refine PushFrame.trans ?_ (pushFrame_setStackPtr _ _ _)
  constructor <;> simp
  exact fun hm => storeBytes_wf _ _ hm

theorem pushedState_slot (n v j : Nat) (s : State) :
    stackSlot (pushedState n v s) n j = stackSlot s n (j + 1) := by
  have hf := pushFrame_pushedState n v s
  rw [stackSlot, stackSlot, hf.segs, hf.stackSize]
  congr 1
  have e : (j + 1) * n = n + j * n := by rw [Nat.succ_mul, Nat.add_comm]
  rw [e]
  exact stackBelow_setStackPtr _ _ _ _ _

/-! ### A list of pushes -/

/-- What a list of pushes leaves, memory apart. -/
structure ListLowered (n : Nat) (vs : List Nat) (s t : State) : Prop where
  frame : PushFrame s t
  top : ∀ e, stackBelow s.stackSize (t.reg .esp) e = stackBelow s.stackSize (s.reg .esp) (vs.length * n + e)
  high : s.stackSize = .s16 → (t.reg .esp).extractLsb' 16 16 = (s.reg .esp).extractLsb' 16 16
  draws : t.draws = s.draws

/-- Pushes whose slots all pass the check succeed with paging off. -/
theorem pushList_off {n : Nat} (vs : List Nat) {s : State} (hp : s.pagingOn = false)
    (hl : ∀ j, 1 ≤ j → j ≤ vs.length →
      segLegal s.mode .ss s.segs.ss .write (stackBelow s.stackSize (s.reg .esp) (j * n)).toNat n = true) :
    ∃ t, pushList n vs s = .ok t ∧ ListLowered n vs s t := by
  induction vs generalizing s with
  | nil => exact ⟨s, rfl, PushFrame.refl s, by simp, fun _ => rfl, rfl⟩
  | cons v r ih =>
    have h1 : segLegal s.mode .ss s.segs.ss .write (pushOffset s n).toNat n = true := by
      simpa [pushOffset] using hl 1 (by omega) (by simp)
    have hf := pushFrame_pushedState n v s
    have hsp : ∀ e, stackBelow s.stackSize ((pushedState n v s).reg .esp) e =
        stackBelow s.stackSize (s.reg .esp) (n + e) := fun e => stackBelow_setStackPtr _ _ _ _ _
    obtain ⟨t, ht, hlow⟩ := ih (s := pushedState n v s) (hf.pagingOn.trans hp) (by
      intro j hj1 hj2
      rw [hf.mode, hf.segs, hf.stackSize, hsp]
      have := hl (j + 1) (by omega) (by simp; omega)
      rwa [Nat.succ_mul, Nat.add_comm] at this)
    refine ⟨t, ?_, hf.trans hlow.frame, ?_, ?_, ?_⟩
    · simp only [pushList, push_off v hp h1, ok_bind, ht]
    · intro e
      have := hlow.top e
      rw [hf.stackSize, hsp] at this
      rw [this]
      congr 1
      rw [List.length_cons, Nat.succ_mul]
      omega
    · intro h
      rw [hlow.high (hf.stackSize.trans h)]
      simp [pushedState, State.setStackPtr, h]
    · rw [hlow.draws]
      simp [pushedState]

/-- What a list of pushes leaves in memory: value `j` in slot `j + 1`, every other byte as it was. -/
structure ListStored (n : Nat) (vs : List Nat) (s t : State) : Prop where
  values : ∀ j v k, vs[j]? = some v → k < n →
    t.mem.read (stackSlot s n (j + 1) + BitVec.ofNat 32 k).toNat = BitVec.ofNat 8 (v / 2 ^ (8 * k))
  others : ∀ a : Nat,
    (∀ j, j < vs.length → ∀ b ∈ addrRun (stackSlot s n (j + 1)) n, b.toNat ≠ a) → t.mem.read a = s.mem.read a

theorem pushList_stored {n : Nat} (hn : n = 2 ∨ n = 4) (vs : List Nat) {s : State} (hp : s.pagingOn = false)
    (hw : s.mem.wf = true) (hb : vs.length * n < 2 ^ 16)
    (hl : ∀ j, 1 ≤ j → j ≤ vs.length →
      segLegal s.mode .ss s.segs.ss .write (stackBelow s.stackSize (s.reg .esp) (j * n)).toNat n = true) :
    ∃ t, pushList n vs s = .ok t ∧ ListLowered n vs s t ∧ ListStored n vs s t := by
  induction vs generalizing s with
  | nil => exact ⟨s, rfl, ⟨PushFrame.refl s, by simp, fun _ => rfl, rfl⟩, by simp, fun _ _ => rfl⟩
  | cons v r ih =>
    obtain ⟨t', ht', hlow⟩ := pushList_off (v :: r) hp hl
    have h1 : segLegal s.mode .ss s.segs.ss .write (pushOffset s n).toNat n = true := by
      simpa [pushOffset] using hl 1 (by omega) (by simp)
    have hf := pushFrame_pushedState n v s
    have hsp : ∀ e, stackBelow s.stackSize ((pushedState n v s).reg .esp) e =
        stackBelow s.stackSize (s.reg .esp) (n + e) := fun e => stackBelow_setStackPtr _ _ _ _ _
    have hlen : (v :: r).length * n = r.length * n + n := by rw [List.length_cons, Nat.succ_mul]
    obtain ⟨t, ht, -, hst⟩ := ih (s := pushedState n v s) (hf.pagingOn.trans hp) (hf.wf hw) (by omega) (by
      intro j hj1 hj2
      rw [hf.mode, hf.segs, hf.stackSize, hsp]
      have := hl (j + 1) (by omega) (by simp; omega)
      rwa [Nat.succ_mul, Nat.add_comm] at this)
    have hall : pushList n (v :: r) s = .ok t := by simp only [pushList, push_off v hp h1, ok_bind, ht]
    have htt : t' = t := by
      rw [ht'] at hall
      exact Except.ok.inj hall
    subst htt
    have hmem : (pushedState n v s).mem =
        storeBytes (addrRun (stackSlot s n 1) n) (leBytes n v) s.mem := by
      simp [pushedState, stackSlot, pushOffset]
    refine ⟨t', hall, hlow, ?_, ?_⟩
    · intro j w k hj hk
      cases j with
      | zero =>
        have hw' : v = w := by simpa using hj
        subst hw'
        have hk' : (addrRun (stackSlot s n 1) n)[k]? = some (stackSlot s n 1 + BitVec.ofNat 32 k) := by
          rw [addrRun_getElem?, if_pos hk]
        have hv' : (leBytes n v)[k]? = some (BitVec.ofNat 8 (v / 2 ^ (8 * k))) := by
          rw [leBytes_getElem?, if_pos hk]
        rw [Nat.zero_add, hst.others]
        · rw [hmem]
          exact storeBytes_read_at hw (addrRun_nodup _ (by omega)) (by simp [addrRun_length]) hk' hv'
        · intro j hj' b hb' he
          rw [pushedState_slot] at hb'
          obtain ⟨l, hl', rfl⟩ := mem_addrRun.mp hb'
          have := slot_bytes_distinct (z := s.stackSize) (sp := s.reg .esp) (base := s.segs.ss.base) (n := n)
            (i := j + 1 + 1) (j := 1) (k := l) (l := k) hn
            (by
              have : (j + 1 + 1) * n ≤ (r.length + 1) * n := Nat.mul_le_mul_right _ (by omega)
              rw [Nat.succ_mul (r.length)] at this
              omega)
            (by omega) hl' hk
            (segLegal_write_bound (hl (j + 1 + 1) (by omega) (by simp; omega)))
            (segLegal_write_bound (hl 1 (by omega) (by simp)))
            (BitVec.eq_of_toNat_eq he)
          omega
      | succ j =>
        have := hst.values j w k (by simpa using hj) hk
        rwa [pushedState_slot] at this
    · intro a ha
      rw [hst.others a, hmem]
      · refine storeBytes_read_other _ _ hw ?_
        intro b hb' he
        exact ha 0 (by simp) b hb' he.symm
      · intro j hj b hb'
        rw [pushedState_slot] at hb'
        exact ha (j + 1) (by simp; omega) b hb'

end Sys2Proof.Machine
end

