-- ==== Sys2Proof/Laws/Far.lean ====
section
/-! SUPPORT. Far CALL: descriptors read from their tables, the return address pushed with paging off, the Accessed bit,
and what each path of a far CALL in Protected Mode ends with (41_call_far_protected.md). -/

namespace Sys2Proof.Machine

/-! ### Reading descriptors (R152) -/

theorem memRead_lt {s : State} {k : AccessKind} {c : BitVec 2} {a : DWord} {n v : Nat} (h : memRead s k c a n = .ok v) :
    v < 256 ^ n := by
  obtain ⟨as, h1, rfl⟩ := memRead_eq_ok.mp h
  have := leNat_lt (as.map fun b => s.mem.read b.toNat)
  rwa [List.length_map, physAddrs_length h1] at this

/-- A table entry read: it is inside the limit, and it is its eight bytes. -/
theorem fetchEntry_eq_ok {s : State} {base limit : DWord} {index : Nat} {out : Fault} {d : Desc} :
    fetchEntry s base limit index out = .ok d ↔
      index * 8 + 7 ≤ limit.toNat ∧ d.addr = base + BitVec.ofNat 32 (index * 8) ∧
        memRead s .read 0 (base + BitVec.ofNat 32 (index * 8)) 8 = .ok d.bits.toNat := by
  simp only [fetchEntry, bind_eq_ok, require_eq_ok, Except.ok.injEq, decide_eq_true_eq]
  constructor
  · rintro ⟨_, h1, v, h2, rfl⟩
    refine ⟨h1, rfl, ?_⟩
    have := memRead_lt h2
    rw [h2, BitVec.toNat_ofNat, Nat.mod_eq_of_lt (by omega)]
  · rintro ⟨h1, h2, h3⟩
    exact ⟨(), h1, _, h3, by cases d; simp_all⟩

theorem fetchEntry_outside {s : State} {base limit : DWord} {index : Nat} {out : Fault}
    (h : ¬ index * 8 + 7 ≤ limit.toNat) : fetchEntry s base limit index out = .error out := by
  rw [fetchEntry, decide_eq_false h, require_false]
  rfl

/-- `FetchDescriptor` answers exactly the descriptor that stands at the selector's entry (R152). -/
theorem fetchDescriptor_eq_ok {s : State} {sel : Word} {out : Fault} {d : Desc} :
    fetchDescriptor s sel out = .ok d ↔ DescriptorAt s sel d := by
  unfold fetchDescriptor DescriptorAt inTable entryAddr
  have hg := s.gdtr.limit.isLt
  split
  · simp [bind_eq_ok, fetchEntry_eq_ok, and_assoc]
  · simp only [fetchEntry_eq_ok, BitVec.toNat_setWidth, decide_eq_true_eq]
    rw [Nat.mod_eq_of_lt (by omega)]

theorem fetchDescriptor_outside {s : State} {sel : Word} (h : inTable s sel = false) (out : Fault) :
    fetchDescriptor s sel out = .error out := by
  have hg := s.gdtr.limit.isLt
  unfold fetchDescriptor
  unfold inTable at h
  split at h
  · rename_i hl
    rw [if_pos hl]
    cases hv : s.ldtr.valid with
    | false => rfl
    | true =>
      rw [require_true, ok_bind]
      exact fetchEntry_outside (by simpa [hv] using h)
  · rename_i hl
    rw [if_neg hl]
    apply fetchEntry_outside
    rw [BitVec.toNat_setWidth, Nat.mod_eq_of_lt (by omega)]
    simpa using h

/-! ### The checks of a gate's code segment and of a new stack segment (R161, R165) -/

theorem gateTarget_eq_ok {s : State} {csel : Word} {c : Desc} :
    gateTarget s csel = .ok c ↔
      selNull csel = false ∧ DescriptorAt s csel c ∧ (∃ conf, descKind c.bits = .code conf) ∧
        descDpl c.bits ≤ s.cpl ∧ descPresent c.bits = true := by
  simp only [gateTarget, bind_eq_ok, require_eq_ok, fetchDescriptor_eq_ok, decide_eq_true_eq, Except.ok.injEq]
  constructor
  · rintro ⟨_, h1, c', h2, _, h3, _, h4, _, h5, rfl⟩
    refine ⟨by simpa using h1, h2, ?_, h4, h5⟩
    rcases Bool.or_eq_true_iff.mp h3 with h | h
    · exact ⟨_, beq_iff_eq.mp h⟩
    · exact ⟨_, beq_iff_eq.mp h⟩
  · rintro ⟨h1, h2, ⟨conf, h3⟩, h4, h5⟩
    refine ⟨(), by simp [h1], c, h2, (), ?_, (), h4, (), h5, rfl⟩
    cases conf <;> simp [h3]

theorem newStackSegment_eq_ok {s : State} {nss : Word} {l : BitVec 2} {d : Desc} :
    newStackSegment s nss l = .ok d ↔ NewStackOk s nss l d := by
  simp only [newStackSegment, bind_eq_ok, require_eq_ok, fetchDescriptor_eq_ok, Except.ok.injEq]
  constructor
  · rintro ⟨_, h1, d', h2, _, h3, _, h4, _, h5, _, h6, rfl⟩
    exact ⟨by simpa using h1, h2, by simpa using h3, by simpa using h4, by simpa using h5, h6⟩
  · rintro ⟨h1, h2, h3, h4, h5, h6⟩
    exact ⟨(), by simp [h1], d, h2, (), by simp [h3], (), by simp [h4], (), by simp [h5], (), h6, rfl⟩

/-! ### What a far CALL in Protected Mode goes through (R150) -/

/-- With a selector that is not null and its descriptor, the descriptor's kind decides. -/
theorem farProtected_at {pads : Nat → Word} {z : Size} {ret : DWord} {ptr : FarPtr} {s : State} {d : Desc}
    (hn : selNull ptr.sel = false) (h : DescriptorAt s ptr.sel d) :
    farProtected pads z ret ptr s = farByKind pads z ret ptr d s := by
  rw [farProtected, hn, fetchDescriptor_eq_ok.mpr h]
  rfl

/-- A direct call whose checks pass is the transfer to its segment (R159, R160). -/
theorem farProtected_code {pads : Nat → Word} {z : Size} {ret : DWord} {ptr : FarPtr} {s : State} {d : Desc}
    {conf : Bool} (h : CodeReached s ptr d conf) :
    farProtected pads z ret ptr s = enterSegment pads z ret ptr.sel d (farTarget z ptr.off) s := by
  rw [farProtected_at h.notNull h.entry, farByKind, h.kind]
  have hr := h.rights
  cases conf with
  | false =>
    simp only [Bool.false_eq_true, if_false] at hr
    show farNonconforming pads z ret ptr d s = _
    rw [farNonconforming, decide_eq_true hr.1, require_true, ok_bind, beq_iff_eq.mpr hr.2, require_true, ok_bind,
      h.present, require_true, ok_bind]
  | true =>
    simp only [if_true] at hr
    show farConforming pads z ret ptr d s = _
    rw [farConforming, decide_eq_true hr, require_true, ok_bind, h.present, require_true, ok_bind]

/-- A call through a gate whose checks pass goes to more privilege or to the same (R161, R163). -/
theorem farProtected_gate {pads : Nat → Word} {z : Size} {ret : DWord} {ptr : FarPtr} {s : State} {g c : Desc}
    {gs : Size} {conf : Bool} (h : GateReached s ptr g c gs conf) :
    farProtected pads z ret ptr s =
      if conf = false ∧ descDpl c.bits < s.cpl then
        morePrivilege pads gs ret g.bits (gateSelector g.bits) c s
      else enterSegment pads gs ret (gateSelector g.bits) c (gateOffset gs g.bits) s := by
  rw [farProtected_at h.notNull h.gate, farByKind, h.gateKind]
  show farCallGate pads gs ret ptr g s = _
  rw [farCallGate, decide_eq_true h.gateDpl, require_true, ok_bind, decide_eq_true h.gateRpl, require_true, ok_bind,
    h.gatePresent, require_true, ok_bind,
    gateTarget_eq_ok.mpr ⟨h.codeNotNull, h.code, ⟨conf, h.codeKind⟩, h.codeDpl, h.codePresent⟩, ok_bind, h.codeKind]
  simp

/-- What a far CALL in Protected Mode that answers a state did: it entered a segment at the same CPL after pushes, or
went to more privilege through a gate, or entered a task. -/
inductive FarDone (pads : Nat → Word) (s : State) (ret : DWord) (ptr : FarPtr) (t : State) : Prop where
  | entered (v : State) (sel : Word) (d : Desc) (tgt : DWord) (frame : PushFrame s v)
    (state : t = (v.setCs (segOfDesc (withRpl sel s.cpl) d.bits)).setEip tgt)
  | more (g c : Desc) (gs : Size) (gate : GateReached s ptr g c gs false) (lower : descDpl c.bits < s.cpl)
    (call : morePrivilege pads gs ret g.bits (gateSelector g.bits) c s = .ok t)
  | task (tsel : Word) (td : QWord) (f : TssFormat) (image : TaskImage)
    (answer : Config.switchTasks s ret true tsel td = .switched image) (state : t = enterTask s f image)

theorem farDone_enterSegment {pads : Nat → Word} {z : Size} {ret : DWord} {ptr : FarPtr} {sel : Word} {d : Desc}
    {tgt : DWord} {s t : State} (h : enterSegment pads z ret sel d tgt s = .ok t) : FarDone pads s ret ptr t := by
  obtain ⟨_, _, u, v, h1, h2, rfl⟩ := enterSegment_eq_ok.mp h
  exact .entered v sel d tgt ((pushFrame_pushReturn h1).trans (pushFrame_markAccessed h2)) rfl

theorem farDone_enterTss {pads : Nat → Word} {ret : DWord} {ptr : FarPtr} {tsel : Word} {td : QWord} {s t : State}
    (h : enterTss ret tsel td s = .ok t) : FarDone pads s ret ptr t := by
  obtain ⟨f, _, _, h⟩ := enterTss_eq_ok.mp h
  obtain ⟨image, h1, h2, _⟩ := switchTasks_eq_ok.mp h
  exact .task tsel td f image h1 h2

theorem farDone_farProtected {pads : Nat → Word} {z : Size} {ret : DWord} {ptr : FarPtr} {s t : State}
    (hm : s.mode = .prot) (h : farProtected pads z ret ptr s = .ok t) : FarDone pads s ret ptr t := by
  simp only [farProtected, bind_eq_ok, require_eq_ok, fetchDescriptor_eq_ok] at h
  obtain ⟨_, hn, d, hd, h⟩ := h
  unfold farByKind at h
  split at h
  · simp only [farConforming, bind_eq_ok] at h
    obtain ⟨_, _, _, _, h⟩ := h
    exact farDone_enterSegment h
  · simp only [farNonconforming, bind_eq_ok] at h
    obtain ⟨_, _, _, _, _, _, h⟩ := h
    exact farDone_enterSegment h
  · rename_i gs hk
    simp only [farCallGate, bind_eq_ok, require_eq_ok, decide_eq_true_eq, gateTarget_eq_ok] at h
    obtain ⟨_, h1, _, h2, _, h3, c, ⟨h4, h5, _, h6, h7⟩, h⟩ := h
    split at h
    · rename_i hc
      exact .more d c gs ⟨hm, by simpa using hn, hd, hk, h1, h2, h3, h4, h5, hc.1, h6, h7⟩ hc.2 h
    · exact farDone_enterSegment h
  · simp only [farTaskGate, bind_eq_ok] at h
    obtain ⟨_, _, _, _, _, _, _, _, _, _, h⟩ := h
    exact farDone_enterTss h
  · simp only [farTss, bind_eq_ok] at h
    obtain ⟨_, _, _, _, h⟩ := h
    exact farDone_enterTss h
  · cases h
  · cases h

/-! ### The Accessed bit and the return address with paging off (R155, R158) -/

theorem markAccessed_off {d : Desc} {s : State} (hp : s.pagingOn = false) :
    ∃ t, markAccessed d s = .ok t ∧ AccessedMarked d s t := by
  unfold markAccessed AccessedMarked
  split
  · exact ⟨s, rfl, rfl⟩
  · refine ⟨_, memWrite_eq_ok.mpr ⟨_, physAddrs_off hp _ _ _ _, rfl⟩, ?_⟩
    congr 1
    simp [addrRun, leBytes]

theorem ofNat_div_eq_extract {w : Nat} (v : BitVec w) (k : Nat) :
    BitVec.ofNat 8 (v.toNat / 2 ^ (8 * k)) = v.extractLsb' (8 * k) 8 := by
  apply BitVec.eq_of_toNat_eq
  simp [BitVec.extractLsb'_toNat, Nat.shiftRight_eq_div_pow]

/-- StackRoom says of every slot that it fits. -/
theorem stackRoomIn_slots (mode : Mode) (g : Seg) (z : Size) (sp : DWord) (m n : Nat) (hn : 0 < n) :
    stackRoomIn mode g z sp (m * n) n = true ↔
      ∀ j, 1 ≤ j → j ≤ m → slotFits mode g z (stackBelow z sp (j * n)).toNat n = true := by
  rw [stackRoomIn, Nat.mul_div_cancel _ hn, List.all_eq_true]
  constructor
  · intro h j h1 h2
    have := h (j - 1) (by simp; omega)
    rwa [show j - 1 + 1 = j by omega] at this
  · intro h j hj
    simp only [List.mem_range] at hj
    exact h (j + 1) (by omega) (by omega)

/-- Where there is room, every slot passes the check that the push into it makes. -/
theorem stackRoom_legal {s : State} {m n : Nat} (hn : 0 < n) (h : stackRoom s (m * n) n = true) {j : Nat} (h1 : 1 ≤ j)
    (h2 : j ≤ m) :
    segLegal s.mode .ss s.segs.ss .write (stackBelow s.stackSize (s.reg .esp) (j * n)).toNat n = true := by
  have := (stackRoomIn_slots _ _ _ _ m n hn).mp h j h1 h2
  rw [slotFits, Bool.and_eq_true] at this
  exact this.1

/-- The new stack pointer from what the pushes leave of every offset below it. -/
theorem stackLowered_of_below {s t : State} (d : Nat)
    (htop : ∀ e, stackBelow s.stackSize (t.reg .esp) e = stackBelow s.stackSize (s.reg .esp) (d + e))
    (hhigh : s.stackSize = .s16 → (t.reg .esp).extractLsb' 16 16 = (s.reg .esp).extractLsb' 16 16) :
    StackLowered d s t := by
  have h0 := htop 0
  unfold StackLowered
  cases hz : s.stackSize with
  | s16 =>
    refine ⟨?_, hhigh hz⟩
    rw [hz] at h0
    simp only [stackBelow] at h0
    have h1 := congrArg BitVec.toNat h0
    apply BitVec.eq_of_toNat_eq
    simp only [BitVec.toNat_setWidth, BitVec.toNat_sub, BitVec.toNat_ofNat, Nat.add_zero, State.reg16] at *
    have := (low16 (t.reg .esp)).isLt
    have := (low16 (s.reg .esp)).isLt
    omega
  | s32 =>
    rw [hz] at h0
    simpa [stackBelow] using h0

theorem onlyPushed_of_frame {s t : State} (h : PushFrame s t) : OnlyPushed s t where
  regs r hr := h.regs r (by simpa using hr)
  eip := h.eip
  eflags := h.eflags
  segs := h.segs
  cr0 := h.cr0
  system := ⟨h.cpl, h.cr2, h.cr3, h.dbg, h.test, h.gdtr, h.idtr, h.ldtr, h.tr, h.haltAddr, h.realSsVector12,
    h.intrOffer⟩

end Sys2Proof.Machine
end

