-- ==== Sys2Proof/Laws/Fetch.lean ====
section
/-! SUPPORT. The fetch: the bytes that are there, and the check a fetch needs (20_memory.md R63, R68, R69). -/

namespace Sys2Proof.Machine

/-- The check of a fetched byte, in all modes. -/
theorem segLegal_execute (s : State) (off : Nat) :
    segLegal s.mode .cs s.segs.cs .execute off 1 =
      decide (off + 1 ≤ if s.mode = .prot then s.segs.cs.limit.toNat + 1 else 0x10000) := by
  cases h : s.mode <;> rfl

/-- Bytes that can be fetched head the fetched bytes; what follows is the fetch from the byte after them on. -/
theorem fetchFrom_append {s : State} (bs : List Byte) (fuel k : Nat) (hl : bs.length ≤ fuel)
    (hb : ∀ (j : Nat) (b : Byte), bs[j]? = some b → fetchByte s (k + j) = .ok b) :
    fetchFrom s fuel k =
      (bs ++ (fetchFrom s (fuel - bs.length) (k + bs.length)).1, (fetchFrom s (fuel - bs.length) (k + bs.length)).2) := by
  induction bs generalizing fuel k with
  | nil => rfl
  | cons c r ih =>
    cases fuel with
    | zero => simp at hl
    | succ fuel =>
      have h0 := hb 0 c rfl
      rw [Nat.add_zero] at h0
      have h1 := ih fuel (k + 1) (by simpa using hl) (by
        intro j b hj
        have := hb (j + 1) b (by simpa using hj)
        rwa [show k + 1 + j = k + (j + 1) by omega])
      have e1 : fuel + 1 - (c :: r).length = fuel - r.length := by simp
      have e2 : k + (c :: r).length = k + 1 + r.length := by simp; omega
      rw [fetchFrom, h0, e1, e2]
      simp only [h1, List.cons_append]

/-- An interrupt is accepted exactly when it is the nonmaskable one, or a maskable one while IF = 1 (R201). -/
theorem acceptedInterrupt_eq_some {s : State} {v : Byte} :
    acceptedInterrupt s = some v ↔
      s.intrOffer = some .nonmaskable ∧ v = nmiVector ∨ s.intrOffer = some (.maskable v) ∧ s.flag .intr = true := by
  unfold acceptedInterrupt
  rcases s.intrOffer with _ | ⟨w⟩ | _
  · simp
  · cases s.flag .intr <;> simp
  · simpa using eq_comm

/-- Where the run is not over and no interrupt is accepted, the step is what the fetch gives. -/
theorem step_fetched {s : State} (h1 : atHalt s = false) (h2 : acceptedInterrupt s = none) :
    step s =
      match fetchInstr s with
      | .instr i => exec i s
      | .fault f => .fault f
      | .refused r => .refused r := by
  rw [step, h1, h2]
  rfl

end Sys2Proof.Machine
end

