-- ==== Sys2Proof/Laws/PerInstr.lean ====
section
/-! SUPPORT. Facts about every instruction, one lemma per constructor. -/

namespace Sys2Proof.Laws.EncodeLength

/-- The bytes of an instruction are as many as its length (R94). -/
def Statement (i : Instr) : Prop := (encode i).length = i.length

/-- The bytes after the prefix bytes decide. -/
theorem of_body (i : Instr) (h : (encodeBody i).length = i.bodyLength) : Statement i := by
  rw [Statement, encode, List.length_append, encodePrefixes_length, h, Instr.length]

theorem callRel16 (p : Prefixes) (rel : Word) : Statement (.callRel16 p rel) := of_body _ rfl

theorem callRm16 (p : Prefixes) (d : RM Reg) : Statement (.callRm16 p d) :=
  of_body _ (by simp [encodeBody, Instr.bodyLength]; omega)

theorem callPtr1616 (p : Prefixes) (off : Word) (sel : Word) : Statement (.callPtr1616 p off sel) := of_body _ rfl

theorem callM1616 (p : Prefixes) (m : Mem) : Statement (.callM1616 p m) :=
  of_body _ (by simp [encodeBody, Instr.bodyLength]; omega)

theorem callRel32 (p : Prefixes) (rel : DWord) : Statement (.callRel32 p rel) := of_body _ rfl

theorem callRm32 (p : Prefixes) (d : RM Reg) : Statement (.callRm32 p d) :=
  of_body _ (by simp [encodeBody, Instr.bodyLength]; omega)

theorem callPtr1632 (p : Prefixes) (off : DWord) (sel : Word) : Statement (.callPtr1632 p off sel) := of_body _ rfl

theorem callM1632 (p : Prefixes) (m : Mem) : Statement (.callM1632 p m) :=
  of_body _ (by simp [encodeBody, Instr.bodyLength]; omega)

theorem cbw (p : Prefixes) : Statement (.cbw p) := of_body _ rfl

theorem cwde (p : Prefixes) : Statement (.cwde p) := of_body _ rfl

theorem clc (p : Prefixes) : Statement (.clc p) := of_body _ rfl

theorem cld (p : Prefixes) : Statement (.cld p) := of_body _ rfl

theorem cli (p : Prefixes) : Statement (.cli p) := of_body _ rfl

theorem clts (p : Prefixes) : Statement (.clts p) := of_body _ rfl

theorem cmc (p : Prefixes) : Statement (.cmc p) := of_body _ rfl

theorem cmpAlImm8 (p : Prefixes) (imm : Byte) : Statement (.cmpAlImm8 p imm) := of_body _ rfl

theorem cmpAxImm16 (p : Prefixes) (imm : Word) : Statement (.cmpAxImm16 p imm) := of_body _ rfl

theorem cmpEaxImm32 (p : Prefixes) (imm : DWord) : Statement (.cmpEaxImm32 p imm) := of_body _ rfl

theorem cmpRm8Imm8 (p : Prefixes) (d : RM Reg8) (imm : Byte) : Statement (.cmpRm8Imm8 p d imm) :=
  of_body _ (by simp [encodeBody, Instr.bodyLength]; omega)

theorem cmpRm16Imm16 (p : Prefixes) (d : RM Reg) (imm : Word) : Statement (.cmpRm16Imm16 p d imm) :=
  of_body _ (by simp [encodeBody, Instr.bodyLength]; omega)

theorem cmpRm32Imm32 (p : Prefixes) (d : RM Reg) (imm : DWord) : Statement (.cmpRm32Imm32 p d imm) :=
  of_body _ (by simp [encodeBody, Instr.bodyLength]; omega)

theorem cmpRm16Imm8 (p : Prefixes) (d : RM Reg) (imm : Byte) : Statement (.cmpRm16Imm8 p d imm) :=
  of_body _ (by simp [encodeBody, Instr.bodyLength]; omega)

theorem cmpRm32Imm8 (p : Prefixes) (d : RM Reg) (imm : Byte) : Statement (.cmpRm32Imm8 p d imm) :=
  of_body _ (by simp [encodeBody, Instr.bodyLength]; omega)

theorem cmpRm8R8 (p : Prefixes) (d : RM Reg8) (r : Reg8) : Statement (.cmpRm8R8 p d r) :=
  of_body _ (by simp [encodeBody, Instr.bodyLength]; omega)

theorem cmpRm16R16 (p : Prefixes) (d : RM Reg) (r : Reg) : Statement (.cmpRm16R16 p d r) :=
  of_body _ (by simp [encodeBody, Instr.bodyLength]; omega)

theorem cmpRm32R32 (p : Prefixes) (d : RM Reg) (r : Reg) : Statement (.cmpRm32R32 p d r) :=
  of_body _ (by simp [encodeBody, Instr.bodyLength]; omega)

theorem cmpR8Rm8 (p : Prefixes) (r : Reg8) (d : RM Reg8) : Statement (.cmpR8Rm8 p r d) :=
  of_body _ (by simp [encodeBody, Instr.bodyLength]; omega)

theorem cmpR16Rm16 (p : Prefixes) (r : Reg) (d : RM Reg) : Statement (.cmpR16Rm16 p r d) :=
  of_body _ (by simp [encodeBody, Instr.bodyLength]; omega)

theorem cmpR32Rm32 (p : Prefixes) (r : Reg) (d : RM Reg) : Statement (.cmpR32Rm32 p r d) :=
  of_body _ (by simp [encodeBody, Instr.bodyLength]; omega)

theorem cmpsM8 (p : Prefixes) (asz : Size) : Statement (.cmpsM8 p asz) := of_body _ rfl

theorem cmpsM16 (p : Prefixes) (asz : Size) : Statement (.cmpsM16 p asz) := of_body _ rfl

theorem cmpsM32 (p : Prefixes) (asz : Size) : Statement (.cmpsM32 p asz) := of_body _ rfl

theorem cwd (p : Prefixes) : Statement (.cwd p) := of_body _ rfl

theorem cdq (p : Prefixes) : Statement (.cdq p) := of_body _ rfl

end Sys2Proof.Laws.EncodeLength
end

