-- ==== Sys2Proof/Tests/Slice0.lean ====
section
/-! SUPPORT. The model's own tests. Expected results are those of spec/95_test_vectors.md (V<k>.<n>, P<n>), of the worked
examples inside the rules (R<n>), or written out by hand from the encoding rules R97 to R112; none is the model's own
answer. The last part holds one witness for every statement of Certificates/Slice0/Obligations.lean that has
hypotheses. -/

namespace Sys2Proof.Tests

open Sys2Proof Sys2Proof.Machine

/-! ## Helpers -/

/-- The outcome is a next state that passes a check. -/
def nextIs (o : Host.Outcome State Fault Refusal) (f : State → Bool) : Bool :=
  match o with
  | .next t => f t
  | .fault _ => false
  | .refused _ => false

/-- The outcome is this fault. -/
def faultIs (o : Host.Outcome State Fault Refusal) (f : Fault) : Bool :=
  match o with
  | .next _ => false
  | .fault g => g == f
  | .refused _ => false

/-- The outcome is this refusal. -/
def refusedIs (o : Host.Outcome State Fault Refusal) (r : Refusal) : Bool :=
  match o with
  | .next _ => false
  | .fault _ => false
  | .refused q => q == r

/-- The result is a state that passes a check. -/
def okIs (r : Res State) (f : State → Bool) : Bool :=
  match r with
  | .ok t => f t
  | .error _ => false

/-- Store bytes from an address on. -/
def poke (a : DWord) (bs : List Byte) (s : State) : State := s.setMem (storeBytes (addrRun a bs.length) bs s.mem)

/-- The bytes at `n` addresses from `a` on. -/
def peek (s : State) (a : DWord) (n : Nat) : List Byte := (addrRun a n).map fun b => s.mem.read b.toNat

/-- No prefix bytes. -/
def noPfx : Prefixes := ⟨false, false, none⟩

/-- The operand-size byte alone. -/
def opPfx : Prefixes := ⟨true, false, none⟩

/-- Real Address Mode, CS = 1000h, SS = 2000h, DS = ES = 0, EIP = 0100h, with code there. -/
def real (sp : DWord) (code : List Byte) : State :=
  poke 0x10100 code
    { State.reset with
      eip := 0x100
      regs := { State.reset.regs with esp := sp }
      segs :=
        { State.reset.segs with
          cs := { Seg.reset with sel := 0x1000, base := 0x10000 }
          ss := { Seg.reset with sel := 0x2000, base := 0x20000 } } }

/-- The same in Virtual 8086 Mode. -/
def v86 (sp : DWord) (code : List Byte) : State := { real sp code with cr0 := 1, eflags := 0x20002, cpl := 3 }

/-- A flat 32-bit segment register. -/
def flat (sel : Word) (ar : Byte) : Seg := { sel := sel, base := 0, limit := 0xFFFFFFFF, ar := ar, big := true }

/-- The GDT of V3, at 00010000h. -/
def gdt (s : State) : State :=
  poke 0x10008 [0xFF, 0xFF, 0x00, 0x00, 0x00, 0x9A, 0xCF, 0x00]
    (poke 0x10010 [0xFF, 0xFF, 0x00, 0x00, 0x00, 0x92, 0xCF, 0x00]
      (poke 0x10018 [0xFF, 0xFF, 0x00, 0x00, 0x00, 0xFA, 0xCF, 0x00]
        (poke 0x10020 [0xFF, 0xFF, 0x00, 0x00, 0x00, 0xF2, 0xCF, 0x00]
          (poke 0x10028 [0x67, 0x00, 0x00, 0x00, 0x02, 0x8B, 0x00, 0x00]
            (poke 0x10030 [0x00, 0x40, 0x08, 0x00, 0x02, 0xEC, 0x00, 0x00]
              (poke 0x10038 [0xFF, 0xFF, 0x00, 0x00, 0x00, 0x9E, 0xCF, 0x00] s))))))

/-- Protected Mode, 32-bit flat, with the tables of V3: code at 00001000h, the TSS's SS0:ESP0 = 0010h:00008000h. -/
def prot (cpl : BitVec 2) (cs ss : Seg) (esp : DWord) (code : List Byte) : State :=
  poke 0x1000 code
    (poke 0x20004 [0x00, 0x80, 0x00, 0x00]
      (poke 0x20008 [0x10, 0x00]
        (gdt
          { State.reset with
            cr0 := 1
            cpl := cpl
            eip := 0x1000
            regs := { State.reset.regs with esp := esp }
            segs := { es := ss, cs := cs, ss := ss, ds := ss, fs := Seg.reset, gs := Seg.reset }
            gdtr := { base := 0x10000, limit := 0x3F }
            tr := { sel := 0x28, base := 0x20000, limit := 0x67, format := .tss386 } })))

/-- V3.1's start: CPL 0. -/
def ring0 (code : List Byte) : State := prot 0 (flat 0x08 0x9B) (flat 0x10 0x93) 0x8000 code

/-- V3.2's start: CPL 3. -/
def ring3 (code : List Byte) : State := prot 3 (flat 0x1B 0xFB) (flat 0x23 0xF3) 0x9000 code

/-- EFLAGS holds these six, in the order CF ZF SF OF AF PF of the vectors. -/
def sixFlags (s : State) (cf zf sf ov af pf : Bool) : Bool :=
  s.flag .cf == cf && s.flag .zf == zf && s.flag .sf == sf && s.flag .ov == ov && s.flag .af == af && s.flag .pf == pf

/-! ## Well-formedness: an ill-formed term for each check (R93, R96, R104 to R106, R235) -/

/-- The row's OperandSize is not the one in force. -/
theorem test_wf_operand_size :
    (Instr.cbw noPfx).wf .s32 = false ∧ (Instr.cbw opPfx).wf .s32 = true ∧ (Instr.cwde opPfx).wf .s32 = false := by
  decide

/-- A 16-bit operand under AddressSize 32, and the reverse. -/
theorem test_wf_address_size :
    (Mem.a16Direct 0).wf .s32 = false ∧ (Mem.a32Direct 0).wf .s16 = false ∧ (Mem.a16 .bx .none).wf .s32 = false ∧
      (Mem.a32 .eax .none).wf .s16 = false := by
  decide

/-- `rm` = 6 with `mod` = 0 has no base BP; `rm` = 5 with `mod` = 0 no base EBP, in a SIB byte neither. -/
theorem test_wf_no_base :
    (Mem.a16 .bp .none).wf .s16 = false ∧ (Mem.a32 .ebp .none).wf .s32 = false ∧
      (Mem.a32Sib .ebp none .none).wf .s32 = false ∧ (Mem.a32Sib .ebp none (.d8 0)).wf .s32 = true := by
  decide

/-- ESP as a base calls for a SIB byte; ESP is no index. -/
theorem test_wf_esp :
    (Mem.a32 .esp .none).wf .s32 = false ∧ (Mem.a32Sib .eax (some (.esp, 0)) .none).wf .s32 = false ∧
      (Mem.a32SibNoBase (some (.esp, 1)) 0).wf .s32 = false ∧ (Mem.a32Sib .esp none .none).wf .s32 = true := by
  decide

/-- The AddressSize a CMPS says is the one in force. -/
theorem test_wf_cmps :
    (Instr.cmpsM8 noPfx .s32).wf .s16 = false ∧ (Instr.cmpsM8 ⟨false, true, none⟩ .s32).wf .s16 = true := by
  decide

/-- An operand inside an instruction is checked. -/
theorem test_wf_operand : (Instr.cmpRm16R16 noPfx (.mem (.a16 .bp .none)) .eax).wf .s16 = false := by decide

/-! ## Decoding: one word for each constructor, from its row of R112 and the bytes of R97 to R109 -/

/-- E8 cw (V1.1). -/
theorem test_decode_callRel16 : decode .s16 [0xE8, 0x10, 0x00] = .ok (.callRel16 noPfx 0x0010, []) := by decide

/-- FF /2: ModR/M D0 = 11 010 000, CALL AX (V1.5). -/
theorem test_decode_callRm16 : decode .s16 [0xFF, 0xD0] = .ok (.callRm16 noPfx (.reg .eax), []) := by decide

/-- 9A cd: the offset first, the selector after it (V2.1). -/
theorem test_decode_callPtr1616 :
    decode .s16 [0x9A, 0x00, 0x02, 0x00, 0x30] = .ok (.callPtr1616 noPfx 0x0200 0x3000, []) := by
  decide

/-- 26 FF /3: ModR/M 1F = 00 011 111, CALL far [ES:BX] (V8.15). -/
theorem test_decode_callM1616 :
    decode .s16 [0x26, 0xFF, 0x1F] = .ok (.callM1616 ⟨false, false, some .es⟩ (.a16 .bx .none), []) := by
  decide

/-- E8 cd (V1.4). -/
theorem test_decode_callRel32 :
    decode .s32 [0xE8, 0xFB, 0xFF, 0xFF, 0xFF] = .ok (.callRel32 noPfx 0xFFFFFFFB, []) := by
  decide

/-- FF /2: ModR/M 14 = 00 010 100, SIB 24 = 00 100 100, CALL [ESP] (V1.7). -/
theorem test_decode_callRm32 :
    decode .s32 [0xFF, 0x14, 0x24] = .ok (.callRm32 noPfx (.mem (.a32Sib .esp none .none)), []) := by
  decide

/-- 9A cp (V3.1). -/
theorem test_decode_callPtr1632 :
    decode .s32 [0x9A, 0x40, 0x00, 0x00, 0x00, 0x08, 0x00] = .ok (.callPtr1632 noPfx 0x40 0x08, []) := by
  decide

/-- FF /3: ModR/M 5D = 01 011 101, CALL far [EBP-8]. -/
theorem test_decode_callM1632 :
    decode .s32 [0xFF, 0x5D, 0xF8] = .ok (.callM1632 noPfx (.a32 .ebp (.d8 0xF8)), []) := by
  decide

/-- 98 and 99 by OperandSize (V8.1 to V8.3, V4.10). -/
theorem test_decode_cbw : decode .s16 [0x98] = .ok (.cbw noPfx, []) := by decide

theorem test_decode_cwde : decode .s16 [0x66, 0x98] = .ok (.cwde opPfx, []) := by decide

theorem test_decode_cwd : decode .s32 [0x66, 0x99] = .ok (.cwd opPfx, []) := by decide

theorem test_decode_cdq : decode .s32 [0x99] = .ok (.cdq noPfx, []) := by decide

/-- F8, FC, FA, 0F 06, F5. -/
theorem test_decode_clc : decode .s16 [0xF8] = .ok (.clc noPfx, []) := by decide

theorem test_decode_cld : decode .s16 [0xFC] = .ok (.cld noPfx, []) := by decide

theorem test_decode_cli : decode .s32 [0xFA] = .ok (.cli noPfx, []) := by decide

theorem test_decode_clts : decode .s32 [0x0F, 0x06] = .ok (.clts noPfx, []) := by decide

theorem test_decode_cmc : decode .s16 [0xF5] = .ok (.cmc noPfx, []) := by decide

/-- 3C ib; 3D iw and id (V8.4, V8.5). -/
theorem test_decode_cmpAlImm8 : decode .s32 [0x3C, 0x80] = .ok (.cmpAlImm8 noPfx 0x80, []) := by decide

theorem test_decode_cmpAxImm16 : decode .s16 [0x3D, 0x34, 0x12] = .ok (.cmpAxImm16 noPfx 0x1234, []) := by decide

theorem test_decode_cmpEaxImm32 :
    decode .s32 [0x3D, 0x78, 0x56, 0x34, 0x12] = .ok (.cmpEaxImm32 noPfx 0x12345678, []) := by
  decide

/-- 80 /7 ib: ModR/M 38 = 00 111 000, [BX+SI] (V6.19). -/
theorem test_decode_cmpRm8Imm8 :
    decode .s16 [0x80, 0x38, 0x05] = .ok (.cmpRm8Imm8 noPfx (.mem (.a16 .bxSi .none)) 0x05, []) := by
  decide

/-- 81 /7 iw: ModR/M 3E = 00 111 110, a disp16 without a base (V6.15). -/
theorem test_decode_cmpRm16Imm16 :
    decode .s16 [0x81, 0x3E, 0x00, 0x20, 0x34, 0x12] =
      .ok (.cmpRm16Imm16 noPfx (.mem (.a16Direct 0x2000)) 0x1234, []) := by
  decide

/-- 81 /7 id: ModR/M FB = 11 111 011, EBX (V6.12). -/
theorem test_decode_cmpRm32Imm32 :
    decode .s32 [0x81, 0xFB, 0x00, 0x00, 0x00, 0x80] = .ok (.cmpRm32Imm32 noPfx (.reg .ebx) 0x80000000, []) := by
  decide

/-- 83 /7 ib: ModR/M 3F = 00 111 111, [BX] (V8.6). -/
theorem test_decode_cmpRm16Imm8 :
    decode .s16 [0x83, 0x3F, 0x80] = .ok (.cmpRm16Imm8 noPfx (.mem (.a16 .bx .none)) 0x80, []) := by
  decide

/-- 83 /7 ib: ModR/M BA = 10 111 010, [EDX + disp32]. -/
theorem test_decode_cmpRm32Imm8 :
    decode .s32 [0x83, 0xBA, 0x04, 0x03, 0x02, 0x01, 0x7F] =
      .ok (.cmpRm32Imm8 noPfx (.mem (.a32 .edx (.full 0x01020304))) 0x7F, []) := by
  decide

/-- 38 /r: ModR/M D8 = 11 011 000, `rm` = AL, `reg` = BL (V6.5). -/
theorem test_decode_cmpRm8R8 : decode .s16 [0x38, 0xD8] = .ok (.cmpRm8R8 noPfx (.reg .al) .bl, []) := by decide

/-- 39 /r: ModR/M 4F = 01 001 111, [BX + disp8], `reg` = CX. -/
theorem test_decode_cmpRm16R16 :
    decode .s16 [0x39, 0x4F, 0x10] = .ok (.cmpRm16R16 noPfx (.mem (.a16 .bx (.d8 0x10))) .ecx, []) := by
  decide

/-- 39 /r: ModR/M C8 = 11 001 000, `rm` = EAX, `reg` = ECX (V6.13). -/
theorem test_decode_cmpRm32R32 : decode .s32 [0x39, 0xC8] = .ok (.cmpRm32R32 noPfx (.reg .eax) .ecx, []) := by decide

/-- 3A /r: ModR/M D8 = 11 011 000, `reg` = BL, `rm` = AL (V6.6). -/
theorem test_decode_cmpR8Rm8 : decode .s16 [0x3A, 0xD8] = .ok (.cmpR8Rm8 noPfx .bl (.reg .al), []) := by decide

/-- 67 3B /r: ModR/M 04 = 00 000 100, SIB 8B = 10 001 011, [EBX+ECX*4] (V8.12). -/
theorem test_decode_cmpR16Rm16 :
    decode .s16 [0x67, 0x3B, 0x04, 0x8B] =
      .ok (.cmpR16Rm16 ⟨false, true, none⟩ .eax (.mem (.a32Sib .ebx (some (.ecx, 2)) .none)), []) := by
  decide

/-- 3B /r: ModR/M 05 = 00 000 101, a disp32 without a base (V8.13). -/
theorem test_decode_cmpR32Rm32 :
    decode .s32 [0x3B, 0x05, 0x00, 0x30, 0x00, 0x00] = .ok (.cmpR32Rm32 noPfx .eax (.mem (.a32Direct 0x3000)), []) := by
  decide

/-- A6, A7 with their sizes and a segment override. -/
theorem test_decode_cmpsM8 : decode .s16 [0x2E, 0xA6] = .ok (.cmpsM8 ⟨false, false, some .cs⟩ .s16, []) := by decide

theorem test_decode_cmpsM16 : decode .s16 [0xA7] = .ok (.cmpsM16 noPfx .s16, []) := by decide

theorem test_decode_cmpsM32 : decode .s16 [0x66, 0xA7] = .ok (.cmpsM32 opPfx .s16, []) := by decide

/-- What is refused (V8.7 to V8.11, V7.10, V2.6), and a SIB byte without an index but with a scale (R106). -/
theorem test_decode_refusals :
    decode .s16 [0x80, 0x00, 0x05] = .error .outOfScopeOpcode ∧
      decode .s16 [0xFF, 0xE0] = .error .outOfScopeOpcode ∧
      decode .s16 [0x0F, 0x05] = .error .outOfScopeOpcode ∧
      decode .s16 [0xF0, 0x38, 0xD8] = .error .lockPrefix ∧
      decode .s16 [0x2E, 0x2E, 0xA6] = .error .prefixRepeated ∧
      decode .s16 [0xF3, 0xA6] = .error .repPrefix ∧
      decode .s16 [0xF2, 0xA7] = .error .repPrefix ∧
      decode .s16 [0xFF, 0xD8] = .error .invalidOpcode ∧
      decode .s32 [0xFF, 0x14, 0x64] = .error .sibNoIndexScaled := by
  decide

/-- The table's bits are read from the least significant byte on (R121), and the default size is 16. -/
theorem test_decode_table_word :
    decodeTableWord 8 0x98 = some (.cbw noPfx) ∧ decodeTableWord 16 0x060F = some (.clts noPfx) ∧
      decodeTableWord 16 0x10FF = some (.callRm16 noPfx (.mem (.a16 .bxSi .none))) := by
  decide

/-! ## Near CALL -/

/-- V1.1. -/
theorem test_callRel16 :
    nextIs (step (real 0xFFFE [0xE8, 0x10, 0x00])) (fun t =>
      t.eip == 0x113 && t.reg .esp == 0xFFFC && peek t 0x2FFFC 2 == [0x03, 0x01]) = true := by
  decide

/-- V1.10 and V1.11: the slot at SP = 1 does not fit, at SP = 0 it does. -/
theorem test_call_stack_edge :
    faultIs (step (real 0x1 [0xE8, 0x00, 0x00])) (.exception .ss none) = true ∧
      nextIs (step (real 0x0 [0xE8, 0x00, 0x00])) (fun t =>
        t.eip == 0x103 && t.reg .esp == 0xFFFE && peek t 0x2FFFE 2 == [0x03, 0x01]) = true := by
  decide

/-- Protected Mode with a 16-bit stack in a segment of 4G, and an SP. -/
def stack16 (sp : DWord) (code : List Byte) : State :=
  ((ring0 code).setSs { flat 0x10 0x93 with big := false }).setReg .esp sp

/-- R76: a slot across FFFFh does not fit such a stack, the one that ends there does; a far CALL's second slot too. -/
theorem test_call_stack_range :
    faultIs (step (stack16 1 [0x66, 0xE8, 0x00, 0x00])) (.exception .ss (some 0)) = true ∧
      nextIs (step (stack16 0 [0x66, 0xE8, 0x00, 0x00])) (fun t => t.reg .esp == 0xFFFE) = true ∧
      faultIs (step (stack16 3 [0x66, 0x9A, 0x40, 0x00, 0x08, 0x00])) (.exception .ss (some 0)) = true := by
  decide

/-- V1.5. -/
theorem test_callRm16 :
    nextIs (step ((real 0x100 [0xFF, 0xD0]).setReg .eax 0x1234)) (fun t =>
      t.eip == 0x1234 && t.reg .esp == 0xFE && peek t 0x200FE 2 == [0x02, 0x01]) = true := by
  decide

/-- V1.12: the operand word crosses the end of the 64K. -/
theorem test_callRm16_operand_fault :
    faultIs (step ((real 0x100 [0xFF, 0x17]).setReg .ebx 0xFFFF)) (.exception .gp none) = true := by
  decide

/-- V1.4. -/
theorem test_callRel32 :
    nextIs (step (ring0 [0xE8, 0xFB, 0xFF, 0xFF, 0xFF])) (fun t =>
      t.eip == 0x1000 && t.reg .esp == 0x7FFC && peek t 0x7FFC 4 == [0x05, 0x10, 0x00, 0x00]) = true := by
  decide

/-- V1.7: the operand is read before the push. -/
theorem test_callRm32 :
    nextIs (step (poke 0x8000 [0x00, 0x50] (ring0 [0xFF, 0x14, 0x24]))) (fun t =>
      t.eip == 0x5000 && t.reg .esp == 0x7FFC && peek t 0x7FFC 4 == [0x03, 0x10, 0x00, 0x00]) = true := by
  decide

/-! ## Far CALL -/

/-- V2.1. -/
theorem test_callPtr1616_real :
    nextIs (step (real 0x400 [0x9A, 0x00, 0x02, 0x00, 0x30])) (fun t =>
      t.eip == 0x200 && t.reg .esp == 0x3FC && peek t 0x203FC 4 == [0x05, 0x01, 0x00, 0x10] &&
        t.segs.cs == { Seg.reset with sel := 0x3000, base := 0x30000 }) = true := by
  decide

/-- V2.5: the same in Virtual 8086 Mode, CPL stays 3. -/
theorem test_callPtr1616_v86 :
    nextIs (step (v86 0x400 [0x9A, 0x00, 0x02, 0x00, 0x30])) (fun t =>
      t.eip == 0x200 && peek t 0x203FC 4 == [0x05, 0x01, 0x00, 0x10] && t.segs.cs.base == 0x30000 && t.cpl == 3) =
      true := by
  decide

/-- V2.3. -/
theorem test_callM1616 :
    nextIs (step (poke 0x500 [0x34, 0x12, 0x00, 0x40] ((real 0x400 [0xFF, 0x1F]).setReg .ebx 0x500))) (fun t =>
      t.eip == 0x1234 && t.segs.cs.sel == 0x4000 && t.segs.cs.base == 0x40000 &&
        peek t 0x203FC 4 == [0x02, 0x01, 0x00, 0x10]) = true := by
  decide

/-- V3.1, with a concrete pad where the machine has a free one. -/
theorem test_callPtr1632_prot :
    okIs (farCall (fun _ => 0xAAAA) .s32 0x1007 ⟨0x40, 0x08⟩ (ring0 [])) (fun t =>
      t.eip == 0x40 && t.reg .esp == 0x7FF8 && peek t 0x7FF8 8 == [0x07, 0x10, 0x00, 0x00, 0x08, 0x00, 0xAA, 0xAA] &&
        t.segs.cs.sel == 0x08 && t.mem.read 0x1000D == 0x9B) = true := by
  decide

/-- V3.12, through the gate to more privilege, with two parameters and concrete pads. -/
theorem test_callPtr1632_gate :
    okIs (farCall (fun k => if k = 0 then 0xAAAA else 0xBBBB) .s32 0x1007 ⟨0, 0x33⟩
      (poke 0x9000 [0x11, 0x11, 0x11, 0x11, 0x22, 0x22, 0x22, 0x22] (ring3 []))) (fun t =>
        t.cpl == 0 && t.segs.ss.sel == 0x10 && t.reg .esp == 0x7FE8 && t.segs.cs.sel == 0x08 && t.eip == 0x4000 &&
          peek t 0x7FE8 8 == [0x07, 0x10, 0x00, 0x00, 0x1B, 0x00, 0xBB, 0xBB] &&
          peek t 0x7FF0 8 == [0x11, 0x11, 0x11, 0x11, 0x22, 0x22, 0x22, 0x22] &&
          peek t 0x7FF8 8 == [0x00, 0x90, 0x00, 0x00, 0x23, 0x00, 0xAA, 0xAA] &&
          t.mem.read 0x1000D == 0x9B && t.mem.read 0x10015 == 0x93) = true := by
  decide

/-- V3.2's pointer, read from memory, and its call: a conforming segment, CS.RPL is CPL. -/
theorem test_callM1632 :
    readFarPtr noPfx (.a32Direct 0x3000) .s32 (poke 0x3000 [0x40, 0x00, 0x00, 0x00, 0x3B, 0x00] (ring3 [])) =
        .ok ⟨0x40, 0x3B⟩ ∧
      okIs (farCall (fun _ => 0xAAAA) .s32 0x1006 ⟨0x40, 0x3B⟩ (ring3 [])) (fun t =>
        t.eip == 0x40 && t.segs.cs.sel == 0x3B && t.cpl == 3 && t.reg .esp == 0x8FF8 &&
          t.mem.read 0x1003D == 0x9F) = true := by
  decide

/-- V3.3 to V3.7 and V3.17: the first failing check and its error code. -/
theorem test_far_faults :
    faultIs (step (ring3 [0x9A, 0x40, 0x00, 0x00, 0x00, 0x0B, 0x00])) (.exception .gp (some 0x0008)) = true ∧
      faultIs (step (ring0 [0x9A, 0x00, 0x00, 0x00, 0x00, 0x03, 0x00])) (.exception .gp (some 0x0000)) = true ∧
      faultIs (step (ring0 [0x9A, 0x00, 0x00, 0x00, 0x00, 0x40, 0x00])) (.exception .gp (some 0x0040)) = true ∧
      faultIs (step (ring0 [0x9A, 0x00, 0x00, 0x00, 0x00, 0x10, 0x00])) (.exception .gp (some 0x0010)) = true ∧
      faultIs (step (ring0 [0x9A, 0x00, 0x00, 0x00, 0x00, 0x28, 0x00])) (.exception .ts (some 0x0028)) = true := by
  decide

/-! ## CBW, CWDE, CWD, CDQ -/

/-- V4.1 and V4.3. -/
theorem test_cbw :
    nextIs (exec (.cbw noPfx) ((real 0 []).setReg .eax 0x12345680)) (fun t =>
      t.reg .eax == 0x1234FF80 && t.eip == 0x101) = true ∧
    nextIs (exec (.cbw noPfx) ((real 0 []).setReg .eax 0x0000FF00)) (fun t => t.reg .eax == 0) = true := by
  decide

/-- V4.4 and V4.10: length 2 with the 66 byte. -/
theorem test_cwde :
    nextIs (exec (.cwde opPfx) ((real 0 []).setReg .eax 0xABCD8001)) (fun t =>
      t.reg .eax == 0xFFFF8001 && t.eip == 0x102) = true := by
  decide

/-- V4.6. -/
theorem test_cwd :
    nextIs (exec (.cwd noPfx) (((real 0 []).setReg .eax 0xFF80).setReg .edx 0x12345678)) (fun t =>
      t.reg .edx == 0x1234FFFF && t.reg .eax == 0xFF80) = true := by
  decide

/-- V4.9. -/
theorem test_cdq :
    nextIs (exec (.cdq noPfx) (((real 0 []).setReg .eax 0x7FFFFFFF).setReg .edx 0xFFFFFFFF)) (fun t =>
      t.reg .edx == 0) = true := by
  decide

/-! ## CLC, CLD, CLI, CLTS, CMC -/

/-- V5.1. -/
theorem test_clc : nextIs (exec (.clc noPfx) ((real 0 []).setEflags 0xA47)) (fun t => t.eflags == 0xA46) = true := by
  decide

/-- V5.3. -/
theorem test_cld : nextIs (exec (.cld noPfx) ((real 0 []).setEflags 0x602)) (fun t => t.eflags == 0x202) = true := by
  decide

/-- V5.9 and V5.10: CPL 1 and CPL 2 with IOPL 1. -/
theorem test_cli :
    nextIs (exec (.cli noPfx) (((ring0 []).setCpl 1).setEflags 0x1202)) (fun t => t.eflags == 0x1002) = true ∧
      faultIs (exec (.cli noPfx) (((ring0 []).setCpl 2).setEflags 0x1202)) (.exception .gp (some 0)) = true := by
  decide

/-- V5.11 and V5.12: Virtual 8086 Mode with IOPL 2 and 3. -/
theorem test_cli_v86 :
    faultIs (exec (.cli noPfx) ((v86 0 []).setEflags 0x22202)) (.exception .gp (some 0)) = true ∧
      nextIs (exec (.cli noPfx) ((v86 0 []).setEflags 0x23202)) (fun t => t.eflags == 0x23002) = true := by
  decide

/-- V5.14 and V5.15. -/
theorem test_clts :
    nextIs (exec (.clts noPfx) ((ring0 []).setCr0 0x1B)) (fun t => t.cr0 == 0x13) = true ∧
      faultIs (exec (.clts noPfx) ((ring3 []).setCr0 0x1B)) (.exception .gp (some 0)) = true := by
  decide

/-- V5.13 and V5.16. -/
theorem test_clts_real_v86 :
    nextIs (exec (.clts noPfx) ((real 0 []).setCr0 0x18)) (fun t => t.cr0 == 0x10) = true ∧
      faultIs (exec (.clts noPfx) ((v86 0 []).setCr0 0x1B)) (.exception .gp (some 0)) = true := by
  decide

/-- V5.4 and V5.5. -/
theorem test_cmc :
    nextIs (exec (.cmc noPfx) ((real 0 []).setEflags 2)) (fun t => t.eflags == 3) = true ∧
      nextIs (exec (.cmc noPfx) ((real 0 []).setEflags 3)) (fun t => t.eflags == 2) = true := by
  decide

/-! ## CMP -/

/-- V6.3. -/
theorem test_cmpAlImm8 :
    nextIs (exec (.cmpAlImm8 noPfx 0x01) ((real 0 []).setReg .eax 0x80)) (fun t =>
      sixFlags t false false false true true false) = true := by
  decide

/-- V6.8. -/
theorem test_cmpAxImm16 :
    nextIs (exec (.cmpAxImm16 noPfx 0x8000) (real 0 [])) (fun t => sixFlags t true false true true false true) =
      true := by
  decide

/-- V6.11. -/
theorem test_cmpEaxImm32 :
    nextIs (exec (.cmpEaxImm32 noPfx 1) ((ring0 []).setReg .eax 0x80000000)) (fun t =>
      sixFlags t false false false true true true) = true := by
  decide

/-- V6.14. -/
theorem test_cmpRm8Imm8 :
    nextIs (exec (.cmpRm8Imm8 noPfx (.reg .ah) 0x10) ((real 0 []).setReg .eax 0x1000)) (fun t =>
      sixFlags t false true false false false true) = true := by
  decide

/-- V6.15 and V6.16. -/
theorem test_cmpRm16Imm16 :
    nextIs (exec (.cmpRm16Imm16 noPfx (.mem (.a16Direct 0x2000)) 0x1234) (poke 0x2000 [0x34, 0x12] (real 0 [])))
      (fun t => sixFlags t false true false false false true && t.eip == 0x106) = true ∧
    faultIs (exec (.cmpRm16Imm16 noPfx (.mem (.a16Direct 0xFFFF)) 0x1234) (real 0 [])) (.exception .gp none) = true := by
  decide

/-- V6.12. -/
theorem test_cmpRm32Imm32 :
    nextIs (exec (.cmpRm32Imm32 noPfx (.reg .ebx) 0x80000000) ((ring0 []).setReg .ebx 0x7FFFFFFF)) (fun t =>
      sixFlags t true false true true false true) = true := by
  decide

/-- V6.9 and V6.10: the byte is sign-extended. -/
theorem test_cmpRm16Imm8 :
    nextIs (exec (.cmpRm16Imm8 noPfx (.reg .eax) 0xFF) ((real 0 []).setReg .eax 0xFFFF)) (fun t =>
      sixFlags t false true false false false true) = true ∧
    nextIs (exec (.cmpRm16Imm8 noPfx (.reg .eax) 0xFF) (real 0 [])) (fun t =>
      sixFlags t true false false false true false) = true := by
  decide

/-- 00000000h - FFFFFF80h = 80h: CF, no ZF, no SF, no OF, no AF, one bit set in 80h (R211, R221). -/
theorem test_cmpRm32Imm8 :
    nextIs (exec (.cmpRm32Imm8 noPfx (.reg .eax) 0x80) ((ring0 []).setReg .eax 0)) (fun t =>
      sixFlags t true false false false false false) = true := by
  decide

/-- V6.5 and V6.6: the order of the operands. -/
theorem test_cmpRm8R8 :
    nextIs (exec (.cmpRm8R8 noPfx (.reg .al) .bl) (((real 0 []).setReg .eax 0x10).setReg .ebx 0x20)) (fun t =>
      sixFlags t true false true false false true) = true := by
  decide

theorem test_cmpR8Rm8 :
    nextIs (exec (.cmpR8Rm8 noPfx .bl (.reg .al)) (((real 0 []).setReg .eax 0x10).setReg .ebx 0x20)) (fun t =>
      sixFlags t false false false false false false) = true := by
  decide

/-- 0001h (memory) - 0002h (CX) = FFFFh and the reverse 0001h (R211, R223, R226). -/
theorem test_cmpRm16R16 :
    nextIs (exec (.cmpRm16R16 noPfx (.mem (.a16Direct 0x2000)) .ecx) (poke 0x2000 [0x01] ((real 0 []).setReg .ecx 2)))
      (fun t => sixFlags t true false true false true true) = true := by
  decide

theorem test_cmpR16Rm16 :
    nextIs (exec (.cmpR16Rm16 noPfx .ecx (.mem (.a16Direct 0x2000))) (poke 0x2000 [0x01] ((real 0 []).setReg .ecx 2)))
      (fun t => sixFlags t false false false false false false) = true := by
  decide

/-- V6.13. -/
theorem test_cmpRm32R32 :
    nextIs (exec (.cmpRm32R32 noPfx (.reg .eax) .ecx) (((ring0 []).setReg .eax 1).setReg .ecx 2)) (fun t =>
      sixFlags t true false true false true true) = true := by
  decide

/-- V6.17 and V6.18. -/
theorem test_cmpR32Rm32 :
    let s := ((ring0 []).setReg .esp 0x7FF8).setReg .eax 0xFFFF8001
    let i := Instr.cmpR32Rm32 noPfx .eax (.mem (.a32Sib .esp none (.d8 4)))
    nextIs (exec i (poke 0x7FFC [0x02, 0x10] s)) (fun t => sixFlags t false false true false true true) = true ∧
      faultIs (exec i (s.setSs { flat 0x10 0x93 with limit := 0x7FFD })) (.exception .ss (some 0)) = true := by
  decide

/-! ## CMPS -/

/-- The memory of V7.1 to V7.8, DS = ES = 2000h. -/
def strings (si di : DWord) : State :=
  let s := poke 0x20010 [0x11, 0x22, 0x33, 0x44] (poke 0x20020 [0x11, 0x22, 0x33, 0x45] (poke 0x10010 [0x11] (real 0 [])))
  { s with
    regs := { s.regs with esi := si, edi := di }
    segs := { s.segs with ds := s.segs.ss, es := s.segs.ss } }

/-- V7.3 and V7.4: up and down. -/
theorem test_cmpsM8 :
    nextIs (exec (.cmpsM8 noPfx .s16) (strings 0x13 0x23)) (fun t =>
      sixFlags t true false true false true true && t.reg .esi == 0x14 && t.reg .edi == 0x24) = true ∧
    nextIs (exec (.cmpsM8 noPfx .s16) ((strings 0x13 0x23).setEflags 0x402)) (fun t =>
      sixFlags t true false true false true true && t.reg .esi == 0x12 && t.reg .edi == 0x22) = true := by
  decide

/-- V7.6 and V7.8: the wrap within 16 bits, and the override, for the source only. -/
theorem test_cmpsM8_wrap_override :
    nextIs (exec (.cmpsM8 noPfx .s16) ((strings 0x50000 0x60000).setEflags 0x402)) (fun t =>
      t.reg .esi == 0x5FFFF && t.reg .edi == 0x6FFFF) = true ∧
    nextIs (exec (.cmpsM8 ⟨false, false, some .cs⟩ .s16) (strings 0x10 0x20)) (fun t => t.flag .zf) = true := by
  decide

/-- V7.2 and V7.7. -/
theorem test_cmpsM16 :
    nextIs (exec (.cmpsM16 noPfx .s16) (strings 0x11 0x21)) (fun t =>
      sixFlags t false true false false false true && t.reg .esi == 0x13 && t.reg .edi == 0x23) = true ∧
    faultIs (exec (.cmpsM16 noPfx .s16) (strings 0xFFFF 0x21)) (.exception .gp none) = true := by
  decide

/-- V7.5 and V7.9. -/
theorem test_cmpsM32 :
    nextIs (exec (.cmpsM32 opPfx .s16) (strings 0x10 0x20)) (fun t =>
      sixFlags t true false true false false true && t.reg .esi == 0x14 && t.reg .edi == 0x24) = true ∧
    nextIs (exec (.cmpsM32 noPfx .s32) (poke 0x3000 [1] (poke 0x4000 [2]
      { ring0 [] with eflags := 0x402, regs := { State.reset.regs with esi := 0x3000, edi := 0x4000 } }))) (fun t =>
        sixFlags t true false true false true true && t.reg .esi == 0x2FFC && t.reg .edi == 0x3FFC) = true := by
  decide

/-- R241: a word at SI = FFFFh is not wrapped, and fails in a segment of 4G too. -/
theorem test_cmps_crosses_offset_range :
    let s := (ring0 []).setReg .esi 0xFFFF
    faultIs (exec (.cmpsM16 opPfx .s16) s) (.exception .gp (some 0)) = true ∧
      nextIs (exec (.cmpsM8 noPfx .s16) s) (fun t => t.reg .esi == 0 && t.reg .edi == 1) = true := by
  decide

/-! ## The step -/

/-- R306 and R266: the end of the run and an offered interrupt come before the fetch; IF gates the maskable one only
(R201). -/
theorem test_step_before_fetch :
    faultIs (step { real 0 [0xF5] with haltAddr := some 0x100 }) .runEnded = true ∧
      faultIs (step { real 0 [0xF5] with intrOffer := some (.maskable 0x20), eflags := 0x202 })
        (.externalInterrupt 0x20) = true ∧
      nextIs (step { real 0 [0xF5] with intrOffer := some (.maskable 0x20) }) (fun t => t.eflags == 3) = true ∧
      faultIs (step { real 0 [0xF5] with intrOffer := some .nonmaskable }) (.externalInterrupt 2) = true := by
  decide

/-- R25 and D36: a CALL that begins at offset FFFFFFFFh faults at its second byte, CMC there ends and EIP wraps to 0. -/
theorem test_fetch_wrap :
    nextIs (step (poke 0xFFFFFFFF [0xF5] ((ring0 []).setEip 0xFFFFFFFF))) (fun t => t.eip == 0 && t.eflags == 3) = true ∧
      faultIs (step (poke 0xFFFFFFFF [0xE8] ((ring0 []).setEip 0xFFFFFFFF))) (.exception .gp (some 0)) = true := by
  decide

/-- R91 and R272: 80 /0 with a disp8, and a SIB byte with a scale and no index, one byte past the 64K: the fetch fault,
no refusal. -/
theorem test_fetch_before_refusal :
    faultIs (step (poke 0x1FFFE [0x80, 0x40] ((real 0 []).setEip 0xFFFE))) (.exception .gp none) = true ∧
      refusedIs (step (poke 0x1FFFD [0x80, 0x40] ((real 0 []).setEip 0xFFFD))) .outOfScopeOpcode = true ∧
      faultIs (step (poke 0x1FFFC [0x67, 0x39, 0x44, 0x64] ((real 0 []).setEip 0xFFFC))) (.exception .gp none) = true ∧
      refusedIs (step (poke 0x1FFFB [0x67, 0x39, 0x44, 0x64] ((real 0 []).setEip 0xFFFB))) .sibNoIndexScaled = true := by
  decide

/-- The refusals of R271 and the invalid opcode (V2.6, V7.10, V8.7). -/
theorem test_step_refusals :
    refusedIs (step (real 0 [0x80, 0x00, 0x05])) .outOfScopeOpcode = true ∧
      refusedIs (step (real 0 [0xF3, 0xA6])) .repPrefix = true ∧
      faultIs (step (real 0 [0xFF, 0xD8])) (.exception .ud none) = true := by
  decide

/-- A table word placed at reset is what the first step runs. -/
theorem test_withFetchWord :
    nextIs (step (State.reset.withFetchWord 8 0xF5)) (fun t => t.eflags == 3 && t.eip == 0xFFF1) = true := by
  decide

/-! ## Witnesses: for each statement with hypotheses, a state and operands that meet them, clause by clause

Where a hypothesis is that Translate or SwitchTasks, of which nothing can be evaluated, gives a certain answer, the
witness meets the others and takes that answer as its own premise. -/

/-- The instruction or step completes. -/
def runs (o : Host.Outcome State Fault Refusal) : Bool := nextIs o fun _ => true

/-- An outcome that completes has a next state. -/
theorem next_of_runs {o : Host.Outcome State Fault Refusal} (h : runs o = true) : ∃ t, o = .next t := by
  cases o with
  | next t => exact ⟨t, rfl⟩
  | fault f => simp [runs, nextIs] at h
  | refused r => simp [runs, nextIs] at h

/-- A property of every byte of a list, from the finitely many places. -/
theorem each_byte {P : Nat → Byte → Prop} (l : List Byte) (h : ∀ k : Fin l.length, P k l[k]) :
    ∀ (k : Nat) (b : Byte), l[k]? = some b → P k b := by
  intro k b hb
  obtain ⟨hk, rfl⟩ := List.getElem?_eq_some_iff.mp hb
  exact h ⟨k, hk⟩

/-- V2.1's and V2.5's calls, and V3.12's gate as a 286 gate, so that no pad is stored. -/
def gate286 (s : State) : State := poke 0x10030 [0x00, 0x40, 0x08, 0x00, 0x02, 0xE4, 0x00, 0x00] s

/-- A state of each mode that meets the invariant and steps on: a near CALL, a far CALL, a CALL to more privilege. -/
theorem witness_StepKeepsInvariant :
    ((real 0x400 [0x9A, 0x00, 0x02, 0x00, 0x30]).Inv ∧
      ∃ t, step (real 0x400 [0x9A, 0x00, 0x02, 0x00, 0x30]) = .next t) ∧
    ((v86 0x400 [0x9A, 0x00, 0x02, 0x00, 0x30]).Inv ∧
      ∃ t, step (v86 0x400 [0x9A, 0x00, 0x02, 0x00, 0x30]) = .next t) ∧
    ((ring0 [0xE8, 0xFB, 0xFF, 0xFF, 0xFF]).Inv ∧ ∃ t, step (ring0 [0xE8, 0xFB, 0xFF, 0xFF, 0xFF]) = .next t) ∧
    ((gate286 (ring3 [0x66, 0x9A, 0x00, 0x00, 0x33, 0x00])).Inv ∧
      ∃ t, step (gate286 (ring3 [0x66, 0x9A, 0x00, 0x00, 0x33, 0x00])) = .next t) :=
  ⟨⟨⟨by decide, by decide, by decide⟩, next_of_runs (by decide)⟩,
    ⟨⟨by decide, by decide, by decide⟩, next_of_runs (by decide)⟩,
    ⟨⟨by decide, by decide, by decide⟩, next_of_runs (by decide)⟩,
    ⟨by decide, by decide, by decide⟩, next_of_runs (by decide)⟩

theorem witness_StepKeepsTablesAndCr0 : ∃ t, step { real 0 [0x0F, 0x06] with cr0 := 0x1A } = .next t :=
  next_of_runs (by decide)

theorem witness_ModeChangesOnlyByTaskSwitch :
    (∃ t, step (real 0 [0xF5]) = .next t) ∧ (∃ t, step (v86 0 [0xF5]) = .next t) ∧
      ∃ t, step (gate286 (ring3 [0x66, 0x9A, 0x00, 0x00, 0x33, 0x00])) = .next t :=
  ⟨next_of_runs (by decide), next_of_runs (by decide), next_of_runs (by decide)⟩

/-- No CALL; a CALL to the same privilege; a CALL to more privilege, with CPL 0 after it. -/
theorem witness_CallChangesPrivilegeOnlyByGate :
    (∃ t, exec (.cmc noPfx) (ring3 []) = .next t) ∧
    (∃ t, exec (.callPtr1616 opPfx 0x40 0x1B) (ring3 []) = .next t) ∧
    ∃ t, exec (.callPtr1616 opPfx 0 0x33) (gate286 (ring3 [])) = .next t ∧ t.cpl = 0 :=
  ⟨next_of_runs (by decide), next_of_runs (by decide), by
    obtain ⟨t, h⟩ := next_of_runs (o := exec (.callPtr1616 opPfx 0 0x33) (gate286 (ring3 []))) (by decide)
    have hc : nextIs (exec (.callPtr1616 opPfx 0 0x33) (gate286 (ring3 []))) (fun t => t.cpl == 0) = true := by decide
    rw [h] at hc
    exact ⟨t, h, by simpa [nextIs] using hc⟩⟩

theorem witness_OnlyCallsStore :
    (isCall (.clts noPfx) = false ∧ ∃ t, exec (.clts noPfx) (ring0 []) = .next t) ∧
    isFarCall (.callRel16 noPfx 0x10) = false ∧ ∃ t, exec (.callRel16 noPfx 0x10) (real 0x100 []) = .next t :=
  ⟨⟨rfl, next_of_runs (by decide)⟩, rfl, next_of_runs (by decide)⟩

theorem witness_FarCallWithoutTaskSwitchKeeps :
    (isFarCall (.callPtr1616 noPfx 0x200 0x3000) = true ∧
      ∃ t, exec (.callPtr1616 noPfx 0x200 0x3000) (real 0x400 []) = .next t) ∧
    isFarCall (.callPtr1616 opPfx 0 0x33) = true ∧ ∃ t, exec (.callPtr1616 opPfx 0 0x33) (gate286 (ring3 [])) = .next t :=
  ⟨⟨rfl, next_of_runs (by decide)⟩, rfl, next_of_runs (by decide)⟩

theorem witness_ExecRaisesOnlyExceptions :
    ((real 1 []).mode = .real ∧ exec (.callRel16 noPfx 0) (real 1 []) = .fault (.exception .ss none)) ∧
    (v86 0 []).mode = .v86 ∧ exec (.clts noPfx) (v86 0 []) = .fault (.exception .gp (some 0)) :=
  ⟨⟨rfl, rfl⟩, rfl, rfl⟩

theorem witness_DecodeOfEncode :
    (Instr.callM1632 ⟨true, true, some .gs⟩ (.a32Sib .ebp (some (.edi, 3)) (.full 0xFFFFFFFF))).wf .s16 = true ∧
      (Instr.cmpRm8Imm8 noPfx (.mem (.a16 .bp (.d8 0xFF))) 0xFF).wf .s16 = true := by
  decide

theorem witness_DecodedIsWellFormed :
    decode .s32 [0x2E, 0x66, 0x81, 0xBC, 0x8B, 1, 2, 3, 4, 5, 6, 7] =
      .ok (.cmpRm16Imm16 ⟨true, false, some .cs⟩ (.mem (.a32Sib .ebx (some (.ecx, 2)) (.full 0x04030201))) 0x0605, [7]) := by
  decide

theorem witness_PrefixOrderIsFree :
    (Instr.cmpsM8 ⟨true, true, some .fs⟩ .s32).wf .s16 = true ∧
      [0x64, 0x66, 0x67].Perm (encodePrefixes ⟨true, true, some .fs⟩) := by
  decide

/-- A second override after a 66 and an override; LOCK and each REP between other prefix bytes. -/
theorem witness_RepeatedLockAndRepPrefixesRefused :
    ((∀ x ∈ ([0x66, 0x2E] : List Byte), prefixGroup x ≠ none) ∧ ([0x66, 0x2E].map prefixGroup).Nodup ∧
      prefixGroup 0x3E ∈ [0x66, 0x2E].map prefixGroup) ∧
    (Instr.cmpRm8R8 ⟨true, false, some .cs⟩ (.reg .al) .bl).wf .s16 = true ∧
    [0x66, 0xF0, 0x2E].Perm ((0xF0 : Byte) :: encodePrefixes ⟨true, false, some .cs⟩) ∧
    [0x66, 0xF2, 0x2E].Perm ((0xF2 : Byte) :: encodePrefixes ⟨true, false, some .cs⟩) ∧
    [0x66, 0x2E, 0xF3].Perm ((0xF3 : Byte) :: encodePrefixes ⟨true, false, some .cs⟩) := by
  decide

/-- The operand of ModR/M there, and its displacement one byte short. -/
theorem witness_OutOfScopeOpcodesRefused :
    (prefixGroup 0x90 = none ∧ (0x90 : Byte) ∉ scopeOpcodes) ∧ (0x05 : Byte) ≠ 0x06 ∧ regOf 0xF0 ≠ 7 ∧
      regOf 0xE0 ≠ 2 ∧ regOf 0xE0 ≠ 3 ∧ regOf 0x40 ≠ 7 ∧
      decodeRM Reg.ofNum (noPfx.addressSize .s16) 0xF0 [] = .ok (.reg .eax, []) ∧
      decodeRM Reg.ofNum (noPfx.addressSize .s16) 0x40 [0xFF] = .ok (.mem (.a16 .bxSi (.d8 0xFF)), []) ∧
      decodeRM Reg.ofNum (noPfx.addressSize .s16) 0x40 [] = .error .truncated := by
  decide

theorem witness_FarCallWithRegisterIsInvalidOpcode :
    atHalt (real 0 [0x66, 0xFF, 0xD8]) = false ∧ acceptedInterrupt (real 0 [0x66, 0xFF, 0xD8]) = none ∧
      modOf 0xD8 = 3 ∧ regOf 0xD8 = 3 ∧
      (fetchFrom (real 0 [0x66, 0xFF, 0xD8]) Config.maxInstrBytes 0).1 =
        encodePrefixes opPfx ++ 0xFF :: 0xD8 :: List.replicate 12 0 := by
  decide

/-- A register and `[BX + disp8]` in each row with ModR/M, whatever follows. -/
theorem witness_OpcodeRowsDecode :
    (noPfx.operandSize .s16 = .s16 ∧ opPfx.operandSize .s16 = .s32) ∧
    ((∀ x, decodeRM Reg.ofNum (noPfx.addressSize .s16) 0xD3 ([] ++ x) = .ok (.reg .ebx, x)) ∧
      (RM.reg Reg.ebx).wf .s16 = true ∧ regOf 0xD3 = 2) ∧
    ((∀ x, decodeRM Reg.ofNum (noPfx.addressSize .s16) 0x5F ([0x10] ++ x) = .ok (.mem (.a16 .bx (.d8 0x10)), x)) ∧
      (RM.mem (ρ := Reg) (.a16 .bx (.d8 0x10))).wf .s16 = true ∧ regOf 0x5F = 3) ∧
    ((∀ x, decodeRM Reg.ofNum (noPfx.addressSize .s16) 0x7F ([0x10] ++ x) = .ok (.mem (.a16 .bx (.d8 0x10)), x)) ∧
      regOf 0x7F = 7) ∧
    ((∀ x, decodeRM Reg8.ofNum (noPfx.addressSize .s16) 0x7F ([0x10] ++ x) = .ok (.mem (.a16 .bx (.d8 0x10)), x)) ∧
      (RM.mem (ρ := Reg8) (.a16 .bx (.d8 0x10))).wf .s16 = true) :=
  ⟨by decide, ⟨fun _ => rfl, by decide, by decide⟩, ⟨fun _ => rfl, by decide, by decide⟩, ⟨fun _ => rfl, by decide⟩,
    fun _ => rfl, by decide⟩

/-- What the clauses on the four instructions ask: that both spellings complete. -/
theorem witness_ConversionIsChosenByOperandSize :
    (∃ t u, exec (.cbw noPfx) (real 0 []) = .next t ∧ exec (.cbw opPfx) (real 0 []) = .next u) ∧
    (∃ t u, exec (.cwde noPfx) (real 0 []) = .next t ∧ exec (.cwde opPfx) (real 0 []) = .next u) ∧
    (∃ t u, exec (.cwd noPfx) (real 0 []) = .next t ∧ exec (.cwd opPfx) (real 0 []) = .next u) ∧
    ∃ t u, exec (.cdq noPfx) (real 0 []) = .next t ∧ exec (.cdq opPfx) (real 0 []) = .next u :=
  ⟨⟨_, _, rfl, rfl⟩, ⟨_, _, rfl, rfl⟩, ⟨_, _, rfl, rfl⟩, _, _, rfl, rfl⟩

/-- No index with and without a scale; no base; each size of the displacement, ESP and EBP as the base among them; the
rows that refuse a scale without an index, each size of the displacement before four more bytes. -/
theorem witness_SibAddressFollowsTheRule :
    (∀ mod ∈ ([0, 1, 2] : List (BitVec 2)), mod ≠ 3) ∧
    ((4 : BitVec 3) = 4 ∧ (1 : BitVec 2) ≠ 0) ∧ ((4 : BitVec 3) ≠ 4 ∨ (0 : BitVec 2) = 0) ∧
    ((7 : BitVec 3) ≠ 4 ∨ (3 : BitVec 2) = 0) ∧
    (((5 : BitVec 3) = 5 ∧ (0 : BitVec 2) = 0) ∧ bytes32 0x80000000 = [0, 0, 0, 0x80]) ∧
    (¬ ((5 : BitVec 3) = 5 ∧ (1 : BitVec 2) = 0) ∧ ∃ b : Byte, ([0x80] : List Byte) = [b] ∧ (0xFFFFFF80 : DWord) = b.signExtend 32) ∧
    ¬ ((4 : BitVec 3) = 5 ∧ (0 : BitVec 2) = 0) ∧
    (4 ≤ ([0, 0, 0, 0] : List Byte).length ∧ (Prefixes.mk true true (some .gs)).addressSize .s16 = .s32 ∧
      noPfx.addressSize .s32 = .s32 ∧ (0x3B : Byte) ∈ ([0x38, 0x39, 0x3A, 0x3B] : List Byte) ∧
      (0x83 : Byte) ∈ ([0x80, 0x81, 0x83] : List Byte)) :=
  ⟨by decide, by decide, by decide, by decide, by decide, ⟨by decide, 0x80, rfl, rfl⟩, by decide, by decide⟩

/-- CMC alone at the last byte of the 64K, and CMP with a SIB byte in Protected Mode. -/
theorem witness_StepRunsDecodedInstruction :
    (let s := poke 0x1FFFF [0xF5] { real 0 [] with eip := 0xFFFF }
    atHalt s = false ∧ acceptedInterrupt s = none ∧ (Instr.cmc noPfx).wf s.defaultSize = true ∧
      ∀ (k : Nat) (b : Byte), (encode (.cmc noPfx))[k]? = some b → fetchByte s k = .ok b) ∧
    (let s := { ring0 [0x3B, 0x44, 0x24, 0x04] with haltAddr := some 0, intrOffer := some (.maskable 0x20) }
    let i := Instr.cmpR32Rm32 noPfx .eax (.mem (.a32Sib .esp none (.d8 4)))
    atHalt s = false ∧ acceptedInterrupt s = none ∧ i.wf s.defaultSize = true ∧
      ∀ (k : Nat) (b : Byte), (encode i)[k]? = some b → fetchByte s k = .ok b) :=
  ⟨⟨by decide, by decide, by decide, each_byte _ (by decide)⟩, by decide, by decide, by decide, each_byte _ (by decide)⟩

/-- The instruction ends at the last byte of its segment, in Real Address and in Protected Mode. -/
theorem witness_StoredInstructionRuns :
    (let s := poke 0x1FFFE [0x66, 0x98] { real 0 [] with eip := 0xFFFE }
    atHalt s = false ∧ acceptedInterrupt s = none ∧ s.pagingOn = false ∧ (Instr.cwde opPfx).wf s.defaultSize = true ∧
      s.eip.toNat + (Instr.cwde opPfx).length ≤ (if s.mode = .prot then s.segs.cs.limit.toNat + 1 else 0x10000) ∧
      ∀ (k : Nat) (b : Byte), (encode (.cwde opPfx))[k]? = some b →
        s.mem.read (s.segs.cs.base + s.eip + BitVec.ofNat 32 k).toNat = b) ∧
    (let s := (ring0 [0xF5]).setCs { flat 0x08 0x9B with limit := 0x1000 }
    atHalt s = false ∧ acceptedInterrupt s = none ∧ s.pagingOn = false ∧ (Instr.cmc noPfx).wf s.defaultSize = true ∧
      s.eip.toNat + (Instr.cmc noPfx).length ≤ (if s.mode = .prot then s.segs.cs.limit.toNat + 1 else 0x10000) ∧
      ∀ (k : Nat) (b : Byte), (encode (.cmc noPfx))[k]? = some b →
        s.mem.read (s.segs.cs.base + s.eip + BitVec.ofNat 32 k).toNat = b) :=
  ⟨⟨by decide, by decide, by decide, by decide, by decide, each_byte _ (by decide)⟩,
    by decide, by decide, by decide, by decide, by decide, each_byte _ (by decide)⟩

/-- A CALL whose second byte is the first beyond the limit, in Real Address and in Protected Mode, and one whose second
byte is beyond offset FFFFFFFFh. -/
theorem witness_FetchFaultEndsTheStep :
    (let s := poke 0x1FFFF [0xE8] { real 0 [] with eip := 0xFFFF }
    let bs : List Byte := [0xE8]
    atHalt s = false ∧ acceptedInterrupt s = none ∧ bs.length < Config.maxInstrBytes ∧
      (∀ (k : Nat) (b : Byte), bs[k]? = some b → fetchByte s k = .ok b) ∧
      decode s.defaultSize bs = .error .truncated ∧ fetchByte s bs.length = .error (.exception .gp none) ∧
      0xFFFF < s.eip.toNat + bs.length) ∧
    (let s := (ring0 [0xE8]).setCs { flat 0x08 0x9B with limit := 0x1000 }
    let bs : List Byte := [0xE8]
    atHalt s = false ∧ acceptedInterrupt s = none ∧ bs.length < Config.maxInstrBytes ∧
      (∀ (k : Nat) (b : Byte), bs[k]? = some b → fetchByte s k = .ok b) ∧
      decode s.defaultSize bs = .error .truncated ∧ fetchByte s bs.length = .error (.exception .gp (some 0)) ∧
      s.segs.cs.limit.toNat < s.eip.toNat + bs.length) ∧
    (let s := poke 0xFFFFFFFF [0xE8] ((ring0 []).setEip 0xFFFFFFFF)
    let bs : List Byte := [0xE8]
    atHalt s = false ∧ acceptedInterrupt s = none ∧
      (∀ (k : Nat) (b : Byte), bs[k]? = some b → fetchByte s k = .ok b) ∧
      decode s.defaultSize bs = .error .truncated ∧ fetchByte s bs.length = .error (.exception .gp (some 0)) ∧
      s.segs.cs.limit.toNat < s.eip.toNat + bs.length) :=
  ⟨⟨by decide, by decide, by decide, each_byte _ (by decide), by decide, by decide, by decide⟩,
    ⟨by decide, by decide, by decide, each_byte _ (by decide), by decide, by decide, by decide⟩,
    by decide, by decide, each_byte _ (by decide), by decide, by decide, by decide⟩

theorem witness_HaltAddressAndInterruptComeFirst :
    (let s := { real 0 [] with haltAddr := some 0x100 }
    s.haltAddr = some s.eip) ∧
    (let s := { real 0 [] with haltAddr := some 0x101, intrOffer := some (.maskable 0x20), eflags := 0x202 }
    s.haltAddr ≠ some s.eip ∧ s.intrOffer = some (.maskable 0x20) ∧ s.flag .intr = true) ∧
    (let s := { real 0 [] with intrOffer := some .nonmaskable }
    s.haltAddr ≠ some s.eip ∧ s.intrOffer = some .nonmaskable ∧ s.flag .intr = false) ∧
    (let s := { real 0 [] with intrOffer := some (.maskable 0x20) }
    s.flag .intr = false ∧ s.intrOffer ≠ some .nonmaskable) := by
  decide

theorem witness_MemoryIsAMap :
    Memory.wf [(0, 1), (0xFFFFFFFF, 2)] = true ∧ ∀ a : DWord, Memory.read [(5, 1)] a.toNat = Memory.read [(5, 1)] a.toNat :=
  ⟨by decide, fun _ => rfl⟩

theorem witness_MemReadOfMemWrite :
    (ring0 []).pagingOn = false ∧ (ring0 []).mem.wf = true ∧ 8 ≤ 8 ∧ 0xFFFFFFFFFFFFFFFF < 2 ^ (8 * 8) := by
  decide

/-- An access at the boundary of each clause: FFFFh and FFFEh; a null DS; an execute-only code segment; a read-only data
segment; one byte beyond the limit; expand-down, at its limit and beyond its upper bound. -/
theorem witness_SegmentCheck :
    Mode.v86 ≠ Mode.prot ∧ 0 < 1 ∧
    segLegal .real .ss Seg.reset .write (0xFFFF : DWord).toNat 1 = true ∧
    segLegal .v86 .ds Seg.reset .read (0xFFFF : DWord).toNat 2 = false ∧
    segLegal .prot .ds (flat 0x03 0x93) .read (0 : DWord).toNat 1 = false ∧
    segLegal .prot .ss (flat 0x03 0x93) .read (0 : DWord).toNat 1 = true ∧
    segLegal .prot .cs (flat 0x08 0x98) .read (0 : DWord).toNat 1 = false ∧
    segLegal .prot .ds (flat 0x10 0x91) .write (0 : DWord).toNat 1 = false ∧
    segLegal .prot .ds { flat 0x10 0x93 with limit := 0xFFF } .read (0xFFF : DWord).toNat 1 = true ∧
    segLegal .prot .ds { flat 0x10 0x93 with limit := 0xFFF } .read (0xFFF : DWord).toNat 2 = false ∧
    segLegal .prot .ds { flat 0x10 0x97 with limit := 0xFFF } .write (0xFFF : DWord).toNat 1 = false ∧
    segLegal .prot .ds { flat 0x10 0x97 with limit := 0xFFF } .write (0x1000 : DWord).toNat 1 = true ∧
    segLegal .prot .ds { flat 0x10 0x97 with limit := 0xFFF, big := false } .read (0xFFFF : DWord).toNat 2 = false ∧
    segLegal .prot .cs { flat 0x08 0x9B with limit := 0xFFF } .execute (0x1000 : DWord).toNat 1 = false := by
  decide

theorem witness_IllegalAddressException :
    (let s := real 0 []
    segLegal s.mode .ss (s.seg .ss) .read (0xFFFF : DWord).toNat 2 = false ∧
      segLegal s.mode .ds (s.seg .ds) .read (0xFFFF : DWord).toNat 2 = false) ∧
    (let s := v86 0 []
    segLegal s.mode .ss (s.seg .ss) .read (0xFFFF : DWord).toNat 2 = false) ∧
    (let s := (ring0 []).setSs { flat 0x10 0x93 with limit := 0xFFF }
    segLegal s.mode .ss (s.seg .ss) .read (0xFFF : DWord).toNat 2 = false ∧
      segLegal s.mode .fs (s.seg .fs) .read (0 : DWord).toNat 1 = false) := by
  decide

/-- The last legal place of each width. -/
theorem witness_OperandReads :
    let s := real 0 []
    s.pagingOn = false ∧
      segLegal s.mode .ds (s.seg .ds) .read (effAddr s (.a16Direct 0xFFFF)).toNat 1 = true ∧
      segLegal s.mode .ds (s.seg .ds) .read (effAddr s (.a16Direct 0xFFFE)).toNat 2 = true ∧
      segLegal s.mode .ds (s.seg .ds) .read (effAddr s (.a16Direct 0xFFFC)).toNat 4 = true := by
  decide

/-- Protected Mode with paging on: what an access meets is then Translate's answer. -/
def paged : State := { ring3 [] with cr0 := 0x80000001 }

/-- If Translate answers a page fault there, so does the translation of the bytes. -/
theorem paged_physAddrs {kind : AccessKind} (a : DWord) (n : Nat) (code : Word)
    (h : Config.translate paged a kind 3 = .pageFault code) :
    physAddrs paged kind 3 (n + 1) a = .error (.exception .pf (some code)) := by
  have ht : translateByte paged kind 3 a = .error (.exception .pf (some code)) := by
    rw [translateByte, if_pos (by decide), h]
    rfl
  rw [physAddrs, ht]
  rfl

/-- So does the read of an operand there through DS, whose base is 0. -/
theorem paged_segRead (a : DWord) (n : Nat) (code : Word)
    (hl : segLegal paged.mode .ds (paged.seg .ds) .read a.toNat (n + 1) = true)
    (h : Config.translate paged (linearAddr (paged.seg .ds) a) .read 3 = .pageFault code) :
    segRead paged .ds a (n + 1) = .error (.exception .pf (some code)) := by
  rw [segRead, hl, memRead, show paged.cpl = 3 from rfl, paged_physAddrs _ n code h]
  rfl

/-- So does the read of such a memory operand. -/
theorem paged_readMem {p : Prefixes} (n : Nat) (code : Word) (hp : p.seg = none)
    (hl : segLegal paged.mode .ds (paged.seg .ds) .read (0x20000 : DWord).toNat (n + 1) = true)
    (h : Config.translate paged 0x20000 .read 3 = .pageFault code) :
    readMem p (.a32Direct 0x20000) (n + 1) paged = .error (.exception .pf (some code)) := by
  rw [readMem, segOf, overrideOr, hp]
  exact paged_segRead 0x20000 n code hl h

/-- The last legal place of each pointer, and the first illegal one; with paging, a legal one that has a page fault. -/
theorem witness_LongPointerReads :
    (let s := real 0 []
    let legal := fun (m : Mem) n => segLegal s.mode .ds (s.seg .ds) .read (effAddr s m).toNat n
    s.pagingOn = false ∧ legal (.a16Direct 0xFFFC) 4 = true ∧ legal (.a16Direct 0xFFFA) 6 = true ∧
      legal (.a16Direct 0xFFFD) 4 = false ∧ legal (.a16Direct 0xFFFB) 6 = false) ∧
    (let m := Mem.a32Direct 0x20000
    let legal := fun n => segLegal paged.mode .ds (paged.seg .ds) .read (effAddr paged m).toNat n
    legal 4 = true ∧ legal 6 = true ∧
      ∀ code, Config.translate paged 0x20000 .read 3 = .pageFault code →
        readFarPtr opPfx m .s16 paged = .error (.exception .pf (some code)) ∧
          readFarPtr noPfx m .s32 paged = .error (.exception .pf (some code))) :=
  ⟨by decide, by decide, by decide, fun code h =>
    ⟨by rw [readFarPtr, paged_readMem 3 code rfl (by decide) h]; rfl,
      by rw [readFarPtr, paged_readMem 5 code rfl (by decide) h]; rfl⟩⟩

/-- A state with a CPL and an IOPL. -/
def rings (cpl iopl : BitVec 2) : State := ((ring0 []).setCpl cpl).setEflags (iopl.setWidth 32 <<< 12 ||| 0x202)

/-- Virtual 8086 Mode with an IOPL. -/
def v86Iopl (iopl : BitVec 2) : State := (v86 0 []).setEflags (iopl.setWidth 32 <<< 12 ||| 0x20202)

theorem witness_CliClearsInterruptFlag :
    (real 0 []).cr0Bit .pe = false ∧ (rings 2 2).cpl.toNat ≤ (rings 2 2).iopl.toNat ∧
      (rings 2 1).cr0Bit .pe = true ∧ (rings 2 1).iopl.toNat < (rings 2 1).cpl.toNat ∧
      ({ real 0 [] with intrOffer := some .nonmaskable } : State).cr0Bit .pe = false := by
  decide

theorem witness_CliTable :
    (real 0 []).mode = .real ∧ (∀ c l : BitVec 2, (rings c l).mode = .prot ∧ (rings c l).cpl = c ∧ (rings c l).iopl = l) ∧
      (∀ l : BitVec 2, (v86Iopl l).mode = .v86 ∧ (v86Iopl l).cpl = 3 ∧ (v86Iopl l).iopl = l) ∧
      (let s := ((rings 3 0).setEip 0x100).setEflags 0x202
      s.mode = .prot ∧ s.cpl = 3 ∧ s.eip = 0x100 ∧ s.eflags = 0x202) ∧
      (let s := ((rings 3 0).setEip 0x100).setEflags 0x3202
      s.mode = .prot ∧ s.cpl = 3 ∧ s.eip = 0x100 ∧ s.eflags = 0x3202) := by
  decide

theorem witness_CltsClearsTaskSwitched :
    (real 0 []).cr0Bit .pe = false ∧ (ring0 []).cpl = 0 ∧ ((rings 1 3).cr0Bit .pe = true ∧ (rings 1 3).cpl ≠ 0) ∧
      (v86 0 []).Inv ∧ (v86 0 []).mode = .v86 :=
  ⟨by decide, by decide, by decide, ⟨by decide, by decide, by decide⟩, by decide⟩

theorem witness_FlagControlTouchesOneBit :
    (∃ t, exec (.clc opPfx) (ring3 []) = .next t) ∧ (∃ t, exec (.cld opPfx) (v86 0 []) = .next t) ∧
      (∃ t, exec (.cli opPfx) (real 0 []) = .next t) ∧ (∃ t, exec (.clts opPfx) (ring0 []) = .next t) ∧
      ∃ t, exec (.cmc opPfx) (real 0 []) = .next t :=
  ⟨⟨_, rfl⟩, ⟨_, rfl⟩, ⟨_, rfl⟩, ⟨_, rfl⟩, _, rfl⟩

/-- Every form of CMP with operands that can be read: AX = 0, the last word of the segment, and the place V6.17 reads. -/
theorem witness_CompareCompletes :
    let s := real 0 []
    let m := Mem.a16Direct 0xFFFC
    CmpOperands s (.cmpAlImm8 noPfx 1) 8 0 1 ∧ CmpOperands s (.cmpAxImm16 noPfx 1) 16 0 1 ∧
      CmpOperands s (.cmpEaxImm32 noPfx 1) 32 0 1 ∧ CmpOperands s (.cmpRm8Imm8 noPfx (.mem m) 1) 8 0 1 ∧
      CmpOperands s (.cmpRm16Imm16 noPfx (.mem m) 1) 16 0 1 ∧ CmpOperands s (.cmpRm32Imm32 noPfx (.mem m) 1) 32 0 1 ∧
      CmpOperands s (.cmpRm16Imm8 noPfx (.mem m) 0x80) 16 0 0xFF80 ∧ CmpOperands s (.cmpRm32Imm8 noPfx (.mem m) 0x80) 32 0 0xFFFFFF80 ∧
      CmpOperands s (.cmpRm8R8 noPfx (.mem m) .dh) 8 0 3 ∧ CmpOperands s (.cmpRm16R16 noPfx (.mem m) .edx) 16 0 0x300 ∧
      CmpOperands s (.cmpRm32R32 noPfx (.mem m) .edx) 32 0 0x300 ∧ CmpOperands s (.cmpR8Rm8 noPfx .dh (.mem m)) 8 3 0 ∧
      CmpOperands s (.cmpR16Rm16 noPfx .edx (.mem m)) 16 0x300 0 ∧ CmpOperands s (.cmpR32Rm32 noPfx .edx (.mem m)) 32 0x300 0 :=
  ⟨.alImm8 _ _, .axImm16 _ _, .eaxImm32 _ _, .rm8Imm8 _ _ _ _ rfl, .rm16Imm16 _ _ _ _ rfl, .rm32Imm32 _ _ _ _ rfl,
    .rm16Imm8 _ _ _ _ rfl, .rm32Imm8 _ _ _ _ rfl, .rm8R8 _ _ _ _ rfl, .rm16R16 _ _ _ _ rfl, .rm32R32 _ _ _ _ rfl,
    .r8Rm8 _ _ _ _ rfl, .r16Rm16 _ _ _ _ rfl, .r32Rm32 _ _ _ _ rfl⟩

/-- An operand just beyond the limit of SS, for each width; with paging, a legal operand that has a page fault. -/
theorem witness_CompareFaultsOnIllegalOperand :
    (let s := (ring0 []).setSs { flat 0x10 0x93 with limit := 0x7FFD }
    let m := Mem.a32Sib .esp none (.d8 0xFE)
    let legal := fun n => segLegal s.mode (segOf noPfx m) (s.seg (segOf noPfx m)) .read (effAddr s m).toNat n
    CmpMemory (.cmpR8Rm8 noPfx .al (.mem m)) noPfx m 1 ∧ legal 1 = false ∧
      CmpMemory (.cmpRm16Imm8 noPfx (.mem m) 1) noPfx m 2 ∧ legal 2 = false ∧
      CmpMemory (.cmpR32Rm32 noPfx .eax (.mem m)) noPfx m 4 ∧ legal 4 = false) ∧
    (let m := Mem.a32Direct 0x20000
    CmpMemory (.cmpRm32R32 noPfx (.mem m) .eax) noPfx m 4 ∧ segOf noPfx m = .ds ∧ effAddr paged m = 0x20000 ∧
      segLegal paged.mode .ds (paged.seg .ds) .read 0x20000 4 = true ∧
      ∀ code, Config.translate paged 0x20000 .read 3 = .pageFault code →
        segRead paged .ds 0x20000 4 = .error (.exception .pf (some code))) :=
  ⟨⟨.r8Rm8 _ _ _, by decide, .rm16Imm8 _ _ _, by decide, .r32Rm32 _ _ _, by decide⟩, .rm32R32 _ _ _, rfl, rfl, by decide,
    fun code h => paged_segRead 0x20000 3 code (by decide) h⟩

theorem witness_SubtractionFlagsOrderNumbers : 8 ≤ 8 ∧ 8 ≤ 16 ∧ 8 ≤ 32 := by decide

theorem witness_EquivalentCompareEncodings :
    (∃ t, exec (.cmpAlImm8 noPfx 0xFF) (real 0 []) = .next t) ∧
      ∃ t, exec (.cmpRm16Imm8 noPfx (.mem (.a16Direct 0xFFFE)) 0x80) (real 0 []) = .next t :=
  ⟨⟨_, rfl⟩, _, rfl⟩

/-- Both operands at the last place of their segment, for each width, and in the 4G range. -/
theorem witness_CompareStringsCompletes :
    (CmpsForm (.cmpsM8 noPfx .s16) noPfx .s16 1 ∧ 0xFFFF + 1 ≤ 0x10000 ∧
      segRead (strings 0xFFFF 0xFFFF) .ds 0xFFFF 1 = .ok 0 ∧ segRead (strings 0xFFFF 0xFFFF) .es 0xFFFF 1 = .ok 0) ∧
    (CmpsForm (.cmpsM16 noPfx .s16) noPfx .s16 2 ∧ 0xFFFE + 2 ≤ 0x10000 ∧
      segRead (strings 0x10 0xFFFE) .ds 0x10 2 = .ok 0x2211 ∧ segRead (strings 0x10 0xFFFE) .es 0xFFFE 2 = .ok 0) ∧
    (CmpsForm (.cmpsM32 opPfx .s16) opPfx .s16 4 ∧ segRead (strings 0x10 0x20) .ds 0x10 4 = .ok 0x44332211 ∧
      segRead (strings 0x10 0x20) .es 0x20 4 = .ok 0x45332211) ∧
    (let s := (ring0 []).setReg .esi 0xFFFFFFFC
    CmpsForm (.cmpsM32 noPfx .s32) noPfx .s32 4 ∧ (s.reg .esi).toNat + 4 ≤ 0x100000000 ∧
      segRead s .ds 0xFFFFFFFC 4 = .ok 0 ∧ segRead s .es 0 4 = .ok 0) :=
  ⟨⟨.m8 _ _, by decide, rfl, rfl⟩, ⟨.m16 _ _, by decide, rfl, rfl⟩, ⟨.m32 _ _, rfl, rfl⟩, .m32 _ _, by decide, rfl, rfl⟩

/-- A null ES and DS; the last word of the 16-bit range and the first that crosses its end, for each operand. -/
theorem witness_CompareStringsFaultsSourceFirst :
    CmpsForm (.cmpsM16 opPfx .s16) opPfx .s16 2 ∧
    (let s := ((ring3 []).setReg .esi 0xFFFF).setReg .edi 0xFFFE
    ¬ ((s.reg16 .esi).setWidth 32 : DWord).toNat + 2 ≤ 0x10000 ∧ ((s.reg16 .edi).setWidth 32 : DWord).toNat + 2 ≤ 0x10000 ∧
      segRead s .es 0xFFFE 2 = .ok 0) ∧
    (let s := { ring0 [] with segs := { (ring0 []).segs with ds := flat 0x03 0x93 } }
    segRead s .ds 0 2 = .error (.exception .gp (some 0))) ∧
    (let s := (ring3 []).setReg .edi 0xFFFF
    segRead s .ds 0 2 = .ok 0 ∧ ¬ ((s.reg16 .edi).setWidth 32 : DWord).toNat + 2 ≤ 0x10000) ∧
    (let s := { ring0 [] with segs := { (ring0 []).segs with es := flat 0x03 0x93 } }
    segRead s .ds 0 2 = .ok 0 ∧ segRead s .es 0 2 = .error (.exception .gp (some 0))) :=
  ⟨.m16 _ _, ⟨by decide, by decide, rfl⟩, rfl, ⟨rfl, by decide⟩, rfl, rfl⟩

/-- So does a push into it. -/
theorem paged_push (n v : Nat) (code : Word)
    (hr : segLegal paged.mode .ss paged.segs.ss .write (pushOffset paged (n + 1)).toNat (n + 1) = true)
    (h : Config.translate paged (linearAddr paged.segs.ss (pushOffset paged (n + 1))) .write 3 = .pageFault code) :
    push (n + 1) v paged = .error (.exception .pf (some code)) := by
  have hm : memWrite paged paged.cpl (linearAddr paged.segs.ss (pushOffset paged (n + 1))) (n + 1) v =
      .error (.exception .pf (some code)) := by
    rw [memWrite, show paged.cpl = 3 from rfl, paged_physAddrs _ n code h]
    rfl
  rw [push, hr, hm]
  rfl

/-- SP = 1 and SP = 0 (V1.10, V1.11); with paging, the fault of the slot. -/
theorem witness_PushStoresThenMovesPointer :
    ((real 1 []).mem.wf = true ∧ 0xFFFF < 2 ^ (8 * 2) ∧
      segLegal (real 1 []).mode .ss (real 1 []).segs.ss .write
        (stackBelow (real 1 []).stackSize ((real 1 []).reg .esp) 2).toNat 2 = false) ∧
    ((real 0 []).mem.wf = true ∧
      segLegal (real 0 []).mode .ss (real 0 []).segs.ss .write
        (stackBelow (real 0 []).stackSize ((real 0 []).reg .esp) 2).toNat 2 = true ∧
      physAddrs (real 0 []) .write 0 2 0x2FFFE = .ok [0x2FFFE, 0x2FFFF]) ∧
    (paged.mem.wf = true ∧ 0xFFFFFFFF < 2 ^ (8 * 4) ∧
      segLegal paged.mode .ss paged.segs.ss .write (stackBelow paged.stackSize (paged.reg .esp) 4).toNat 4 = true ∧
      ∀ code, Config.translate paged 0x8FFC .write 3 = .pageFault code →
        physAddrs paged .write 3 4 0x8FFC = .error (.exception .pf (some code))) :=
  ⟨by decide, by decide, by decide, by decide, by decide, paged_physAddrs _ 3⟩

/-- Three slots down to offset 0; the last slot that does not pass FFFFh and the first that does, in a segment that holds
both; with paging, the fault of the first one. -/
theorem witness_StackRoomMakesPushesFit :
    (stackRoom (real 6 []) (3 * 2) 2 = true ∧ ([1, 2, 3] : List Nat).length = 3 ∧ (real 6 []).pagingOn = false) ∧
    (stackRoom (stack16 0 []) (1 * 2) 2 = true ∧ stackRoom (stack16 1 []) (1 * 2) 2 = false ∧
      segLegal (stack16 1 []).mode .ss (stack16 1 []).segs.ss .write 0xFFFF 2 = true) ∧
    (stackRoom paged (1 * 4) 4 = true ∧
      ∀ code, Config.translate paged 0x8FFC .write 3 = .pageFault code →
        pushList 4 [7] paged = .error (.exception .pf (some code))) := by
  refine ⟨by decide, by decide, by decide, fun code h => ?_⟩
  rw [pushList, paged_push 3 7 code (by decide) h]
  rfl

/-- Every near CALL, the relative one to offset FFFFh, the indirect ones through SP and through memory. -/
theorem witness_NearCallCompletes :
    (let s := real 0 []
    NearTarget s (.callRel16 noPfx 0xFEFC) .s16 0xFFFF ∧ s.mem.wf = true ∧ stackRoom s 2 2 = true ∧
      0xFFFF ≤ s.segs.cs.limit ∧ physAddrs s .write s.cpl 2 (stackSlot s 2 1) = .ok [0x2FFFE, 0x2FFFF] ∧
      NearTarget s (.callRm16 noPfx (.reg .edx)) .s16 0x300 ∧
      NearTarget s (.callRm16 noPfx (.mem (.a16Direct 0xFFFE))) .s16 0) ∧
    (let s := ring0 []
    NearTarget s (.callRel32 noPfx 0xFFFFFFFB) .s32 0x1000 ∧ s.mem.wf = true ∧ stackRoom s 4 4 = true ∧
      0x1000 ≤ s.segs.cs.limit ∧
      physAddrs s .write s.cpl 4 (stackSlot s 4 1) = .ok [0x7FFC, 0x7FFD, 0x7FFE, 0x7FFF] ∧
      NearTarget s (.callRm32 noPfx (.reg .esp)) .s32 0x8000 ∧
      NearTarget s (.callRm32 noPfx (.mem (.a32Direct 0x20004))) .s32 0x8000) :=
  ⟨⟨.rel16 _ _, by decide, by decide, by decide, rfl, .rm16 _ _ 0x300 rfl, .rm16 _ _ 0 rfl⟩,
    .rel32 _ _, by decide, by decide, by decide, rfl, .rm32 _ _ _ rfl, .rm32 _ _ _ rfl⟩

/-- An operand across FFFFh, and one beyond the limit of SS, each without room on the stack; with paging, the page fault
of an operand and of a slot. No room at SP = 1 and, for the second slot, at SP = 3; a near and a far target at offset
10000h. -/
theorem witness_CallFaultOrder :
    (readRM16 noPfx (.mem (.a16Direct 0xFFFF)) (real 1 []) = .error (.exception .gp none) ∧
      stackRoom (real 1 []) 2 2 = false) ∧
    (let s := ((ring0 []).setSs { flat 0x10 0x93 with limit := 0 })
    readRM32 noPfx (.mem (.a32 .ebp (.d8 1))) s = .error (.exception .ss (some 0)) ∧ stackRoom s 4 4 = false) ∧
    (∀ code, Config.translate paged 0x20000 .read 3 = .pageFault code →
      readRM16 opPfx (.mem (.a32Direct 0x20000)) paged = .error (.exception .pf (some code)) ∧
        readRM32 noPfx (.mem (.a32Direct 0x20000)) paged = .error (.exception .pf (some code))) ∧
    (NearTarget paged (.callRel32 noPfx 0xFFFFFFFB) .s32 0x1000 ∧ stackRoom paged 4 4 = true ∧
      0x1000 ≤ paged.segs.cs.limit ∧ stackSlot paged 4 1 = 0x8FFC ∧
      ∀ code, Config.translate paged 0x8FFC .write 3 = .pageFault code →
        physAddrs paged .write paged.cpl 4 0x8FFC = .error (.exception .pf (some code))) ∧
    (NearTarget (real 1 []) (.callRm16 noPfx (.reg .edx)) .s16 0x300 ∧ stackRoom (real 1 []) 2 2 = false) ∧
    (NearTarget (real 0x100 []) (.callRel32 opPfx 0xFEFA) .s32 0x10000 ∧ stackRoom (real 0x100 []) 4 4 = true ∧
      (real 0x100 []).segs.cs.limit < 0x10000) ∧
    (FarPointer (real 3 []) (.callPtr1616 noPfx 0x200 0x3000) .s16 ⟨0x200, 0x3000⟩ ∧ (real 3 []).mode ≠ .prot ∧
      stackRoom (real 3 []) (2 * 2) 2 = false) ∧
    (FarPointer (v86 0x100 []) (.callPtr1632 opPfx 0x10000 0x3000) .s32 ⟨0x10000, 0x3000⟩ ∧ (v86 0x100 []).mode ≠ .prot ∧
      stackRoom (v86 0x100 []) (2 * 4) 4 = true ∧ (0xFFFF : DWord) < 0x10000) :=
  ⟨⟨rfl, by decide⟩, ⟨rfl, by decide⟩,
    fun code h => ⟨by rw [readRM16, paged_readMem 1 code rfl (by decide) h]; rfl,
      by rw [readRM32, paged_readMem 3 code rfl (by decide) h]; rfl⟩,
    ⟨.rel32 _ _, by decide, by decide, by decide, fun code h => paged_physAddrs _ 3 code h⟩,
    ⟨.rm16 _ _ 0x300 rfl, by decide⟩, ⟨.rel32 _ _, by decide, by decide⟩, ⟨.ptr1616 _ _ _, by decide, by decide⟩,
    .ptr1632 _ _ _, by decide, by decide, by decide⟩

/-- CALL SP and CALL ESP; CALL through the very slot that is pushed to. -/
theorem witness_IndirectCallReadsOperandFirst :
    (∃ t, exec (.callRm16 noPfx (.reg .esp)) (real 0x100 []) = .next t) ∧
    (∃ t, exec (.callRm32 noPfx (.reg .esp)) (ring0 []) = .next t) ∧
    (readRM16 noPfx (.mem (.a16Direct 0xFE)) (poke 0xFE [0x34, 0x12] ((real 0x100 []).setSs Seg.reset)) = .ok 0x1234 ∧
      ∃ t, exec (.callRm16 noPfx (.mem (.a16Direct 0xFE))) (poke 0xFE [0x34, 0x12] ((real 0x100 []).setSs Seg.reset)) =
        .next t) ∧
    (readRM32 noPfx (.mem (.a32Direct 0x7FFC)) (poke 0x7FFC [0x00, 0x50] (ring0 [])) = .ok 0x5000 ∧
      ∃ t, exec (.callRm32 noPfx (.mem (.a32Direct 0x7FFC))) (poke 0x7FFC [0x00, 0x50] (ring0 [])) = .next t) :=
  ⟨next_of_runs (by decide), next_of_runs (by decide), ⟨by decide, next_of_runs (by decide)⟩, by decide,
    next_of_runs (by decide)⟩

/-- Each form at the last offset of the 64K, pushing down to offset 0. -/
theorem witness_FarCallRealCompletes :
    (let s := real 4 []
    FarPointer s (.callPtr1616 noPfx 0xFFFF 0x3000) .s16 ⟨0xFFFF, 0x3000⟩ ∧
      FarPointer s (.callM1616 noPfx (.a16Direct 0xFFFC)) .s16 ⟨0, 0⟩ ∧ s.mode ≠ .prot ∧ s.pagingOn = false ∧
      s.mem.wf = true ∧ stackRoom s (2 * 2) 2 = true ∧ (0xFFFF : DWord) ≤ 0xFFFF) ∧
    (let s := v86 8 []
    FarPointer s (.callPtr1632 opPfx 0xFFFF 0x3000) .s32 ⟨0xFFFF, 0x3000⟩ ∧
      FarPointer s (.callM1632 opPfx (.a16Direct 0xFFFA)) .s32 ⟨0, 0⟩ ∧ s.mode ≠ .prot ∧ s.pagingOn = false ∧
      s.mem.wf = true ∧ stackRoom s (2 * 4) 4 = true) :=
  ⟨⟨.ptr1616 _ _ _, .m1616 _ _ _ rfl, by decide, by decide, by decide, by decide, by decide⟩,
    .ptr1632 _ _ _, .m1632 _ _ _ rfl, by decide, by decide, by decide, by decide⟩

/-! ### Far CALL in Protected Mode: the tables of V3 -/

/-- The descriptor of a selector. -/
def entry (s : State) (sel : Word) : Desc :=
  ⟨entryAddr s sel, match memRead s .read 0 (entryAddr s sel) 8 with
    | .ok v => BitVec.ofNat 64 v
    | .error _ => 0⟩

/-- `entry` answers the descriptor, checked. -/
def hasEntry (s : State) (sel : Word) : Bool :=
  inTable s sel && decide (memRead s .read 0 (entryAddr s sel) 8 = .ok (entry s sel).bits.toNat)

theorem descriptorAt_entry {s : State} {sel : Word} (h : hasEntry s sel = true) : DescriptorAt s sel (entry s sel) := by
  simp only [hasEntry, Bool.and_eq_true, decide_eq_true_eq] at h
  exact ⟨h.1, rfl, h.2⟩

theorem codeReached_entry {s : State} {ptr : FarPtr} {conf : Bool} (hd : hasEntry s ptr.sel = true)
    (h : s.mode = .prot ∧ selNull ptr.sel = false ∧ descKind (entry s ptr.sel).bits = .code conf ∧
      (if conf then descDpl (entry s ptr.sel).bits ≤ s.cpl
        else selRpl ptr.sel ≤ s.cpl ∧ descDpl (entry s ptr.sel).bits = s.cpl) ∧
      descPresent (entry s ptr.sel).bits = true) : CodeReached s ptr (entry s ptr.sel) conf :=
  ⟨h.1, h.2.1, descriptorAt_entry hd, h.2.2.1, h.2.2.2.1, h.2.2.2.2⟩

theorem gateReached_entry {s : State} {ptr : FarPtr} {csel : Word} {gs : Size} {conf : Bool}
    (hg : hasEntry s ptr.sel = true) (hs : gateSelector (entry s ptr.sel).bits = csel) (hc : hasEntry s csel = true)
    (h : s.mode = .prot ∧ selNull ptr.sel = false ∧ descKind (entry s ptr.sel).bits = .callGate gs ∧
      s.cpl ≤ descDpl (entry s ptr.sel).bits ∧ selRpl ptr.sel ≤ descDpl (entry s ptr.sel).bits ∧
      descPresent (entry s ptr.sel).bits = true ∧ selNull csel = false ∧
      descKind (entry s csel).bits = .code conf ∧ descDpl (entry s csel).bits ≤ s.cpl ∧
      descPresent (entry s csel).bits = true) :
    GateReached s ptr (entry s ptr.sel) (entry s csel) gs conf := by
  subst hs
  exact ⟨h.1, h.2.1, descriptorAt_entry hg, h.2.2.1, h.2.2.2.1, h.2.2.2.2.1, h.2.2.2.2.2.1, h.2.2.2.2.2.2.1,
    descriptorAt_entry hc, h.2.2.2.2.2.2.2.1, h.2.2.2.2.2.2.2.2.1, h.2.2.2.2.2.2.2.2.2⟩

theorem newStackOk_entry {s : State} {nss : Word} {dpl : BitVec 2} (hd : hasEntry s nss = true)
    (h : selNull nss = false ∧ selRpl nss = dpl ∧ descDpl (entry s nss).bits = dpl ∧
      descKind (entry s nss).bits = .data true ∧ descPresent (entry s nss).bits = true) :
    NewStackOk s nss dpl (entry s nss) :=
  ⟨h.1, descriptorAt_entry hd, h.2.1, h.2.2.1, h.2.2.2.1, h.2.2.2.2⟩

/-- V3.12's memory. -/
def v312 : State := poke 0x9000 [0x11, 0x11, 0x11, 0x11, 0x22, 0x22, 0x22, 0x22] (ring3 [])

/-- If Translate answers a page fault there, so does the store of a descriptor's Accessed bit. -/
theorem markAccessed_fault {s : State} {d : Desc} {code : Word} (hp : s.pagingOn = true)
    (ha : (descAr d.bits).getLsbD 0 = false) (h : Config.translate s (d.addr + 5) .write 0 = .pageFault code) :
    markAccessed d s = .error (raise s .pf code) := by
  rw [markAccessed, ha, if_neg Bool.false_ne_true, memWrite, physAddrs, translateByte, if_pos hp, h]
  rfl

/-- Outside Protected Mode; V3.1; V3.11; V3.12's call through a 286 gate, where no pad is stored; with paging on, a page
fault of the first push, of the store of CS's Accessed bit after the pushes, and of the store of SS's. -/
theorem witness_FarCallIsPushThenTransfer :
    (let s := real 4 []
    FarPointer s (.callPtr1616 noPfx 0xFFFF 0x3000) .s16 ⟨0xFFFF, 0x3000⟩ ∧ s.mode ≠ .prot ∧
      stackRoom s (2 * 2) 2 = true ∧ ∃ u, pushReturn Config.padBits .s16 s.segs.cs.sel 0x105 s = .ok u) ∧
    (FarPointer (ring0 []) (.callPtr1632 noPfx 0x40 0x08) .s32 ⟨0x40, 0x08⟩ ∧
      CodeReached (ring0 []) ⟨0x40, 0x08⟩ (entry (ring0 []) 0x08) false ∧ stackRoom (ring0 []) (2 * 4) 4 = true ∧
      farTarget .s32 0x40 ≤ descLimit (entry (ring0 []) 0x08).bits ∧
      ∃ u v, pushReturn Config.padBits .s32 0x08 0x1007 (ring0 []) = .ok u ∧
        markAccessed (entry (ring0 []) 0x08) u = .ok v) ∧
    (GateReached (ring0 []) ⟨0, 0x30⟩ (entry (ring0 []) 0x30) (entry (ring0 []) 0x08) .s32 false ∧
      descDpl (entry (ring0 []) 0x08).bits = (ring0 []).cpl ∧
      gateOffset .s32 (entry (ring0 []) 0x30).bits ≤ descLimit (entry (ring0 []) 0x08).bits ∧
      stackRoom (ring0 []) (2 * 4) 4 = true) ∧
    (let s := gate286 v312
    FarPointer s (.callPtr1616 opPfx 0 0x33) .s16 ⟨0, 0x33⟩ ∧
      GateReached s ⟨0, 0x33⟩ (entry s 0x33) (entry s 0x08) .s16 false ∧ descDpl (entry s 0x08).bits < s.cpl ∧
      innerStack s 0 = .ok ⟨0x8000, 0x10⟩ ∧ descDpl (entry s 0x08).bits = 0 ∧ NewStackOk s 0x10 0 (entry s 0x10) ∧
      stackRoomIn .prot (segOfDesc 0x10 (entry s 0x10).bits) (if descBig (entry s 0x10).bits then .s32 else .s16) 0x8000
        ((gateCount (entry s 0x33).bits + 4) * 2) 2 = true ∧
      gateOffset .s16 (entry s 0x33).bits ≤ descLimit (entry s 0x08).bits ∧
      readParams s 2 (gateCount (entry s 0x33).bits) 0 = .ok [0x1111, 0x1111] ∧
      okIs (switchStack Config.padBits .s16 0x1006 ⟨0x8000, 0x10⟩ (entry s 0x10) [0x1111, 0x1111] s) (fun u =>
        okIs (markAccessed (entry s 0x08) u) fun v => v.cpl == 0) = true) ∧
    (∀ code, Config.translate paged 0x8FFE .write 3 = .pageFault code →
      pushReturn Config.padBits .s16 0x1B 0x1005 paged = .error (.exception .pf (some code))) ∧
    (∀ u code, pushReturn Config.padBits .s16 0x1B 0x1005 paged = .ok u → u.pagingOn = true →
      Config.translate u 0x1001D .write 0 = .pageFault code →
      markAccessed ⟨0x10018, 0x00CFFA000000FFFF⟩ u = .error (raise u .pf code)) ∧
    (∀ code, Config.translate paged 0x10015 .write 0 = .pageFault code →
      switchStack Config.padBits .s32 0x1007 ⟨0x8000, 0x10⟩ ⟨0x10010, 0x00CF92000000FFFF⟩ [] paged =
        .error (raise paged .pf code)) := by
  refine ⟨⟨.ptr1616 _ _ _, by decide, by decide, _, rfl⟩,
    ⟨.ptr1632 _ _ _, codeReached_entry (by decide) (by decide), by decide, by decide, _, _, rfl, rfl⟩,
    ⟨gateReached_entry (by decide) (by decide) (by decide) (by decide), by decide, by decide, by decide⟩,
    ⟨.ptr1616 _ _ _, gateReached_entry (by decide) (by decide) (by decide) (by decide), by decide, by decide,
      by decide, newStackOk_entry (by decide) (by decide), by decide, by decide, by decide, by decide⟩,
    fun code h => ?_, fun u code _ hp h => markAccessed_fault hp (by decide) h, fun code h => ?_⟩
  · rw [pushReturn, pushSelector, paged_push 1 _ code (by decide) h]
    rfl
  · rw [switchStack, loadSs, markAccessed_fault (by decide) (by decide) h]
    rfl

/-- A descriptor that is nothing but its AR byte. -/
def withAr (ar : Byte) : QWord := ar.setWidth 64 <<< 40

/-- A descriptor of each kind; the last are the types that are nothing. -/
theorem witness_DescriptorKinds :
    (∀ ar ∈ ([0x98, 0x9F] : List Byte), (descAr (withAr ar)).getLsbD 4 = true ∧
      ((descAr (withAr ar)).extractLsb' 0 4).getLsbD 3 = true) ∧
    (∀ ar ∈ ([0x90, 0x97] : List Byte), (descAr (withAr ar)).getLsbD 4 = true ∧
      ((descAr (withAr ar)).extractLsb' 0 4).getLsbD 3 = false) ∧
    (∀ t ∈ ([0b0001, 0b0011, 0b1001, 0b1011, 0b0100, 0b1100, 0b0101, 2, 6, 7, 14, 15, 0, 8, 10, 13] : List (BitVec 4)),
      (descAr (withAr (0xE0 ||| t.setWidth 8))).getLsbD 4 = false ∧
      (descAr (withAr (0xE0 ||| t.setWidth 8))).extractLsb' 0 4 = t) := by
  decide

/-- V3.1 with the target at the segment's last byte; V3.2, conforming; V3.1 with 16-bit operands. -/
theorem witness_ProtectedDirectCallCompletes :
    (let s := ring0 []
    FarPointer s (.callPtr1632 noPfx 0xFFFFFFFF 0x08) .s32 ⟨0xFFFFFFFF, 0x08⟩ ∧
      CodeReached s ⟨0xFFFFFFFF, 0x08⟩ (entry s 0x08) false ∧ s.pagingOn = false ∧ s.mem.wf = true ∧
      stackRoom s (2 * 4) 4 = true ∧ 0xFFFFFFFF ≤ descLimit (entry s 0x08).bits ∧
      FarPointer s (.callPtr1616 opPfx 0x40 0x08) .s16 ⟨0x40, 0x08⟩ ∧
      CodeReached s ⟨0x40, 0x08⟩ (entry s 0x08) false ∧ stackRoom s (2 * 2) 2 = true ∧
      (0x40 : DWord) &&& 0xFFFF ≤ descLimit (entry s 0x08).bits) ∧
    (let s := poke 0x3000 [0x40, 0x00, 0x00, 0x00, 0x3B, 0x00] (ring3 [])
    FarPointer s (.callM1632 noPfx (.a32Direct 0x3000)) .s32 ⟨0x40, 0x3B⟩ ∧
      FarPointer s (.callM1616 opPfx (.a32Direct 0x3002)) .s16 ⟨0, 0x3B⟩ ∧
      CodeReached s ⟨0x40, 0x3B⟩ (entry s 0x3B) true ∧ CodeReached s ⟨0, 0x3B⟩ (entry s 0x3B) true ∧
      s.pagingOn = false ∧ s.mem.wf = true ∧ stackRoom s (2 * 4) 4 = true ∧ stackRoom s (2 * 2) 2 = true ∧
      0x40 ≤ descLimit (entry s 0x3B).bits) :=
  ⟨⟨.ptr1632 _ _ _, codeReached_entry (by decide) (by decide), by decide, by decide, by decide, by decide,
      .ptr1616 _ _ _, codeReached_entry (by decide) (by decide), by decide, by decide⟩,
    .m1632 _ _ _ rfl, .m1616 _ _ _ rfl, codeReached_entry (by decide) (by decide),
    codeReached_entry (by decide) (by decide), by decide, by decide, by decide, by decide, by decide⟩

/-- V3.11; a 286 gate; and from CPL 3 a gate to V3's conforming segment. -/
theorem witness_CallGateSamePrivilegeCompletes :
    (let s := ring0 []
    FarPointer s (.callPtr1632 noPfx 0 0x30) .s32 ⟨0, 0x30⟩ ∧
      GateReached s ⟨0, 0x30⟩ (entry s 0x30) (entry s 0x08) .s32 false ∧ descDpl (entry s 0x08).bits = s.cpl ∧
      s.pagingOn = false ∧ s.mem.wf = true ∧ stackRoom s (2 * 4) 4 = true ∧
      gateOffset .s32 (entry s 0x30).bits ≤ descLimit (entry s 0x08).bits) ∧
    (let s := gate286 (ring0 [])
    GateReached s ⟨0, 0x30⟩ (entry s 0x30) (entry s 0x08) .s16 false ∧ descDpl (entry s 0x08).bits = s.cpl ∧
      s.pagingOn = false ∧ s.mem.wf = true ∧ stackRoom s (2 * 2) 2 = true ∧
      gateOffset .s16 (entry s 0x30).bits ≤ descLimit (entry s 0x08).bits) ∧
    (let s := poke 0x10032 [0x38] (ring3 [])
    FarPointer s (.callPtr1632 noPfx 0 0x33) .s32 ⟨0, 0x33⟩ ∧
      GateReached s ⟨0, 0x33⟩ (entry s 0x33) (entry s 0x38) .s32 true ∧
      s.pagingOn = false ∧ s.mem.wf = true ∧ stackRoom s (2 * 4) 4 = true ∧
      gateOffset .s32 (entry s 0x33).bits ≤ descLimit (entry s 0x38).bits) :=
  ⟨⟨.ptr1632 _ _ _, gateReached_entry (by decide) (by decide) (by decide) (by decide), by decide, by decide,
      by decide, by decide, by decide⟩,
    ⟨gateReached_entry (by decide) (by decide) (by decide) (by decide), by decide, by decide, by decide, by decide,
      by decide⟩,
    .ptr1632 _ _ _, gateReached_entry (by decide) (by decide) (by decide) (by decide), by decide, by decide, by decide,
    by decide⟩

/-- V3.12, where both Accessed bits are clear and their bytes outside the new stack, 7FE8h to 7FFFh; the same where they
are set; and a 286 gate to a 16-bit stack. -/
theorem witness_CallGateMorePrivilegeCompletes :
    (let s := v312
    FarPointer s (.callPtr1632 noPfx 0 0x33) .s32 ⟨0, 0x33⟩ ∧
      GateReached s ⟨0, 0x33⟩ (entry s 0x33) (entry s 0x08) .s32 false ∧ descDpl (entry s 0x08).bits < s.cpl ∧
      s.pagingOn = false ∧ s.mem.wf = true ∧
      innerStack s (descDpl (entry s 0x08).bits).toNat = .ok ⟨0x8000, 0x10⟩ ∧
      NewStackOk s 0x10 (descDpl (entry s 0x08).bits) (entry s 0x10) ∧ descBig (entry s 0x10).bits = true ∧
      gateCount (entry s 0x33).bits = 2 ∧
      stackRoomIn .prot (segOfDesc 0x10 (entry s 0x10).bits) .s32 0x8000 ((2 + 4) * 4) 4 = true ∧
      gateOffset .s32 (entry s 0x33).bits ≤ descLimit (entry s 0x08).bits ∧
      readParams s 4 2 0 = .ok [0x11111111, 0x22222222] ∧
      (descAr (entry s 0x08).bits).getLsbD 0 = false ∧ (entry s 0x08).addr + 5 = 0x1000D ∧
      descAr (entry s 0x08).bits ||| 1 = 0x9B ∧
      (descAr (entry s 0x10).bits).getLsbD 0 = false ∧ (entry s 0x10).addr + 5 = 0x10015 ∧
      descAr (entry s 0x10).bits ||| 1 = 0x93) ∧
    (let s := poke 0x1000D [0x9B] (poke 0x10015 [0x93] v312)
    (descAr (entry s 0x08).bits).getLsbD 0 = true ∧ (descAr (entry s 0x10).bits).getLsbD 0 = true ∧
      GateReached s ⟨0, 0x33⟩ (entry s 0x33) (entry s 0x08) .s32 false ∧
      NewStackOk s 0x10 (descDpl (entry s 0x08).bits) (entry s 0x10)) ∧
    (let s := gate286 (poke 0x10016 [0x0F] v312)
    FarPointer s (.callPtr1616 opPfx 0 0x33) .s16 ⟨0, 0x33⟩ ∧
      GateReached s ⟨0, 0x33⟩ (entry s 0x33) (entry s 0x08) .s16 false ∧ descDpl (entry s 0x08).bits < s.cpl ∧
      s.pagingOn = false ∧ s.mem.wf = true ∧
      innerStack s (descDpl (entry s 0x08).bits).toNat = .ok ⟨0x8000, 0x10⟩ ∧
      NewStackOk s 0x10 (descDpl (entry s 0x08).bits) (entry s 0x10) ∧ descBig (entry s 0x10).bits = false ∧
      gateCount (entry s 0x33).bits = 2 ∧
      stackRoomIn .prot (segOfDesc 0x10 (entry s 0x10).bits) .s16 0x8000 ((2 + 4) * 2) 2 = true ∧
      gateOffset .s16 (entry s 0x33).bits ≤ descLimit (entry s 0x08).bits ∧
      readParams s 2 2 0 = .ok [0x1111, 0x1111]) :=
  ⟨⟨.ptr1632 _ _ _, gateReached_entry (by decide) (by decide) (by decide) (by decide), by decide, by decide,
      by decide, by decide, newStackOk_entry (by decide) (by decide), by decide, by decide, by decide, by decide,
      by decide, by decide, by decide, by decide, by decide, by decide, by decide⟩,
    ⟨by decide, by decide, gateReached_entry (by decide) (by decide) (by decide) (by decide),
      newStackOk_entry (by decide) (by decide)⟩,
    .ptr1616 _ _ _, gateReached_entry (by decide) (by decide) (by decide) (by decide), by decide, by decide,
    by decide, by decide, newStackOk_entry (by decide) (by decide), by decide, by decide, by decide, by decide,
    by decide⟩

/-- A task gate of DPL 3 at 0030h for the TSS at 0028h, which is available. -/
def taskGate (s : State) : State :=
  poke 0x1002D [0x89] (poke 0x10030 [0x00, 0x00, 0x28, 0x00, 0x00, 0xE5, 0x00, 0x00] s)

/-- A task whose EIP is `eip`, with a CS limit of FFFFh. -/
def task (eip : DWord) : TaskImage :=
  { (default : TaskImage) with eip := eip, segs := State.reset.segs }

/-- V3.18, and the same TSS by a task gate from CPL 3; a task with EIP at the limit of its CS and one beyond it. That
SwitchTasks answers them, or a fault, cannot be evaluated. -/
theorem witness_TaskCallEntersTask :
    (let s := poke 0x1002D [0x89] (ring0 [])
    FarPointer s (.callPtr1632 noPfx 0 0x28) .s32 ⟨0, 0x28⟩ ∧
      TssReached s ⟨0, 0x28⟩ 0x28 (entry s 0x28) .tss386 ∧
      (enterTask s .tss386 (task 0xFFFF)).eip ≤ (enterTask s .tss386 (task 0xFFFF)).segs.cs.limit ∧
      (enterTask s .tss386 (task 0x10000)).segs.cs.limit < (enterTask s .tss386 (task 0x10000)).eip) ∧
    (let s := taskGate (ring3 [])
    FarPointer s (.callPtr1632 noPfx 0 0x33) .s32 ⟨0, 0x33⟩ ∧
      TssReached s ⟨0, 0x33⟩ 0x28 (entry s 0x28) .tss386) :=
  ⟨⟨.ptr1632 _ _ _, .direct _ _ (by decide) (by decide) (descriptorAt_entry (by decide)) (by decide) (by decide)
      (by decide) (by decide), by decide, by decide⟩,
    .ptr1632 _ _ _, .gate (entry (taskGate (ring3 [])) 0x33) _ _ (by decide) (by decide)
      (descriptorAt_entry (by decide)) (by decide) (by decide) (by decide) (by decide) (by decide)
      (descriptorAt_entry (by decide)) (by decide) (by decide)⟩

/-- A far CALL with 32-bit operands has every pointer. -/
theorem far32 (s : State) (off : DWord) (sel : Word) : FarPointer s (.callPtr1632 noPfx off sel) .s32 ⟨off, sel⟩ :=
  .ptr1632 _ _ _

/-- V3.3 to V3.10, a type that is nothing, a conforming segment of DPL 3 from CPL 0, each check alone. -/
theorem witness_ProtectedDirectCallFaults :
    (ring0 []).mode = .prot ∧ (0x0003 : Word).toNat < 4 ∧
    (selNull 0x40 = false ∧ inTable (ring0 []) 0x40 = false ∧ inTable (ring0 []) 0x38 = true) ∧
    (let s := ring0 []
    DescriptorAt s 0x10 (entry s 0x10) ∧ descKind (entry s 0x10).bits = .data true ∧
      DescriptorAt s 0x0B (entry s 0x0B) ∧ descKind (entry s 0x0B).bits = .code false ∧ s.cpl < selRpl 0x0B ∧
      DescriptorAt s 0x18 (entry s 0x18) ∧ descKind (entry s 0x18).bits = .code false ∧
      descDpl (entry s 0x18).bits ≠ s.cpl) ∧
    (let s := poke 0x1000D [0x80] (poke 0x1003D [0xFE] (ring0 []))
    DescriptorAt s 0x08 (entry s 0x08) ∧ descKind (entry s 0x08).bits = .other ∧
      DescriptorAt s 0x38 (entry s 0x38) ∧ descKind (entry s 0x38).bits = .code true ∧
      s.cpl < descDpl (entry s 0x38).bits) ∧
    (let s := poke 0x1000D [0x1A] (poke 0x1003D [0x1E] (ring0 []))
    DescriptorAt s 0x08 (entry s 0x08) ∧ descKind (entry s 0x08).bits = .code false ∧ selRpl 0x08 ≤ s.cpl ∧
      descDpl (entry s 0x08).bits = s.cpl ∧ descPresent (entry s 0x08).bits = false ∧
      DescriptorAt s 0x38 (entry s 0x38) ∧ descKind (entry s 0x38).bits = .code true ∧
      descDpl (entry s 0x38).bits ≤ s.cpl ∧ descPresent (entry s 0x38).bits = false) ∧
    (let s := ((ring0 []).setSs { flat 0x10 0x93 with limit := 0xFFFF }).setReg .esp 4
    DescriptorAt s 0x08 (entry s 0x08) ∧ descKind (entry s 0x08).bits = .code false ∧ selRpl 0x08 ≤ s.cpl ∧
      descDpl (entry s 0x08).bits = s.cpl ∧ descPresent (entry s 0x08).bits = true ∧ stackRoom s (2 * 4) 4 = false) ∧
    (let s := poke 0x1000E [0x4F] (ring0 [])
    DescriptorAt s 0x08 (entry s 0x08) ∧ descKind (entry s 0x08).bits = .code false ∧
      descDpl (entry s 0x08).bits = s.cpl ∧ descPresent (entry s 0x08).bits = true ∧ stackRoom s (2 * 4) 4 = true ∧
      descLimit (entry s 0x08).bits < farTarget .s32 0x100000) :=
  ⟨by decide, by decide, by decide,
    ⟨descriptorAt_entry (by decide), by decide, descriptorAt_entry (by decide), by decide, by decide,
      descriptorAt_entry (by decide), by decide, by decide⟩,
    ⟨descriptorAt_entry (by decide), by decide, descriptorAt_entry (by decide), by decide, by decide⟩,
    ⟨descriptorAt_entry (by decide), by decide, by decide, by decide, by decide, descriptorAt_entry (by decide),
      by decide, by decide, by decide⟩,
    ⟨descriptorAt_entry (by decide), by decide, by decide, by decide, by decide, by decide⟩,
    descriptorAt_entry (by decide), by decide, by decide, by decide, by decide, by decide⟩

/-- The gate's own checks (V3.13 among them) and those of its code segment, each alone, from CPL 3. -/
theorem witness_CallGateFaults_gate :
    (let s := poke 0x10035 [0x8C] (ring3 [])
    s.mode = .prot ∧ selNull 0x33 = false ∧ DescriptorAt s 0x33 (entry s 0x33) ∧
      descKind (entry s 0x33).bits = .callGate .s32 ∧ descDpl (entry s 0x33).bits < s.cpl) ∧
    (let s := poke 0x10035 [0xAC] (ring0 [])
    DescriptorAt s 0x33 (entry s 0x33) ∧ descKind (entry s 0x33).bits = .callGate .s32 ∧
      s.cpl ≤ descDpl (entry s 0x33).bits ∧ descDpl (entry s 0x33).bits < selRpl 0x33) ∧
    (let s := poke 0x10035 [0x6C] (ring3 [])
    DescriptorAt s 0x33 (entry s 0x33) ∧ descKind (entry s 0x33).bits = .callGate .s32 ∧
      s.cpl ≤ descDpl (entry s 0x33).bits ∧ selRpl 0x33 ≤ descDpl (entry s 0x33).bits ∧
      descPresent (entry s 0x33).bits = false) ∧
    (let s := poke 0x10032 [0x03] (ring3 [])
    DescriptorAt s 0x33 (entry s 0x33) ∧ descPresent (entry s 0x33).bits = true ∧
      selNull (gateSelector (entry s 0x33).bits) = true) ∧
    (let s := poke 0x10032 [0x40] (ring3 [])
    DescriptorAt s 0x33 (entry s 0x33) ∧ selNull (gateSelector (entry s 0x33).bits) = false ∧
      inTable s (gateSelector (entry s 0x33).bits) = false) ∧
    (let s := poke 0x10032 [0x10] (ring3 [])
    DescriptorAt s (gateSelector (entry s 0x33).bits) (entry s 0x10) ∧
      ∀ conf, descKind (entry s 0x10).bits ≠ .code conf) ∧
    (let s := poke 0x10032 [0x18] (ring0 [])
    DescriptorAt s (gateSelector (entry s 0x33).bits) (entry s 0x18) ∧ descKind (entry s 0x18).bits = .code false ∧
      s.cpl < descDpl (entry s 0x18).bits) ∧
    (let s := poke 0x1000D [0x1A] (ring3 [])
    DescriptorAt s (gateSelector (entry s 0x33).bits) (entry s 0x08) ∧ descKind (entry s 0x08).bits = .code false ∧
      descDpl (entry s 0x08).bits ≤ s.cpl ∧ descPresent (entry s 0x08).bits = false) :=
  ⟨⟨by decide, by decide, descriptorAt_entry (by decide), by decide, by decide⟩,
    ⟨descriptorAt_entry (by decide), by decide, by decide, by decide⟩,
    ⟨descriptorAt_entry (by decide), by decide, by decide, by decide, by decide⟩,
    ⟨descriptorAt_entry (by decide), by decide, by decide⟩,
    ⟨descriptorAt_entry (by decide), by decide, by decide⟩,
    ⟨descriptorAt_entry (sel := 0x10) (by decide), by decide⟩,
    ⟨descriptorAt_entry (sel := 0x18) (by decide), by decide, by decide⟩,
    descriptorAt_entry (sel := 0x08) (by decide), by decide, by decide, by decide⟩

/-- The checks after the gate: room and target to the same privilege; the TSS, the new stack segment (V3.14 to V3.16),
room, target and the parameters to more privilege. The first two rows meet the premises of the whole statement. -/
theorem witness_CallGateFaults :
    (let s := ((ring0 []).setSs { flat 0x10 0x93 with limit := 0xFFFF }).setReg .esp 4
    FarPointer s (.callPtr1632 noPfx 0 0x30) .s32 ⟨0, 0x30⟩ ∧
      GateReached s ⟨0, 0x30⟩ (entry s 0x30) (entry s 0x08) .s32 false ∧ descDpl (entry s 0x08).bits = s.cpl ∧
      stackRoom s (2 * 4) 4 = false) ∧
    (let s := poke 0x1000D [0x9A, 0x40] (poke 0x10036 [0x10, 0x00] (ring0 []))
    GateReached s ⟨0, 0x30⟩ (entry s 0x30) (entry s 0x08) .s32 false ∧ descDpl (entry s 0x08).bits = s.cpl ∧
      stackRoom s (2 * 4) 4 = true ∧ descLimit (entry s 0x08).bits < gateOffset .s32 (entry s 0x30).bits) ∧
    (let s := { ring3 [] with tr := { sel := 0x28, base := 0x20000, limit := 8, format := .tss386 } }
    GateReached s ⟨0, 0x33⟩ (entry s 0x33) (entry s 0x08) .s32 false ∧ descDpl (entry s 0x08).bits < s.cpl ∧
      innerStack s (descDpl (entry s 0x08).bits).toNat = .error (.exception .ts (some 0x28))) ∧
    (innerStack (poke 0x20008 [0x00] (ring3 [])) 0 = .ok ⟨0x8000, 0⟩ ∧ selNull 0 = true) ∧
    (innerStack (poke 0x20008 [0x40] (ring3 [])) 0 = .ok ⟨0x8000, 0x40⟩ ∧ selNull 0x40 = false ∧
      inTable (poke 0x20008 [0x40] (ring3 [])) 0x40 = false) ∧
    (let s := poke 0x20008 [0x23] (ring3 [])
    innerStack s 0 = .ok ⟨0x8000, 0x23⟩ ∧ DescriptorAt s 0x23 (entry s 0x23) ∧
      selRpl 0x23 ≠ descDpl (entry s 0x08).bits) ∧
    (let s := poke 0x20008 [0x20] (ring3 [])
    innerStack s 0 = .ok ⟨0x8000, 0x20⟩ ∧ DescriptorAt s 0x20 (entry s 0x20) ∧
      descDpl (entry s 0x20).bits ≠ descDpl (entry s 0x08).bits) ∧
    (let s := poke 0x20008 [0x08] (ring3 [])
    innerStack s 0 = .ok ⟨0x8000, 0x08⟩ ∧ DescriptorAt s 0x08 (entry s 0x08) ∧
      descKind (entry s 0x08).bits ≠ .data true) ∧
    (let s := poke 0x10015 [0x12] (ring3 [])
    innerStack s 0 = .ok ⟨0x8000, 0x10⟩ ∧ DescriptorAt s 0x10 (entry s 0x10) ∧
      descKind (entry s 0x10).bits = .data true ∧ descPresent (entry s 0x10).bits = false) :=
  ⟨⟨far32 _ _ _, gateReached_entry (by decide) (by decide) (by decide) (by decide), by decide, by decide⟩,
    ⟨gateReached_entry (by decide) (by decide) (by decide) (by decide), by decide, by decide, by decide⟩,
    ⟨gateReached_entry (by decide) (by decide) (by decide) (by decide), by decide, by decide⟩,
    by decide, by decide,
    ⟨by decide, descriptorAt_entry (by decide), by decide⟩,
    ⟨by decide, descriptorAt_entry (by decide), by decide⟩,
    ⟨by decide, descriptorAt_entry (by decide), by decide⟩,
    by decide, descriptorAt_entry (by decide), by decide, by decide⟩

/-- The rest of it: no room on the new stack, the target beyond the limit, a parameter that cannot be read. -/
theorem witness_CallGateFaults_last :
    (let s := poke 0x20004 [0x16, 0x00] (poke 0x10016 [0x40] (ring3 []))
    innerStack s 0 = .ok ⟨0x16, 0x10⟩ ∧ NewStackOk s 0x10 0 (entry s 0x10) ∧
      stackRoomIn .prot (segOfDesc 0x10 (entry s 0x10).bits) .s32 0x16 ((2 + 4) * 4) 4 = false) ∧
    (let s := poke 0x1000D [0x9A, 0x40] (poke 0x10036 [0x10, 0x00] (ring3 []))
    innerStack s 0 = .ok ⟨0x8000, 0x10⟩ ∧ NewStackOk s 0x10 0 (entry s 0x10) ∧
      stackRoomIn .prot (segOfDesc 0x10 (entry s 0x10).bits) .s32 0x8000 ((2 + 4) * 4) 4 = true ∧
      descLimit (entry s 0x08).bits < gateOffset .s32 (entry s 0x33).bits) ∧
    (let s := (ring3 []).setSs { flat 0x23 0xF3 with limit := 0x9006 }
    innerStack s 0 = .ok ⟨0x8000, 0x10⟩ ∧ NewStackOk s 0x10 0 (entry s 0x10) ∧
      stackRoomIn .prot (segOfDesc 0x10 (entry s 0x10).bits) .s32 0x8000 ((2 + 4) * 4) 4 = true ∧
      gateOffset .s32 (entry s 0x33).bits ≤ descLimit (entry s 0x08).bits ∧
      readParams s 4 2 0 = .error (.exception .ss (some 0))) :=
  ⟨⟨by decide, newStackOk_entry (by decide) (by decide), by decide⟩,
    ⟨by decide, newStackOk_entry (by decide) (by decide), by decide, by decide⟩,
    by decide, newStackOk_entry (by decide) (by decide), by decide, by decide, by decide⟩

/-- The gate: DPL 2 from CPL 3; not present; for a local TSS, for one outside the GDT, for a busy one (V3's), for one
not present. The TSS: DPL 0 from CPL 3, busy (V3.17), not present. -/
theorem witness_TaskCallFaults :
    (let s := poke 0x10035 [0xC5] (taskGate (ring3 []))
    s.mode = .prot ∧ selNull 0x33 = false ∧ DescriptorAt s 0x33 (entry s 0x33) ∧
      descKind (entry s 0x33).bits = .taskGate ∧ ¬ s.cpl ≤ descDpl (entry s 0x33).bits) ∧
    (let s := poke 0x10035 [0x65] (taskGate (ring3 []))
    DescriptorAt s 0x33 (entry s 0x33) ∧ descKind (entry s 0x33).bits = .taskGate ∧
      (s.cpl ≤ descDpl (entry s 0x33).bits ∧ selRpl 0x33 ≤ descDpl (entry s 0x33).bits) ∧
      descPresent (entry s 0x33).bits = false) ∧
    (let s := poke 0x10032 [0x2C] (taskGate (ring3 []))
    DescriptorAt s 0x33 (entry s 0x33) ∧ descPresent (entry s 0x33).bits = true ∧
      selLocal (gateSelector (entry s 0x33).bits) = true) ∧
    (let s := poke 0x10032 [0x40] (taskGate (ring3 []))
    DescriptorAt s 0x33 (entry s 0x33) ∧ selLocal (gateSelector (entry s 0x33).bits) = false ∧
      inTable s (gateSelector (entry s 0x33).bits) = false) ∧
    (let s := poke 0x1002D [0x8B] (taskGate (ring3 []))
    DescriptorAt s (gateSelector (entry s 0x33).bits) (entry s 0x28) ∧
      ∀ f, descKind (entry s 0x28).bits ≠ .tss f false) ∧
    (let s := poke 0x1002D [0x09] (taskGate (ring3 []))
    DescriptorAt s (gateSelector (entry s 0x33).bits) (entry s 0x28) ∧
      descKind (entry s 0x28).bits = .tss .tss386 false ∧ descPresent (entry s 0x28).bits = false) ∧
    (let s := ring3 []
    DescriptorAt s 0x28 (entry s 0x28) ∧ descKind (entry s 0x28).bits = .tss .tss386 true ∧
      ¬ s.cpl ≤ descDpl (entry s 0x28).bits) ∧
    (let s := ring0 []
    DescriptorAt s 0x28 (entry s 0x28) ∧ descKind (entry s 0x28).bits = .tss .tss386 true ∧
      s.cpl ≤ descDpl (entry s 0x28).bits ∧ selRpl 0x28 ≤ descDpl (entry s 0x28).bits) ∧
    (let s := poke 0x1002D [0x09] (ring0 [])
    DescriptorAt s 0x28 (entry s 0x28) ∧ descKind (entry s 0x28).bits = .tss .tss386 false ∧
      s.cpl ≤ descDpl (entry s 0x28).bits ∧ descPresent (entry s 0x28).bits = false) :=
  ⟨⟨by decide, by decide, descriptorAt_entry (by decide), by decide, by decide⟩,
    ⟨descriptorAt_entry (by decide), by decide, by decide, by decide⟩,
    ⟨descriptorAt_entry (by decide), by decide, by decide⟩,
    ⟨descriptorAt_entry (by decide), by decide, by decide⟩,
    ⟨descriptorAt_entry (sel := 0x28) (by decide), fun f => by cases f <;> decide⟩,
    ⟨descriptorAt_entry (sel := 0x28) (by decide), by decide, by decide⟩,
    ⟨descriptorAt_entry (by decide), by decide, by decide⟩,
    ⟨descriptorAt_entry (by decide), by decide, by decide, by decide⟩,
    descriptorAt_entry (by decide), by decide, by decide, by decide⟩

/-- A TSS one byte too short and one just long enough, in each format, level 2. -/
theorem witness_InnerStackComesFromTss :
    let s := fun (limit : DWord) (format : TssFormat) =>
      { ring3 [] with tr := { sel := 0x28, base := 0x20000, limit := limit, format := format } }
    2 < 3 ∧ (s 24 .tss386).tr.limit.toNat < 8 * 2 + 9 ∧ 8 * 2 + 9 ≤ (s 25 .tss386).tr.limit.toNat ∧
      (s 12 .tss286).tr.limit.toNat < 4 * 2 + 5 ∧ 4 * 2 + 5 ≤ (s 13 .tss286).tr.limit.toNat ∧
      (s 25 .tss386).pagingOn = false ∧ (s 13 .tss286).pagingOn = false := by
  decide

end Sys2Proof.Tests
end

section
/-! The decoder reads the encoder's bytes back (30_encoding.md R90 to R112): one lemma for each function of the opcode
map, on the operand bytes that the encoder writes, then every instruction. -/

namespace Sys2Proof

/-! ### What well-formedness says -/

theorem Instr.wf_iff {dflt : Size} {i : Instr} :
    i.wf dflt = true ↔
      (∀ z, i.opsize = some z → i.prefixes.operandSize dflt = z) ∧
        i.operandWf (i.prefixes.addressSize dflt) = true := by
  rw [Instr.wf, Bool.and_eq_true]
  refine and_congr_left fun _ => ?_
  cases i.opsize with
  | none => simp
  | some z => simpa using eq_comm

/-- Of two rows that share their bytes, the one of the OperandSize in force is read (R96). -/
theorem ok_bySize16 {osz : Size} (h : osz = .s16) (i16 i32 : Instr) (rest : List Byte) :
    (.ok (bySize osz i16 i32, rest) : Parse Instr) = .ok (i16, rest) := by rw [h]; rfl

theorem ok_bySize32 {osz : Size} (h : osz = .s32) (i16 i32 : Instr) (rest : List Byte) :
    (.ok (bySize osz i16 i32, rest) : Parse Instr) = .ok (i32, rest) := by rw [h]; rfl

/-! ### Rows without ModR/M -/

theorem decodeCallRel_bytes16 (p : Prefixes) (v : Word) (rest : List Byte) :
    decodeCallRel .s16 p (bytes16 v ++ rest) = .ok (.callRel16 p v, rest) := by simp [decodeCallRel]

theorem decodeCallRel_bytes32 (p : Prefixes) (v : DWord) (rest : List Byte) :
    decodeCallRel .s32 p (bytes32 v ++ rest) = .ok (.callRel32 p v, rest) := by simp [decodeCallRel]

theorem decodeCallPtr_bytes16 (p : Prefixes) (off sel : Word) (rest : List Byte) :
    decodeCallPtr .s16 p (bytes16 off ++ bytes16 sel ++ rest) = .ok (.callPtr1616 p off sel, rest) := by
  simp [decodeCallPtr]

theorem decodeCallPtr_bytes32 (p : Prefixes) (off : DWord) (sel : Word) (rest : List Byte) :
    decodeCallPtr .s32 p (bytes32 off ++ bytes16 sel ++ rest) = .ok (.callPtr1632 p off sel, rest) := by
  simp [decodeCallPtr]

theorem decodeCmpAcc_bytes16 (p : Prefixes) (v : Word) (rest : List Byte) :
    decodeCmpAcc .s16 p (bytes16 v ++ rest) = .ok (.cmpAxImm16 p v, rest) := by simp [decodeCmpAcc]

theorem decodeCmpAcc_bytes32 (p : Prefixes) (v : DWord) (rest : List Byte) :
    decodeCmpAcc .s32 p (bytes32 v ++ rest) = .ok (.cmpEaxImm32 p v, rest) := by simp [decodeCmpAcc]

/-! ### Rows with ModR/M -/

section ModRM

variable {asz : Size} (osz : Size) (p : Prefixes)

theorem decodeFF_encodeRM {d : RM Reg} (hw : d.wf asz = true) (rest : List Byte) :
    decodeFF osz asz p (encodeRM Reg.num 2 d ++ rest) =
      .ok (bySize osz (.callRm16 p d) (.callRm32 p d), rest) := by
  obtain ⟨m, ops, he, hreg, hd⟩ := decodeRM_encodeRM Reg.ofNum Reg.num Reg.ofNum_num asz 2 d hw rest
  rw [he]
  simp [decodeFF, hreg, hd, checkRM_of_wf hw]

theorem decodeFF_encodeMem {a : Mem} (hw : a.wf asz = true) (rest : List Byte) :
    decodeFF osz asz p (encodeMem 3 a ++ rest) =
      .ok (bySize osz (.callM1616 p a) (.callM1632 p a), rest) := by
  obtain ⟨m, ops, he, hreg, hmod, hd⟩ := decodeMem_encodeMem asz 3 a hw rest
  rw [he]
  simpa [decodeFF, hreg, hd, Mem.indexOk_of_wf hw] using hmod

theorem decode80_encodeRM {d : RM Reg8} (hw : d.wf asz = true) (v : Byte) (rest : List Byte) :
    decode80 asz p (encodeRM Reg8.num 7 d ++ [v] ++ rest) = .ok (.cmpRm8Imm8 p d v, rest) := by
  obtain ⟨m, ops, he, hreg, hd⟩ := decodeRM_encodeRM Reg8.ofNum Reg8.num Reg8.ofNum_num asz 7 d hw (v :: rest)
  rw [he]
  simp [decode80, hreg, hd, checkRM_of_wf hw]

theorem decode81_encodeRM16 {d : RM Reg} (hw : d.wf asz = true) (v : Word) (rest : List Byte) :
    decode81 .s16 asz p (encodeRM Reg.num 7 d ++ bytes16 v ++ rest) = .ok (.cmpRm16Imm16 p d v, rest) := by
  obtain ⟨m, ops, he, hreg, hd⟩ := decodeRM_encodeRM Reg.ofNum Reg.num Reg.ofNum_num asz 7 d hw (bytes16 v ++ rest)
  rw [he]
  simp [decode81, hreg, hd, checkRM_of_wf hw]

theorem decode81_encodeRM32 {d : RM Reg} (hw : d.wf asz = true) (v : DWord) (rest : List Byte) :
    decode81 .s32 asz p (encodeRM Reg.num 7 d ++ bytes32 v ++ rest) = .ok (.cmpRm32Imm32 p d v, rest) := by
  obtain ⟨m, ops, he, hreg, hd⟩ := decodeRM_encodeRM Reg.ofNum Reg.num Reg.ofNum_num asz 7 d hw (bytes32 v ++ rest)
  rw [he]
  simp [decode81, hreg, hd, checkRM_of_wf hw]

theorem decode83_encodeRM {d : RM Reg} (hw : d.wf asz = true) (v : Byte) (rest : List Byte) :
    decode83 osz asz p (encodeRM Reg.num 7 d ++ [v] ++ rest) =
      .ok (bySize osz (.cmpRm16Imm8 p d v) (.cmpRm32Imm8 p d v), rest) := by
  obtain ⟨m, ops, he, hreg, hd⟩ := decodeRM_encodeRM Reg.ofNum Reg.num Reg.ofNum_num asz 7 d hw (v :: rest)
  rw [he]
  simp [decode83, hreg, hd, checkRM_of_wf hw]

theorem decode38_encodeRM {d : RM Reg8} (hw : d.wf asz = true) (r : Reg8) (rest : List Byte) :
    decode38 asz p (encodeRM Reg8.num r.num d ++ rest) = .ok (.cmpRm8R8 p d r, rest) := by
  obtain ⟨m, ops, he, hreg, hd⟩ := decodeRM_encodeRM Reg8.ofNum Reg8.num Reg8.ofNum_num asz r.num d hw rest
  rw [he]
  simp [decode38, hreg, hd, checkRM_of_wf hw]

theorem decode39_encodeRM {d : RM Reg} (hw : d.wf asz = true) (r : Reg) (rest : List Byte) :
    decode39 osz asz p (encodeRM Reg.num r.num d ++ rest) =
      .ok (bySize osz (.cmpRm16R16 p d r) (.cmpRm32R32 p d r), rest) := by
  obtain ⟨m, ops, he, hreg, hd⟩ := decodeRM_encodeRM Reg.ofNum Reg.num Reg.ofNum_num asz r.num d hw rest
  rw [he]
  simp [decode39, hreg, hd, checkRM_of_wf hw]

theorem decode3A_encodeRM {d : RM Reg8} (hw : d.wf asz = true) (r : Reg8) (rest : List Byte) :
    decode3A asz p (encodeRM Reg8.num r.num d ++ rest) = .ok (.cmpR8Rm8 p r d, rest) := by
  obtain ⟨m, ops, he, hreg, hd⟩ := decodeRM_encodeRM Reg8.ofNum Reg8.num Reg8.ofNum_num asz r.num d hw rest
  rw [he]
  simp [decode3A, hreg, hd, checkRM_of_wf hw]

theorem decode3B_encodeRM {d : RM Reg} (hw : d.wf asz = true) (r : Reg) (rest : List Byte) :
    decode3B osz asz p (encodeRM Reg.num r.num d ++ rest) =
      .ok (bySize osz (.cmpR16Rm16 p r d) (.cmpR32Rm32 p r d), rest) := by
  obtain ⟨m, ops, he, hreg, hd⟩ := decodeRM_encodeRM Reg.ofNum Reg.num Reg.ofNum_num asz r.num d hw rest
  rw [he]
  simp [decode3B, hreg, hd, checkRM_of_wf hw]

end ModRM

/-! ### Every instruction -/

/-- The opcode and the operand bytes give the instruction back. Well-formedness is used twice: the OperandSize it asks
for picks one of two rows with the same bytes (`hz`), and the AddressSize it asks for reads the operand back (`ho`). -/
theorem decodeOpcode_encodeBody {dflt : Size} {i : Instr} (hw : i.wf dflt = true) (rest : List Byte) :
    decodeOpcode dflt i.prefixes (encodeBody i ++ rest) = .ok (i, rest) := by
  obtain ⟨hz, ho⟩ := Instr.wf_iff.1 hw
  cases i with
  | callRel16 p v =>
    have h : p.operandSize dflt = .s16 := hz _ rfl
    exact (congrArg (decodeCallRel · p _) h).trans (decodeCallRel_bytes16 p v rest)
  | callRm16 p d => exact (decodeFF_encodeRM _ p ho rest).trans (ok_bySize16 (hz _ rfl) _ _ _)
  | callPtr1616 p off sel =>
    have h : p.operandSize dflt = .s16 := hz _ rfl
    exact (congrArg (decodeCallPtr · p _) h).trans (decodeCallPtr_bytes16 p off sel rest)
  | callM1616 p m => exact (decodeFF_encodeMem _ p ho rest).trans (ok_bySize16 (hz _ rfl) _ _ _)
  | callRel32 p v =>
    have h : p.operandSize dflt = .s32 := hz _ rfl
    exact (congrArg (decodeCallRel · p _) h).trans (decodeCallRel_bytes32 p v rest)
  | callRm32 p d => exact (decodeFF_encodeRM _ p ho rest).trans (ok_bySize32 (hz _ rfl) _ _ _)
  | callPtr1632 p off sel =>
    have h : p.operandSize dflt = .s32 := hz _ rfl
    exact (congrArg (decodeCallPtr · p _) h).trans (decodeCallPtr_bytes32 p off sel rest)
  | callM1632 p m => exact (decodeFF_encodeMem _ p ho rest).trans (ok_bySize32 (hz _ rfl) _ _ _)
  | cbw p => exact ok_bySize16 (hz _ rfl) _ _ _
  | cwde p => exact ok_bySize32 (hz _ rfl) _ _ _
  | clc p => rfl
  | cld p => rfl
  | cli p => rfl
  | clts p => rfl
  | cmc p => rfl
  | cmpAlImm8 p v => rfl
  | cmpAxImm16 p v =>
    have h : p.operandSize dflt = .s16 := hz _ rfl
    exact (congrArg (decodeCmpAcc · p _) h).trans (decodeCmpAcc_bytes16 p v rest)
  | cmpEaxImm32 p v =>
    have h : p.operandSize dflt = .s32 := hz _ rfl
    exact (congrArg (decodeCmpAcc · p _) h).trans (decodeCmpAcc_bytes32 p v rest)
  | cmpRm8Imm8 p d v => exact decode80_encodeRM p ho v rest
  | cmpRm16Imm16 p d v =>
    have h : p.operandSize dflt = .s16 := hz _ rfl
    exact (congrArg (decode81 · _ p _) h).trans (decode81_encodeRM16 p ho v rest)
  | cmpRm32Imm32 p d v =>
    have h : p.operandSize dflt = .s32 := hz _ rfl
    exact (congrArg (decode81 · _ p _) h).trans (decode81_encodeRM32 p ho v rest)
  | cmpRm16Imm8 p d v => exact (decode83_encodeRM _ p ho v rest).trans (ok_bySize16 (hz _ rfl) _ _ _)
  | cmpRm32Imm8 p d v => exact (decode83_encodeRM _ p ho v rest).trans (ok_bySize32 (hz _ rfl) _ _ _)
  | cmpRm8R8 p d r => exact decode38_encodeRM p ho r rest
  | cmpRm16R16 p d r => exact (decode39_encodeRM _ p ho r rest).trans (ok_bySize16 (hz _ rfl) _ _ _)
  | cmpRm32R32 p d r => exact (decode39_encodeRM _ p ho r rest).trans (ok_bySize32 (hz _ rfl) _ _ _)
  | cmpR8Rm8 p r d => exact decode3A_encodeRM p ho r rest
  | cmpR16Rm16 p r d => exact (decode3B_encodeRM _ p ho r rest).trans (ok_bySize16 (hz _ rfl) _ _ _)
  | cmpR32Rm32 p r d => exact (decode3B_encodeRM _ p ho r rest).trans (ok_bySize32 (hz _ rfl) _ _ _)
  | cmpsM8 p a =>
    rw [eq_of_beq ho]
    rfl
  | cmpsM16 p a =>
    rw [eq_of_beq ho]
    exact ok_bySize16 (hz _ rfl) _ _ _
  | cmpsM32 p a =>
    rw [eq_of_beq ho]
    exact ok_bySize32 (hz _ rfl) _ _ _
  | cwd p => exact ok_bySize16 (hz _ rfl) _ _ _
  | cdq p => exact ok_bySize32 (hz _ rfl) _ _ _

/-- Decoding undoes encoding, whatever bytes follow (R90, R91). -/
theorem decode_encode {dflt : Size} {i : Instr} (hw : i.wf dflt = true) (rest : List Byte) :
    decode dflt (encode i ++ rest) = .ok (i, rest) := by
  obtain ⟨b, r, hbody, hb⟩ := encodeBody_head i
  have hop := decodeOpcode_encodeBody hw rest
  rw [hbody, List.cons_append] at hop
  rw [encode, hbody, List.append_assoc, List.cons_append, decode_encodePrefixes dflt i.prefixes b _ hb, hop]
  rfl

/-! ### Length (R94, R95) -/

theorem encode_length (i : Instr) : (encode i).length = i.length :=
  match i with
  | .callRel16 p v => Laws.EncodeLength.callRel16 p v
  | .callRm16 p d => Laws.EncodeLength.callRm16 p d
  | .callPtr1616 p off sel => Laws.EncodeLength.callPtr1616 p off sel
  | .callM1616 p m => Laws.EncodeLength.callM1616 p m
  | .callRel32 p v => Laws.EncodeLength.callRel32 p v
  | .callRm32 p d => Laws.EncodeLength.callRm32 p d
  | .callPtr1632 p off sel => Laws.EncodeLength.callPtr1632 p off sel
  | .callM1632 p m => Laws.EncodeLength.callM1632 p m
  | .cbw p => Laws.EncodeLength.cbw p
  | .cwde p => Laws.EncodeLength.cwde p
  | .clc p => Laws.EncodeLength.clc p
  | .cld p => Laws.EncodeLength.cld p
  | .cli p => Laws.EncodeLength.cli p
  | .clts p => Laws.EncodeLength.clts p
  | .cmc p => Laws.EncodeLength.cmc p
  | .cmpAlImm8 p v => Laws.EncodeLength.cmpAlImm8 p v
  | .cmpAxImm16 p v => Laws.EncodeLength.cmpAxImm16 p v
  | .cmpEaxImm32 p v => Laws.EncodeLength.cmpEaxImm32 p v
  | .cmpRm8Imm8 p d v => Laws.EncodeLength.cmpRm8Imm8 p d v
  | .cmpRm16Imm16 p d v => Laws.EncodeLength.cmpRm16Imm16 p d v
  | .cmpRm32Imm32 p d v => Laws.EncodeLength.cmpRm32Imm32 p d v
  | .cmpRm16Imm8 p d v => Laws.EncodeLength.cmpRm16Imm8 p d v
  | .cmpRm32Imm8 p d v => Laws.EncodeLength.cmpRm32Imm8 p d v
  | .cmpRm8R8 p d r => Laws.EncodeLength.cmpRm8R8 p d r
  | .cmpRm16R16 p d r => Laws.EncodeLength.cmpRm16R16 p d r
  | .cmpRm32R32 p d r => Laws.EncodeLength.cmpRm32R32 p d r
  | .cmpR8Rm8 p r d => Laws.EncodeLength.cmpR8Rm8 p r d
  | .cmpR16Rm16 p r d => Laws.EncodeLength.cmpR16Rm16 p r d
  | .cmpR32Rm32 p r d => Laws.EncodeLength.cmpR32Rm32 p r d
  | .cmpsM8 p a => Laws.EncodeLength.cmpsM8 p a
  | .cmpsM16 p a => Laws.EncodeLength.cmpsM16 p a
  | .cmpsM32 p a => Laws.EncodeLength.cmpsM32 p a
  | .cwd p => Laws.EncodeLength.cwd p
  | .cdq p => Laws.EncodeLength.cdq p

theorem Prefixes.count_le (p : Prefixes) : p.count ≤ 3 := by
  have h1 := Bool.toNat_le p.opsize
  have h2 := Bool.toNat_le p.addrsize
  have h3 := Bool.toNat_le p.seg.isSome
  rw [Prefixes.count]
  omega

theorem dispLength_le {w full : Nat} (hf : 1 ≤ full) (d : Disp w) : dispLength full d ≤ full := by
  cases d with
  | none => exact Nat.zero_le _
  | d8 v => exact hf
  | full v => exact Nat.le_refl _

/-- At most a SIB byte and a doubleword displacement follow ModR/M. -/
theorem Mem.extraLength_le (m : Mem) : m.extraLength ≤ 5 := by
  cases m with
  | a16 b d => exact (dispLength_le (by decide) d).trans (by decide)
  | a16Direct a => exact (by decide : 2 ≤ 5)
  | a32 b d => exact (dispLength_le (by decide) d).trans (by decide)
  | a32Direct a => exact (by decide : 4 ≤ 5)
  | a32Sib b i d => exact Nat.add_le_add_left (dispLength_le (by decide) d) 1
  | a32SibNoBase i a => exact Nat.le_refl 5

theorem RM.extraLength_le {ρ : Type} (d : RM ρ) : d.extraLength ≤ 5 := by
  cases d with
  | reg r => exact Nat.zero_le 5
  | mem m => exact m.extraLength_le

/-- The longest body is 81 /7 with SIB, a doubleword displacement and a doubleword immediate. -/
theorem Instr.bodyLength_le (i : Instr) : i.bodyLength ≤ 11 := by
  cases i <;> grind [Instr.bodyLength, RM.extraLength_le, Mem.extraLength_le]

/-- No instruction is longer than 14 bytes: the limit of 15 is met with room for one more (R95). -/
theorem Instr.length_le (i : Instr) : i.length ≤ 14 :=
  Nat.add_le_add i.prefixes.count_le i.bodyLength_le

end Sys2Proof
end

section
/-! A step is the fetch of the bytes at CS:EIP, their decoding, and `exec` (00_scope.md R11, 30_encoding.md R91). -/

namespace Sys2Proof.Machine

/-- Where the bytes of a well-formed instruction can be fetched, the fetch gives that instruction: it is short enough for
all its bytes to be gathered, and what is gathered after them does not change what is decoded. -/
theorem fetchInstr_encode {s : State} {i : Instr} (hw : i.wf s.defaultSize = true)
    (hb : ∀ (k : Nat) (b : Byte), (encode i)[k]? = some b → fetchByte s k = .ok b) :
    fetchInstr s = .instr i := by
  have hlen : (encode i).length ≤ Config.maxInstrBytes := by
    rw [encode_length]
    exact i.length_le.trans (by decide)
  rw [fetchInstr, fetchFrom_append (encode i) _ 0 hlen (fun j b h => by simpa using hb j b h), decode_encode hw]
  rfl

/-- Settles O21: with no halt and no interrupt the step is what the fetch gives, and the fetch gives `i`. -/
theorem stepRunsDecodedInstruction : Obligations.StepRunsDecodedInstruction := by
  intro s i hhalt hintr hw hb
  rw [step_fetched hhalt hintr, fetchInstr_encode hw hb]

end Sys2Proof.Machine
end

section
/-! What an instruction that answers a state has done (00_scope.md R11): one inversion lemma for `exec`, by which the
statements about every step are proved. -/

namespace Sys2Proof.Machine

/-! ### Instructions that write general registers, EIP and flags only -/

/-- The flags that an instruction in scope writes: the six status flags, IF and DF (R27). -/
def writtenFlags : List Nat := [0, 2, 4, 6, 7, 9, 10, 11]

/-- `t` is `s` but for general registers, EIP and flags among `writtenFlags`. -/
structure LocalEffect (s t : State) : Prop where
  flags : FlagsKept writtenFlags s t
  state : t = { s with regs := t.regs, eip := t.eip, eflags := t.eflags }

theorem localEffect_setReg (s : State) (r : Reg) (v next : DWord) : LocalEffect s ((s.setReg r v).setEip next) :=
  ⟨fun _ _ _ => rfl, rfl⟩

theorem localEffect_setFlag (s : State) {f : Flag} (hf : f.bit ∈ writtenFlags) (b : Bool) (next : DWord) :
    LocalEffect s ((s.setFlag f b).setEip next) := by
  refine ⟨fun j _ hj => ?_, rfl⟩
  have hne : j ≠ f.bit := fun h => hj (h ▸ hf)
  simp [getLsbD_setBit _ f.bit_lt, hne]

theorem flagsKept_withSubFlags (s : State) (f : SubFlags) (j : Nat) (hj : j ∉ writtenFlags) :
    (withSubFlags s.eflags f).getLsbD j = s.eflags.getLsbD j := by
  simp only [writtenFlags, List.mem_cons, List.not_mem_nil, or_false, not_or] at hj
  simp [getLsbD_withSubFlags, hj]

theorem localEffect_compareOperands {n : Nat} {s t : State} {next : DWord} {l r : Res (BitVec n)}
    (h : compareOperands s next l r = .ok t) : LocalEffect s t := by
  simp only [compareOperands, bind_eq_ok, Except.ok.injEq] at h
  obtain ⟨_, _, _, _, rfl⟩ := h
  exact ⟨fun j _ hj => flagsKept_withSubFlags s _ j hj, rfl⟩

/-- A move of an index register is a write of that register (R236). -/
theorem stepIndex_eq_setReg (asz : Size) (r : Reg) (n : Nat) (down : Bool) (s : State) :
    ∃ v, stepIndex asz r n down s = s.setReg r v := by
  cases asz <;> exact ⟨_, rfl⟩

theorem localEffect_compareStrings {p : Prefixes} {asz : Size} {n : Nat} {next : DWord} {s t : State}
    (h : compareStrings p asz n next s = .ok t) : LocalEffect s t := by
  simp only [compareStrings, bind_eq_ok, Except.ok.injEq] at h
  obtain ⟨l, _, r, _, rfl⟩ := h
  obtain ⟨v, hv⟩ := stepIndex_eq_setReg asz .esi n (s.flag .df)
    (s.setEflags (withSubFlags s.eflags (subFlags (BitVec.ofNat (8 * n) l) (BitVec.ofNat (8 * n) r))))
  obtain ⟨w, hw⟩ := stepIndex_eq_setReg asz .edi n (s.flag .df) (stepIndex asz .esi n (s.flag .df)
    (s.setEflags (withSubFlags s.eflags (subFlags (BitVec.ofNat (8 * n) l) (BitVec.ofNat (8 * n) r)))))
  rw [hw, hv]
  exact ⟨fun j _ hj => flagsKept_withSubFlags s _ j hj, rfl⟩

/-! ### Every instruction -/

/-- What `i` did if `exec i s` answers `t`: CLTS cleared TS; a near CALL pushed and set EIP; a far CALL went one of its
ways; any other instruction wrote general registers, EIP and flags. -/
inductive ExecDone (i : Instr) (s t : State) : Prop where
  | plain (notCall : isCall i = false) (effect : LocalEffect s t)
  | clts (p : Prefixes) (instr : i = .clts p) (next : DWord)
    (state : t = (s.setCr0 (setBit s.cr0 Cr0Bit.ts.bit false)).setEip next)
  | near (call : isCall i = true) (notFar : isFarCall i = false) (u : State) (tgt : DWord) (frame : PushFrame s u)
    (state : t = u.setEip tgt)
  | farReal (far : isFarCall i = true) (mode : s.mode ≠ .prot) (u : State) (ptr : FarPtr) (frame : PushFrame s u)
    (state : t = (u.setCs (realSeg u.segs.cs ptr.sel)).setEip ptr.off)
  | farProtected (far : isFarCall i = true) (mode : s.mode = .prot) (ret : DWord) (ptr : FarPtr)
    (path : FarDone Config.padBits s ret ptr t)

theorem execDone_nearCall {i : Instr} (hc : isCall i = true) (hf : isFarCall i = false) {z : Size} {ret tgt : DWord}
    {s t : State} (h : nearCall z ret tgt s = .ok t) : ExecDone i s t := by
  obtain ⟨_, _, u, hu, ht⟩ := nearCall_eq_ok.mp h
  exact .near hc hf u tgt (pushFrame_pushOffsetValue hu) ht

theorem execDone_farReal {i : Instr} (hf : isFarCall i = true) {z : Size} {ret : DWord} {ptr : FarPtr} {s t : State}
    (hm : s.mode ≠ .prot) (h : Machine.farReal Config.padBits z ret ptr s = .ok t) : ExecDone i s t := by
  obtain ⟨_, _, u, hu, ht⟩ := farReal_eq_ok.mp h
  exact .farReal hf hm u ptr (pushFrame_pushReturn hu) ht

theorem execDone_farCall {i : Instr} (hf : isFarCall i = true) {z : Size} {ret : DWord} {ptr : FarPtr} {s t : State}
    (h : farCall Config.padBits z ret ptr s = .ok t) : ExecDone i s t := by
  unfold farCall at h
  split at h
  next hm => exact execDone_farReal hf (by simp [hm]) h
  next hm => exact execDone_farReal hf (by simp [hm]) h
  next hm => exact .farProtected hf hm ret ptr (farDone_farProtected hm h)

theorem execDone_setReg {i : Instr} (hi : isCall i = false) {s t : State} {r : Reg} {v next : DWord}
    (h : (.next ((s.setReg r v).setEip next) : Host.Outcome State Fault Refusal) = .next t) : ExecDone i s t :=
  .plain hi (Host.Outcome.next.inj h ▸ localEffect_setReg s r v next)

theorem execDone_setFlag {i : Instr} (hi : isCall i = false) {s t : State} {f : Flag} (hf : f.bit ∈ writtenFlags)
    {b : Bool} {next : DWord}
    (h : (.next ((s.setFlag f b).setEip next) : Host.Outcome State Fault Refusal) = .next t) : ExecDone i s t :=
  .plain hi (Host.Outcome.next.inj h ▸ localEffect_setFlag s hf b next)

theorem execDone_compare {i : Instr} (hi : isCall i = false) {n : Nat} {s t : State} {next : DWord}
    {l r : Res (BitVec n)} (h : outcome (compareOperands s next l r) = .next t) : ExecDone i s t :=
  .plain hi (localEffect_compareOperands (outcome_eq_next.mp h))

theorem execDone_compareStrings {i : Instr} (hi : isCall i = false) {p : Prefixes} {asz : Size} {n : Nat} {s t : State}
    {next : DWord} (h : outcome (compareStrings p asz n next s) = .next t) : ExecDone i s t :=
  .plain hi (localEffect_compareStrings (outcome_eq_next.mp h))

/-- `exec` answers a state only in the ways of `ExecDone`. -/
theorem execDone_of_exec {i : Instr} {s t : State} (h : exec i s = .next t) : ExecDone i s t := by
  cases i with
  | callRel16 p v => exact execDone_nearCall rfl rfl (outcome_eq_next.mp h)
  | callRel32 p v => exact execDone_nearCall rfl rfl (outcome_eq_next.mp h)
  | callRm16 p d =>
    obtain ⟨_, _, hn⟩ := bind_eq_ok.mp (outcome_eq_next.mp h)
    exact execDone_nearCall rfl rfl hn
  | callRm32 p d =>
    obtain ⟨_, _, hn⟩ := bind_eq_ok.mp (outcome_eq_next.mp h)
    exact execDone_nearCall rfl rfl hn
  | callPtr1616 p off sel => exact execDone_farCall rfl (outcome_eq_next.mp h)
  | callPtr1632 p off sel => exact execDone_farCall rfl (outcome_eq_next.mp h)
  | callM1616 p m =>
    obtain ⟨_, _, hf⟩ := bind_eq_ok.mp (outcome_eq_next.mp h)
    exact execDone_farCall rfl hf
  | callM1632 p m =>
    obtain ⟨_, _, hf⟩ := bind_eq_ok.mp (outcome_eq_next.mp h)
    exact execDone_farCall rfl hf
  | cbw p => exact execDone_setReg rfl h
  | cwde p => exact execDone_setReg rfl h
  | cwd p => exact execDone_setReg rfl h
  | cdq p => exact execDone_setReg rfl h
  | clc p => exact execDone_setFlag rfl (by decide) h
  | cld p => exact execDone_setFlag rfl (by decide) h
  | cmc p => exact execDone_setFlag rfl (by decide) h
  | cli p =>
    obtain ⟨_, _, ht⟩ := bind_eq_ok.mp (outcome_eq_next.mp h)
    exact .plain rfl (Except.ok.inj ht ▸ localEffect_setFlag s (by decide) _ _)
  | clts p =>
    obtain ⟨_, _, ht⟩ := bind_eq_ok.mp (outcome_eq_next.mp h)
    exact .clts p rfl _ (Except.ok.inj ht).symm
  | cmpAlImm8 p v => exact execDone_compare (l := .ok (s.reg8 .al)) (r := .ok v) rfl h
  | cmpAxImm16 p v => exact execDone_compare (l := .ok (s.reg16 .eax)) (r := .ok v) rfl h
  | cmpEaxImm32 p v => exact execDone_compare (l := .ok (s.reg .eax)) (r := .ok v) rfl h
  | cmpRm8Imm8 p d v => exact execDone_compare rfl h
  | cmpRm16Imm16 p d v => exact execDone_compare rfl h
  | cmpRm32Imm32 p d v => exact execDone_compare rfl h
  | cmpRm16Imm8 p d v => exact execDone_compare rfl h
  | cmpRm32Imm8 p d v => exact execDone_compare rfl h
  | cmpRm8R8 p d r => exact execDone_compare rfl h
  | cmpRm16R16 p d r => exact execDone_compare rfl h
  | cmpRm32R32 p d r => exact execDone_compare rfl h
  | cmpR8Rm8 p r d => exact execDone_compare rfl h
  | cmpR16Rm16 p r d => exact execDone_compare rfl h
  | cmpR32Rm32 p r d => exact execDone_compare rfl h
  | cmpsM8 p a => exact execDone_compareStrings rfl h
  | cmpsM16 p a => exact execDone_compareStrings rfl h
  | cmpsM32 p a => exact execDone_compareStrings rfl h

/-- A step that answers a state ran the instruction that was fetched. -/
theorem exec_of_step {s t : State} (h : step s = .next t) : ∃ i, fetchInstr s = .instr i ∧ exec i s = .next t := by
  unfold step at h
  split at h
  · cases h
  · split at h
    · cases h
    · split at h
      next i hi => exact ⟨i, hi, h⟩
      · cases h
      · cases h

/-! ### What a far CALL leaves alone -/

/-- `t` is `s` but for ESP, EIP, memory, CS, SS, CPL and the count of pads drawn, and memory keeps its canonical form:
what a far CALL that switches no task can do (R23, R180). -/
structure FarFrame (s t : State) : Prop where
  regs : RegsKept [.esp] s t
  eflags : t.eflags = s.eflags
  cr0 : t.cr0 = s.cr0
  segs : ∀ n, n ≠ .cs → n ≠ .ss → t.seg n = s.seg n
  system : SystemKept s { t with cpl := s.cpl }
  wf : s.mem.wf = true → t.mem.wf = true

theorem FarFrame.trans {s t u : State} (h : FarFrame s t) (k : FarFrame t u) : FarFrame s u where
  regs r hr := (k.regs r hr).trans (h.regs r hr)
  eflags := k.eflags.trans h.eflags
  cr0 := k.cr0.trans h.cr0
  segs n hc hs := (k.segs n hc hs).trans (h.segs n hc hs)
  system :=
    { cpl := rfl
      cr2 := k.system.cr2.trans h.system.cr2
      cr3 := k.system.cr3.trans h.system.cr3
      dbg := k.system.dbg.trans h.system.dbg
      test := k.system.test.trans h.system.test
      gdtr := k.system.gdtr.trans h.system.gdtr
      idtr := k.system.idtr.trans h.system.idtr
      ldtr := k.system.ldtr.trans h.system.ldtr
      tr := k.system.tr.trans h.system.tr
      haltAddr := k.system.haltAddr.trans h.system.haltAddr
      realSsVector12 := k.system.realSsVector12.trans h.system.realSsVector12
      intrOffer := k.system.intrOffer.trans h.system.intrOffer }
  wf hm := k.wf (h.wf hm)

/-- What pushes leave of the system registers and parameters. -/
theorem PushFrame.systemKept {s t : State} (h : PushFrame s t) : SystemKept s t := (onlyPushed_of_frame h).system

theorem PushFrame.farFrame {s t : State} (h : PushFrame s t) : FarFrame s t where
  regs := (onlyPushed_of_frame h).regs
  eflags := h.eflags
  cr0 := h.cr0
  segs n _ _ := congrArg (Segs.get · n) h.segs
  system := { h.systemKept with cpl := rfl }
  wf := h.wf

theorem farFrame_setCs (s : State) (c : Seg) : FarFrame s (s.setCs c) where
  regs _ _ := rfl
  eflags := rfl
  cr0 := rfl
  segs n hn _ := by simp [hn]
  system := by constructor <;> rfl
  wf := id

theorem farFrame_setSs (s : State) (c : Seg) : FarFrame s (s.setSs c) where
  regs _ _ := rfl
  eflags := rfl
  cr0 := rfl
  segs n _ hn := by simp [hn]
  system := by constructor <;> rfl
  wf := id

theorem farFrame_setCpl (s : State) (c : BitVec 2) : FarFrame s (s.setCpl c) :=
  ⟨fun _ _ => rfl, rfl, rfl, fun _ _ _ => rfl, by constructor <;> rfl, id⟩

theorem farFrame_setEip (s : State) (v : DWord) : FarFrame s (s.setEip v) :=
  ⟨fun _ _ => rfl, rfl, rfl, fun _ _ _ => rfl, by constructor <;> rfl, id⟩

theorem FarFrame.mode {s t : State} (h : FarFrame s t) : t.mode = s.mode := State.mode_congr h.cr0 h.eflags

/-- A call to more privilege keeps the far frame, and CPL becomes the RPL of the new CS (R167). -/
theorem farFrame_morePrivilege {pads : Nat → Word} {z : Size} {ret : DWord} {g : QWord} {csel : Word} {c : Desc}
    {s t : State} (h : morePrivilege pads z ret g csel c s = .ok t) :
    FarFrame s t ∧ selRpl t.segs.cs.sel = t.cpl := by
  obtain ⟨inner, sd, _, u, v, w, _, _, _, _, hu, hv, hw, rfl⟩ := morePrivilege_eq_ok h
  have hsu : FarFrame s u := (pushFrame_markAccessed hu).farFrame
  have huv : FarFrame u v :=
    (farFrame_setSs _ _).trans
      ((pushFrame_setStackPtr _ _ _).farFrame.trans ((farFrame_setCpl _ _).trans hv.farFrame))
  have hvw : PushFrame v w := pushFrame_markAccessed hw
  have hcpl : w.cpl = descDpl sd.bits := hvw.cpl.trans hv.cpl
  refine ⟨hsu.trans (huv.trans (hvw.farFrame.trans ((farFrame_setCs _ _).trans (farFrame_setEip _ _)))), ?_⟩
  exact (selRpl_withRpl _ _).trans hcpl.symm

/-- A far CALL in Protected Mode switches tasks, or keeps the far frame and leaves CPL the RPL of CS (R36). -/
theorem FarDone.task_or_frame {pads : Nat → Word} {s t : State} {ret : DWord} {ptr : FarPtr}
    (h : FarDone pads s ret ptr t) :
    TaskEntered s t ∨ (FarFrame s t ∧ selRpl t.segs.cs.sel = t.cpl) := by
  cases h with
  | entered v sel d tgt frame state =>
    subst state
    exact .inr ⟨frame.farFrame.trans ((farFrame_setCs _ _).trans (farFrame_setEip _ _)),
      (selRpl_withRpl _ _).trans frame.cpl.symm⟩
  | more g c gs gate lower call => exact .inr (farFrame_morePrivilege call)
  | task tsel td f image answer state => exact .inl ⟨ret, tsel, td, f, image, answer, state⟩

end Sys2Proof.Machine
end

section
/-! What every step keeps (10_state.md R27, R31, R34 to R37, R62). -/

namespace Sys2Proof.Machine

/-! ### The frame of each way of `ExecDone` -/

theorem LocalEffect.mem {s t : State} (h : LocalEffect s t) : t.mem = s.mem := by rw [h.state]

theorem LocalEffect.segs {s t : State} (h : LocalEffect s t) : t.segs = s.segs := by rw [h.state]

theorem LocalEffect.cr0 {s t : State} (h : LocalEffect s t) : t.cr0 = s.cr0 := by rw [h.state]

theorem LocalEffect.systemKept {s t : State} (h : LocalEffect s t) : SystemKept s t := by
  rw [h.state]
  constructor <;> rfl

theorem systemKept_setCr0_setEip (s : State) (v next : DWord) : SystemKept s ((s.setCr0 v).setEip next) := by
  constructor <;> rfl

theorem PushFrame.systemKept_setEip {s u : State} (h : PushFrame s u) (tgt : DWord) : SystemKept s (u.setEip tgt) :=
  { h.systemKept with }

/-- A write of TS keeps every other bit of CR0 (R31). -/
theorem getLsbD_setBit_ts (v : DWord) (b : Bool) {j : Nat} (hj : j ≠ 3) :
    (setBit v Cr0Bit.ts.bit b).getLsbD j = v.getLsbD j :=
  (getLsbD_setBit v (by decide) b j).trans (if_neg hj)

/-- What no step writes: the tables of R37, the parameters of the run, the bits of CR0 other than TS. -/
structure TablesKept (s t : State) : Prop where
  gdtr : t.gdtr = s.gdtr
  idtr : t.idtr = s.idtr
  haltAddr : t.haltAddr = s.haltAddr
  realSsVector12 : t.realSsVector12 = s.realSsVector12
  intrOffer : t.intrOffer = s.intrOffer
  cr0 : ∀ j, j ≠ 3 → t.cr0.getLsbD j = s.cr0.getLsbD j

theorem FarFrame.tablesKept {s t : State} (h : FarFrame s t) : TablesKept s t :=
  ⟨h.system.gdtr, h.system.idtr, h.system.haltAddr, h.system.realSsVector12, h.system.intrOffer,
    fun j _ => by rw [h.cr0]⟩

theorem SystemKept.tablesKept {s t : State} (h : SystemKept s t)
    (hc : ∀ j, j ≠ 3 → t.cr0.getLsbD j = s.cr0.getLsbD j) : TablesKept s t :=
  ⟨h.gdtr, h.idtr, h.haltAddr, h.realSsVector12, h.intrOffer, hc⟩

theorem tablesKept_enterTask (s : State) (f : TssFormat) (image : TaskImage) : TablesKept s (enterTask s f image) :=
  ⟨rfl, rfl, rfl, rfl, rfl, fun _ hj => getLsbD_setBit_ts s.cr0 true hj⟩

/-- A far CALL outside Protected Mode keeps the far frame. -/
theorem farFrame_farReal {s u : State} (h : PushFrame s u) (ptr : FarPtr) :
    FarFrame s ((u.setCs (realSeg u.segs.cs ptr.sel)).setEip ptr.off) :=
  h.farFrame.trans ((farFrame_setCs _ _).trans (farFrame_setEip _ _))

theorem ExecDone.tablesKept {i : Instr} {s t : State} (h : ExecDone i s t) : TablesKept s t := by
  cases h with
  | plain _ effect => exact effect.systemKept.tablesKept fun j _ => by rw [effect.cr0]
  | clts p _ next state =>
    subst state
    exact (systemKept_setCr0_setEip _ _ _).tablesKept fun j hj => getLsbD_setBit_ts s.cr0 false hj
  | near _ _ u tgt frame state =>
    subst state
    exact (frame.farFrame.trans (farFrame_setEip _ _)).tablesKept
  | farReal _ _ u ptr frame state =>
    subst state
    exact (farFrame_farReal frame ptr).tablesKept
  | farProtected _ _ ret ptr path =>
    obtain ⟨_, _, _, f, image, _, rfl⟩ | ⟨frame, _⟩ := path.task_or_frame
    · exact tablesKept_enterTask s f image
    · exact frame.tablesKept

/-- Settles O4: a step runs an instruction, and each of the ways an instruction goes keeps the tables. -/
theorem stepKeepsTablesAndCr0 : Obligations.StepKeepsTablesAndCr0 := by
  intro s t h
  obtain ⟨i, _, hi⟩ := exec_of_step h
  obtain ⟨hg, hd, hh, hv, ho, hc⟩ := (execDone_of_exec hi).tablesKept
  exact ⟨hg, hd, hh, hv, ho, hc⟩

theorem isFarCall_of_isCall_false {i : Instr} (h : isCall i = false) : isFarCall i = false :=
  (Bool.or_eq_false_iff.mp h).1

/-- Settles O7: an instruction that is no CALL goes one of the first two ways of `ExecDone`, a near CALL the third. -/
theorem onlyCallsStore : Obligations.OnlyCallsStore := by
  intro i s t h
  cases execDone_of_exec h with
  | plain notCall effect =>
    exact ⟨fun _ a => by rw [effect.mem], fun _ =>
      ⟨effect.segs, effect.systemKept, fun j _ => by rw [effect.cr0], fun _ => effect.cr0⟩⟩
  | clts p instr next state =>
    subst state
    exact ⟨fun _ _ => rfl, fun _ =>
      ⟨rfl, systemKept_setCr0_setEip _ _ _, fun j hj => getLsbD_setBit_ts s.cr0 false hj,
        fun hne => absurd instr (hne p)⟩⟩
  | near call notFar u tgt frame state =>
    subst state
    exact ⟨fun hc => by simp [call] at hc, fun _ =>
      ⟨frame.segs, frame.systemKept_setEip tgt, fun j _ => congrArg (BitVec.getLsbD · j) frame.cr0,
        fun _ => frame.cr0⟩⟩
  | farReal far | farProtected far =>
    exact ⟨fun hc => by simp [isFarCall_of_isCall_false hc] at far, fun hf => by simp [hf] at far⟩

/-! ### The invariant -/

/-- The reserved bits of EFLAGS are kept where every bit that R27 does not name is. -/
theorem reservedOk_congr {s t : State}
    (h : ∀ j, j < 32 → eflagsNamed.getLsbD j = false → t.eflags.getLsbD j = s.eflags.getLsbD j) :
    t.reservedOk = s.reservedOk := by
  have hbits : t.eflags &&& ~~~eflagsNamed = s.eflags &&& ~~~eflagsNamed := by
    refine BitVec.eq_of_getLsbD_eq fun j hj => ?_
    cases hn : eflagsNamed.getLsbD j with
    | true => simp [hn]
    | false => simp [hn, h j hj hn]
  rw [State.reservedOk, State.reservedOk, hbits]

theorem modeOk_congr {s t : State} (hm : t.mode = s.mode) (hc : t.cpl = s.cpl) (hs : t.segs = s.segs) :
    t.modeOk = s.modeOk := by
  rw [State.modeOk, State.modeOk, hm, hc, hs]

/-- An instruction writes no reserved bit of EFLAGS. -/
theorem eflagsNamed_of_mem_writtenFlags {j : Nat} (h : j ∈ writtenFlags) : eflagsNamed.getLsbD j = true := by
  revert j
  decide

theorem LocalEffect.reservedOk {s t : State} (h : LocalEffect s t) : t.reservedOk = s.reservedOk := by
  refine reservedOk_congr fun j hj hn => h.flags j hj fun hm => ?_
  simp [eflagsNamed_of_mem_writtenFlags hm] at hn

/-- VM is no flag that an instruction writes. -/
theorem LocalEffect.mode {s t : State} (h : LocalEffect s t) : t.mode = s.mode := by
  have hvm : t.flag .vm = s.flag .vm := h.flags 17 (by decide) (by decide)
  rw [State.mode, State.mode, State.cr0Bit_congr h.cr0, hvm]

theorem LocalEffect.inv {s t : State} (h : LocalEffect s t) (hs : s.Inv) : t.Inv := by
  obtain ⟨hmem, hres, hmode⟩ := hs
  refine ⟨h.mem ▸ hmem, h.reservedOk.trans hres, ?_⟩
  exact (modeOk_congr h.mode h.systemKept.cpl h.segs).trans hmode

/-- A write of TS changes no mode: PE is another bit of CR0 (R31, R280). -/
theorem mode_setCr0_ts (s : State) (b : Bool) : (s.setCr0 (setBit s.cr0 Cr0Bit.ts.bit b)).mode = s.mode := by
  have hpe : (s.setCr0 (setBit s.cr0 Cr0Bit.ts.bit b)).cr0Bit .pe = s.cr0Bit .pe :=
    getLsbD_setBit_ts s.cr0 b (by decide)
  rw [State.mode, State.mode, hpe]
  rfl

theorem inv_clts {s : State} (next : DWord) (hs : s.Inv) :
    ((s.setCr0 (setBit s.cr0 Cr0Bit.ts.bit false)).setEip next).Inv := by
  obtain ⟨hmem, hres, hmode⟩ := hs
  exact ⟨hmem, hres, (modeOk_congr (mode_setCr0_ts s false) rfl rfl).trans hmode⟩

theorem FarFrame.reservedOk {s t : State} (h : FarFrame s t) : t.reservedOk = s.reservedOk := by
  rw [State.reservedOk, State.reservedOk, h.eflags]

/-- What keeps the far frame keeps the invariant if it keeps what the mode asks. -/
theorem FarFrame.inv {s t : State} (h : FarFrame s t) (hs : s.Inv) (hm : t.modeOk = true) : t.Inv := by
  obtain ⟨hmem, hres, _⟩ := hs
  exact ⟨h.wf hmem, h.reservedOk.trans hres, hm⟩

/-- Pushes keep what the mode asks. -/
theorem PushFrame.modeOk {s t : State} (h : PushFrame s t) : t.modeOk = s.modeOk :=
  modeOk_congr h.mode h.cpl h.segs

theorem State.Inv.modeOk {s : State} (hs : s.Inv) : s.modeOk = true := hs.2.2

theorem inv_nearCall {s u : State} (frame : PushFrame s u) (tgt : DWord) (hs : s.Inv) : (u.setEip tgt).Inv :=
  (frame.farFrame.trans (farFrame_setEip _ _)).inv hs (frame.modeOk.trans hs.modeOk)

/-- A segment loaded by R34 is its selector's 64K if its limit was FFFFh. -/
theorem v86Ok_realSeg {g : Seg} (h : g.v86Ok = true) (sel : Word) : (realSeg g sel).v86Ok = true := by
  simp only [Seg.v86Ok, Bool.and_eq_true] at h
  simp [Seg.v86Ok, realSeg, eq_of_beq h.2]

/-- A check that all segment registers pass is passed after CS is replaced, if the new CS passes it where the old one
did. -/
theorem segs_all_setCs {s : State} {f : Seg → Bool} (h : s.segs.all f = true) {c : Seg}
    (hc : f s.segs.cs = true → f c = true) : (s.setCs c).segs.all f = true := by
  simp only [Segs.all, Bool.and_eq_true] at h
  obtain ⟨⟨⟨⟨⟨hes, hcs⟩, hss⟩, hds⟩, hfs⟩, hgs⟩ := h
  simp [Segs.all, State.setCs, hes, hc hcs, hss, hds, hfs, hgs]

/-- A load of CS by R34 keeps what Real Address and Virtual 8086 Mode ask. -/
theorem modeOk_setCs_realSeg {s : State} (hm : s.mode ≠ .prot) (hs : s.modeOk = true) (sel : Word) :
    (s.setCs (realSeg s.segs.cs sel)).modeOk = true := by
  unfold State.modeOk at hs ⊢
  rw [State.mode_setCs]
  cases h : s.mode with
  | prot => exact absurd h hm
  | real =>
    simp only [h, Bool.and_eq_true] at hs
    exact Bool.and_eq_true_iff.mpr ⟨hs.1, segs_all_setCs hs.2 id⟩
  | v86 =>
    simp only [h, Bool.and_eq_true] at hs
    exact Bool.and_eq_true_iff.mpr ⟨hs.1, segs_all_setCs hs.2 fun hcs => v86Ok_realSeg hcs sel⟩

theorem inv_farReal {s u : State} (hm : s.mode ≠ .prot) (frame : PushFrame s u) (ptr : FarPtr) (hs : s.Inv) :
    ((u.setCs (realSeg u.segs.cs ptr.sel)).setEip ptr.off).Inv := by
  have hu : u.modeOk = true := frame.modeOk.trans hs.modeOk
  exact (farFrame_farReal frame ptr).inv hs (modeOk_setCs_realSeg (frame.mode ▸ hm) hu ptr.sel)

/-- In Protected Mode the invariant asks that CPL is the RPL of CS. -/
theorem modeOk_prot {s : State} (hm : s.mode = .prot) (h : selRpl s.segs.cs.sel = s.cpl) : s.modeOk = true := by
  rw [State.modeOk, hm]
  exact beq_iff_eq.mpr h

/-! ### A new task (R178; log entry 8) -/

/-- A new task keeps the reserved bits of EFLAGS. -/
theorem getLsbD_taskEflags_reserved (old new : DWord) (f : TssFormat) {j : Nat} (hj : j < 32)
    (hn : eflagsNamed.getLsbD j = false) : (taskEflags old f new).getLsbD j = old.getLsbD j := by
  have hkept : ((new &&& eflagsNamed) ||| (old &&& ~~~eflagsNamed)).getLsbD j = old.getLsbD j := by
    rw [BitVec.getLsbD_or, BitVec.getLsbD_and, BitVec.getLsbD_and, BitVec.getLsbD_not, hn]
    simp [hj]
  cases f with
  | tss386 => exact hkept
  | tss286 =>
    have hvm : j ≠ Flag.vm.bit := by
      rintro rfl
      exact absurd hn (by decide)
    exact (getLsbD_setBit _ (Flag.bit_lt .vm) false j).trans ((if_neg hvm).trans hkept)

theorem v86Ok_v86Seg (g : Seg) : (v86Seg g).v86Ok = true := by simp [v86Seg, Seg.v86Ok]

theorem all_v86Ok_v86Segs (g : Segs) : (v86Segs g).all Seg.v86Ok = true := by simp [Segs.all, v86Segs, v86Ok_v86Seg]

/-- A task entered from Protected Mode runs in Virtual 8086 Mode if its VM is set, else in Protected Mode. -/
theorem mode_enterTask {s : State} (hm : s.mode = .prot) (f : TssFormat) (image : TaskImage) :
    (enterTask s f image).mode = if (taskEflags s.eflags f image.eflags).getLsbD Flag.vm.bit then .v86 else .prot := by
  have hpe : (enterTask s f image).cr0Bit .pe = true :=
    (getLsbD_setBit_ts s.cr0 true (by decide)).trans ((State.mode_eq_prot s).mp hm).1
  rw [State.mode, if_pos hpe]
  rfl

theorem modeOk_enterTask {s : State} (hm : s.mode = .prot) (f : TssFormat) (image : TaskImage) :
    (enterTask s f image).modeOk = true := by
  have hmode := mode_enterTask hm f image
  cases hvm : (taskEflags s.eflags f image.eflags).getLsbD Flag.vm.bit with
  | true =>
    rw [hvm, if_pos rfl] at hmode
    rw [State.modeOk, hmode]
    simp [enterTask, hvm, all_v86Ok_v86Segs]
  | false =>
    rw [hvm, if_neg Bool.false_ne_true] at hmode
    exact modeOk_prot hmode (by simp [enterTask, hvm])

theorem inv_enterTask {s : State} (hm : s.mode = .prot) (f : TssFormat) (image : TaskImage) (hs : s.Inv) :
    (enterTask s f image).Inv := by
  obtain ⟨hmem, hres, _⟩ := hs
  exact ⟨storeAll_wf _ hmem,
    (reservedOk_congr fun j hj hn => getLsbD_taskEflags_reserved s.eflags image.eflags f hj hn).trans hres,
    modeOk_enterTask hm f image⟩

/-! ### Every step -/

theorem ExecDone.inv {i : Instr} {s t : State} (h : ExecDone i s t) (hs : s.Inv) : t.Inv := by
  cases h with
  | plain _ effect => exact effect.inv hs
  | clts p _ next state => exact state ▸ inv_clts next hs
  | near _ _ u tgt frame state => exact state ▸ inv_nearCall frame tgt hs
  | farReal _ mode u ptr frame state => exact state ▸ inv_farReal mode frame ptr hs
  | farProtected _ mode ret ptr path =>
    obtain ⟨_, _, _, f, image, _, rfl⟩ | ⟨frame, hrpl⟩ := path.task_or_frame
    · exact inv_enterTask mode f image hs
    · exact frame.inv hs (modeOk_prot (frame.mode.trans mode) hrpl)

/-- Settles O3: a step runs an instruction, and each of the ways an instruction goes keeps the invariant. -/
theorem stepKeepsInvariant : Obligations.StepKeepsInvariant := by
  intro s t hs h
  obtain ⟨i, _, hi⟩ := exec_of_step h
  exact (execDone_of_exec hi).inv hs

end Sys2Proof.Machine
end

section
/-! A fetch that faults before the instruction is complete (30_encoding.md R91, R92). -/

namespace Sys2Proof.Machine

/-- Bytes up to one that faults are all that is gathered, and that fault is what a need for more meets. -/
theorem fetchFrom_fault {s : State} {bs : List Byte} {f : Fault} {fuel : Nat} (hl : bs.length < fuel)
    (hb : ∀ (k : Nat) (b : Byte), bs[k]? = some b → fetchByte s k = .ok b) (hf : fetchByte s bs.length = .error f) :
    fetchFrom s fuel 0 = (bs, f) := by
  obtain ⟨m, hm⟩ : ∃ m, fuel - bs.length = m + 1 := ⟨fuel - bs.length - 1, by omega⟩
  rw [fetchFrom_append bs fuel 0 hl.le (fun j b h => by simpa using hb j b h), hm, Nat.zero_add, fetchFrom, hf]
  simp

/-- #GP(0) in each mode (R262). -/
theorem raise_zero (s : State) (x : Exc) :
    raise s x 0 = .exception x (if s.mode = .real then none else some 0) := by
  cases h : s.mode <;> simp [raise, h]

/-- A byte beyond the limit is #GP(0), whatever translation says. -/
theorem fetchByte_beyond {s : State} {k : Nat}
    (h : (if s.mode = .prot then s.segs.cs.limit.toNat else 0xFFFF) < s.eip.toNat + k) :
    fetchByte s k = .error (raise s .gp 0) := by
  have hill : segLegal s.mode .cs s.segs.cs .execute (s.eip.toNat + k) 1 = false := by
    rw [segLegal_execute, decide_eq_false_iff_not]
    split at h
    · rw [if_pos ‹_›]
      omega
    · rw [if_neg ‹_›]
      omega
  rw [fetchByte, hill, require_false, error_bind]

/-- Settles O23: the bytes that can be fetched end too soon, so the step meets the fault of the byte they lack. -/
theorem fetchFaultEndsTheStep : Obligations.FetchFaultEndsTheStep := by
  intro s bs f hhalt hintr hlen hb htrunc hf
  refine ⟨?_, fun hbeyond => ?_⟩
  · rw [step_fetched hhalt hintr, fetchInstr, fetchFrom_fault hlen hb hf, htrunc]
    rfl
  · rw [fetchByte_beyond hbeyond, raise_zero] at hf
    exact (Except.error.inj hf).symm

end Sys2Proof.Machine
end

section
/-! Register views and operand reads (10_state.md R20 to R22, 30_encoding.md R103). -/

namespace Sys2Proof.Machine

/-! ### Little-endian numbers as words (R64) -/

/-- The number of a list of bytes is the number of its tail above its first byte. -/
theorem ofNat_leNat_cons (w : Nat) (b : Byte) (r : List Byte) :
    BitVec.ofNat (w + 8) (leNat (b :: r)) = BitVec.ofNat w (leNat r) ++ b := by
  apply BitVec.eq_of_toNat_eq
  have hb := b.isLt
  have hmod : (b.toNat + 256 * leNat r) % (2 ^ w * 256) = b.toNat + 256 * (leNat r % 2 ^ w) := by
    rw [Nat.mul_comm (2 ^ w), Nat.mod_mul, Nat.add_mul_mod_self_left, Nat.mod_eq_of_lt hb,
      Nat.add_mul_div_left _ _ (by decide), Nat.div_eq_of_lt hb, Nat.zero_add]
  rw [BitVec.toNat_append, ← Nat.shiftLeft_add_eq_or_of_lt hb, Nat.shiftLeft_eq, BitVec.toNat_ofNat,
    BitVec.toNat_ofNat, leNat, Nat.pow_add, hmod]
  omega

theorem ofNat8_leNat (b : Byte) : BitVec.ofNat 8 (leNat [b]) = b := by simp [leNat]

theorem ofNat16_leNat (b0 b1 : Byte) : BitVec.ofNat 16 (leNat [b0, b1]) = b1 ++ b0 := by
  rw [ofNat_leNat_cons 8, ofNat8_leNat]

theorem ofNat32_leNat (b0 b1 b2 b3 : Byte) : BitVec.ofNat 32 (leNat [b0, b1, b2, b3]) = b3 ++ b2 ++ b1 ++ b0 := by
  rw [ofNat_leNat_cons 24, ofNat_leNat_cons 16, ofNat16_leNat]

/-! ### Operands in memory (R64, R67, R71, R103) -/

/-- Consecutive addresses as offsets from the first. -/
theorem addrRun_eq_map (a : DWord) (n : Nat) : addrRun a n = (List.range n).map fun k => a + BitVec.ofNat 32 k := by
  refine List.ext_getElem? fun k => ?_
  rw [addrRun_getElem?, List.getElem?_map]
  by_cases hk : k < n
  · rw [if_pos hk, List.getElem?_range hk]
    rfl
  · rw [if_neg hk, List.getElem?_eq_none (by simpa using hk)]
    rfl

/-- Byte `k` of a memory operand, with paging off. -/
def operandByte (s : State) (p : Prefixes) (m : Mem) (k : Nat) : Byte :=
  s.mem.read ((s.seg (p.seg.getD (defaultSegment m))).base + effAddr s m + BitVec.ofNat 32 k).toNat

/-- With paging off, a legal memory operand reads as the little-endian number of its bytes. -/
theorem readMem_off {s : State} {p : Prefixes} {m : Mem} {n : Nat} (hp : s.pagingOn = false)
    (hl : segLegal s.mode (segOf p m) (s.seg (segOf p m)) .read (effAddr s m).toNat n = true) :
    readMem p m n s = .ok (leNat ((List.range n).map (operandByte s p m))) := by
  refine segRead_eq_ok.mpr ⟨hl, _, physAddrs_off hp _ _ _ _, ?_⟩
  rw [addrRun_eq_map, List.map_map]
  rfl

/-- Settles O29: the views of R21 are evaluated, the writes are those of `State.reg_setReg`, and a memory operand is the
number of its bytes. -/
theorem operandReads : Obligations.OperandReads := by
  refine ⟨by decide, by decide, fun s p => ⟨rfl, fun _ => rfl, rfl, rfl, fun r q v => s.reg_setReg r q v,
    fun r q v => s.reg_setReg16 r q v, fun _ => rfl, fun _ => rfl, fun _ => rfl, fun m hp => ⟨fun hl => ?_,
      fun hl => ?_, fun hl => ?_⟩⟩⟩
  · rw [readRM8, readMem_off hp hl]
    exact congrArg Except.ok (ofNat8_leNat _)
  · rw [readRM16, readMem_off hp hl]
    exact congrArg Except.ok (ofNat16_leNat _ _)
  · rw [readRM32, readMem_off hp hl]
    exact congrArg Except.ok (ofNat32_leNat _ _ _ _)

end Sys2Proof.Machine
end

section
/-! The state after reset (10_state.md R41). -/

namespace Sys2Proof.Machine

theorem limit_reset (n : SegName) : (State.reset.seg n).limit = 0xFFFF := by cases n <;> rfl

/-- Every segment register but CS is zero at reset. -/
theorem seg_reset {n : SegName} (h : n ≠ .cs) : State.reset.seg n = Seg.reset := by
  cases n with
  | cs => exact absurd rfl h
  | es | ss | ds | fs | gs => rfl

theorem cr0Bit_reset (b : Cr0Bit) : State.reset.cr0Bit b = false := by cases b <;> rfl

/-- Settles O1: `State.reset` evaluated, register by register. -/
theorem resetHoldsTheGivenValues : Obligations.ResetHoldsTheGivenValues :=
  ⟨rfl, rfl, rfl, limit_reset, fun _ h => by rw [seg_reset h]; exact ⟨rfl, rfl⟩, rfl, fun b _ => cr0Bit_reset b,
    rfl, rfl, rfl, rfl, rfl, rfl⟩

/-- Settles O2: memory is empty, EFLAGS is 2, and Real Address Mode asks CPL 0 and the limits of R41. -/
theorem resetMeetsInvariant : Obligations.ResetMeetsInvariant :=
  ⟨rfl, rfl, rfl⟩

end Sys2Proof.Machine
end

section
/-! Physical memory is a map, and `MemWrite` and `MemRead` on it (20_memory.md R64, R66, R78). -/

namespace Sys2Proof.Machine

/-! ### The canonical form -/

/-- Byte by byte the same over the 32-bit addresses. -/
def Memory.SameBytes (m n : Memory) : Prop := ∀ x, x < 2 ^ 32 → m.read x = n.read x

theorem Memory.SameBytes.symm {m n : Memory} (h : m.SameBytes n) : n.SameBytes m := fun x hx => (h x hx).symm

/-- A memory with the bytes of one that lists an address first lists an address no higher. -/
theorem Memory.SameBytes.head_le {lo a : Nat} {b : Byte} {r n : Memory} (hm : Memory.wfFrom lo ((a, b) :: r) = true)
    (hn : n.wfFrom lo = true) (h : Memory.SameBytes ((a, b) :: r) n) : ∃ a' b' r', n = (a', b') :: r' ∧ a' ≤ a := by
  obtain ⟨-, ha, hb, -⟩ := (Memory.wfFrom_cons ..).mp hm
  have hread : n.read a = b := by rw [← h a ha, Memory.read, if_pos rfl]
  cases n with
  | nil => exact absurd hread.symm hb
  | cons e r' =>
    obtain ⟨a', b'⟩ := e
    refine ⟨a', b', r', rfl, Nat.le_of_not_lt fun hlt => hb ?_⟩
    obtain ⟨-, hn'⟩ := (Memory.wfFrom_cons ..).mp hn
    rw [← hread]
    exact Memory.read_below ((Memory.wfFrom_cons a' ..).mpr ⟨le_rfl, hn'⟩) hlt

/-- The tails of two canonical memories with the same first address have the same bytes. -/
theorem Memory.SameBytes.tail {a : Nat} {b b' : Byte} {r r' : Memory} (hr : r.wfFrom (a + 1) = true)
    (hr' : r'.wfFrom (a + 1) = true) (h : Memory.SameBytes ((a, b) :: r) ((a, b') :: r')) : r.SameBytes r' := by
  intro x hx
  by_cases hax : a = x
  · subst hax
    rw [Memory.read_below hr (Nat.lt_succ_self a), Memory.read_below hr' (Nat.lt_succ_self a)]
  · simpa only [Memory.read, if_neg hax] using h x hx

/-- Canonical memories with the same bytes are equal. -/
theorem Memory.SameBytes.eq {lo : Nat} {m n : Memory} (hm : m.wfFrom lo = true) (hn : n.wfFrom lo = true)
    (h : m.SameBytes n) : m = n := by
  induction m generalizing lo n with
  | nil =>
    cases n with
    | nil => rfl
    | cons e r =>
      obtain ⟨_, _, _, he, -⟩ := h.symm.head_le hn hm
      exact absurd he.symm (List.cons_ne_nil _ _)
  | cons e r ih =>
    obtain ⟨a, b⟩ := e
    obtain ⟨a', b', r', rfl, hle⟩ := h.head_le hm hn
    obtain ⟨_, _, _, he, hge⟩ := h.symm.head_le hn hm
    obtain rfl : a' = a := by
      simp only [List.cons.injEq, Prod.mk.injEq] at he
      omega
    obtain ⟨-, ha, -, hr⟩ := (Memory.wfFrom_cons ..).mp hm
    obtain ⟨-, -, -, hr'⟩ := (Memory.wfFrom_cons ..).mp hn
    obtain rfl : b = b' := by simpa [Memory.read] using h a' ha
    rw [ih hr hr' (h.tail hr hr')]

/-- Settles O25: the laws of `Memory.write`, and equality of canonical memories by induction on their lists. -/
theorem memoryIsAMap : Obligations.MemoryIsAMap := by
  refine ⟨fun m a b v hm => ⟨Memory.wf_write hm a v, ?_⟩, fun m n hm hn h => ?_⟩
  · rw [Memory.read_write hm]
    exact if_congr BitVec.toNat_inj rfl rfl
  · refine Memory.SameBytes.eq hm hn fun x hx => ?_
    have hread := h (BitVec.ofNat 32 x)
    rwa [BitVec.toNat_ofNat, Nat.mod_eq_of_lt hx] at hread

/-! ### MemWrite and MemRead (R64) -/

/-- With paging off a write stores the number's bytes from its address on. -/
theorem memWrite_off {s : State} (hp : s.pagingOn = false) (cpl : BitVec 2) (a : DWord) (n v : Nat) :
    memWrite s cpl a n v = .ok (s.setMem (storeBytes (addrRun a n) (leBytes n v) s.mem)) :=
  memWrite_eq_ok.mpr ⟨_, physAddrs_off hp _ _ _ _, rfl⟩

/-- With paging off a read is the little-endian number of the bytes from its address on. -/
theorem memRead_off {s : State} (hp : s.pagingOn = false) (kind : AccessKind) (cpl : BitVec 2) (a : DWord) (n : Nat) :
    memRead s kind cpl a n = .ok (leNat ((addrRun a n).map fun b => s.mem.read b.toNat)) :=
  memRead_eq_ok.mpr ⟨_, physAddrs_off hp _ _ _ _, rfl⟩

/-- The bytes of a number that fits in them are that number. -/
theorem leNat_leBytes_of_lt {n v : Nat} (hv : v < 2 ^ (8 * n)) : leNat (leBytes n v) = v := by
  rw [leNat_leBytes]
  refine Nat.mod_eq_of_lt ?_
  rwa [Nat.pow_mul] at hv

/-- Settles O26: at most eight addresses in a row are distinct, so what is stored at them is read back. -/
theorem memReadOfMemWrite : Obligations.MemReadOfMemWrite := by
  intro s cpl c kind a n v hp hm hn hv
  have hd : (addrRun a n).Nodup := addrRun_nodup a (by omega)
  have hl : (addrRun a n).length = (leBytes n v).length := by rw [addrRun_length, leBytes_length]
  refine ⟨_, memWrite_off hp cpl a n v, ?_, fun k hk => ?_, fun x hx => ?_, rfl⟩
  · rw [memRead_off ((State.pagingOn_setMem s _).trans hp), State.setMem_mem, storeBytes_read_back _ _ hm hd hl,
      leNat_leBytes_of_lt hv]
  · exact storeBytes_read_at hm hd hl (by rw [addrRun_getElem?, if_pos hk]) (by rw [leBytes_getElem?, if_pos hk])
  · exact storeBytes_read_other _ _ hm fun b hb he => hx b hb he.symm

end Sys2Proof.Machine
end

section
/-! An instruction that stands in memory at CS.base + EIP is fetched and run (20_memory.md R63, R71). -/

namespace Sys2Proof.Machine

/-- With paging off a read of one byte is that byte. -/
theorem memRead_byte_off {s : State} (hp : s.pagingOn = false) (kind : AccessKind) (cpl : BitVec 2) (a : DWord) :
    memRead s kind cpl a 1 = .ok (s.mem.read a.toNat).toNat :=
  memRead_eq_ok.mpr ⟨_, physAddrs_off hp _ _ _ _, by simp [addrRun, leNat]⟩

/-- With paging off a fetched byte inside the limit is the byte at CS.base + EIP + k (R63). -/
theorem fetchByte_off {s : State} {k : Nat} (hp : s.pagingOn = false)
    (hk : s.eip.toNat + k < if s.mode = .prot then s.segs.cs.limit.toNat + 1 else 0x10000) :
    fetchByte s k = .ok (s.mem.read (s.segs.cs.base + s.eip + BitVec.ofNat 32 k).toNat) := by
  rw [fetchByte, segLegal_execute, decide_eq_true (Nat.succ_le_of_lt hk), require_true, ok_bind,
    memRead_byte_off hp, ok_bind, BitVec.ofNat_toNat, BitVec.setWidth_eq, linearAddr, fetchOffset, BitVec.add_assoc]

/-- Settles O22: each byte of the encoding lies inside the limit, so it is fetched, and the fetched bytes run. -/
theorem storedInstructionRuns : Obligations.StoredInstructionRuns := by
  intro s i hhalt hintr hp hw hlim hbytes
  refine stepRunsDecodedInstruction s i hhalt hintr hw fun k b hb => ?_
  obtain ⟨hk, -⟩ := List.getElem?_eq_some_iff.mp hb
  rw [encode_length] at hk
  rw [fetchByte_off hp (by omega), hbytes k b hb]

end Sys2Proof.Machine
end

section
/-! The segment check and the exception for an illegal address (20_memory.md R68 to R70). -/

namespace Sys2Proof.Machine

/-! ### The conditions of R69, one by one -/

theorem selNull_eq_true {sel : Word} : selNull sel = true ↔ sel.toNat / 4 = 0 := by
  have hlt : sel.toNat / 4 < 2 ^ 14 := by omega
  rw [selNull, beq_iff_eq, ← BitVec.toNat_inj, BitVec.extractLsb'_toNat, Nat.shiftRight_eq_div_pow]
  exact (Nat.mod_eq_of_lt hlt).congr_left

/-- R69 (a). -/
theorem nullHeld_eq_true {name : SegName} {g : Seg} :
    nullHeld name g = true ↔ name ≠ .cs ∧ name ≠ .ss ∧ g.sel.toNat / 4 = 0 := by
  cases name with
  | cs | ss => simp [nullHeld]
  | es | ds | fs | gs => simp [nullHeld, selNull_eq_true]

theorem Seg.expandDown_eq_true {g : Seg} :
    g.expandDown = true ↔ (g.ar.getLsbD 4 = true ∧ g.ar.getLsbD 3 = false) ∧ g.ar.getLsbD 2 = true := by
  simp [Seg.expandDown, Seg.isData]

/-- R69 (b). -/
theorem Seg.rightsOk_read_eq_false {g : Seg} :
    g.rightsOk .read = false ↔ (g.ar.getLsbD 4 = true ∧ g.ar.getLsbD 3 = true) ∧ g.ar.getLsbD 1 = false := by
  simp [Seg.rightsOk, Seg.isCode, Seg.readable]

/-- R69 (c). -/
theorem Seg.rightsOk_write_eq_false {g : Seg} :
    g.rightsOk .write = false ↔ ¬ ((g.ar.getLsbD 4 = true ∧ g.ar.getLsbD 3 = false) ∧ g.ar.getLsbD 1 = true) := by
  simp [Seg.rightsOk, Seg.writableData, Seg.isData, ← Bool.not_eq_true]

/-- R69 (d), (e). -/
theorem Seg.inLimit_eq_false {g : Seg} {off n : Nat} :
    g.inLimit off n = false ↔
      ¬ g.expandDown = true ∧ g.limit.toNat < off + n - 1 ∨
        g.expandDown = true ∧ (off ≤ g.limit.toNat ∨ (if g.big then 0xFFFFFFFF else 0xFFFF) < off + n - 1) := by
  cases hd : g.expandDown with
  | false =>
    simp only [Seg.inLimit, hd, Bool.false_eq_true, if_false, decide_eq_false_iff_not, not_false_eq_true, true_and,
      false_and, or_false]
    omega
  | true =>
    cases hb : g.big with
    | false => simp [Seg.inLimit, hd, hb]; omega
    | true => simp [Seg.inLimit, hd, hb]; omega

theorem Seg.fetchInLimit_eq_false {g : Seg} {off n : Nat} :
    g.fetchInLimit off n = false ↔ g.limit.toNat < off + n - 1 := by
  rw [Seg.fetchInLimit, decide_eq_false_iff_not]
  omega

/-! ### The check -/

/-- Outside Protected Mode only the 64K window counts (R68). -/
theorem segLegal_window {mode : Mode} (hm : mode ≠ .prot) (name : SegName) (g : Seg) (kind : AccessKind)
    {off n : Nat} : segLegal mode name g kind off n = true ↔ off + n - 1 ≤ 0xFFFF := by
  cases mode with
  | prot => exact absurd rfl hm
  | real | v86 =>
    rw [segLegal, decide_eq_true_iff]
    omega

theorem segLegal_prot_read_eq_false {name : SegName} {g : Seg} {off n : Nat} :
    segLegal .prot name g .read off n = false ↔
      nullHeld name g = true ∨ g.rightsOk .read = false ∨ g.inLimit off n = false := by
  simp only [segLegal, Bool.and_eq_false_iff, Bool.not_eq_false', or_assoc]

theorem segLegal_prot_write_eq_false {name : SegName} {g : Seg} {off n : Nat} :
    segLegal .prot name g .write off n = false ↔
      nullHeld name g = true ∨ g.rightsOk .write = false ∨ g.inLimit off n = false := by
  simp only [segLegal, Bool.and_eq_false_iff, Bool.not_eq_false', or_assoc]

/-- Settles O27: the check is the conjunction of R69's conditions, each of which is read off AR, limit and selector. -/
theorem segmentCheck : Obligations.SegmentCheck := by
  refine ⟨fun _ name g kind _ _ hm _ => segLegal_window hm name g kind, fun name g off n _ => ⟨?_, ?_, ?_⟩⟩
  · rw [segLegal_prot_read_eq_false, nullHeld_eq_true, Seg.rightsOk_read_eq_false, Seg.inLimit_eq_false,
      Seg.expandDown_eq_true]
  · rw [segLegal_prot_write_eq_false, nullHeld_eq_true, Seg.rightsOk_write_eq_false, Seg.inLimit_eq_false,
      Seg.expandDown_eq_true]
  · exact Seg.fetchInLimit_eq_false

/-! ### The exception for an illegal address (R70) -/

/-- The vector by segment and mode, the error code by mode. -/
theorem operandFault_eq (s : State) (name : SegName) :
    operandFault s name =
      if s.mode = .prot then .exception (if name = .ss then .ss else .gp) (some 0)
      else .exception (if name = .ss ∧ s.realSsVector12 = true then .ss else .gp)
        (if s.mode = .real then none else some 0) := by
  cases name with
  | ss => cases hm : s.mode <;> cases hv : s.realSsVector12 <;> simp [operandFault, raise, hm, hv]
  | es | cs | ds | fs | gs => cases hm : s.mode <;> simp [operandFault, raise, hm]

/-- Settles O28: a segment read that fails its check answers `operandFault`. -/
theorem illegalAddressException : Obligations.IllegalAddressException := by
  intro s name off n h
  rw [segRead_illegal h, operandFault_eq]

end Sys2Proof.Machine
end

section
/-! The long pointer of a far CALL in memory (20_memory.md R65, 40_call_near_and_real.md R138). -/

namespace Sys2Proof.Machine

/-! ### A number of bytes cut in two (R64) -/

theorem leNat_append (xs ys : List Byte) : leNat (xs ++ ys) = leNat xs + 256 ^ xs.length * leNat ys := by
  induction xs with
  | nil => simp [leNat]
  | cons x xs ih =>
    rw [List.cons_append, leNat, leNat, ih, List.length_cons, Nat.pow_succ']
    ring

theorem leNat_append_mod (xs ys : List Byte) : leNat (xs ++ ys) % 2 ^ (8 * xs.length) = leNat xs := by
  rw [leNat_append, Nat.pow_mul, Nat.add_mul_mod_self_left, Nat.mod_eq_of_lt (leNat_lt xs)]

theorem leNat_append_div (xs ys : List Byte) : leNat (xs ++ ys) / 2 ^ (8 * xs.length) = leNat ys := by
  rw [leNat_append, Nat.pow_mul, Nat.add_mul_div_left _ _ (by positivity), Nat.div_eq_of_lt (leNat_lt xs), Nat.zero_add]

/-- Two bytes as a doubleword are their word, extended with zeros. -/
theorem ofNat32_leNat_word (b0 b1 : Byte) : BitVec.ofNat 32 (leNat [b0, b1]) = (b1 ++ b0).setWidth 32 := by
  have h0 := b0.isLt
  have h1 := b1.isLt
  apply BitVec.eq_of_toNat_eq
  rw [← ofNat16_leNat, BitVec.toNat_setWidth, BitVec.toNat_ofNat, BitVec.toNat_ofNat, leNat, leNat, leNat]
  omega

/-! ### The pointer (R65, R138) -/

/-- A legal m16:16 pointer, with paging off: two bytes of offset, two of selector. -/
theorem readFarPtr_s16_off {s : State} {p : Prefixes} {m : Mem} (hp : s.pagingOn = false)
    (hl : segLegal s.mode (segOf p m) (s.seg (segOf p m)) .read (effAddr s m).toNat 4 = true) :
    readFarPtr p m .s16 s =
      .ok ⟨(operandByte s p m 1 ++ operandByte s p m 0).setWidth 32, operandByte s p m 3 ++ operandByte s p m 2⟩ := by
  have hoff := leNat_append_mod [operandByte s p m 0, operandByte s p m 1] [operandByte s p m 2, operandByte s p m 3]
  have hsel := leNat_append_div [operandByte s p m 0, operandByte s p m 1] [operandByte s p m 2, operandByte s p m 3]
  rw [← ofNat32_leNat_word, ← ofNat16_leNat, ← hoff, ← hsel, readFarPtr, readMem_off hp hl]
  rfl

/-- A legal m16:32 pointer, with paging off: four bytes of offset, two of selector. -/
theorem readFarPtr_s32_off {s : State} {p : Prefixes} {m : Mem} (hp : s.pagingOn = false)
    (hl : segLegal s.mode (segOf p m) (s.seg (segOf p m)) .read (effAddr s m).toNat 6 = true) :
    readFarPtr p m .s32 s =
      .ok ⟨operandByte s p m 3 ++ operandByte s p m 2 ++ operandByte s p m 1 ++ operandByte s p m 0,
        operandByte s p m 5 ++ operandByte s p m 4⟩ := by
  have hoff := leNat_append_mod
    [operandByte s p m 0, operandByte s p m 1, operandByte s p m 2, operandByte s p m 3]
    [operandByte s p m 4, operandByte s p m 5]
  have hsel := leNat_append_div
    [operandByte s p m 0, operandByte s p m 1, operandByte s p m 2, operandByte s p m 3]
    [operandByte s p m 4, operandByte s p m 5]
  rw [← ofNat32_leNat, ← ofNat16_leNat, ← hoff, ← hsel, readFarPtr, readMem_off hp hl]
  rfl

/-! ### A pointer that cannot be read -/

theorem bind_eq_error {α β : Type} {x : Res α} {g : α → Res β} {f : Fault} :
    (x >>= g) = .error f ↔ x = .error f ∨ ∃ a, x = .ok a ∧ g a = .error f := by
  cases x with
  | error e => simp
  | ok a => simp

theorem map_eq_error {α β : Type} {x : Res α} {g : α → β} {f : Fault} : x.map g = .error f ↔ x = .error f := by
  cases x with
  | error e => simp [Except.map]
  | ok a => simp [Except.map]

/-- Translation fails with #PF only (R72, R264). -/
theorem translateByte_error {s : State} {k : AccessKind} {c : BitVec 2} {a : DWord} {f : Fault}
    (h : translateByte s k c a = .error f) : ∃ code, f = raise s .pf code := by
  unfold translateByte at h
  split at h
  · split at h
    · cases h
    · exact ⟨_, (Except.error.inj h).symm⟩
  · cases h

theorem physAddrs_error {s : State} {k : AccessKind} {c : BitVec 2} {n : Nat} {a : DWord} {f : Fault}
    (h : physAddrs s k c n a = .error f) : ∃ code, f = raise s .pf code := by
  induction n generalizing a with
  | zero => cases h
  | succ n ih =>
    rw [physAddrs, bind_eq_error] at h
    rcases h with hbyte | ⟨_, -, h⟩
    · exact translateByte_error hbyte
    · rcases bind_eq_error.mp h with hrest | ⟨_, -, hok⟩
      · exact ih hrest
      · cases hok

/-- A segment read whose check passes fails with #PF only (R67). -/
theorem segRead_error {s : State} {g : SegName} {off : DWord} {n : Nat} {f : Fault}
    (hl : segLegal s.mode g (s.seg g) .read off.toNat n = true) (h : segRead s g off n = .error f) :
    ∃ code, f = raise s .pf code := by
  rw [segRead, hl, require_true, ok_bind, memRead] at h
  rcases bind_eq_error.mp h with hphys | ⟨_, -, hok⟩
  · exact physAddrs_error hphys
  · cases hok

/-- The bytes of a long pointer (R138). -/
def farPtrBytes : Size → Nat
  | .s16 => 4
  | .s32 => 6

/-- A long pointer cannot be read exactly where its bytes cannot, and the fault is theirs. -/
theorem readFarPtr_eq_error {p : Prefixes} {m : Mem} {z : Size} {s : State} {f : Fault} :
    readFarPtr p m z s = .error f ↔ segRead s (segOf p m) (effAddr s m) (farPtrBytes z) = .error f := by
  cases z with
  | s16 => exact map_eq_error
  | s32 => exact map_eq_error

theorem readFarPtr_illegal {p : Prefixes} {m : Mem} {z : Size} {s : State}
    (h : segLegal s.mode (segOf p m) (s.seg (segOf p m)) .read (effAddr s m).toNat (farPtrBytes z) = false) :
    readFarPtr p m z s = .error (operandFault s (segOf p m)) :=
  readFarPtr_eq_error.mpr (segRead_illegal h)

theorem readFarPtr_pageFault {p : Prefixes} {m : Mem} {z : Size} {s : State} {f : Fault}
    (hl : segLegal s.mode (segOf p m) (s.seg (segOf p m)) .read (effAddr s m).toNat (farPtrBytes z) = true)
    (h : readFarPtr p m z s = .error f) : ∃ code, f = raise s .pf code :=
  segRead_error hl (readFarPtr_eq_error.mp h)

/-- The pointer is read before anything else of CALL m16:16 (R141). -/
theorem exec_callM1616_error {p : Prefixes} {m : Mem} {s : State} {f : Fault}
    (h : readFarPtr p m .s16 s = .error f) : exec (.callM1616 p m) s = .fault f := by
  change execCallM1616 p m s = _
  rw [execCallM1616, h, error_bind, outcome_eq_fault]

/-- The pointer is read before anything else of CALL m16:32 (R142). -/
theorem exec_callM1632_error {p : Prefixes} {m : Mem} {s : State} {f : Fault}
    (h : readFarPtr p m .s32 s = .error f) : exec (.callM1632 p m) s = .fault f := by
  change execCallM1632 p m s = _
  rw [execCallM1632, h, error_bind, outcome_eq_fault]

/-- Settles O30: the bytes read are cut at the end of the offset, and the fault of the read is the instruction's. -/
theorem longPointerReads : Obligations.LongPointerReads := by
  intro s p m
  exact ⟨fun hp hl => readFarPtr_s16_off hp hl, fun hp hl => readFarPtr_s32_off hp hl,
    fun h => exec_callM1616_error (readFarPtr_illegal (z := .s16) h),
    fun h => exec_callM1632_error (readFarPtr_illegal (z := .s32) h),
    fun _ hl h => ⟨exec_callM1616_error h, readFarPtr_pageFault (z := .s16) hl h⟩,
    fun _ hl h => ⟨exec_callM1632_error h, readFarPtr_pageFault (z := .s32) hl h⟩⟩

end Sys2Proof.Machine
end

section
/-! Pushes, one and many (20_memory.md R75 to R77). -/

namespace Sys2Proof.Machine

/-! ### One push (R75, R77) -/

theorem push_illegal {s : State} {n : Nat} (v : Nat)
    (h : segLegal s.mode .ss s.segs.ss .write (pushOffset s n).toNat n = false) :
    push n v s = .error (stackFault s) := by
  rw [push, h, require_false, error_bind]

/-- A push whose slot passes the check fails only in translation, with its fault. -/
theorem push_eq_error {s : State} {n v : Nat} {f : Fault}
    (hl : segLegal s.mode .ss s.segs.ss .write (pushOffset s n).toNat n = true) :
    push n v s = .error f ↔ physAddrs s .write s.cpl n (linearAddr s.segs.ss (pushOffset s n)) = .error f := by
  rw [push, hl, require_true, ok_bind, memWrite]
  cases physAddrs s .write s.cpl n (linearAddr s.segs.ss (pushOffset s n)) with
  | error e => simp
  | ok as => simp

/-- What one push does to the stack pointer: offsets below it are `n` lower, with SP the upper half of ESP stays, and no
pad is drawn. -/
theorem push_lowered {s t : State} {n v : Nat} (h : push n v s = .ok t) :
    (∀ e, stackBelow s.stackSize (t.reg .esp) e = stackBelow s.stackSize (s.reg .esp) (n + e)) ∧
      (s.stackSize = .s16 → (t.reg .esp).extractLsb' 16 16 = (s.reg .esp).extractLsb' 16 16) ∧ t.draws = s.draws := by
  obtain ⟨-, as, -, rfl⟩ := push_eq_ok.mp h
  refine ⟨fun e => stackBelow_setStackPtr _ _ _ _ _, fun hz => ?_, by simp⟩
  simp [State.setStackPtr, hz]

/-- The bytes of a number in order (R64). -/
theorem leBytes_eq_map (n v : Nat) : leBytes n v = (List.range n).map fun k => BitVec.ofNat 8 (v / 2 ^ (8 * k)) := by
  refine List.ext_getElem? fun k => ?_
  rw [leBytes_getElem?, List.getElem?_map]
  by_cases hk : k < n
  · rw [if_pos hk, List.getElem?_range hk]
    rfl
  · rw [if_neg hk, List.getElem?_eq_none (by simpa using hk)]
    rfl

/-- A store at as many addresses as there are bytes leaves `Stored`. -/
theorem stored_of_storeBytes {s t : State} {as : List DWord} {bs : List Byte} (hm : s.mem.wf = true)
    (hl : as.length = bs.length) (ht : t.mem = storeBytes as bs s.mem) : Stored as bs s t := by
  refine ⟨fun x hx => ?_, fun hd k a b ha hb => ?_⟩
  · rw [ht]
    exact storeBytes_read_other _ _ hm fun b hb he => hx b hb he.symm
  · rw [ht]
    exact storeBytes_read_at hm hd hl ha hb

/-- A push stores the bytes of its value at the translated addresses of its slot. -/
theorem push_stored {s t : State} {n v : Nat} {as : List DWord} (hm : s.mem.wf = true)
    (ha : physAddrs s .write s.cpl n (linearAddr s.segs.ss (pushOffset s n)) = .ok as) (h : push n v s = .ok t) :
    Stored as (leBytes n v) s t := by
  obtain ⟨-, as', ha', rfl⟩ := push_eq_ok.mp h
  obtain rfl : as = as' := Except.ok.inj (ha.symm.trans ha')
  refine stored_of_storeBytes hm ?_ (by simp)
  rw [physAddrs_length ha, leBytes_length]

/-- Settles O44: the check, then the translation, then the store and the move of the pointer. -/
theorem pushStoresThenMovesPointer : Obligations.PushStoresThenMovesPointer := by
  intro s n v _ hm _
  refine ⟨fun hl => ?_, fun hl => ⟨fun f hf => (push_eq_error hl).mpr hf, fun as ha => ?_⟩⟩
  · rw [push_illegal v hl, stackFault, raise_zero]
  · have hpush := push_eq_ok (v := v).mpr ⟨hl, as, ha, rfl⟩
    obtain ⟨hbelow, hhigh, hdraws⟩ := push_lowered hpush
    refine ⟨_, hpush, stackLowered_of_below n hbelow hhigh, onlyPushed_of_frame (pushFrame_push hpush), hdraws, ?_⟩
    rw [← leBytes_eq_map]
    exact push_stored hm ha hpush

/-! ### Room for pushes (R76) -/

/-- The first `m` slots of `n` bytes below eSP pass the write check. -/
def SlotsLegal (m n : Nat) (s : State) : Prop :=
  ∀ j, 1 ≤ j → j ≤ m →
    segLegal s.mode .ss s.segs.ss .write (stackBelow s.stackSize (s.reg .esp) (j * n)).toNat n = true

theorem SlotsLegal.first {m n : Nat} {s : State} (h : SlotsLegal (m + 1) n s) :
    segLegal s.mode .ss s.segs.ss .write (pushOffset s n).toNat n = true := by
  have h1 := h 1 le_rfl (Nat.le_add_left 1 m)
  rwa [Nat.one_mul] at h1

/-- After a push the remaining slots still pass: they are the ones below the first. -/
theorem SlotsLegal.push {m n v : Nat} {s t : State} (h : SlotsLegal (m + 1) n s) (hpush : push n v s = .ok t) :
    SlotsLegal m n t := by
  intro j hj1 hjm
  have hframe := pushFrame_push hpush
  obtain ⟨hbelow, -, -⟩ := push_lowered hpush
  have hslot := h (j + 1) (by omega) (by omega)
  rw [Nat.succ_mul, Nat.add_comm (j * n)] at hslot
  rwa [hframe.mode, hframe.segs, hframe.stackSize, hbelow]

/-- Pushes into slots that pass the check fail with #PF only. -/
theorem pushList_error {n : Nat} {vs : List Nat} {s : State} {f : Fault} (hs : SlotsLegal vs.length n s)
    (h : pushList n vs s = .error f) : ∃ code, f = raise s .pf code := by
  induction vs generalizing s with
  | nil => cases h
  | cons v r ih =>
    rw [pushList] at h
    rcases bind_eq_error.mp h with hpush | ⟨t, hpush, hrest⟩
    · exact physAddrs_error ((push_eq_error hs.first).mp hpush)
    · obtain ⟨code, rfl⟩ := ih (hs.push hpush) hrest
      refine ⟨code, ?_⟩
      rw [raise, (pushFrame_push hpush).mode, raise]

/-- Settles O45: StackRoom asks `slotFits` of each slot, whose first half is the check that each push makes. -/
theorem stackRoomMakesPushesFit : Obligations.StackRoomMakesPushesFit := by
  intro s m n hn
  have hn0 : 0 < n := by omega
  refine ⟨?_, fun hroom vs hlen => ?_⟩
  · rw [stackRoom, stackRoomIn_slots _ _ _ _ m n hn0]
    simp only [slotFits, Bool.and_eq_true, insideOffsets_iff]
  · subst hlen
    have hs : SlotsLegal vs.length n s := fun j hj1 hjm => stackRoom_legal hn0 hroom hj1 hjm
    refine ⟨fun hp => ?_, fun f hf => pushList_error hs hf⟩
    obtain ⟨t, hpush, hlow⟩ := pushList_off vs hp hs
    exact ⟨t, hpush, stackLowered_of_below _ hlow.top hlow.high⟩

end Sys2Proof.Machine
end

section
/-! The rows of the opcode table on the bytes a program may hold (30_encoding.md R112): any ModR/M byte of a row's reg
field, with the SIB and displacement bytes it calls for. -/

namespace Sys2Proof

/-- A row of the table: after the prefix bytes `p` its bytes are its instruction, where its OperandSize `z`, if it has
one, is in force. -/
def RowDecodes (dflt : Size) (p : Prefixes) (rest : List Byte) (z : Option Size) (bytes : List Byte) (i : Instr) :
    Prop :=
  (∀ k, z = some k → p.operandSize dflt = k) → decode dflt (encodePrefixes p ++ (bytes ++ rest)) = .ok (i, rest)

/-- A row is its instruction where its opcode, read on from, is. -/
theorem rowDecodes_of_decodeOpcode {dflt : Size} {p : Prefixes} {rest : List Byte} {z : Option Size} {op : Byte}
    {r : List Byte} {i : Instr} (hop : prefixOf op = none)
    (h : (∀ k, z = some k → p.operandSize dflt = k) → decodeOpcode dflt p (op :: (r ++ rest)) = .ok (i, rest)) :
    RowDecodes dflt p rest z (op :: r) i := by
  intro hz
  rw [List.cons_append, decode_encodePrefixes dflt p op _ hop, h hz]
  rfl

/-- Two rows that share their bytes, one for each OperandSize (R96). -/
theorem rowDecodes_bySize {dflt : Size} {p : Prefixes} {rest : List Byte} {op : Byte} {r : List Byte} {i16 i32 : Instr}
    (hop : prefixOf op = none)
    (h : decodeOpcode dflt p (op :: (r ++ rest)) = .ok (bySize (p.operandSize dflt) i16 i32, rest)) :
    RowDecodes dflt p rest (some .s16) (op :: r) i16 ∧ RowDecodes dflt p rest (some .s32) (op :: r) i32 :=
  ⟨rowDecodes_of_decodeOpcode hop fun hz => h.trans (ok_bySize16 (hz _ rfl) _ _ _),
    rowDecodes_of_decodeOpcode hop fun hz => h.trans (ok_bySize32 (hz _ rfl) _ _ _)⟩

/-- The encoder writes its own row of the table. -/
theorem rowDecodes_encodeBody {dflt : Size} (i : Instr) (rest : List Byte)
    (ho : i.operandWf (i.prefixes.addressSize dflt) = true) :
    RowDecodes dflt i.prefixes rest i.opsize (encodeBody i) i := by
  intro hz
  rw [← List.append_assoc]
  exact decode_encode (Instr.wf_iff.mpr ⟨hz, ho⟩) rest

/-! ### Operands of a ModR/M byte -/

/-- `ops` are the SIB and displacement bytes that ModR/M byte `m` calls for, and `d` is the well-formed operand they
give. -/
structure OperandBytes {ρ : Type} (ofNum : BitVec 3 → ρ) (asz : Size) (m : Byte) (ops : List Byte) (d : RM ρ) :
    Prop where
  read : ∀ x, decodeRM ofNum asz m (ops ++ x) = .ok (d, x)
  wf : d.wf asz = true

/-- A memory operand has a ModR/M byte whose `mod` is not 3 (R102). -/
theorem decodeRM_eq_mem {ρ : Type} {ofNum : BitVec 3 → ρ} {asz : Size} {m : Byte} {bs r : List Byte} {a : Mem}
    (h : decodeRM ofNum asz m bs = .ok (.mem a, r)) : modOf m ≠ 3 ∧ decodeMem asz m bs = .ok (a, r) := by
  unfold decodeRM at h
  split at h
  · cases h
  · rename_i hmod
    obtain ⟨a', r', hmem, hok⟩ := Parse.andThen_eq_ok.mp h
    cases hok
    exact ⟨hmod, hmem⟩

section Rows

variable {dflt : Size} {p : Prefixes} {m : Byte} {ops : List Byte} (rest : List Byte)

/-! ### Rows with an operand of a word or a doubleword -/

section Word

variable {d : RM Reg} (h : OperandBytes Reg.ofNum (p.addressSize dflt) m ops d)

include h

theorem rowDecodes_callRm (hreg : regOf m = 2) :
    RowDecodes dflt p rest (some .s16) (0xFF :: m :: ops) (.callRm16 p d) ∧
      RowDecodes dflt p rest (some .s32) (0xFF :: m :: ops) (.callRm32 p d) := by
  refine rowDecodes_bySize rfl (?_ : decodeFF _ (p.addressSize dflt) p (m :: ops ++ rest) = _)
  simp [decodeFF, hreg, h.read, checkRM_of_wf h.wf]

theorem rowDecodes_cmpRm16Imm16 (hreg : regOf m = 7) (w : Word) :
    RowDecodes dflt p rest (some .s16) (0x81 :: m :: (ops ++ bytes16 w)) (.cmpRm16Imm16 p d w) := by
  refine rowDecodes_of_decodeOpcode rfl fun hz =>
    (?_ : decode81 (p.operandSize dflt) (p.addressSize dflt) p (m :: (ops ++ bytes16 w) ++ rest) = _)
  simp [decode81, hz _ rfl, hreg, h.read, checkRM_of_wf h.wf]

theorem rowDecodes_cmpRm32Imm32 (hreg : regOf m = 7) (v : DWord) :
    RowDecodes dflt p rest (some .s32) (0x81 :: m :: (ops ++ bytes32 v)) (.cmpRm32Imm32 p d v) := by
  refine rowDecodes_of_decodeOpcode rfl fun hz =>
    (?_ : decode81 (p.operandSize dflt) (p.addressSize dflt) p (m :: (ops ++ bytes32 v) ++ rest) = _)
  simp [decode81, hz _ rfl, hreg, h.read, checkRM_of_wf h.wf]

theorem rowDecodes_cmpRmImm8 (hreg : regOf m = 7) (b : Byte) :
    RowDecodes dflt p rest (some .s16) (0x83 :: m :: (ops ++ [b])) (.cmpRm16Imm8 p d b) ∧
      RowDecodes dflt p rest (some .s32) (0x83 :: m :: (ops ++ [b])) (.cmpRm32Imm8 p d b) := by
  refine rowDecodes_bySize rfl (?_ : decode83 _ (p.addressSize dflt) p (m :: (ops ++ [b]) ++ rest) = _)
  simp [decode83, hreg, h.read, checkRM_of_wf h.wf]

theorem rowDecodes_cmpRmR :
    RowDecodes dflt p rest (some .s16) (0x39 :: m :: ops) (.cmpRm16R16 p d (Reg.ofNum (regOf m))) ∧
      RowDecodes dflt p rest (some .s32) (0x39 :: m :: ops) (.cmpRm32R32 p d (Reg.ofNum (regOf m))) := by
  refine rowDecodes_bySize rfl (?_ : decode39 _ (p.addressSize dflt) p (m :: ops ++ rest) = _)
  simp [decode39, h.read, checkRM_of_wf h.wf]

theorem rowDecodes_cmpRRm :
    RowDecodes dflt p rest (some .s16) (0x3B :: m :: ops) (.cmpR16Rm16 p (Reg.ofNum (regOf m)) d) ∧
      RowDecodes dflt p rest (some .s32) (0x3B :: m :: ops) (.cmpR32Rm32 p (Reg.ofNum (regOf m)) d) := by
  refine rowDecodes_bySize rfl (?_ : decode3B _ (p.addressSize dflt) p (m :: ops ++ rest) = _)
  simp [decode3B, h.read, checkRM_of_wf h.wf]

end Word

/-- FF /3 reads its ModR/M byte as memory only; the operand bytes say that it is (R116). -/
theorem rowDecodes_callM {a : Mem} (h : OperandBytes Reg.ofNum (p.addressSize dflt) m ops (.mem a))
    (hreg : regOf m = 3) :
    RowDecodes dflt p rest (some .s16) (0xFF :: m :: ops) (.callM1616 p a) ∧
      RowDecodes dflt p rest (some .s32) (0xFF :: m :: ops) (.callM1632 p a) := by
  obtain ⟨hmod, hmem⟩ := decodeRM_eq_mem (h.read rest)
  refine rowDecodes_bySize rfl (?_ : decodeFF _ (p.addressSize dflt) p (m :: ops ++ rest) = _)
  simpa [decodeFF, hreg, hmem, Mem.indexOk_of_wf h.wf] using hmod

/-! ### Rows with an operand of a byte -/

section Bytes

variable {d : RM Reg8} (h : OperandBytes Reg8.ofNum (p.addressSize dflt) m ops d)

include h

theorem rowDecodes_cmpRm8Imm8 (hreg : regOf m = 7) (b : Byte) :
    RowDecodes dflt p rest none (0x80 :: m :: (ops ++ [b])) (.cmpRm8Imm8 p d b) := by
  refine rowDecodes_of_decodeOpcode rfl fun _ =>
    (?_ : decode80 (p.addressSize dflt) p (m :: (ops ++ [b]) ++ rest) = _)
  simp [decode80, hreg, h.read, checkRM_of_wf h.wf]

theorem rowDecodes_cmpRm8R8 :
    RowDecodes dflt p rest none (0x38 :: m :: ops) (.cmpRm8R8 p d (Reg8.ofNum (regOf m))) := by
  refine rowDecodes_of_decodeOpcode rfl fun _ => (?_ : decode38 (p.addressSize dflt) p (m :: ops ++ rest) = _)
  simp [decode38, h.read, checkRM_of_wf h.wf]

theorem rowDecodes_cmpR8Rm8 :
    RowDecodes dflt p rest none (0x3A :: m :: ops) (.cmpR8Rm8 p (Reg8.ofNum (regOf m)) d) := by
  refine rowDecodes_of_decodeOpcode rfl fun _ => (?_ : decode3A (p.addressSize dflt) p (m :: ops ++ rest) = _)
  simp [decode3A, h.read, checkRM_of_wf h.wf]

end Bytes

end Rows

/-- Settles O16: a row without ModR/M is the encoder's, a row with it reads any operand bytes; the fixed sequences are
evaluated. -/
theorem opcodeRowsDecode : Obligations.OpcodeRowsDecode := by
  refine ⟨fun dflt p b w sel v rest => ?_, rfl, rfl, rfl, rfl, rfl, rfl, rfl, rfl, rfl⟩
  have plain (i : Instr) := rowDecodes_encodeBody (dflt := dflt) i rest
  have hasz : (p.addressSize dflt == p.addressSize dflt) = true := beq_self_eq_true _
  refine ⟨plain (.callRel16 p w) rfl, plain (.callRel32 p v) rfl, plain (.callPtr1616 p w sel) rfl,
    plain (.callPtr1632 p v sel) rfl, plain (.cbw p) rfl, plain (.cwde p) rfl, plain (.clc p) rfl, plain (.cld p) rfl,
    plain (.cli p) rfl, plain (.clts p) rfl, plain (.cmc p) rfl, plain (.cmpAlImm8 p b) rfl,
    plain (.cmpAxImm16 p w) rfl, plain (.cmpEaxImm32 p v) rfl, plain (.cmpsM8 p _) hasz, plain (.cmpsM16 p _) hasz,
    plain (.cmpsM32 p _) hasz, plain (.cwd p) rfl, plain (.cdq p) rfl,
    fun m ops => ⟨fun d hd hw => ?_, fun d hd hw => ?_⟩⟩
  · have h : OperandBytes Reg.ofNum (p.addressSize dflt) m ops d := ⟨hd, hw⟩
    obtain ⟨h39w, h39d⟩ := rowDecodes_cmpRmR rest h
    obtain ⟨h3Bw, h3Bd⟩ := rowDecodes_cmpRRm rest h
    refine ⟨rowDecodes_callRm rest h, ?_, fun hreg => ⟨rowDecodes_cmpRm16Imm16 rest h hreg w,
      rowDecodes_cmpRm32Imm32 rest h hreg v, rowDecodes_cmpRmImm8 rest h hreg b⟩, h39w, h39d, h3Bw, h3Bd⟩
    rintro a rfl
    exact rowDecodes_callM rest h
  · have h : OperandBytes Reg8.ofNum (p.addressSize dflt) m ops d := ⟨hd, hw⟩
    exact ⟨fun hreg => rowDecodes_cmpRm8Imm8 rest h hreg b, rowDecodes_cmpRm8R8 rest h, rowDecodes_cmpR8Rm8 rest h⟩

end Sys2Proof
end

section
/-! Decoding undoes encoding, for every row (30_encoding.md R90, R112). -/

namespace Sys2Proof

/-- Settles O10: the prefix bytes are scanned back, and each row's opcode and operand bytes give its instruction. -/
theorem decodeOfEncode : Obligations.DecodeOfEncode := fun _ _ rest hw => decode_encode hw rest

end Sys2Proof
end

section
/-! The prefix bytes of an instruction (30_encoding.md R97 to R100): what a list of them says does not depend on its
order, a second one of a group is refused where it stands, LOCK and REP once the instruction is known. -/

namespace Sys2Proof

/-! ### Groups of prefix bytes (R98) -/

/-- The group of what a prefix byte says (R98), by the numbers of `prefixGroup`. -/
def PrefixByte.group : PrefixByte → Fin 4
  | .opsize => 0
  | .addrsize => 1
  | .seg _ => 2
  | .lock | .rep | .repne => 3

theorem prefixGroup_eq_map (b : Byte) : Machine.prefixGroup b = (prefixOf b).map PrefixByte.group := by
  revert b; decide

theorem prefixOf_of_group_none {b : Byte} (h : Machine.prefixGroup b = none) : prefixOf b = none := by
  rwa [prefixGroup_eq_map, Option.map_eq_none_iff] at h

theorem prefixOf_of_group_ne_none {b : Byte} (h : Machine.prefixGroup b ≠ none) : ∃ x, prefixOf b = some x := by
  rw [prefixGroup_eq_map, Ne, Option.map_eq_none_iff] at h
  exact Option.ne_none_iff_exists'.mp h

/-- A byte of the group was seen. -/
def SeenPrefixes.has (q : SeenPrefixes) : Fin 4 → Bool
  | 0 => q.pfx.opsize
  | 1 => q.pfx.addrsize
  | 2 => q.pfx.seg.isSome
  | 3 => q.lockRep.isSome

/-- What a byte of a group not seen before adds to what was seen. -/
def SeenPrefixes.put (q : SeenPrefixes) : PrefixByte → SeenPrefixes
  | .opsize => { q with pfx := { q.pfx with opsize := true } }
  | .addrsize => { q with pfx := { q.pfx with addrsize := true } }
  | .seg s => { q with pfx := { q.pfx with seg := some s } }
  | .lock => { q with lockRep := some .lock }
  | .rep | .repne => { q with lockRep := some .rep }

theorem SeenPrefixes.add_eq (q : SeenPrefixes) (x : PrefixByte) :
    q.add x = if q.has x.group = true then none else some (q.put x) := by
  cases x <;> rfl

@[simp] theorem SeenPrefixes.has_empty (g : Fin 4) : SeenPrefixes.empty.has g = false := by revert g; decide

@[simp] theorem SeenPrefixes.has_put (q : SeenPrefixes) (x : PrefixByte) (g : Fin 4) :
    (q.put x).has g = (g == x.group || q.has g) := by
  match g with
  | 0 | 1 | 2 | 3 => cases x <;> rfl

theorem SeenPrefixes.put_comm (q : SeenPrefixes) {x y : PrefixByte} (h : x.group ≠ y.group) :
    (q.put x).put y = (q.put y).put x := by
  cases x <;> cases y <;> simp_all [SeenPrefixes.put, PrefixByte.group]

/-- Two prefix bytes are noted alike in either order (R98). -/
theorem SeenPrefixes.add_comm (q : SeenPrefixes) (x y : PrefixByte) :
    ((q.add x).bind fun q' => q'.add y) = (q.add y).bind fun q' => q'.add x := by
  by_cases hg : x.group = y.group
  · cases hx : q.has y.group <;> simp [SeenPrefixes.add_eq, hg, hx]
  · have hput := q.put_comm hg
    cases hx : q.has x.group <;> cases hy : q.has y.group <;> simp [SeenPrefixes.add_eq, hx, hy, hput, hg, Ne.symm hg]

/-! ### Lists of prefix bytes -/

/-- Note a byte, if it is a prefix byte of a group not seen before. -/
def noteByte (o : Option SeenPrefixes) (b : Byte) : Option SeenPrefixes :=
  o.bind fun q => (prefixOf b).bind q.add

/-- What was seen after a list of prefix bytes, if no group comes twice. -/
def seenAfter (q : SeenPrefixes) (ps : List Byte) : Option SeenPrefixes := ps.foldl noteByte (some q)

theorem noteByte_comm (o : Option SeenPrefixes) (b c : Byte) :
    noteByte (noteByte o b) c = noteByte (noteByte o c) b := by
  cases o with
  | none => rfl
  | some q =>
    cases hb : prefixOf b <;> cases hc : prefixOf c
    case some.some x y => simpa [noteByte, hb, hc] using q.add_comm x y
    all_goals simp [noteByte, hb, hc]

/-- What a list of prefix bytes says does not depend on its order (R98). -/
theorem seenAfter_perm {ps qs : List Byte} (h : ps.Perm qs) (q : SeenPrefixes) : seenAfter q ps = seenAfter q qs :=
  haveI : RightCommutative noteByte := ⟨noteByte_comm⟩
  h.foldl_eq (some q)

theorem foldl_noteByte_none (ps : List Byte) : ps.foldl noteByte none = none := List.foldl_fixed' (fun _ => rfl) ps

theorem seenAfter_cons {q q' : SeenPrefixes} {b : Byte} {x : PrefixByte} (hb : prefixOf b = some x)
    (hq : q.add x = some q') (ps : List Byte) : seenAfter q (b :: ps) = seenAfter q' ps := by
  simp [seenAfter, noteByte, hb, hq]

/-- A list of prefix bytes that are noted starts with one that is. -/
theorem seenAfter_cons_eq_some {q r : SeenPrefixes} {b : Byte} {ps : List Byte} :
    seenAfter q (b :: ps) = some r ↔
      ∃ x q', prefixOf b = some x ∧ q.add x = some q' ∧ seenAfter q' ps = some r := by
  cases hb : prefixOf b with
  | none => simp [seenAfter, noteByte, hb, foldl_noteByte_none]
  | some x =>
    cases hq : q.add x with
    | none => simp [seenAfter, noteByte, hb, hq, foldl_noteByte_none]
    | some q' => simp [seenAfter_cons hb hq, hq]

/-- The scan reads over prefix bytes that are noted. -/
theorem scanPrefixes_append {q q' : SeenPrefixes} {ps : List Byte} (h : seenAfter q ps = some q') (rest : List Byte) :
    scanPrefixes q (ps ++ rest) = scanPrefixes q' rest := by
  induction ps generalizing q with
  | nil =>
    cases h
    rfl
  | cons b ps ih =>
    obtain ⟨x, q1, hb, hq, h⟩ := seenAfter_cons_eq_some.mp h
    rw [List.cons_append, scanPrefixes, hb]
    simp only [hq]
    exact ih h

/-- The encoder's prefix bytes say what they were written for, after a LOCK or REP too. -/
theorem seenAfter_encodePrefixes (p : Prefixes) (l : Option LockRep) :
    seenAfter ⟨⟨false, false, none⟩, l⟩ (encodePrefixes p) = some ⟨p, l⟩ := by
  obtain ⟨o, a, s⟩ := p
  rcases o <;> rcases a <;> rcases s with _ | (_ | _ | _ | _ | _ | _) <;> rfl

/-- Prefix bytes of distinct groups not seen before are noted, each with its group. -/
theorem seenAfter_of_nodup {q : SeenPrefixes} {ps : List Byte} (hps : ∀ x ∈ ps, Machine.prefixGroup x ≠ none)
    (hnd : (ps.map Machine.prefixGroup).Nodup) (hq : ∀ g, q.has g = true → some g ∉ ps.map Machine.prefixGroup) :
    ∃ q', seenAfter q ps = some q' ∧ ∀ g, q.has g = true ∨ some g ∈ ps.map Machine.prefixGroup → q'.has g = true := by
  induction ps generalizing q with
  | nil => exact ⟨q, rfl, by simp⟩
  | cons b ps ih =>
    obtain ⟨hb, hps⟩ := List.forall_mem_cons.mp hps
    obtain ⟨x, hx⟩ := prefixOf_of_group_ne_none hb
    have hgroup : Machine.prefixGroup b = some x.group := by rw [prefixGroup_eq_map, hx, Option.map_some]
    rw [List.map_cons, hgroup] at hnd hq ⊢
    obtain ⟨hnotin, hnd⟩ := List.nodup_cons.mp hnd
    have hfree : q.has x.group = false := by simpa using mt (hq x.group)
    have hadd : q.add x = some (q.put x) := by simp [SeenPrefixes.add_eq, hfree]
    obtain ⟨q', hseen, hhas⟩ := ih (q := q.put x) hps hnd fun g hg => by
      rcases (by simpa using hg : g = x.group ∨ q.has g = true) with rfl | hold
      · exact hnotin
      · exact fun hmem => hq g hold (List.mem_cons_of_mem _ hmem)
    refine ⟨q', (seenAfter_cons hx hadd ps).trans hseen, fun g hg => hhas g ?_⟩
    rw [SeenPrefixes.has_put]
    grind

/-! ### Decoding after prefix bytes -/

/-- What an instruction in scope becomes after a byte of the group F0, F2, F3 (R99, R100). -/
def lockRepAnswer (l : Option LockRep) (i : Instr) (rest : List Byte) : Parse Instr :=
  match l with
  | none => .ok (i, rest)
  | some .lock => .error .lockPrefix
  | some .rep => .error .repPrefix

theorem decode_eq (dflt : Size) (bs : List Byte) :
    decode dflt bs = (scanPrefixes SeenPrefixes.empty bs).andThen fun q r =>
      (decodeOpcode dflt q.pfx r).andThen (lockRepAnswer q.lockRep) := by
  rfl

/-- An instruction after prefix bytes that say what its own do, and perhaps a LOCK or REP. -/
theorem decode_of_seenAfter {dflt : Size} {i : Instr} (hw : i.wf dflt = true) {ps : List Byte} {l : Option LockRep}
    (hps : seenAfter SeenPrefixes.empty ps = some ⟨i.prefixes, l⟩) (rest : List Byte) :
    decode dflt (ps ++ encodeBody i ++ rest) = lockRepAnswer l i rest := by
  obtain ⟨b, r, hbody, hb⟩ := encodeBody_head i
  have hscan : scanPrefixes ⟨i.prefixes, l⟩ (encodeBody i ++ rest) = .ok (⟨i.prefixes, l⟩, encodeBody i ++ rest) := by
    rw [hbody, List.cons_append, scanPrefixes, hb]
  rw [decode_eq, List.append_assoc, scanPrefixes_append hps, hscan, Parse.andThen_ok, decodeOpcode_encodeBody hw,
    Parse.andThen_ok]

/-- Settles O12: what the prefix bytes say does not depend on their order. -/
theorem prefixOrderIsFree : Obligations.PrefixOrderIsFree := by
  intro dflt i ps rest hw hperm
  have hps : seenAfter SeenPrefixes.empty ps = some ⟨i.prefixes, none⟩ :=
    (seenAfter_perm hperm _).trans (seenAfter_encodePrefixes i.prefixes none)
  exact decode_of_seenAfter hw hps rest

/-- A prefix byte of a group that was seen is refused where it stands (R98). -/
theorem decode_repeated (dflt : Size) {ps : List Byte} {b : Byte} (rest : List Byte)
    (hps : ∀ x ∈ ps, Machine.prefixGroup x ≠ none) (hnd : (ps.map Machine.prefixGroup).Nodup)
    (hb : Machine.prefixGroup b ∈ ps.map Machine.prefixGroup) :
    decode dflt (ps ++ b :: rest) = .error .prefixRepeated := by
  obtain ⟨q, hseen, hhas⟩ := seenAfter_of_nodup hps hnd (q := SeenPrefixes.empty) (by simp)
  obtain ⟨x, hx⟩ : ∃ x, prefixOf b = some x := by
    obtain ⟨c, hc, hcb⟩ := List.mem_map.mp hb
    exact prefixOf_of_group_ne_none (hcb ▸ hps c hc)
  rw [prefixGroup_eq_map, hx, Option.map_some] at hb
  have hadd : q.add x = none := by rw [SeenPrefixes.add_eq, if_pos (hhas _ (.inr hb))]
  rw [decode_eq, scanPrefixes_append hseen, scanPrefixes, hx]
  simp only [hadd, Parse.andThen_error]

/-- An instruction with one more prefix byte, one of F0, F2, F3, in any place among its own (R99, R100). -/
theorem decode_lockRep {dflt : Size} {i : Instr} (hw : i.wf dflt = true) {b : Byte} {ps : List Byte}
    (hperm : ps.Perm (b :: encodePrefixes i.prefixes)) {x : PrefixByte} (hb : prefixOf b = some x) {l : LockRep}
    (hx : SeenPrefixes.empty.add x = some ⟨SeenPrefixes.empty.pfx, some l⟩) (rest : List Byte) :
    decode dflt (ps ++ encodeBody i ++ rest) = lockRepAnswer (some l) i rest :=
  decode_of_seenAfter hw ((seenAfter_perm hperm _).trans
    ((seenAfter_cons hb hx _).trans (seenAfter_encodePrefixes i.prefixes (some l)))) rest

/-- Settles O13: distinct groups leave their mark, so a second byte of one of them is not noted; LOCK and REP are noted
beside the instruction's own prefix bytes and refused after it is read. -/
theorem repeatedLockAndRepPrefixesRefused : Obligations.RepeatedLockAndRepPrefixesRefused := by
  refine ⟨fun dflt ps b rest => decode_repeated dflt rest, fun dflt i b ps rest hw hperm => ⟨?_, ?_⟩⟩
  · rintro rfl
    exact decode_lockRep (x := .lock) (l := .lock) hw hperm rfl rfl rest
  · rintro (rfl | rfl)
    · exact decode_lockRep (x := .repne) (l := .rep) hw hperm rfl rfl rest
    · exact decode_lockRep (x := .rep) (l := .rep) hw hperm rfl rfl rest

end Sys2Proof
end

section
/-! Opcodes that are no row of the table (30_encoding.md R113, R116, R118). -/

namespace Sys2Proof

open Machine

/-- After prefix bytes, an opcode that gives no instruction stops the decoding as it stops. -/
theorem decode_encodePrefixes_error (dflt : Size) (p : Prefixes) {op : Byte} (hop : prefixOf op = none) {r : List Byte}
    {e : DecodeStop} (h : decodeOpcode dflt p (op :: r) = .error e) :
    decode dflt (encodePrefixes p ++ op :: r) = .error e := by
  rw [decode_encodePrefixes dflt p op r hop, h, Parse.andThen_error]

theorem decodeOpcode_of_notin (dflt : Size) (p : Prefixes) {op : Byte} (h : op ∉ scopeOpcodes) (r : List Byte) :
    decodeOpcode dflt p (op :: r) = .error .outOfScopeOpcode := by
  simp only [scopeOpcodes, List.mem_cons, List.not_mem_nil, or_false, not_or] at h
  simp only [decodeOpcode, take8_cons, Parse.andThen_ok, h, if_false]

theorem decodeOpcode_0F_of_ne (dflt : Size) (p : Prefixes) {m : Byte} (h : m ≠ 0x06) (r : List Byte) :
    decodeOpcode dflt p (0x0F :: m :: r) = .error .outOfScopeOpcode := if_neg h

/-- The rows 80, 81, 83, FF with a reg field that the table does not list read their operand and no more (R118). -/
theorem decodeOpcode_unlisted (dflt : Size) (p : Prefixes) {op m : Byte}
    (h : (op = 0x80 ∨ op = 0x81 ∨ op = 0x83) ∧ regOf m ≠ 7 ∨ op = 0xFF ∧ regOf m ≠ 2 ∧ regOf m ≠ 3) (r : List Byte) :
    decodeOpcode dflt p (op :: m :: r) = decodeUnlisted (p.addressSize dflt) m r := by
  rcases h with ⟨rfl | rfl | rfl, h7⟩ | ⟨rfl, h2, h3⟩
  · exact if_neg h7
  · exact if_neg h7
  · exact if_neg h7
  · exact (if_neg h2).trans (if_neg h3)

/-- Settles O14: the first byte is no row's; the second byte is not CLTS's; the reg field is no row's, after the operand
is read. -/
theorem outOfScopeOpcodesRefused : Obligations.OutOfScopeOpcodesRefused := by
  intro dflt p op m rest
  refine ⟨fun hgroup hop => ?_, fun hm => ?_, fun h => ?_⟩
  · exact decode_encodePrefixes_error dflt p (prefixOf_of_group_none hgroup) (decodeOpcode_of_notin dflt p hop rest)
  · exact decode_encodePrefixes_error dflt p rfl (decodeOpcode_0F_of_ne dflt p hm rest)
  · have hprefix : prefixOf op = none := by rcases h with ⟨rfl | rfl | rfl, -⟩ | ⟨rfl, -⟩ <;> rfl
    have stop {e : DecodeStop} (he : decodeUnlisted (p.addressSize dflt) m rest = .error e) :=
      decode_encodePrefixes_error dflt p hprefix ((decodeOpcode_unlisted dflt p h rest).trans he)
    exact ⟨fun d r hread => stop (by rw [decodeUnlisted, hread, Parse.andThen_ok]),
      fun hread => stop (by rw [decodeUnlisted, hread, Parse.andThen_error])⟩

end Sys2Proof

namespace Sys2Proof.Machine

/-- The far row with `mod` = 3 has no instruction, whatever follows ModR/M (R116). -/
theorem decodeOpcode_farRegister (dflt : Size) (p : Prefixes) {m : Byte} (hmod : modOf m = 3) (hreg : regOf m = 3)
    (r : List Byte) : decodeOpcode dflt p (0xFF :: m :: r) = .error .invalidOpcode := by
  refine (?_ : decodeFF _ _ p (m :: r) = _)
  simp [decodeFF, hreg, hmod]

/-- Settles O15: the fetched bytes decode to the invalid opcode, which the step answers with its fault. -/
theorem farCallWithRegisterIsInvalidOpcode : Obligations.FarCallWithRegisterIsInvalidOpcode := by
  intro s p m rest hhalt hintr hmod hreg hbytes
  have hfetch : fetchInstr s = .fault raiseInvalidOpcode := by
    rw [fetchInstr, hbytes,
      decode_encodePrefixes_error _ p rfl (decodeOpcode_farRegister s.defaultSize p hmod hreg rest)]
    rfl
  rw [step_fetched hhalt hintr, hfetch]
  exact ⟨rfl, rfl⟩

end Sys2Proof.Machine
end

section
/-! What the decoder reads is what the encoder writes (30_encoding.md R91 to R112): the bytes taken for an instruction
are its prefix bytes, in some order, and then its encoding; so they are as many as its length. -/

namespace Sys2Proof

/-! ### Bytes of the instruction stream (R65) -/

section Bytes

open BitVec

theorem bytes16_append (b0 b1 : Byte) : bytes16 (b1 ++ b0) = [b0, b1] :=
  congrArg₂ (fun x y => [x, y]) extractLsb'_append_eq_right extractLsb'_append_eq_left

theorem bytes32_append (b0 b1 b2 b3 : Byte) : bytes32 (b3 ++ b2 ++ b1 ++ b0) = [b0, b1, b2, b3] := by
  have above {w : Nat} (hi : BitVec w) (lo : Byte) (k : Nat) : (hi ++ lo).extractLsb' (k + 8) 8 = hi.extractLsb' k 8 :=
    extractLsb'_append_eq_of_le (Nat.le_add_left 8 k)
  have h0 : (b3 ++ b2 ++ b1 ++ b0).extractLsb' 0 8 = b0 := extractLsb'_append_eq_right
  have h1 : (b3 ++ b2 ++ b1 ++ b0).extractLsb' 8 8 = b1 := (above _ _ 0).trans extractLsb'_append_eq_right
  have h2 : (b3 ++ b2 ++ b1 ++ b0).extractLsb' 16 8 = b2 :=
    (above _ _ 8).trans ((above _ _ 0).trans extractLsb'_append_eq_right)
  have h3 : (b3 ++ b2 ++ b1 ++ b0).extractLsb' 24 8 = b3 :=
    (above _ _ 16).trans ((above _ _ 8).trans extractLsb'_append_eq_left)
  rw [bytes32, h0, h1, h2, h3]

end Bytes

theorem take8_eq_ok {bs r : List Byte} {v : Byte} : take8 bs = .ok (v, r) ↔ bs = v :: r := by
  cases bs <;> simp [take8]

theorem take8_andThen_eq_ok {α : Type} {f : Byte → List Byte → Parse α} {bs rest : List Byte} {y : α} :
    (take8 bs).andThen f = .ok (y, rest) ↔ ∃ b r, bs = b :: r ∧ f b r = .ok (y, rest) := by
  simp only [Parse.andThen_eq_ok, take8_eq_ok]

theorem take16_eq_ok {bs r : List Byte} {v : Word} : take16 bs = .ok (v, r) ↔ bs = bytes16 v ++ r := by
  refine ⟨fun h => ?_, fun h => h ▸ take16_bytes16 v r⟩
  match bs with
  | b0 :: b1 :: r' =>
    cases h
    rw [bytes16_append]
    rfl

theorem take32_eq_ok {bs r : List Byte} {v : DWord} : take32 bs = .ok (v, r) ↔ bs = bytes32 v ++ r := by
  refine ⟨fun h => ?_, fun h => h ▸ take32_bytes32 v r⟩
  match bs with
  | b0 :: b1 :: b2 :: b3 :: r' =>
    cases h
    rw [bytes32_append]
    rfl

/-! ### Operands (R102 to R106) -/

theorem dispMod_eq_zero {w : Nat} {d : Disp w} : dispMod d = 0 ↔ d = .none := by cases d <;> simp [dispMod]

theorem eq_two_of_mod {mod : BitVec 2} (h0 : mod ≠ 0) (h1 : mod ≠ 1) (h3 : mod ≠ 3) : mod = 2 := by
  revert mod; decide

theorem takeDisp16_eq_ok {mod : BitVec 2} {r rest : List Byte} {d : Disp 16} (hmod : mod ≠ 3)
    (h : takeDisp16 mod r = .ok (d, rest)) : dispMod d = mod ∧ r = dispBytes16 d ++ rest := by
  unfold takeDisp16 at h
  split at h
  next h0 =>
    cases h
    exact ⟨h0.symm, rfl⟩
  next h0 =>
    split at h
    next h1 =>
      obtain ⟨v, r', hv, h⟩ := Parse.andThen_eq_ok.mp h
      cases h
      exact ⟨h1.symm, take8_eq_ok.mp hv⟩
    next h1 =>
      obtain ⟨v, r', hv, h⟩ := Parse.andThen_eq_ok.mp h
      cases h
      exact ⟨(eq_two_of_mod h0 h1 hmod).symm, take16_eq_ok.mp hv⟩

theorem takeDisp32_eq_ok {mod : BitVec 2} {r rest : List Byte} {d : Disp 32} (hmod : mod ≠ 3)
    (h : takeDisp32 mod r = .ok (d, rest)) : dispMod d = mod ∧ r = dispBytes32 d ++ rest := by
  unfold takeDisp32 at h
  split at h
  next h0 =>
    cases h
    exact ⟨h0.symm, rfl⟩
  next h0 =>
    split at h
    next h1 =>
      obtain ⟨v, r', hv, h⟩ := Parse.andThen_eq_ok.mp h
      cases h
      exact ⟨h1.symm, take8_eq_ok.mp hv⟩
    next h1 =>
      obtain ⟨v, r', hv, h⟩ := Parse.andThen_eq_ok.mp h
      cases h
      exact ⟨(eq_two_of_mod h0 h1 hmod).symm, take32_eq_ok.mp hv⟩

/-- The bytes from a ModR/M byte on are those the encoder writes for `a`, and `a` is well formed but for a scale without
an index, which the row refuses. -/
structure MemRead (asz : Size) (reg : BitVec 3) (bs : List Byte) (a : Mem) (rest : List Byte) : Prop where
  wf : a.indexOk = true → a.wf asz = true
  bytes : bs = encodeMem reg a ++ rest

theorem decodeMem16_eq_ok {mod : BitVec 2} {rm : BitVec 3} {r rest : List Byte} {a : Mem} (hmod : mod ≠ 3)
    (reg : BitVec 3) (h : decodeMem16 mod rm r = .ok (a, rest)) :
    MemRead .s16 reg (packByte mod reg rm :: r) a rest := by
  unfold decodeMem16 at h
  split at h
  next hdirect =>
    obtain ⟨rfl, rfl⟩ := hdirect
    obtain ⟨v, r', hv, h⟩ := Parse.andThen_eq_ok.mp h
    cases h
    exact ⟨fun _ => rfl, congrArg _ (take16_eq_ok.mp hv)⟩
  next hdirect =>
    obtain ⟨d, r', hd, h⟩ := Parse.andThen_eq_ok.mp h
    cases h
    obtain ⟨rfl, hr⟩ := takeDisp16_eq_ok hmod hd
    refine ⟨fun _ => ?_, by rw [hr, encodeMem, Base16.num_ofNum]; rfl⟩
    have hbase : ¬ (Base16.ofNum rm = .bp ∧ d = .none) := fun ⟨hbp, hnone⟩ =>
      hdirect ⟨dispMod_eq_zero.mpr hnone, by rw [← Base16.num_ofNum rm, hbp]; rfl⟩
    simpa [Mem.wf, imp_iff_not_or] using hbase

/-- The index and the base of a SIB byte are written back as that byte (R106). -/
theorem sibByte_decodeIndex (sib : Byte) : sibByte (decodeIndex sib) (rmOf sib) = sib := by
  revert sib; decide

theorem Reg.eq_num_of_ofNum {n : BitVec 3} {r : Reg} (h : Reg.ofNum n = r) : n = r.num := by
  rw [← h, Reg.num_ofNum]

theorem decodeSib_eq_ok {mod : BitVec 2} {r rest : List Byte} {a : Mem} (hmod : mod ≠ 3) (reg : BitVec 3)
    (h : decodeSib mod r = .ok (a, rest)) : MemRead .s32 reg (packByte mod reg 4 :: r) a rest := by
  obtain ⟨sib, r', rfl, hread⟩ := take8_andThen_eq_ok.mp h
  have hbyte := sibByte_decodeIndex sib
  split at hread
  next hdirect =>
    obtain ⟨hbase, rfl⟩ := hdirect
    obtain ⟨v, r', hv, hread⟩ := Parse.andThen_eq_ok.mp hread
    cases hread
    rw [hbase] at hbyte
    exact ⟨fun hindex => hindex, by rw [take32_eq_ok.mp hv, encodeMem, hbyte]; rfl⟩
  next hdirect =>
    obtain ⟨d, r', hd, hread⟩ := Parse.andThen_eq_ok.mp hread
    cases hread
    obtain ⟨rfl, hr⟩ := takeDisp32_eq_ok hmod hd
    refine ⟨fun hindex => ?_, by rw [hr, encodeMem, Reg.num_ofNum, hbyte]; rfl⟩
    have hbase : ¬ (Reg.ofNum (rmOf sib) = .ebp ∧ d = .none) := fun ⟨hbp, hnone⟩ =>
      hdirect ⟨Reg.eq_num_of_ofNum hbp, dispMod_eq_zero.mpr hnone⟩
    simpa [Mem.wf, imp_iff_not_or, show indexWf (decodeIndex sib) = true from hindex] using hbase

theorem decodeMem32_eq_ok {mod : BitVec 2} {rm : BitVec 3} {r rest : List Byte} {a : Mem} (hmod : mod ≠ 3)
    (reg : BitVec 3) (h : decodeMem32 mod rm r = .ok (a, rest)) :
    MemRead .s32 reg (packByte mod reg rm :: r) a rest := by
  unfold decodeMem32 at h
  split at h
  next hsib =>
    rw [hsib]
    exact decodeSib_eq_ok hmod reg h
  next hsib =>
    split at h
    next hdirect =>
      obtain ⟨rfl, rfl⟩ := hdirect
      obtain ⟨v, r', hv, h⟩ := Parse.andThen_eq_ok.mp h
      cases h
      exact ⟨fun _ => rfl, congrArg _ (take32_eq_ok.mp hv)⟩
    next hdirect =>
      obtain ⟨d, r', hd, h⟩ := Parse.andThen_eq_ok.mp h
      cases h
      obtain ⟨rfl, hr⟩ := takeDisp32_eq_ok hmod hd
      refine ⟨fun _ => ?_, by rw [hr, encodeMem, Reg.num_ofNum]; rfl⟩
      have hesp : Reg.ofNum rm ≠ .esp := fun h => hsib (Reg.eq_num_of_ofNum h)
      have hbase : ¬ (Reg.ofNum rm = .ebp ∧ d = .none) := fun ⟨hbp, hnone⟩ =>
        hdirect ⟨dispMod_eq_zero.mpr hnone, Reg.eq_num_of_ofNum hbp⟩
      simpa [Mem.wf, hesp, imp_iff_not_or] using hbase

theorem decodeMem_eq_ok {asz : Size} {m : Byte} {r rest : List Byte} {a : Mem} (hmod : modOf m ≠ 3)
    (h : decodeMem asz m r = .ok (a, rest)) : MemRead asz (regOf m) (m :: r) a rest := by
  rw [← packByte_fields m, regOf_packByte]
  cases asz with
  | s16 => exact decodeMem16_eq_ok hmod _ h
  | s32 => exact decodeMem32_eq_ok hmod _ h

theorem checkRM_eq_ok {ρ : Type} {d : RM ρ} {x : Parse Instr} {y : Instr × List Byte} (h : checkRM d x = .ok y) :
    (∀ a, d = .mem a → a.indexOk = true) ∧ x = .ok y := by
  cases d with
  | reg r => exact ⟨fun _ hmem => (nomatch hmem), h⟩
  | mem a =>
    obtain ⟨hindex, hx⟩ := checkIndex_eq_ok.mp h
    refine ⟨?_, hx⟩
    rintro _ ⟨⟩
    exact hindex

/-- A row that reads its operand and checks the index has read the operand's bytes, and a well-formed operand. -/
theorem decodeRM_eq_ok {ρ : Type} {ofNum : BitVec 3 → ρ} {num : ρ → BitVec 3} (hnum : ∀ n, num (ofNum n) = n)
    {asz : Size} {m : Byte} {r rest : List Byte} {d : RM ρ} (hd : decodeRM ofNum asz m r = .ok (d, rest))
    {x : Parse Instr} {y : Instr × List Byte} (h : checkRM d x = .ok y) :
    d.wf asz = true ∧ m :: r = encodeRM num (regOf m) d ++ rest ∧ x = .ok y := by
  obtain ⟨hindex, hx⟩ := checkRM_eq_ok h
  unfold decodeRM at hd
  split at hd
  next hmod =>
    cases hd
    refine ⟨rfl, ?_, hx⟩
    rw [encodeRM, hnum, ← hmod, packByte_fields]
    rfl
  next hmod =>
    obtain ⟨a, r', ha, hd⟩ := Parse.andThen_eq_ok.mp hd
    cases hd
    obtain ⟨hwf, hbytes⟩ := decodeMem_eq_ok hmod ha
    exact ⟨hwf (hindex a rfl), hbytes, hx⟩

end Sys2Proof
end

section
/-! Inversion of the opcode map (30_encoding.md R91, R94 to R96, R112): one lemma for each of its functions, then every
opcode, and the bytes an instruction takes with its prefix bytes. -/

namespace Sys2Proof

/-- The bytes `bs` are the opcode and operand bytes of `i` and then `rest`, and `i`, with the prefix bytes `p`, is well
formed where OperandSize is `osz` and AddressSize is `asz`. -/
structure BodyRead (osz asz : Size) (p : Prefixes) (bs : List Byte) (i : Instr) (rest : List Byte) : Prop where
  opsize : ∀ z, i.opsize = some z → osz = z
  operand : i.operandWf asz = true
  prefixes : i.prefixes = p
  bytes : bs = encodeBody i ++ rest

/-- Two rows that share their bytes (R96). -/
theorem BodyRead.bySize {asz : Size} {p : Prefixes} {bs rest : List Byte} {i16 i32 : Instr}
    (h16 : BodyRead .s16 asz p bs i16 rest) (h32 : BodyRead .s32 asz p bs i32 rest) {osz : Size} :
    BodyRead osz asz p bs (Sys2Proof.bySize osz i16 i32) rest := by
  cases osz with
  | s16 => exact h16
  | s32 => exact h32

/-- A row for any OperandSize, or for the one it was read with. -/
theorem BodyRead.of_opsize {osz asz : Size} {p : Prefixes} {bs rest : List Byte} {i : Instr}
    (hz : i.opsize.all (· == osz) = true) (operand : i.operandWf asz = true) (prefixes : i.prefixes = p)
    (bytes : bs = encodeBody i ++ rest) : BodyRead osz asz p bs i rest where
  opsize z h := by
    rw [h] at hz
    exact (eq_of_beq hz).symm
  operand := operand
  prefixes := prefixes
  bytes := bytes

section Rows

variable {osz asz : Size} {p : Prefixes} {r rest : List Byte} {i : Instr}

/-! ### Rows without ModR/M -/

theorem decodeCallRel_eq_ok (h : decodeCallRel osz p r = .ok (i, rest)) : BodyRead osz asz p (0xE8 :: r) i rest := by
  cases osz with
  | s16 =>
    obtain ⟨v, r', hv, h⟩ := Parse.andThen_eq_ok.mp h
    cases h
    exact .of_opsize rfl rfl rfl (congrArg _ (take16_eq_ok.mp hv))
  | s32 =>
    obtain ⟨v, r', hv, h⟩ := Parse.andThen_eq_ok.mp h
    cases h
    exact .of_opsize rfl rfl rfl (congrArg _ (take32_eq_ok.mp hv))

theorem decodeCallPtr_eq_ok (h : decodeCallPtr osz p r = .ok (i, rest)) : BodyRead osz asz p (0x9A :: r) i rest := by
  cases osz with
  | s16 =>
    obtain ⟨off, r1, hoff, h⟩ := Parse.andThen_eq_ok.mp h
    obtain ⟨sel, r2, hsel, h⟩ := Parse.andThen_eq_ok.mp h
    cases h
    refine .of_opsize rfl rfl rfl ?_
    rw [take16_eq_ok.mp hoff, take16_eq_ok.mp hsel]
    rfl
  | s32 =>
    obtain ⟨off, r1, hoff, h⟩ := Parse.andThen_eq_ok.mp h
    obtain ⟨sel, r2, hsel, h⟩ := Parse.andThen_eq_ok.mp h
    cases h
    refine .of_opsize rfl rfl rfl ?_
    rw [take32_eq_ok.mp hoff, take16_eq_ok.mp hsel]
    rfl

theorem decodeCmpAcc_eq_ok (h : decodeCmpAcc osz p r = .ok (i, rest)) : BodyRead osz asz p (0x3D :: r) i rest := by
  cases osz with
  | s16 =>
    obtain ⟨v, r', hv, h⟩ := Parse.andThen_eq_ok.mp h
    cases h
    exact .of_opsize rfl rfl rfl (congrArg _ (take16_eq_ok.mp hv))
  | s32 =>
    obtain ⟨v, r', hv, h⟩ := Parse.andThen_eq_ok.mp h
    cases h
    exact .of_opsize rfl rfl rfl (congrArg _ (take32_eq_ok.mp hv))

/-! ### Rows with ModR/M -/

theorem decodeUnlisted_ne_ok (m : Byte) (y : Instr × List Byte) : decodeUnlisted asz m r ≠ .ok y := by
  rw [decodeUnlisted_eq]
  exact nofun

theorem decodeFF_eq_ok (h : decodeFF osz asz p r = .ok (i, rest)) : BodyRead osz asz p (0xFF :: r) i rest := by
  obtain ⟨m, ops, rfl, hrow⟩ := take8_andThen_eq_ok.mp h
  split_ifs at hrow with hnear hfar hmod
  · obtain ⟨d, r', hd, hrow⟩ := Parse.andThen_eq_ok.mp hrow
    obtain ⟨hwf, hbytes, hok⟩ := decodeRM_eq_ok Reg.num_ofNum hd hrow
    rw [hnear] at hbytes
    cases hok
    refine .bySize ?_ ?_ <;> exact .of_opsize rfl hwf rfl (congrArg _ hbytes)
  · obtain ⟨a, r', ha, hrow⟩ := Parse.andThen_eq_ok.mp hrow
    obtain ⟨hindex, hok⟩ := checkIndex_eq_ok.mp hrow
    obtain ⟨hwf, hbytes⟩ := decodeMem_eq_ok hmod ha
    rw [hfar] at hbytes
    cases hok
    refine .bySize ?_ ?_ <;> exact .of_opsize rfl (hwf hindex) rfl (congrArg _ hbytes)
  · exact absurd hrow (decodeUnlisted_ne_ok m _)

theorem decode80_eq_ok (h : decode80 asz p r = .ok (i, rest)) : BodyRead osz asz p (0x80 :: r) i rest := by
  obtain ⟨m, ops, rfl, hrow⟩ := take8_andThen_eq_ok.mp h
  split_ifs at hrow with hreg
  · obtain ⟨d, r1, hd, hrow⟩ := Parse.andThen_eq_ok.mp hrow
    obtain ⟨v, r2, hv, hrow⟩ := Parse.andThen_eq_ok.mp hrow
    obtain ⟨hwf, hbytes, hok⟩ := decodeRM_eq_ok Reg8.num_ofNum hd hrow
    cases hok
    exact .of_opsize rfl hwf rfl (by simp [encodeBody, hbytes, hreg, take8_eq_ok.mp hv])
  · exact absurd hrow (decodeUnlisted_ne_ok m _)

theorem decode81_eq_ok (h : decode81 osz asz p r = .ok (i, rest)) : BodyRead osz asz p (0x81 :: r) i rest := by
  obtain ⟨m, ops, rfl, hrow⟩ := take8_andThen_eq_ok.mp h
  split_ifs at hrow with hreg
  · obtain ⟨d, r1, hd, hrow⟩ := Parse.andThen_eq_ok.mp hrow
    cases osz with
    | s16 =>
      obtain ⟨v, r2, hv, hrow⟩ := Parse.andThen_eq_ok.mp hrow
      obtain ⟨hwf, hbytes, hok⟩ := decodeRM_eq_ok Reg.num_ofNum hd hrow
      cases hok
      exact .of_opsize rfl hwf rfl (by simp [encodeBody, hbytes, hreg, take16_eq_ok.mp hv])
    | s32 =>
      obtain ⟨v, r2, hv, hrow⟩ := Parse.andThen_eq_ok.mp hrow
      obtain ⟨hwf, hbytes, hok⟩ := decodeRM_eq_ok Reg.num_ofNum hd hrow
      cases hok
      exact .of_opsize rfl hwf rfl (by simp [encodeBody, hbytes, hreg, take32_eq_ok.mp hv])
  · exact absurd hrow (decodeUnlisted_ne_ok m _)

theorem decode83_eq_ok (h : decode83 osz asz p r = .ok (i, rest)) : BodyRead osz asz p (0x83 :: r) i rest := by
  obtain ⟨m, ops, rfl, hrow⟩ := take8_andThen_eq_ok.mp h
  split_ifs at hrow with hreg
  · obtain ⟨d, r1, hd, hrow⟩ := Parse.andThen_eq_ok.mp hrow
    obtain ⟨v, r2, hv, hrow⟩ := Parse.andThen_eq_ok.mp hrow
    obtain ⟨hwf, hbytes, hok⟩ := decodeRM_eq_ok Reg.num_ofNum hd hrow
    cases hok
    have hbody : (0x83 :: m :: ops : List Byte) = 0x83 :: (encodeRM Reg.num 7 d ++ [v]) ++ rest := by
      simp [hbytes, hreg, take8_eq_ok.mp hv]
    refine .bySize ?_ ?_ <;> exact .of_opsize rfl hwf rfl hbody
  · exact absurd hrow (decodeUnlisted_ne_ok m _)

theorem decode38_eq_ok (h : decode38 asz p r = .ok (i, rest)) : BodyRead osz asz p (0x38 :: r) i rest := by
  obtain ⟨m, ops, rfl, hrow⟩ := take8_andThen_eq_ok.mp h
  obtain ⟨d, r', hd, hrow⟩ := Parse.andThen_eq_ok.mp hrow
  obtain ⟨hwf, hbytes, hok⟩ := decodeRM_eq_ok Reg8.num_ofNum hd hrow
  cases hok
  exact .of_opsize rfl hwf rfl (by rw [encodeBody, Reg8.num_ofNum, hbytes]; rfl)

theorem decode39_eq_ok (h : decode39 osz asz p r = .ok (i, rest)) : BodyRead osz asz p (0x39 :: r) i rest := by
  obtain ⟨m, ops, rfl, hrow⟩ := take8_andThen_eq_ok.mp h
  obtain ⟨d, r', hd, hrow⟩ := Parse.andThen_eq_ok.mp hrow
  obtain ⟨hwf, hbytes, hok⟩ := decodeRM_eq_ok Reg.num_ofNum hd hrow
  rw [← Reg.num_ofNum (regOf m)] at hbytes
  cases hok
  refine .bySize ?_ ?_ <;> exact .of_opsize rfl hwf rfl (congrArg _ hbytes)

theorem decode3A_eq_ok (h : decode3A asz p r = .ok (i, rest)) : BodyRead osz asz p (0x3A :: r) i rest := by
  obtain ⟨m, ops, rfl, hrow⟩ := take8_andThen_eq_ok.mp h
  obtain ⟨d, r', hd, hrow⟩ := Parse.andThen_eq_ok.mp hrow
  obtain ⟨hwf, hbytes, hok⟩ := decodeRM_eq_ok Reg8.num_ofNum hd hrow
  cases hok
  exact .of_opsize rfl hwf rfl (by rw [encodeBody, Reg8.num_ofNum, hbytes]; rfl)

theorem decode3B_eq_ok (h : decode3B osz asz p r = .ok (i, rest)) : BodyRead osz asz p (0x3B :: r) i rest := by
  obtain ⟨m, ops, rfl, hrow⟩ := take8_andThen_eq_ok.mp h
  obtain ⟨d, r', hd, hrow⟩ := Parse.andThen_eq_ok.mp hrow
  obtain ⟨hwf, hbytes, hok⟩ := decodeRM_eq_ok Reg.num_ofNum hd hrow
  rw [← Reg.num_ofNum (regOf m)] at hbytes
  cases hok
  refine .bySize ?_ ?_ <;> exact .of_opsize rfl hwf rfl (congrArg _ hbytes)

end Rows

/-! ### Every opcode -/

/-- What the opcode map answers is one of its rows, read from that row's bytes. -/
theorem decodeOpcode_eq_ok {dflt : Size} {p : Prefixes} {bs rest : List Byte} {i : Instr}
    (h : decodeOpcode dflt p bs = .ok (i, rest)) :
    BodyRead (p.operandSize dflt) (p.addressSize dflt) p bs i rest := by
  obtain ⟨op, r, rfl, -⟩ := take8_andThen_eq_ok.mp h
  have hasz : (p.addressSize dflt == p.addressSize dflt) = true := beq_self_eq_true _
  by_cases hscope : op ∈ Machine.scopeOpcodes
  · simp only [Machine.scopeOpcodes, List.mem_cons, List.not_mem_nil, or_false] at hscope
    rcases hscope with rfl | rfl | rfl | rfl | rfl | rfl | rfl | rfl | rfl | rfl | rfl | rfl | rfl | rfl | rfl | rfl |
      rfl | rfl | rfl | rfl | rfl
    -- the opcodes in the order of `scopeOpcodes`, which is that of the opcode map
    · exact decodeCallRel_eq_ok h
    · exact decodeFF_eq_ok h
    · exact decodeCallPtr_eq_ok h
    · cases h
      refine .bySize ?_ ?_ <;> exact .of_opsize rfl rfl rfl rfl
    · cases h
      refine .bySize ?_ ?_ <;> exact .of_opsize rfl rfl rfl rfl
    · cases h
      exact .of_opsize rfl rfl rfl rfl
    · cases h
      exact .of_opsize rfl rfl rfl rfl
    · cases h
      exact .of_opsize rfl rfl rfl rfl
    · obtain ⟨op2, r', rfl, hrow⟩ := take8_andThen_eq_ok.mp h
      by_cases h06 : op2 = 0x06
      · subst h06
        cases h
        exact .of_opsize rfl rfl rfl rfl
      · rw [decodeOpcode_0F_of_ne dflt p h06] at h
        cases h
    · cases h
      exact .of_opsize rfl rfl rfl rfl
    · obtain ⟨v, r', hv, hrow⟩ := Parse.andThen_eq_ok.mp h
      cases hrow
      exact .of_opsize rfl rfl rfl (congrArg _ (take8_eq_ok.mp hv))
    · exact decodeCmpAcc_eq_ok h
    · exact decode80_eq_ok h
    · exact decode81_eq_ok h
    · exact decode83_eq_ok h
    · exact decode38_eq_ok h
    · exact decode39_eq_ok h
    · exact decode3A_eq_ok h
    · exact decode3B_eq_ok h
    · cases h
      exact .of_opsize rfl hasz rfl rfl
    · cases h
      refine .bySize ?_ ?_ <;> exact .of_opsize rfl hasz rfl rfl
  · rw [decodeOpcode_of_notin dflt p hscope] at h
    cases h

theorem BodyRead.wf {dflt : Size} {p : Prefixes} {bs rest : List Byte} {i : Instr}
    (h : BodyRead (p.operandSize dflt) (p.addressSize dflt) p bs i rest) : i.wf dflt = true := by
  obtain ⟨hz, ho, rfl, -⟩ := h
  exact Instr.wf_iff.mpr ⟨hz, ho⟩

/-! ### The prefix bytes before it -/

/-- How many prefix bytes were seen. -/
def SeenPrefixes.count (q : SeenPrefixes) : Nat := q.pfx.count + q.lockRep.isSome.toNat

theorem SeenPrefixes.count_put {q : SeenPrefixes} {x : PrefixByte} (h : q.has x.group = false) :
    (q.put x).count = q.count + 1 := by
  cases x <;> simp_all [SeenPrefixes.has, PrefixByte.group, SeenPrefixes.put, SeenPrefixes.count, Prefixes.count] <;>
    omega

theorem SeenPrefixes.count_of_add {q q' : SeenPrefixes} {x : PrefixByte} (h : q.add x = some q') :
    q'.count = q.count + 1 := by
  rw [SeenPrefixes.add_eq] at h
  split at h
  next => cases h
  next hfree =>
    cases h
    exact SeenPrefixes.count_put (by simpa using hfree)

/-- The scan stops after as many bytes as it has seen prefix bytes. -/
theorem scanPrefixes_eq_ok {q q' : SeenPrefixes} {bs r : List Byte} (h : scanPrefixes q bs = .ok (q', r)) :
    ∃ ps, bs = ps ++ r ∧ q.count + ps.length = q'.count := by
  induction bs generalizing q with
  | nil => cases h
  | cons b bs ih =>
    rw [scanPrefixes] at h
    cases hb : prefixOf b with
    | none =>
      rw [hb] at h
      cases h
      exact ⟨[], rfl, rfl⟩
    | some x =>
      cases hadd : q.add x with
      | none => simp [hb, hadd] at h
      | some q1 =>
        simp only [hb, hadd] at h
        obtain ⟨ps, rfl, hcount⟩ := ih h
        refine ⟨b :: ps, rfl, ?_⟩
        rw [← hcount, SeenPrefixes.count_of_add hadd, List.length_cons]
        omega

theorem lockRepAnswer_eq_ok {l : Option LockRep} {i j : Instr} {r rest : List Byte} :
    lockRepAnswer l i r = .ok (j, rest) ↔ l = none ∧ i = j ∧ r = rest := by
  match l with
  | none => simp [lockRepAnswer]
  | some .lock | some .rep => simp [lockRepAnswer]

theorem encodeBody_length (i : Instr) : (encodeBody i).length = i.bodyLength := by
  have h := encode_length i
  rw [encode, List.length_append, encodePrefixes_length, Instr.length] at h
  exact Nat.add_left_cancel h

/-- Settles O11: what was scanned are the prefix bytes, and what was read after them is the encoding of the body. -/
theorem decodedIsWellFormed : Obligations.DecodedIsWellFormed := by
  intro dflt bs i rest h
  rw [decode_eq] at h
  obtain ⟨q, r, hscan, h⟩ := Parse.andThen_eq_ok.mp h
  obtain ⟨j, r', hop, h⟩ := Parse.andThen_eq_ok.mp h
  obtain ⟨hlock, rfl, rfl⟩ := lockRepAnswer_eq_ok.mp h
  obtain ⟨ps, rfl, hcount⟩ := scanPrefixes_eq_ok hscan
  have hread := decodeOpcode_eq_ok hop
  refine ⟨hread.wf, j.length_le, ps ++ encodeBody j, by rw [hread.bytes, List.append_assoc], ?_⟩
  have hps : ps.length = j.prefixes.count := by
    simpa [SeenPrefixes.count, SeenPrefixes.empty, Prefixes.count, hlock, hread.prefixes] using hcount
  rw [List.length_append, hps, encodeBody_length, Instr.length]

end Sys2Proof
end

section
/-! The tables of effective addresses (30_encoding.md R104, R105, R106). -/

namespace Sys2Proof.Machine

/-- A well-formed memory operand is read from the bytes the encoder writes for it. -/
theorem decodeMem_of_encodeMem {asz : Size} {reg : BitVec 3} {a : Mem} {m : Byte} {ops : List Byte}
    (hw : a.wf asz = true) (he : encodeMem reg a = m :: ops) (rest : List Byte) :
    decodeMem asz m (ops ++ rest) = .ok (a, rest) := by
  obtain ⟨m', ops', he', -, -, hread⟩ := decodeMem_encodeMem asz reg a hw rest
  obtain ⟨rfl, rfl⟩ := List.cons.inj (he.symm.trans he')
  exact hread

/-- A row of the tables: the ModR/M byte with its displacement bytes is an operand with this address and default
segment. -/
def AddressRow (s : State) (asz : Size) (m : Byte) (ops rest : List Byte) (ea : DWord) (seg : SegName) : Prop :=
  ∃ a, decodeMem asz m (ops ++ rest) = .ok (a, rest) ∧ effAddr s a = ea ∧ defaultSegment a = seg

section Rows

variable (s : State) (reg : BitVec 3) (rest : List Byte)

/-! ### AddressSize 16 (R104) -/

theorem addressRow16_none {b : Base16} (hb : b ≠ .bp) :
    AddressRow s .s16 (packByte 0 reg b.num) [] rest ((baseSum16 s b).setWidth 32) (defaultSegment (.a16 b .none)) :=
  ⟨.a16 b .none, decodeMem_of_encodeMem (by simp [Mem.wf, hb]) rfl rest, by simp [effAddr, dispValue], rfl⟩

theorem addressRow16_disp (b : Base16) {d : Disp 16} (hd : d ≠ .none) :
    AddressRow s .s16 (packByte (dispMod d) reg b.num) (dispBytes16 d) rest
      ((baseSum16 s b + dispValue d).setWidth 32) (defaultSegment (.a16 b d)) :=
  ⟨.a16 b d, decodeMem_of_encodeMem (by simp [Mem.wf, hd]) rfl rest, rfl, rfl⟩

theorem addressRow16_direct (w : Word) :
    AddressRow s .s16 (packByte 0 reg 6) (bytes16 w) rest (w.setWidth 32) .ds :=
  ⟨.a16Direct w, decodeMem_of_encodeMem rfl rfl rest, rfl, rfl⟩

/-! ### AddressSize 32 (R105) -/

theorem addressRow32_none {b : Reg} (hesp : b ≠ .esp) (hebp : b ≠ .ebp) :
    AddressRow s .s32 (packByte 0 reg b.num) [] rest (s.reg b) (baseSegment b) :=
  ⟨.a32 b .none, decodeMem_of_encodeMem (by simp [Mem.wf, hesp, hebp]) rfl rest, by simp [effAddr, dispValue], rfl⟩

theorem addressRow32_disp {b : Reg} (hesp : b ≠ .esp) {d : Disp 32} (hd : d ≠ .none) :
    AddressRow s .s32 (packByte (dispMod d) reg b.num) (dispBytes32 d) rest (s.reg b + dispValue d) (baseSegment b) :=
  ⟨.a32 b d, decodeMem_of_encodeMem (by simp [Mem.wf, hesp, hd]) rfl rest, rfl, rfl⟩

theorem addressRow32_direct (v : DWord) : AddressRow s .s32 (packByte 0 reg 5) (bytes32 v) rest v .ds :=
  ⟨.a32Direct v, decodeMem_of_encodeMem rfl rfl rest, rfl, rfl⟩

/-- `rm` = 4 goes on with a SIB byte (R105). -/
theorem decodeMem_sib (mod : BitVec 2) (bs : List Byte) :
    decodeMem .s32 (packByte mod reg 4) bs = decodeSib mod bs := by
  simp [decodeMem, decodeMem32]

end Rows

/-- Settles O18: each row is the decoding of what the encoder writes for its operand. -/
theorem address16FollowsTheTable : Obligations.Address16FollowsTheTable := by
  intro s reg b w rest row sum bx bp si di
  have bare {x : Base16} (hx : x ≠ .bp) := addressRow16_none s reg rest hx
  have disp (x : Base16) :
      AddressRow s .s16 (packByte 1 reg x.num) [b] rest ((baseSum16 s x + b.signExtend 16).setWidth 32)
          (defaultSegment (.a16 x (.d8 b))) ∧
        AddressRow s .s16 (packByte 2 reg x.num) (bytes16 w) rest ((baseSum16 s x + w).setWidth 32)
          (defaultSegment (.a16 x (.full w))) :=
    ⟨addressRow16_disp s reg rest x (d := .d8 b) nofun, addressRow16_disp s reg rest x (d := .full w) nofun⟩
  exact ⟨bare (x := .bxSi) nofun, disp .bxSi, bare (x := .bxDi) nofun, disp .bxDi, bare (x := .bpSi) nofun, disp .bpSi,
    bare (x := .bpDi) nofun, disp .bpDi, bare (x := .si) nofun, disp .si, bare (x := .di) nofun, disp .di,
    addressRow16_direct s reg rest w, disp .bp, bare (x := .bx) nofun, disp .bx⟩

/-- Settles O19: as with AddressSize 16; the row with a SIB byte is the decoder's own. -/
theorem address32FollowsTheTable : Obligations.Address32FollowsTheTable := by
  intro s reg b v rest row sum
  have bare {x : Reg} (hesp : x ≠ .esp) (hebp : x ≠ .ebp) := addressRow32_none s reg rest hesp hebp
  have disp {x : Reg} (hesp : x ≠ .esp) :
      AddressRow s .s32 (packByte 1 reg x.num) [b] rest (s.reg x + b.signExtend 32) (baseSegment x) ∧
        AddressRow s .s32 (packByte 2 reg x.num) (bytes32 v) rest (s.reg x + v) (baseSegment x) :=
    ⟨addressRow32_disp s reg rest hesp (d := .d8 b) nofun, addressRow32_disp s reg rest hesp (d := .full v) nofun⟩
  exact ⟨bare (x := .eax) nofun nofun, disp (x := .eax) nofun, bare (x := .ecx) nofun nofun, disp (x := .ecx) nofun,
    bare (x := .edx) nofun nofun, disp (x := .edx) nofun, bare (x := .ebx) nofun nofun, disp (x := .ebx) nofun,
    fun mod => decodeMem_sib reg mod rest, addressRow32_direct s reg rest v, disp (x := .ebp) nofun,
    bare (x := .esi) nofun nofun, disp (x := .esi) nofun, bare (x := .edi) nofun nofun, disp (x := .edi) nofun⟩

end Sys2Proof.Machine
end

section
/-! The SIB byte (30_encoding.md R106): the operand it gives, and its refusal in the rows with ModR/M. -/

namespace Sys2Proof.Machine

/-! ### The operand -/

/-- `disp` are the bytes, and `dv` the value, of the displacement that a SIB byte calls for after `mod` (R105, R106). -/
def SibDisp (mod : BitVec 2) (base : BitVec 3) (disp : List Byte) (dv : DWord) : Prop :=
  if (base = 5 ∧ mod = 0) ∨ mod = 2 then disp = bytes32 dv
  else if mod = 1 then ∃ b : Byte, disp = [b] ∧ dv = b.signExtend 32
  else disp = [] ∧ dv = 0

/-- Where the SIB byte has a base register, its displacement is one of the three that `mod` tells apart. -/
theorem SibDisp.exists_disp {mod : BitVec 2} {base : BitVec 3} {disp : List Byte} {dv : DWord}
    (h : SibDisp mod base disp dv) (hmod : mod ≠ 3) (hbase : ¬ (base = 5 ∧ mod = 0)) :
    ∃ d : Disp 32, dispMod d = mod ∧ dispBytes32 d = disp ∧ dispValue d = dv := by
  simp only [SibDisp, or_iff_right hbase] at h
  split at h
  next h2 => exact ⟨.full dv, h2.symm, h.symm, rfl⟩
  next h2 =>
    split at h
    next h1 =>
      obtain ⟨b, rfl, rfl⟩ := h
      exact ⟨.d8 b, h1.symm, rfl, rfl⟩
    next h1 =>
      obtain ⟨rfl, rfl⟩ := h
      refine ⟨.none, ?_, rfl, rfl⟩
      by_contra h0
      exact h2 (eq_two_of_mod (Ne.symm h0) h1 hmod)

theorem baseSegment_ofNum (n : BitVec 3) : baseSegment (Reg.ofNum n) = if n = 4 ∨ n = 5 then .ss else .ds := by
  revert n; decide

/-- No index for `index` = 4, and no scale to it then; else the index times `2^ss` (R106). -/
theorem indexValue_decodeIndex (s : State) {ss : BitVec 2} {index : BitVec 3} (base : BitVec 3)
    (h : index ≠ 4 ∨ ss = 0) :
    indexValue s (decodeIndex (packByte ss index base)) =
      if index = 4 then 0 else s.reg (Reg.ofNum index) * BitVec.ofNat 32 (2 ^ ss.toNat) := by
  rw [decodeIndex, regOf_packByte, modOf_packByte]
  by_cases h4 : index = 4
  · have hss : ss = 0 := h.resolve_left fun hne => hne h4
    rw [if_pos ⟨h4, hss⟩, if_pos h4]
    rfl
  · rw [if_neg fun hboth => h4 hboth.1, if_neg h4]
    refine (BitVec.shiftLeft_eq_mul_twoPow _ _).trans (congrArg _ (BitVec.eq_of_toNat_eq ?_))
    rw [BitVec.toNat_twoPow, BitVec.toNat_ofNat]

theorem indexWf_sib (ss : BitVec 2) (index base : BitVec 3) :
    indexWf (decodeIndex (packByte ss index base)) = true ↔ index ≠ 4 ∨ ss = 0 := by
  rw [indexWf_decodeIndex, regOf_packByte, modOf_packByte, Bool.not_eq_true', Bool.and_eq_false_iff,
    beq_eq_false_iff_ne, bne_eq_false_iff_eq]

/-- What a SIB byte and its displacement give, with the index still to be checked. -/
structure SibOperand (s : State) (mod : BitVec 2) (base : BitVec 3) (index : Option (Reg × BitVec 2)) (dv : DWord)
    (a : Mem) : Prop where
  indexOk : a.indexOk = indexWf index
  addr : effAddr s a = (if base = 5 ∧ mod = 0 then 0 else s.reg (Reg.ofNum base)) + indexValue s index + dv
  seg : defaultSegment a = if base = 4 ∨ base = 5 ∧ mod ≠ 0 then .ss else .ds

theorem decodeMem_sibOperand (s : State) (reg : BitVec 3) {mod : BitVec 2} (hmod : mod ≠ 3) (sib : Byte)
    {disp : List Byte} {dv : DWord} (hdisp : SibDisp mod (rmOf sib) disp dv) (rest : List Byte) :
    ∃ a, decodeMem .s32 (packByte mod reg 4) (sib :: disp ++ rest) = .ok (a, rest) ∧
      SibOperand s mod (rmOf sib) (decodeIndex sib) dv a := by
  rw [decodeMem_sib, List.cons_append, decodeSib, take8_cons, Parse.andThen_ok]
  by_cases hbase : rmOf sib = 5 ∧ mod = 0
  · have hbytes : disp = bytes32 dv := by simpa [SibDisp, hbase] using hdisp
    refine ⟨.a32SibNoBase (decodeIndex sib) dv,
      by rw [if_pos hbase, hbytes, take32_bytes32, Parse.andThen_ok], rfl, ?_, ?_⟩
    · simp [hbase, effAddr]
    · simp [hbase, defaultSegment]
  · obtain ⟨d, rfl, rfl, rfl⟩ := hdisp.exists_disp hmod hbase
    refine ⟨.a32Sib (Reg.ofNum (rmOf sib)) (decodeIndex sib) d,
      by rw [if_neg hbase, takeDisp32_dispBytes, Parse.andThen_ok], rfl, by rw [if_neg hbase]; rfl, ?_⟩
    refine (baseSegment_ofNum _).trans (if_congr ?_ rfl rfl)
    grind

/-! ### The refusal -/

section Rows

variable {osz asz : Size} {p : Prefixes} {m : Byte} {a : Mem} {bs rest : List Byte}

theorem decodeRM_of_decodeMem {ρ : Type} (ofNum : BitVec 3 → ρ) (hmod : modOf m ≠ 3)
    (ha : decodeMem asz m bs = .ok (a, rest)) : decodeRM ofNum asz m bs = .ok (.mem a, rest) := by
  rw [decodeRM, if_neg hmod, ha, Parse.andThen_ok]

/-- A row with ModR/M whose memory operand scales a missing index is refused once its bytes are there (R91, R106). -/
theorem decodeOpcode_sibNoIndexScaled (dflt : Size) {op : Byte} (hmod : modOf m ≠ 3)
    (ha : decodeMem (p.addressSize dflt) m bs = .ok (a, rest)) (hindex : a.indexOk = false) (hrest : 4 ≤ rest.length)
    (hop : op ∈ [0x38, 0x39, 0x3A, 0x3B] ∨ op = 0xFF ∧ (regOf m = 2 ∨ regOf m = 3) ∨
      op ∈ [0x80, 0x81, 0x83] ∧ regOf m = 7) :
    decodeOpcode dflt p (op :: m :: bs) = .error .sibNoIndexScaled := by
  match rest with
  | b0 :: b1 :: b2 :: b3 :: r => ?_
  have hword := decodeRM_of_decodeMem Reg.ofNum hmod ha
  have hbyte := decodeRM_of_decodeMem Reg8.ofNum hmod ha
  simp only [List.mem_cons, List.not_mem_nil, or_false] at hop
  rcases hop with (rfl | rfl | rfl | rfl) | ⟨rfl, hreg | hreg⟩ | ⟨rfl | rfl | rfl, hreg⟩
  · refine (?_ : decode38 (p.addressSize dflt) p (m :: bs) = _)
    simp [decode38, hbyte, hindex]
  · refine (?_ : decode39 _ (p.addressSize dflt) p (m :: bs) = _)
    simp [decode39, hword, hindex]
  · refine (?_ : decode3A (p.addressSize dflt) p (m :: bs) = _)
    simp [decode3A, hbyte, hindex]
  · refine (?_ : decode3B _ (p.addressSize dflt) p (m :: bs) = _)
    simp [decode3B, hword, hindex]
  · refine (?_ : decodeFF _ (p.addressSize dflt) p (m :: bs) = _)
    simp [decodeFF, hreg, hword, hindex]
  · refine (?_ : decodeFF _ (p.addressSize dflt) p (m :: bs) = _)
    simpa [decodeFF, hreg, ha, hindex] using hmod
  · refine (?_ : decode80 (p.addressSize dflt) p (m :: bs) = _)
    simp [decode80, hreg, hbyte, hindex]
  · refine (?_ : decode81 (p.operandSize dflt) (p.addressSize dflt) p (m :: bs) = _)
    cases p.operandSize dflt <;> simp [decode81, hreg, hword, hindex, take16, take32]
  · refine (?_ : decode83 _ (p.addressSize dflt) p (m :: bs) = _)
    simp [decode83, hreg, hword, hindex]

end Rows

/-- Settles O20: the operand is that of the base, the index and the displacement; a scale without an index leaves it
unchecked until the row's last byte is read. -/
theorem sibAddressFollowsTheRule : Obligations.SibAddressFollowsTheRule := by
  intro s reg mod ss index base disp rest dv hmod modrm sib noBase hdisp
  have hfields : rmOf sib = base := rmOf_packByte ss index base
  have hbytes : SibDisp mod (rmOf sib) disp dv := by
    rw [hfields]
    exact hdisp
  obtain ⟨a, ha, hsib⟩ := decodeMem_sibOperand s reg hmod sib hbytes rest
  rw [hfields] at hsib
  refine ⟨fun hindex => ⟨a, ha, ?_, ?_, hsib.seg⟩, fun h4 hss hrest dflt p op hasz hop => ?_⟩
  · rw [hsib.indexOk]
    exact (indexWf_sib ss index base).mpr hindex
  · rw [hsib.addr, indexValue_decodeIndex s base hindex]
  · have hnot : a.indexOk = false := by
      rw [hsib.indexOk, ← Bool.not_eq_true, indexWf_sib, not_or, not_not]
      exact ⟨h4, hss⟩
    have hprefix : prefixOf op = none := by
      simp only [List.mem_cons, List.not_mem_nil, or_false] at hop
      rcases hop with (rfl | rfl | rfl | rfl) | ⟨rfl, -⟩ | ⟨rfl | rfl | rfl, -⟩ <;> rfl
    refine decode_encodePrefixes_error dflt p hprefix ?_
    exact decodeOpcode_sibNoIndexScaled dflt (by simpa [modrm] using hmod) (hasz ▸ ha) hnot hrest
      (by simpa [modrm] using hop)

end Sys2Proof.Machine
end

section
/-! What CALL is made of (40_call_near_and_real.md R131 to R143): every near form is `nearCall` and every far form is
`farCall` of its target; a selector and an offset are each one push; pushes into slots that have room fail with #PF
only. -/

namespace Sys2Proof

theorem Size.bytes_eq (z : Size) : z.bytes = 2 ∨ z.bytes = 4 := by cases z <;> decide

theorem Size.bytes_pos (z : Size) : 0 < z.bytes := by cases z <;> decide

end Sys2Proof

namespace Sys2Proof.Machine

/-! ### Every form is one operation -/

theorem exec_nearTarget {s : State} {i : Instr} {z : Size} {tgt : DWord} (h : NearTarget s i z tgt) :
    exec i s = outcome (nearCall z (s.nEip i) tgt s) := by
  cases h with
  | rel16 p rel => rfl
  | rel32 p rel => rfl
  | rm16 p d v h =>
    change execCallRm16 p d s = _
    rw [execCallRm16, h, ok_bind]
  | rm32 p d v h =>
    change execCallRm32 p d s = _
    rw [execCallRm32, h, ok_bind]

theorem exec_farPointer {s : State} {i : Instr} {z : Size} {ptr : FarPtr} (h : FarPointer s i z ptr) :
    exec i s = outcome (farCall Config.padBits z (s.nEip i) ptr s) := by
  cases h with
  | ptr1616 p off sel => rfl
  | ptr1632 p off sel => rfl
  | m1616 p m ptr h =>
    change execCallM1616 p m s = _
    rw [execCallM1616, h, ok_bind]
  | m1632 p m ptr h =>
    change execCallM1632 p m s = _
    rw [execCallM1632, h, ok_bind]

theorem farCall_of_ne_prot {s : State} (hm : s.mode ≠ .prot) (pads : Nat → Word) (z : Size) (ret : DWord)
    (ptr : FarPtr) : farCall pads z ret ptr s = farReal pads z ret ptr s := by
  unfold farCall
  split
  next => rfl
  next => rfl
  next hp => exact absurd hp hm

theorem farCall_of_prot {s : State} (hm : s.mode = .prot) (pads : Nat → Word) (z : Size) (ret : DWord)
    (ptr : FarPtr) : farCall pads z ret ptr s = farProtected pads z ret ptr s := by
  rw [farCall, hm]

/-! ### A selector and an offset are one push each (R75) -/

/-- The number that the push of a selector stores: 32 bits have the next pad above it. -/
def selectorSlot (pads : Nat → Word) (z : Size) (sel : Word) (s : State) : Nat :=
  match z with
  | .s16 => sel.toNat
  | .s32 => (pads s.draws ++ sel).toNat

/-- The number that the push of an offset stores. -/
def offsetSlot (z : Size) (v : DWord) : Nat :=
  match z with
  | .s16 => (low16 v).toNat
  | .s32 => v.toNat

/-- The pad of a 32-bit push of a selector is drawn. -/
def State.drawPad (z : Size) (s : State) : State :=
  match z with
  | .s16 => s
  | .s32 => s.setDraws (s.draws + 1)

theorem pushSelector_eq_push (pads : Nat → Word) (z : Size) (sel : Word) (s : State) :
    pushSelector pads z sel s = push z.bytes (selectorSlot pads z sel s) (s.drawPad z) := by
  cases z <;> rfl

theorem pushOffsetValue_eq_push (z : Size) (v : DWord) (s : State) :
    pushOffsetValue z v s = push z.bytes (offsetSlot z v) s := by
  cases z <;> rfl

/-- The return address is a list of two pushes. -/
theorem pushReturn_eq_pushList (pads : Nat → Word) (z : Size) (sel : Word) (ret : DWord) (s : State) :
    pushReturn pads z sel ret s =
      pushList z.bytes [selectorSlot pads z sel s, offsetSlot z ret] (s.drawPad z) := by
  have hend (x : Res State) : (x >>= fun t => .ok t) = x := bind_pure x
  simp only [pushReturn, pushList, pushSelector_eq_push, pushOffsetValue_eq_push, hend]

/-- The selector's two bytes are the low bytes of its slot. -/
theorem byte_selectorSlot (pads : Nat → Word) (z : Size) (sel : Word) (s : State) {k : Nat} (hk : k < 2) :
    BitVec.ofNat 8 (selectorSlot pads z sel s / 2 ^ (8 * k)) = sel.extractLsb' (8 * k) 8 := by
  cases z with
  | s16 => exact ofNat_div_eq_extract sel k
  | s32 =>
    refine (ofNat_div_eq_extract (pads s.draws ++ sel) k).trans ?_
    exact BitVec.extractLsb'_append_eq_of_add_le (by omega)

theorem byte_offsetSlot {z : Size} (v : DWord) {k : Nat} (hk : k < z.bytes) :
    BitVec.ofNat 8 (offsetSlot z v / 2 ^ (8 * k)) = v.extractLsb' (8 * k) 8 := by
  cases z with
  | s16 =>
    have hk2 : k < 2 := hk
    refine (ofNat_div_eq_extract (low16 v) k).trans ?_
    rw [low16, BitVec.extractLsb'_extractLsb'_of_le (by omega)]
  | s32 => exact ofNat_div_eq_extract v k

theorem pushFrame_drawPad (z : Size) (s : State) : PushFrame s (s.drawPad z) := by
  cases z <;> constructor <;> simp [State.drawPad]

theorem stackSlot_drawPad (z : Size) (s : State) (n j : Nat) : stackSlot (s.drawPad z) n j = stackSlot s n j := by
  cases z <;> rfl

theorem stackSlot_one (s : State) (n : Nat) : stackSlot s n 1 = linearAddr s.segs.ss (pushOffset s n) := by
  rw [stackSlot, Nat.one_mul, pushOffset]

/-! ### Pushes that fail with #PF only (R76, R77, R264) -/

theorem raise_congr {s t : State} (h : t.mode = s.mode) (x : Exc) (code : Word) : raise t x code = raise s x code := by
  rw [raise, h, raise]

/-- `x`, computed at `s`, fails with #PF only. -/
def PageFaultsOnly {α : Type} (s : State) (x : Res α) : Prop := ∀ f, x = .error f → ∃ code, f = raise s .pf code

theorem PageFaultsOnly.congr {α : Type} {s t : State} {x : Res α} (hx : PageFaultsOnly t x) (h : t.mode = s.mode) :
    PageFaultsOnly s x := by
  intro f hf
  obtain ⟨code, rfl⟩ := hx f hf
  exact ⟨code, raise_congr h _ _⟩

theorem PageFaultsOnly.bind {s : State} {x : Res State} {g : State → Res State} (hx : PageFaultsOnly s x)
    (hmode : ∀ t, x = .ok t → t.mode = s.mode) (hg : ∀ t, x = .ok t → PageFaultsOnly t (g t)) :
    PageFaultsOnly s (x >>= g) := by
  intro f hf
  rcases bind_eq_error.mp hf with hxf | ⟨t, ht, hgf⟩
  · exact hx f hxf
  · exact (hg t ht).congr (hmode t ht) f hgf

theorem pageFaultsOnly_memWrite (s : State) (c : BitVec 2) (a : DWord) (n v : Nat) :
    PageFaultsOnly s (memWrite s c a n v) := by
  intro f hf
  rcases bind_eq_error.mp hf with hphys | ⟨_, -, hok⟩
  · exact physAddrs_error hphys
  · cases hok

/-- The store of the Accessed bit fails with #PF only (R155). -/
theorem pageFaultsOnly_markAccessed (d : Desc) (s : State) : PageFaultsOnly s (markAccessed d s) := by
  unfold markAccessed
  split
  · simp [PageFaultsOnly]
  · exact pageFaultsOnly_memWrite s _ _ _ _

theorem slotsLegal_of_stackRoom {s : State} {m n : Nat} (hn : 0 < n) (h : stackRoom s (m * n) n = true) :
    SlotsLegal m n s := fun _ hj1 hjm => stackRoom_legal hn h hj1 hjm

theorem slotsLegal_one_of_stackRoom {s : State} {n : Nat} (hn : 0 < n) (h : stackRoom s n n = true) :
    SlotsLegal 1 n s := slotsLegal_of_stackRoom hn (by rwa [Nat.one_mul])

theorem SlotsLegal.drawPad {m n : Nat} {s : State} (h : SlotsLegal m n s) (z : Size) :
    SlotsLegal m n (s.drawPad z) := by
  cases z <;> exact h

/-- `x` are pushes at `s`: if they answer a state it has the frame of a push and `m` more slots of `n` bytes that pass
the check, and they fail with #PF only. -/
structure PushesFrom (m n : Nat) (s : State) (x : Res State) : Prop where
  frame : ∀ t, x = .ok t → PushFrame s t
  slots : ∀ t, x = .ok t → SlotsLegal m n t
  fault : PageFaultsOnly s x

theorem PushesFrom.bind {m l n : Nat} {s : State} {x : Res State} {g : State → Res State} (hx : PushesFrom m n s x)
    (hg : ∀ t, SlotsLegal m n t → PushesFrom l n t (g t)) : PushesFrom l n s (x >>= g) where
  frame u hu := by
    obtain ⟨t, ht, hgu⟩ := bind_eq_ok.mp hu
    exact (hx.frame t ht).trans ((hg t (hx.slots t ht)).frame u hgu)
  slots u hu := by
    obtain ⟨t, ht, hgu⟩ := bind_eq_ok.mp hu
    exact (hg t (hx.slots t ht)).slots u hgu
  fault := hx.fault.bind (fun t ht => (hx.frame t ht).mode) fun t ht => (hg t (hx.slots t ht)).fault

theorem pushesFrom_push {m n : Nat} {s : State} (v : Nat) (h : SlotsLegal (m + 1) n s) :
    PushesFrom m n s (push n v s) :=
  ⟨fun _ => pushFrame_push, fun _ => h.push, fun _ hf => physAddrs_error ((push_eq_error h.first).mp hf)⟩

theorem pushesFrom_pushOffsetValue {m : Nat} {z : Size} {s : State} (v : DWord)
    (h : SlotsLegal (m + 1) z.bytes s) : PushesFrom m z.bytes s (pushOffsetValue z v s) := by
  rw [pushOffsetValue_eq_push]
  exact pushesFrom_push _ h

theorem pushesFrom_pushSelector {m : Nat} {z : Size} {s : State} (pads : Nat → Word) (sel : Word)
    (h : SlotsLegal (m + 1) z.bytes s) : PushesFrom m z.bytes s (pushSelector pads z sel s) := by
  rw [pushSelector_eq_push]
  have hdraw := pushFrame_drawPad z s
  have hpush := pushesFrom_push (selectorSlot pads z sel s) (h.drawPad z)
  exact ⟨fun t ht => hdraw.trans (hpush.frame t ht), hpush.slots, hpush.fault.congr hdraw.mode⟩

theorem pushesFrom_pushReturn {m : Nat} {z : Size} {s : State} (pads : Nat → Word) (sel : Word) (ret : DWord)
    (h : SlotsLegal (m + 2) z.bytes s) : PushesFrom m z.bytes s (pushReturn pads z sel ret s) :=
  (pushesFrom_pushSelector pads sel h).bind fun _ ht => pushesFrom_pushOffsetValue ret ht

/-- The pushes of a return address that has room fail with #PF only (R76). -/
theorem pageFaultsOnly_pushReturn {z : Size} {s : State} (pads : Nat → Word) (sel : Word) (ret : DWord)
    (hroom : stackRoom s (2 * z.bytes) z.bytes = true) : PageFaultsOnly s (pushReturn pads z sel ret s) :=
  (pushesFrom_pushReturn (m := 0) pads sel ret (slotsLegal_of_stackRoom z.bytes_pos hroom)).fault

theorem pushesFrom_pushList {m n : Nat} {vs : List Nat} {s : State} (h : SlotsLegal (m + vs.length) n s) :
    PushesFrom m n s (pushList n vs s) := by
  induction vs generalizing s with
  | nil =>
    have hdone {t : State} (ht : pushList n [] s = .ok t) : s = t := Except.ok.inj ht
    exact ⟨fun t ht => hdone ht ▸ PushFrame.refl s, fun t ht => hdone ht ▸ h, by simp [PageFaultsOnly, pushList]⟩
  | cons v r ih => exact (pushesFrom_push (m := m + r.length) v h).bind fun _ ht => ih ht

end Sys2Proof.Machine
end

section
/-! Near CALL (40_call_near_and_real.md R131 to R137), and the faults of a CALL that is near, or far outside Protected
Mode, in their order. -/

namespace Sys2Proof.Machine

/-! ### The checks of a near CALL and what follows them (R131) -/

section Near

variable {z : Size} {ret tgt : DWord} {s : State}

theorem nearCall_noRoom (h : stackRoom s z.bytes z.bytes = false) : nearCall z ret tgt s = .error (stackFault s) := by
  rw [nearCall, h, require_false, error_bind]

theorem nearCall_beyond (h : stackRoom s z.bytes z.bytes = true) (ht : s.segs.cs.limit < tgt) :
    nearCall z ret tgt s = .error (raise s .gp 0) := by
  rw [nearCall, h, require_true, ok_bind, decide_eq_false (BitVec.not_le.mpr ht), require_false, error_bind]

theorem nearCall_checked (h : stackRoom s z.bytes z.bytes = true) (ht : tgt ≤ s.segs.cs.limit) :
    nearCall z ret tgt s = push z.bytes (offsetSlot z ret) s >>= fun t => .ok (t.setEip tgt) := by
  rw [nearCall, h, require_true, ok_bind, decide_eq_true ht, require_true, ok_bind, pushOffsetValue_eq_push]

end Near

/-! ### Completion (R131 to R136) -/

/-- The bytes of a word as a number are those of an instruction's word (R64, R65). -/
theorem leBytes_toNat_word (w : Word) : leBytes 2 w.toNat = bytes16 w := by
  rw [leBytes_eq_map, List.map_congr_left fun k _ => ofNat_div_eq_extract w k]
  rfl

theorem leBytes_toNat_dword (v : DWord) : leBytes 4 v.toNat = bytes32 v := by
  rw [leBytes_eq_map, List.map_congr_left fun k _ => ofNat_div_eq_extract v k]
  rfl

theorem low16_eq_setWidth (v : DWord) : low16 v = v.setWidth 16 := by
  apply BitVec.eq_of_toNat_eq
  simp [low16]

/-- A push and a new EIP change nothing but the stack pointer, memory and EIP. -/
theorem kept_setEip_of_pushFrame {s u : State} (h : PushFrame s u) (hdraws : u.draws = s.draws) (tgt : DWord) :
    Kept [.esp] [] s (u.setEip tgt) where
  regs := (onlyPushed_of_frame h).regs
  flags j _ _ := congrArg (·.getLsbD j) h.eflags
  segs := h.segs
  cr0 := h.cr0
  system := { h.systemKept with }
  draws := hdraws

/-- Settles O46: past the checks a near CALL is one push, then EIP. -/
theorem nearCallCompletes : Obligations.NearCallCompletes := by
  intro s i z tgt as htgt hwf hroom hlim has ret
  rw [stackSlot_one] at has
  have hslots := slotsLegal_one_of_stackRoom z.bytes_pos hroom
  obtain ⟨u, hpush⟩ : ∃ u, push z.bytes (offsetSlot z ret) s = .ok u :=
    ⟨_, push_eq_ok.mpr ⟨hslots.first, as, has, rfl⟩⟩
  obtain ⟨hbelow, hhigh, hdraws⟩ := push_lowered hpush
  refine ⟨u.setEip tgt, ?_, rfl, stackLowered_of_below z.bytes hbelow hhigh,
    kept_setEip_of_pushFrame (pushFrame_push hpush) hdraws tgt, ?_⟩
  · rw [exec_nearTarget htgt, outcome_eq_next, nearCall_checked hroom hlim]
    exact bind_eq_ok.mpr ⟨u, hpush, rfl⟩
  · have hstored := push_stored hwf has hpush
    cases z with
    | s16 => rwa [offsetSlot, Size.bytes, leBytes_toNat_word, low16_eq_setWidth] at hstored
    | s32 => rwa [offsetSlot, Size.bytes, leBytes_toNat_dword] at hstored

/-! ### The operand comes first (R135 to R137) -/

/-- A near CALL that completes is at its target. -/
theorem eip_of_nearTarget {s t : State} {i : Instr} {z : Size} {tgt : DWord} (htgt : NearTarget s i z tgt)
    (h : exec i s = .next t) : t.eip = tgt := by
  rw [exec_nearTarget htgt, outcome_eq_next, nearCall_eq_ok] at h
  obtain ⟨-, -, u, -, rfl⟩ := h
  rfl

/-- Settles O48: the target of an indirect CALL is its operand as read from the state at the start of the step. -/
theorem indirectCallReadsOperandFirst : Obligations.IndirectCallReadsOperandFirst := fun p s _ =>
  ⟨eip_of_nearTarget (.rm16 p _ (s.reg16 .esp) rfl), eip_of_nearTarget (.rm32 p _ (s.reg .esp) rfl),
    fun _ v hv => eip_of_nearTarget (.rm16 p _ v hv), fun _ v hv => eip_of_nearTarget (.rm32 p _ v hv)⟩

theorem exec_callRm16_error {p : Prefixes} {d : RM Reg} {s : State} {f : Fault} (h : readRM16 p d s = .error f) :
    exec (.callRm16 p d) s = .fault f := by
  change execCallRm16 p d s = _
  rw [execCallRm16, h, error_bind, outcome_eq_fault]

theorem exec_callRm32_error {p : Prefixes} {d : RM Reg} {s : State} {f : Fault} (h : readRM32 p d s = .error f) :
    exec (.callRm32 p d) s = .fault f := by
  change execCallRm32 p d s = _
  rw [execCallRm32, h, error_bind, outcome_eq_fault]

theorem readRM16_mem_eq_error {p : Prefixes} {m : Mem} {s : State} {f : Fault} :
    readRM16 p (.mem m) s = .error f ↔ segRead s (segOf p m) (effAddr s m) 2 = .error f := map_eq_error

theorem readRM32_mem_eq_error {p : Prefixes} {m : Mem} {s : State} {f : Fault} :
    readRM32 p (.mem m) s = .error f ↔ segRead s (segOf p m) (effAddr s m) 4 = .error f := map_eq_error

/-! ### The faults in their order (R131, R143, R268) -/

section Far

variable {pads : Nat → Word} {z : Size} {ret : DWord} {ptr : FarPtr} {s : State}

theorem farReal_noRoom (h : stackRoom s (2 * z.bytes) z.bytes = false) :
    farReal pads z ret ptr s = .error (stackFault s) := by
  rw [farReal, h, require_false, error_bind]

theorem farReal_beyond (h : stackRoom s (2 * z.bytes) z.bytes = true) (ho : 0xFFFF < ptr.off) :
    farReal pads z ret ptr s = .error (raise s .gp 0) := by
  rw [farReal, h, require_true, ok_bind, decide_eq_false (BitVec.not_le.mpr ho), require_false, error_bind]

end Far

/-- A slot of a near CALL that does not translate is its fault, which is #PF. -/
theorem exec_nearTarget_pageFault {s : State} {i : Instr} {z : Size} {tgt : DWord} (htgt : NearTarget s i z tgt)
    (hroom : stackRoom s z.bytes z.bytes = true) (hlim : tgt ≤ s.segs.cs.limit) {f : Fault}
    (hf : physAddrs s .write s.cpl z.bytes (stackSlot s z.bytes 1) = .error f) :
    exec i s = .fault f ∧ ∃ code, f = raise s .pf code := by
  have hslots := slotsLegal_one_of_stackRoom z.bytes_pos hroom
  refine ⟨?_, physAddrs_error hf⟩
  rw [stackSlot_one] at hf
  rw [exec_nearTarget htgt, nearCall_checked hroom hlim, (push_eq_error hslots.first).mpr hf, error_bind,
    outcome_eq_fault]

/-- Settles O47: the operand, the room, the target, the slot, each check with its own fault. -/
theorem callFaultOrder : Obligations.CallFaultOrder := by
  intro s i z code
  refine ⟨fun p d f => exec_callRm16_error, fun p d f => exec_callRm32_error, fun p m => ⟨?_, ?_, ?_, ?_⟩,
    fun tgt htgt => ⟨fun hroom => ?_, fun hroom hlim => ?_,
      fun hroom hlim f hf => exec_nearTarget_pageFault htgt hroom hlim hf⟩,
    fun ptr hptr hm => ⟨fun hroom => ?_, fun hroom hoff => ?_⟩⟩
  · exact fun hl => readRM16_mem_eq_error.mpr (segRead_illegal hl)
  · exact fun hl => readRM32_mem_eq_error.mpr (segRead_illegal hl)
  · exact fun f hl hf => segRead_error hl (readRM16_mem_eq_error.mp hf)
  · exact fun f hl hf => segRead_error hl (readRM32_mem_eq_error.mp hf)
  · rw [exec_nearTarget htgt, nearCall_noRoom hroom, stackFault, raise_zero, outcome_eq_fault]
  · rw [exec_nearTarget htgt, nearCall_beyond hroom hlim, raise_zero, outcome_eq_fault]
  · rw [exec_farPointer hptr, farCall_of_ne_prot hm, farReal_noRoom hroom, stackFault, raise_zero, outcome_eq_fault]
  · rw [exec_farPointer hptr, farCall_of_ne_prot hm, farReal_beyond hroom hoff, raise_zero, outcome_eq_fault]

end Sys2Proof.Machine
end

section
/-! Far CALL without a task switch (40_call_near_and_real.md R138 to R143, 41_call_far_protected.md R155 to R167): the
pushes, the store of the Accessed bit, the load of CS and EIP. -/

namespace Sys2Proof.Machine

/-! ### The return address with paging off (R143, R158) -/

theorem pushReturn_off {s : State} {z : Size} (pads : Nat → Word) (sel : Word) (ret : DWord) (hp : s.pagingOn = false)
    (hwf : s.mem.wf = true) (hroom : stackRoom s (2 * z.bytes) z.bytes = true) :
    ∃ u, pushReturn pads z sel ret s = .ok u ∧ ReturnPushed z sel ret s u := by
  have hdraw := pushFrame_drawPad z s
  have hn := z.bytes_eq
  obtain ⟨u, hpush, hlow, hstored⟩ := pushList_stored hn [selectorSlot pads z sel s, offsetSlot z ret]
    (s := s.drawPad z) (hdraw.pagingOn.trans hp) (hdraw.wf hwf) (by simp; omega)
    ((slotsLegal_of_stackRoom z.bytes_pos hroom).drawPad z)
  have hframe : PushFrame s u := hdraw.trans hlow.frame
  have hslot (j : Nat) : stackSlot (s.drawPad z) z.bytes j = stackSlot s z.bytes j := stackSlot_drawPad z s _ j
  have hesp : (s.drawPad z).reg .esp = s.reg .esp := by cases z <;> rfl
  have hmem : (s.drawPad z).mem = s.mem := by cases z <;> rfl
  refine ⟨u, by rw [pushReturn_eq_pushList, hpush], ?_, fun k hk => ?_, fun k hk => ?_, fun a ha => ?_,
    onlyPushed_of_frame hframe⟩
  · refine stackLowered_of_below _ (fun e => ?_) fun hz => ?_
    · have := hlow.top e
      rwa [hdraw.stackSize, hesp] at this
    · rw [hlow.high (hdraw.stackSize.trans hz), hesp]
  · rw [← byte_offsetSlot ret hk, ← hslot 2]
    exact hstored.values 1 _ k rfl hk
  · rw [← byte_selectorSlot pads z sel s hk, ← hslot 1]
    exact hstored.values 0 _ k rfl (by omega)
  · rw [hstored.others a, hmem]
    intro j hj b hb
    rw [hslot] at hb
    refine ha b (List.mem_append.mpr ?_)
    match j, hj with
    | 0, _ => exact .inl hb
    | 1, _ => exact .inr hb

/-- Past its checks a far CALL outside Protected Mode is the pushes, then CS and EIP. -/
theorem exec_farReal {s : State} {i : Instr} {z : Size} {ptr : FarPtr} (hptr : FarPointer s i z ptr)
    (hm : s.mode ≠ .prot) (hroom : stackRoom s (2 * z.bytes) z.bytes = true) (hoff : ptr.off ≤ 0xFFFF) :
    exec i s = outcome (pushReturn Config.padBits z s.segs.cs.sel (s.nEip i) s >>= fun t =>
      .ok ((t.setCs (realSeg t.segs.cs ptr.sel)).setEip ptr.off)) := by
  rw [exec_farPointer hptr, farCall_of_ne_prot hm, farReal, hroom, require_true, ok_bind, decide_eq_true hoff,
    require_true, ok_bind]

section RealTransfer

variable {s : State} {i : Instr} {z : Size} {ptr : FarPtr} (hptr : FarPointer s i z ptr) (hm : s.mode ≠ .prot)
  (hroom : stackRoom s (2 * z.bytes) z.bytes = true) (hoff : ptr.off ≤ 0xFFFF)

include hptr hm hroom hoff

theorem exec_farReal_pushed {u : State} (hu : pushReturn Config.padBits z s.segs.cs.sel (s.nEip i) s = .ok u) :
    exec i s = .next ((u.setCs (realSeg s.segs.cs ptr.sel)).setEip ptr.off) := by
  rw [exec_farReal hptr hm hroom hoff, hu, ok_bind, (pushFrame_pushReturn hu).segs, outcome_eq_next]

theorem exec_farReal_fault {f : Fault} (hf : pushReturn Config.padBits z s.segs.cs.sel (s.nEip i) s = .error f) :
    exec i s = .fault f ∧ ∃ code, f = raise s .pf code := by
  refine ⟨?_, pageFaultsOnly_pushReturn _ _ _ hroom f hf⟩
  rw [exec_farReal hptr hm hroom hoff, hf, error_bind, outcome_eq_fault]

end RealTransfer

/-- Settles O49: with paging off the two pushes succeed. -/
theorem farCallRealCompletes : Obligations.FarCallRealCompletes := by
  intro s i z ptr hptr hm hp hwf hroom hoff
  obtain ⟨u, hpush, hreturn⟩ := pushReturn_off Config.padBits s.segs.cs.sel (s.nEip i) hp hwf hroom
  exact ⟨u, hreturn, exec_farReal_pushed hptr hm hroom hoff hpush⟩

/-! ### The transfer to a code segment (R155) -/

/-- LoadCS, then EIP: what every far CALL to a code segment in Protected Mode ends with. -/
def transfer (sel : Word) (d : Desc) (cpl : BitVec 2) (tgt : DWord) (s : State) : Res State := do
  let t ← loadCs sel d cpl s
  .ok (t.setEip tgt)

theorem transfer_of_marked {d : Desc} {s v : State} (h : markAccessed d s = .ok v) (sel : Word) (cpl : BitVec 2)
    (tgt : DWord) :
    transfer sel d cpl tgt s = .ok ((v.setCs (segOfDesc (withRpl sel cpl) d.bits)).setEip tgt) := by
  rw [transfer, loadCs_eq_ok.mpr ⟨v, h, rfl⟩, ok_bind]

theorem transfer_eq_error {sel : Word} {d : Desc} {cpl : BitVec 2} {tgt : DWord} {s : State} {f : Fault} :
    transfer sel d cpl tgt s = .error f ↔ markAccessed d s = .error f := by
  rw [transfer, loadCs]
  cases markAccessed d s <;> simp

theorem enterSegment_checked {pads : Nat → Word} {z : Size} {ret : DWord} {sel : Word} {d : Desc} {tgt : DWord}
    {s : State} (hroom : stackRoom s (2 * z.bytes) z.bytes = true) (htgt : tgt ≤ descLimit d.bits) :
    enterSegment pads z ret sel d tgt s =
      pushReturn pads z s.segs.cs.sel ret s >>= transfer sel d s.cpl tgt := by
  rw [enterSegment, hroom, require_true, ok_bind, decide_eq_true htgt, require_true, ok_bind]
  rfl

section Transfer

variable {s : State} {i : Instr} {x : Res State} {sel : Word} {d : Desc} {cpl : State → BitVec 2} {tgt : DWord}
  (hexec : exec i s = outcome (x >>= fun t => transfer sel d (cpl t) tgt t))

include hexec

theorem exec_transfer {u v : State} (hu : x = .ok u) (hv : markAccessed d u = .ok v) :
    exec i s = .next ((v.setCs (segOfDesc (withRpl sel (cpl u)) d.bits)).setEip tgt) := by
  rw [hexec, hu, ok_bind, transfer_of_marked hv, outcome_eq_next]

/-- The fault of the pushes, or of the store of the Accessed bit after them, is the instruction's, and it is #PF. -/
theorem exec_transfer_fault (hx : PageFaultsOnly s x) (hmode : ∀ u, x = .ok u → u.mode = s.mode) {f : Fault}
    (hf : x = .error f ∨ ∃ u, x = .ok u ∧ markAccessed d u = .error f) :
    exec i s = .fault f ∧ ∃ code, f = raise s .pf code := by
  constructor
  · rw [hexec, outcome_eq_fault, bind_eq_error]
    simpa only [transfer_eq_error] using hf
  · exact hx.bind hmode (fun u _ => pageFaultsOnly_markAccessed d u) f (bind_eq_error.mpr hf)

end Transfer

/-! ### The stack switch of a call to more privilege (R164 to R167) -/

theorem readParams_length {s : State} {n count i : Nat} {ps : List Nat} (h : readParams s n count i = .ok ps) :
    ps.length = count := by
  induction count generalizing i ps with
  | zero =>
    cases h
    rfl
  | succ count ih =>
    simp only [readParams, bind_eq_ok, Except.ok.injEq] at h
    obtain ⟨v, -, r, hr, rfl⟩ := h
    rw [List.length_cons, ih hr]

/-- On the new stack at the new CPL, before the first push. -/
def State.onNewStack (inner : InnerStack) (sd : Desc) (s : State) : State :=
  ((s.setSs (segOfDesc inner.ss sd.bits)).setStackPtr (segStackSize (segOfDesc inner.ss sd.bits)) inner.esp).setCpl
    (descDpl sd.bits)

/-- What is pushed on the new stack: the pointer of the old stack of `s`, the parameters, the return address. -/
def pushSwitched (pads : Nat → Word) (z : Size) (ret : DWord) (params : List Nat) (s t : State) : Res State := do
  let t ← pushSelector pads z s.segs.ss.sel t
  let t ← pushOffsetValue z (stackTop s.stackSize (s.reg .esp)) t
  let t ← pushList z.bytes params.reverse t
  pushReturn pads z s.segs.cs.sel ret t

theorem switchStack_eq (pads : Nat → Word) (z : Size) (ret : DWord) (inner : InnerStack) (sd : Desc)
    (params : List Nat) (s : State) :
    switchStack pads z ret inner sd params s =
      markAccessed sd s >>= fun u => pushSwitched pads z ret params s (u.onNewStack inner sd) := by
  rw [switchStack, loadSs]
  cases markAccessed sd s <;> rfl

theorem mode_onNewStack (inner : InnerStack) (sd : Desc) (s : State) : (s.onNewStack inner sd).mode = s.mode := by
  simp [State.onNewStack]

theorem segs_onNewStack (inner : InnerStack) (sd : Desc) (s : State) :
    (s.onNewStack inner sd).segs = { s.segs with ss := segOfDesc inner.ss sd.bits } := by
  simp [State.onNewStack]

theorem stackSize_onNewStack {s : State} (hm : s.mode = .prot) (inner : InnerStack) (sd : Desc) :
    (s.onNewStack inner sd).stackSize = segStackSize (segOfDesc inner.ss sd.bits) := by
  rw [State.stackSize, mode_onNewStack, hm, segs_onNewStack]
  rfl

/-- Offsets below a stack pointer that was just written. -/
theorem stackBelow_of_setStackPtr (s : State) (z : Size) (v : DWord) (d : Nat) :
    stackBelow z ((s.setStackPtr z v).reg .esp) d = stackBelow z v d := by
  cases z <;> simp [State.setStackPtr, stackBelow]

/-- Room on the new stack is that its slots pass the check once it is the stack (R166). -/
theorem slotsLegal_onNewStack {s : State} {inner : InnerStack} {sd : Desc} {m n : Nat} (hm : s.mode = .prot)
    (hn : 0 < n)
    (h : stackRoomIn .prot (segOfDesc inner.ss sd.bits) (segStackSize (segOfDesc inner.ss sd.bits)) inner.esp
      (m * n) n = true) :
    SlotsLegal m n (s.onNewStack inner sd) := by
  refine slotsLegal_of_stackRoom hn ?_
  rw [stackRoom, mode_onNewStack, hm, stackSize_onNewStack hm, segs_onNewStack]
  simpa only [stackRoomIn, State.onNewStack, State.reg_setCpl, stackBelow_of_setStackPtr] using h

theorem pushesFrom_pushSwitched {m : Nat} {z : Size} {t : State} (pads : Nat → Word) (ret : DWord) (params : List Nat)
    (s : State) (h : SlotsLegal (m + 2 + params.length + 2) z.bytes t) :
    PushesFrom m z.bytes t (pushSwitched pads z ret params s t) := by
  refine (pushesFrom_pushSelector pads _ h).bind fun _ hsel => ?_
  refine (pushesFrom_pushOffsetValue _ hsel).bind fun _ hoff => ?_
  refine (pushesFrom_pushList (m := m + 2) (by rwa [List.length_reverse])).bind fun _ hparams => ?_
  exact pushesFrom_pushReturn pads _ ret hparams

/-- With room on the new stack the stack switch fails with #PF only (R166, R167). -/
theorem pageFaultsOnly_switchStack {z : Size} {inner : InnerStack} {sd : Desc} {params : List Nat} {s : State}
    (pads : Nat → Word) (ret : DWord) (hm : s.mode = .prot)
    (hroom : stackRoomIn .prot (segOfDesc inner.ss sd.bits) (segStackSize (segOfDesc inner.ss sd.bits)) inner.esp
      ((params.length + 4) * z.bytes) z.bytes = true) :
    PageFaultsOnly s (switchStack pads z ret inner sd params s) := by
  rw [switchStack_eq]
  have hmode {u : State} (hu : markAccessed sd s = .ok u) : u.mode = s.mode := (pushFrame_markAccessed hu).mode
  refine (pageFaultsOnly_markAccessed sd s).bind (fun u => hmode) fun u hu => ?_
  have hslots := slotsLegal_onNewStack ((hmode hu).trans hm) z.bytes_pos hroom
  rw [show params.length + 4 = 0 + 2 + params.length + 2 by omega] at hslots
  have hpushes := pushesFrom_pushSwitched pads ret params s hslots
  exact hpushes.fault.congr (mode_onNewStack inner sd u)

/-- A stack switch that answers a state marked the new stack's descriptor and pushed on the new stack (R167). -/
theorem switchStack_frame {pads : Nat → Word} {z : Size} {ret : DWord} {inner : InnerStack} {sd : Desc}
    {params : List Nat} {s t : State} (h : switchStack pads z ret inner sd params s = .ok t) :
    ∃ u, PushFrame s u ∧ PushFrame (u.onNewStack inner sd) t := by
  simp only [switchStack_eq, pushSwitched, bind_eq_ok] at h
  obtain ⟨u, hu, a, ha, b, hb, c, hc, ht⟩ := h
  exact ⟨u, pushFrame_markAccessed hu, (pushFrame_pushSelector ha).trans
    ((pushFrame_pushOffsetValue hb).trans ((pushFrame_pushList hc).trans (pushFrame_pushReturn ht)))⟩

section Switched

variable {pads : Nat → Word} {z : Size} {ret : DWord} {inner : InnerStack} {sd : Desc} {params : List Nat} {s t : State}
  (h : switchStack pads z ret inner sd params s = .ok t)

include h

theorem switchStack_mode : t.mode = s.mode := by
  obtain ⟨u, hu, ht⟩ := switchStack_frame h
  rw [ht.mode, mode_onNewStack, hu.mode]

theorem switchStack_cpl : t.cpl = descDpl sd.bits := by
  obtain ⟨u, -, ht⟩ := switchStack_frame h
  exact ht.cpl

theorem switchStack_ss : t.segs.ss = segOfDesc inner.ss sd.bits := by
  obtain ⟨u, -, ht⟩ := switchStack_frame h
  rw [ht.segs, segs_onNewStack]

end Switched

theorem morePrivilege_checked {pads : Nat → Word} {gs : Size} {ret : DWord} {g : QWord} {csel : Word} {c sd : Desc}
    {inner : InnerStack} {params : List Nat} {s : State} (hinner : innerStack s (descDpl c.bits).toNat = .ok inner)
    (hstack : NewStackOk s inner.ss (descDpl c.bits) sd)
    (hroom : stackRoomIn .prot (segOfDesc inner.ss sd.bits) (segStackSize (segOfDesc inner.ss sd.bits)) inner.esp
      ((gateCount g + 4) * gs.bytes) gs.bytes = true)
    (htgt : gateOffset gs g ≤ descLimit c.bits) (hparams : readParams s gs.bytes (gateCount g) 0 = .ok params) :
    morePrivilege pads gs ret g csel c s =
      switchStack pads gs ret inner sd params s >>= fun t => transfer csel c t.cpl (gateOffset gs g) t := by
  rw [morePrivilege, hinner, ok_bind, newStackSegment_eq_ok.mpr hstack, ok_bind]
  simp only [hroom, require_true, ok_bind, decide_eq_true htgt, hparams]
  rfl

/-! ### Every path -/

/-- What a far CALL in Protected Mode is that enters a segment at the same CPL, past its checks. -/
theorem exec_enterSegment {s : State} {i : Instr} {z n : Size} {ptr : FarPtr} {sel : Word} {d : Desc} {tgt : DWord}
    (hptr : FarPointer s i z ptr) (hm : s.mode = .prot)
    (hpath : farProtected Config.padBits z (s.nEip i) ptr s =
      enterSegment Config.padBits n (s.nEip i) sel d tgt s)
    (hroom : stackRoom s (2 * n.bytes) n.bytes = true) (htgt : tgt ≤ descLimit d.bits) :
    let pushed := pushReturn Config.padBits n s.segs.cs.sel (s.nEip i) s
    (∀ u v, pushed = .ok u → markAccessed d u = .ok v →
      exec i s = .next ((v.setCs (segOfDesc (withRpl sel s.cpl) d.bits)).setEip tgt)) ∧
    (∀ f, pushed = .error f ∨ (∃ u, pushed = .ok u ∧ markAccessed d u = .error f) →
      exec i s = .fault f ∧ ∃ code, f = raise s .pf code) := by
  have hexec : exec i s = outcome
      (pushReturn Config.padBits n s.segs.cs.sel (s.nEip i) s >>= fun t => transfer sel d s.cpl tgt t) := by
    rw [exec_farPointer hptr, farCall_of_prot hm, hpath, enterSegment_checked hroom htgt]
  exact ⟨fun u v hu hv => exec_transfer hexec hu hv, fun f hf => exec_transfer_fault hexec
    (pageFaultsOnly_pushReturn _ _ _ hroom) (fun u hu => (pushFrame_pushReturn hu).mode) hf⟩

/-- Settles O50: each path is its pushes and then a transfer, and both fail with #PF only. -/
theorem farCallIsPushThenTransfer : Obligations.FarCallIsPushThenTransfer := by
  intro s i z ptr hptr ret pushed
  refine ⟨fun hm hroom hoff => ⟨fun u hu => exec_farReal_pushed hptr hm hroom hoff hu,
      fun f hf => exec_farReal_fault hptr hm hroom hoff hf⟩,
    fun d conf hcode hroom htgt => exec_enterSegment hptr hcode.mode (farProtected_code hcode) hroom htgt,
    fun g c gs conf hgate htgt => ⟨fun hsame hroom => ?_,
      fun hconf hless inner sd params hinner hstack hroom hparams => ?_⟩⟩
  · refine exec_enterSegment hptr hgate.mode ?_ hroom htgt
    rw [farProtected_gate hgate, if_neg]
    rintro ⟨hconf, hless⟩
    rcases hsame with htrue | heq
    · exact absurd (hconf.symm.trans htrue) (by decide)
    · exact BitVec.lt_irrefl s.cpl (heq ▸ hless)
  · have hexec : exec i s = outcome (switchStack Config.padBits gs (s.nEip i) inner sd params s >>= fun t =>
        transfer (gateSelector g.bits) c t.cpl (gateOffset gs g.bits) t) := by
      rw [exec_farPointer hptr, farCall_of_prot hgate.mode, farProtected_gate hgate, if_pos ⟨hconf, hless⟩,
        morePrivilege_checked hinner hstack hroom htgt hparams]
    refine ⟨fun u v hu hv => ?_, fun f hf => exec_transfer_fault hexec ?_ (fun u => switchStack_mode) hf⟩
    · have hcpl : u.cpl = descDpl c.bits := (switchStack_cpl hu).trans hstack.dpl
      have hmark := pushFrame_markAccessed hv
      refine ⟨hcpl ▸ exec_transfer hexec hu hv, hmark.cpl.trans hcpl, ?_⟩
      rw [hmark.segs, switchStack_ss hu]
    · exact pageFaultsOnly_switchStack _ _ hgate.mode (by rwa [readParams_length hparams])

end Sys2Proof.Machine
end

section
/-! The fields and kinds of descriptors (41_call_far_protected.md R153, R154), and the stack of an inner level in the
TSS (R164). -/

namespace Sys2Proof.Machine

/-! ### The AR byte (R153, R154) -/

theorem getLsbD_descAr (d : QWord) {k : Nat} (hk : k < 8) : (descAr d).getLsbD k = d.getLsbD (40 + k) := by
  simp [descAr, hk]

theorem extractLsb'_descAr (d : QWord) {k n : Nat} (h : k + n ≤ 8) :
    (descAr d).extractLsb' k n = d.extractLsb' (40 + k) n := by
  refine BitVec.eq_of_getLsbD_eq fun j hj => ?_
  rw [BitVec.getLsbD_extractLsb', getLsbD_descAr d (by omega), BitVec.getLsbD_extractLsb', Nat.add_assoc]

theorem descPresent_eq_descAr (d : QWord) : descPresent d = (descAr d).getLsbD 7 :=
  (getLsbD_descAr d (k := 7) (by decide)).symm

theorem descDpl_eq_descAr (d : QWord) : descDpl d = (descAr d).extractLsb' 5 2 :=
  (extractLsb'_descAr d (k := 5) (by decide)).symm

/-- With S = 1 a descriptor is a code or a data segment, by bit 3 of the type (R154). -/
theorem descKind_of_segment {d : QWord} (hs : (descAr d).getLsbD 4 = true) :
    descKind d = if (descAr d).getLsbD 3 then .code ((descAr d).getLsbD 2) else .data ((descAr d).getLsbD 1) := by
  rw [getLsbD_descAr d (by decide)] at hs ⊢
  rw [getLsbD_descAr d (by decide), getLsbD_descAr d (by decide), descKind, if_pos hs]

/-- With S = 0 the type alone says what a descriptor is (R154). -/
theorem descKind_congr_system {d e : QWord} (hd : (descAr d).getLsbD 4 = false) (he : (descAr e).getLsbD 4 = false)
    (h : (descAr d).extractLsb' 0 4 = (descAr e).extractLsb' 0 4) : descKind d = descKind e := by
  rw [getLsbD_descAr _ (by decide)] at hd he
  rw [extractLsb'_descAr _ (by decide), extractLsb'_descAr _ (by decide)] at h
  have hd' : ¬ d.getLsbD 44 = true := Bool.eq_false_iff.mp hd
  have he' : ¬ e.getLsbD 44 = true := Bool.eq_false_iff.mp he
  rw [descKind, descKind, if_neg hd', if_neg he']
  exact h ▸ rfl

/-- The descriptor that is clear but for its type: what each type means with S = 0 is read off it. -/
def typeOnlyDesc (type : BitVec 4) : QWord := type.setWidth 64 <<< 40

theorem descKind_of_system {d : QWord} (hs : (descAr d).getLsbD 4 = false) {type : BitVec 4}
    (ht : (descAr d).extractLsb' 0 4 = type) : descKind d = descKind (typeOnlyDesc type) := by
  have hsys : ∀ type, (descAr (typeOnlyDesc type)).getLsbD 4 = false := by decide
  have htype : ∀ type, (descAr (typeOnlyDesc type)).extractLsb' 0 4 = type := by decide
  exact descKind_congr_system hs (hsys type) (ht.trans (htype type).symm)

/-- Settles O52: with S = 1 two bits of the type decide, with S = 0 each of its sixteen values. -/
theorem descriptorKinds : Obligations.DescriptorKinds := by
  intro d sys type
  have hbit {k : Nat} (hk : k < 4) : type.getLsbD k = (descAr d).getLsbD k := by simp [type, hk]
  rw [hbit (by decide), hbit (by decide), hbit (by decide)]
  refine ⟨descPresent_eq_descAr d, descDpl_eq_descAr d, fun hs h3 => ?_, fun hs h3 => ?_,
    fun hs ht => descKind_of_system hs ht, fun hs ht => descKind_of_system hs ht,
    fun hs ht => descKind_of_system hs ht, fun hs ht => descKind_of_system hs ht,
    fun hs ht => descKind_of_system hs ht, fun hs ht => descKind_of_system hs ht,
    fun hs ht => descKind_of_system hs ht, fun hs ht => ?_⟩
  · rw [descKind_of_segment hs, h3, if_pos rfl]
  · rw [descKind_of_segment hs, h3, if_neg Bool.false_ne_true]
  · have hother : ∀ t : BitVec 4, t.toNat ∈ [2, 6, 7, 14, 15, 0, 8, 10, 13] →
        descKind (typeOnlyDesc t) = .other := by decide
    rw [descKind_of_system hs rfl, hother type ht]

/-! ### Fields of a descriptor and of a gate (R153) -/

theorem toNat_append_eq_add {m n : Nat} (x : BitVec m) (y : BitVec n) : (x ++ y).toNat = x.toNat * 2 ^ n + y.toNat := by
  rw [BitVec.toNat_append, ← Nat.shiftLeft_add_eq_or_of_lt y.isLt, Nat.shiftLeft_eq]

/-- The limit in bytes, from the 20 limit bits and G (R153). -/
theorem descLimit_toNat {d : QWord} {hi : BitVec 4} {lo : Word} (hhi : d.extractLsb' 48 4 = hi)
    (hlo : d.extractLsb' 0 16 = lo) :
    (descLimit d).toNat =
      if d.getLsbD 55 then (hi.toNat * 65536 + lo.toNat) * 4096 + 4095 else hi.toNat * 65536 + lo.toNat := by
  unfold descLimit
  rw [hhi, hlo]
  split
  · rw [toNat_append_eq_add, toNat_append_eq_add]
    rfl
  · rw [BitVec.toNat_setWidth, toNat_append_eq_add]
    omega

theorem getLsbD_eq_of_extractLsb' {w : Nat} {v : BitVec w} {k : Nat} {b : Bool}
    (h : v.extractLsb' k 1 = BitVec.ofBool b) : v.getLsbD k = b := by
  have hb := congrArg (·.getLsbD 0) h
  simpa using hb

/-- Settles O51: each table is a concatenation, and each field is cut out of the part that the table gives it. -/
theorem descriptorFields : Obligations.DescriptorFields := by
  constructor
  · intro limLo baseLo p dpl sys type limHi avl zero d g baseHi ar v lim
    have hcut (k n : Nat) : v.extractLsb' k n = BitVec.extractLsb' (n := 8 + 1 + 1 + 1 + 1 + 4 + 8 + 24 + 16) k n
      (baseHi ++ BitVec.ofBool g ++ BitVec.ofBool d ++ BitVec.ofBool zero ++ BitVec.ofBool avl ++ limHi ++ ar ++
        baseLo ++ limLo) := rfl
    have harcut (k n : Nat) : ar.extractLsb' k n = BitVec.extractLsb' (n := 1 + 2 + 1 + 4) k n
      (BitVec.ofBool p ++ dpl ++ BitVec.ofBool sys ++ type) := rfl
    have hparts : v.extractLsb' 0 16 = limLo ∧ v.extractLsb' 16 24 = baseLo ∧ v.extractLsb' 40 8 = ar ∧
        v.extractLsb' 48 4 = limHi ∧ v.extractLsb' 54 1 = BitVec.ofBool d ∧ v.extractLsb' 55 1 = BitVec.ofBool g ∧
        v.extractLsb' 56 8 = baseHi := by
      simp (disch := decide) only [hcut, BitVec.extractLsb'_append_eq_of_le, BitVec.extractLsb'_append_eq_of_add_le,
        Nat.reduceSub, BitVec.extractLsb'_eq_self, and_self]
    have harparts : ar.extractLsb' 5 2 = dpl ∧ ar.extractLsb' 7 1 = BitVec.ofBool p := by
      simp (disch := decide) only [harcut, BitVec.extractLsb'_append_eq_of_le, BitVec.extractLsb'_append_eq_of_add_le,
        Nat.reduceSub, BitVec.extractLsb'_eq_self, and_self]
    obtain ⟨hlimLo, hbaseLo, har, hlimHi, hd, hg, hbaseHi⟩ := hparts
    obtain ⟨hdpl, hp⟩ := harparts
    refine ⟨?_, ?_, har, ?_, ?_, getLsbD_eq_of_extractLsb' hd⟩
    · rw [descBase, hbaseHi, hbaseLo]
    · rw [descLimit_toNat hlimHi hlimLo, getLsbD_eq_of_extractLsb' hg]
    · rw [descPresent_eq_descAr, descAr, har, getLsbD_eq_of_extractLsb' hp]
    · rw [descDpl_eq_descAr, descAr, har, hdpl]
  · intro offHi offLo sel ar unused count v
    have hcut (k n : Nat) : v.extractLsb' k n = BitVec.extractLsb' (n := 16 + 8 + 3 + 5 + 16 + 16) k n
      (offHi ++ ar ++ unused ++ count ++ sel ++ offLo) := rfl
    have hparts : v.extractLsb' 0 16 = offLo ∧ v.extractLsb' 16 16 = sel ∧ v.extractLsb' 32 5 = count ∧
        v.extractLsb' 40 8 = ar ∧ v.extractLsb' 48 16 = offHi := by
      simp (disch := decide) only [hcut, BitVec.extractLsb'_append_eq_of_le, BitVec.extractLsb'_append_eq_of_add_le,
        Nat.reduceSub, BitVec.extractLsb'_eq_self, and_self]
    obtain ⟨hoffLo, hsel, hcount, har, hoffHi⟩ := hparts
    refine ⟨?_, ?_, hsel, congrArg BitVec.toNat hcount, har⟩
    · rw [gateOffset, hoffHi, hoffLo]
    · rw [gateOffset, hoffLo]

/-! ### The stack of an inner level (R164) -/

/-- Addresses in a row in a table, as offsets from its base. -/
theorem addrRun_add_ofNat (base : DWord) (k m n : Nat) :
    addrRun (base + BitVec.ofNat 32 (k + m)) n = (List.range n).map fun j => base + BitVec.ofNat 32 (k + j + m) := by
  rw [addrRun_eq_map]
  refine List.map_congr_left fun j _ => ?_
  rw [BitVec.add_assoc, ← BitVec.ofNat_add, Nat.add_right_comm]

section Table

variable {s : State} (hp : s.pagingOn = false) (c : BitVec 2) (base : DWord) (k m : Nat)

include hp

/-- With paging off a word at an offset in a table is its two bytes, the low one first. -/
theorem memRead_word_off :
    let byte := fun j => s.mem.read (base + BitVec.ofNat 32 j).toNat
    memRead s .read c (base + BitVec.ofNat 32 (k + m)) 2 = .ok (leNat [byte (k + m), byte (k + 1 + m)]) := by
  rw [memRead_off hp, addrRun_add_ofNat, List.map_map]
  rfl

theorem memRead_dword_off :
    let byte := fun j => s.mem.read (base + BitVec.ofNat 32 j).toNat
    memRead s .read c (base + BitVec.ofNat 32 (k + m)) 4 =
      .ok (leNat [byte (k + m), byte (k + 1 + m), byte (k + 2 + m), byte (k + 3 + m)]) := by
  rw [memRead_off hp, addrRun_add_ofNat, List.map_map]
  rfl

end Table

/-- Settles O60: by the format of the TSS, the limit check, then the pointer and the selector as their bytes. -/
theorem innerStackComesFromTss : Obligations.InnerStackComesFromTss := by
  intro s l _ byte last
  cases hf : s.tr.format with
  | tss386 =>
    have hlast : last = 8 * l + 9 := by simp [last, hf]
    simp only [hlast, innerStack, hf]
    refine ⟨fun hshort => ?_, fun hlong hp => ?_⟩
    · rw [decide_eq_false (Nat.not_le.mpr hshort), require_false, error_bind]
      rfl
    · simp only [decide_eq_true hlong, require_true, ok_bind, memRead_dword_off hp, memRead_word_off hp,
        ofNat32_leNat, ofNat16_leNat, Nat.reduceAdd]
      rfl
  | tss286 =>
    have hlast : last = 4 * l + 5 := by simp [last, hf]
    simp only [hlast, innerStack, hf]
    refine ⟨fun hshort => ?_, fun hlong hp => ?_⟩
    · rw [decide_eq_false (Nat.not_le.mpr hshort), require_false, error_bind]
      rfl
    · simp only [decide_eq_true hlong, require_true, ok_bind, memRead_word_off hp, ofNat32_leNat_word,
        ofNat16_leNat, Nat.reduceAdd]
      rfl

end Sys2Proof.Machine
end

section
/-! What a far CALL does to CPL and what it leaves alone (41_call_far_protected.md R170, R180, 10_state.md R23). -/

namespace Sys2Proof.Machine

/-- Settles O8: outside Protected Mode the far frame is kept, in it a far CALL switches tasks or keeps the far frame. -/
theorem farCallWithoutTaskSwitchKeeps : Obligations.FarCallWithoutTaskSwitchKeeps := by
  intro i s t hfar h
  have hkept : TaskEntered s t ∨ FarFrame s t := by
    cases execDone_of_exec h with
    | plain notCall => simp [isFarCall_of_isCall_false notCall] at hfar
    | clts p instr => simp [instr, isFarCall] at hfar
    | near _ notFar => simp [notFar] at hfar
    | farReal _ _ u ptr frame state => exact .inr (state ▸ farFrame_farReal frame ptr)
    | farProtected _ _ ret ptr path => exact path.task_or_frame.imp_right And.left
  exact hkept.imp_right fun frame => ⟨frame.eflags, frame.cr0, frame.regs, frame.segs, frame.system⟩

/-- A far CALL that answers a state has read its pointer (R138). -/
theorem farPointer_of_exec {i : Instr} {s t : State} (hfar : isFarCall i = true) (h : exec i s = .next t) :
    ∃ z ptr, FarPointer s i z ptr := by
  cases i with
  | callPtr1616 p off sel => exact ⟨_, _, .ptr1616 p off sel⟩
  | callPtr1632 p off sel => exact ⟨_, _, .ptr1632 p off sel⟩
  | callM1616 p m =>
    obtain ⟨ptr, hptr, _⟩ := bind_eq_ok.mp (outcome_eq_next.mp h)
    exact ⟨_, ptr, .m1616 p m ptr hptr⟩
  | callM1632 p m =>
    obtain ⟨ptr, hptr, _⟩ := bind_eq_ok.mp (outcome_eq_next.mp h)
    exact ⟨_, ptr, .m1632 p m ptr hptr⟩
  | _ => cases hfar

/-- A call to more privilege runs at the DPL of its code segment (R167). -/
theorem cpl_morePrivilege {pads : Nat → Word} {z : Size} {ret : DWord} {g : QWord} {csel : Word} {c : Desc}
    {s t : State} (h : morePrivilege pads z ret g csel c s = .ok t) : t.cpl = descDpl c.bits := by
  obtain ⟨inner, sd, _, u, v, w, _, hstack, _, _, _, hv, hw, rfl⟩ := morePrivilege_eq_ok h
  calc w.cpl = v.cpl := (pushFrame_markAccessed hw).cpl
    _ = descDpl sd.bits := hv.cpl
    _ = descDpl c.bits := newStackSegment_dpl hstack

/-- Settles O6: a far CALL outside Protected Mode and a transfer at the same CPL are pushes and a load of CS; more
privilege is reached through the gate of `FarDone.more`. -/
theorem callChangesPrivilegeOnlyByGate : Obligations.CallChangesPrivilegeOnlyByGate := by
  intro i s t h
  have hnotFar (hf : isFarCall i = false) : t.cpl = s.cpl := ((onlyCallsStore i s t h).2 hf).2.1.cpl
  refine ⟨fun hc => hnotFar (isFarCall_of_isCall_false hc), ?_⟩
  cases hfar : isFarCall i with
  | false => exact .inl (hnotFar hfar)
  | true =>
    obtain ⟨z, ptr, hptr⟩ := farPointer_of_exec hfar h
    rw [exec_farPointer hptr, outcome_eq_next] at h
    by_cases hm : s.mode = .prot
    · rw [farCall_of_prot hm] at h
      cases farDone_farProtected hm h with
      | entered v sel d tgt frame state => exact .inl (state ▸ frame.cpl)
      | more g c gs gate lower call =>
        have hcpl := cpl_morePrivilege call
        exact .inr (.inr ⟨hcpl ▸ lower, z, ptr, g, gs, c, hptr, gate, hcpl⟩)
      | task tsel td f image answer state => exact .inr (.inl ⟨_, tsel, td, f, image, answer, state⟩)
    · rw [farCall_of_ne_prot hm, farReal_eq_ok] at h
      obtain ⟨_, _, u, hu, rfl⟩ := h
      exact .inl (pushFrame_pushReturn hu).cpl

end Sys2Proof.Machine
end

section
/-! Far CALL in Protected Mode at the same privilege, with every check passed (41_call_far_protected.md R155 to
R163). -/

namespace Sys2Proof.Machine

/-- With paging off a transfer to a segment at the same CPL completes, past its checks. -/
theorem exec_enterSegment_off {s : State} {i : Instr} {z n : Size} {ptr : FarPtr} {sel : Word} {d : Desc} {tgt : DWord}
    (hptr : FarPointer s i z ptr) (hm : s.mode = .prot)
    (hpath : farProtected Config.padBits z (s.nEip i) ptr s = enterSegment Config.padBits n (s.nEip i) sel d tgt s)
    (hp : s.pagingOn = false) (hwf : s.mem.wf = true) (hroom : stackRoom s (2 * n.bytes) n.bytes = true)
    (htgt : tgt ≤ descLimit d.bits) :
    ∃ u v, ReturnPushed n s.segs.cs.sel (s.nEip i) s u ∧ AccessedMarked d u v ∧
      exec i s = .next ((v.setCs (segOfDesc (withRpl sel s.cpl) d.bits)).setEip tgt) := by
  obtain ⟨u, hu, hreturn⟩ := pushReturn_off Config.padBits s.segs.cs.sel (s.nEip i) hp hwf hroom
  obtain ⟨v, hv, hmarked⟩ := markAccessed_off (d := d) ((pushFrame_pushReturn hu).pagingOn.trans hp)
  obtain ⟨hdone, -⟩ := exec_enterSegment hptr hm hpath hroom htgt
  exact ⟨u, v, hreturn, hmarked, hdone u v hu hv⟩

/-- Settles O53: a direct call past its checks is the transfer to its segment. -/
theorem protectedDirectCallCompletes : Obligations.ProtectedDirectCallCompletes := by
  intro s i z ptr d conf hptr hcode hp hwf hroom tgt htgt
  have htarget : farTarget z ptr.off = tgt := rfl
  exact exec_enterSegment_off hptr hcode.mode (htarget ▸ farProtected_code hcode) hp hwf hroom htgt

/-- A gate to a conforming segment, or to one of the same privilege, is the transfer to its segment (R163). -/
theorem farProtected_gate_same {pads : Nat → Word} {z : Size} {ret : DWord} {ptr : FarPtr} {s : State} {g c : Desc}
    {gs : Size} {conf : Bool} (hgate : GateReached s ptr g c gs conf) (hsame : conf = true ∨ descDpl c.bits = s.cpl) :
    farProtected pads z ret ptr s =
      enterSegment pads gs ret (gateSelector g.bits) c (gateOffset gs g.bits) s := by
  rw [farProtected_gate hgate, if_neg]
  rintro ⟨rfl, hless⟩
  rcases hsame with htrue | heq
  · exact Bool.false_ne_true htrue
  · exact BitVec.lt_irrefl s.cpl (heq ▸ hless)

/-- Settles O54: as the direct call, with what the gate says. -/
theorem callGateSamePrivilegeCompletes : Obligations.CallGateSamePrivilegeCompletes := by
  intro s i z ptr g c gs conf hptr hgate hsame hp hwf hroom htgt
  exact exec_enterSegment_off hptr hgate.mode (farProtected_gate_same hgate hsame) hp hwf hroom htgt

end Sys2Proof.Machine
end

section
/-! The checks of a far CALL in Protected Mode, in their order, and the fault of each (41_call_far_protected.md R150 to
R166, R175, R176, R181, R263). -/

namespace Sys2Proof.Machine

/-! ### One check -/

theorem require_bind_of_true {α : Type} {c : Bool} (h : c = true) (f : Fault) (g : Unit → Res α) :
    (require c f >>= g) = g () := by
  rw [h, require_true, ok_bind]

theorem require_bind_of_false {α : Type} {c : Bool} (h : c = false) (f : Fault) (g : Unit → Res α) :
    (require c f >>= g) = .error f := by
  rw [h, require_false, error_bind]

/-- In Protected Mode a fault of the path is the instruction's, with its error code (R263). -/
theorem exec_fault_of_farProtected {s : State} {i : Instr} {z : Size} {ptr : FarPtr} {f : Fault}
    (hptr : FarPointer s i z ptr) (hm : s.mode = .prot)
    (h : farProtected Config.padBits z (s.nEip i) ptr s = .error f) : exec i s = .fault f := by
  rw [exec_farPointer hptr, farCall_of_prot hm, h, outcome_eq_fault]

theorem exec_fault_of_raiseSel {s : State} {i : Instr} {z : Size} {ptr : FarPtr} {x : Exc} {sel : Word}
    (hptr : FarPointer s i z ptr) (hm : s.mode = .prot)
    (h : farProtected Config.padBits z (s.nEip i) ptr s = .error (raiseSel s x sel)) :
    exec i s = .fault (.exception x (some (sel &&& 0xFFFC))) :=
  (exec_fault_of_farProtected hptr hm h).trans (congrArg Host.Outcome.fault (raise_prot hm x _))

/-! ### The selector and its descriptor (R150) -/

section Path

variable {pads : Nat → Word} {z : Size} {ret : DWord} {ptr : FarPtr} {s : State}

theorem farProtected_null (h : selNull ptr.sel = true) :
    farProtected pads z ret ptr s = .error (raiseSel s .gp 0) :=
  require_bind_of_false (by rw [h]; rfl) _ _

theorem farProtected_outside (hn : selNull ptr.sel = false) (h : inTable s ptr.sel = false) :
    farProtected pads z ret ptr s = .error (raiseSel s .gp ptr.sel) := by
  rw [farProtected, require_bind_of_true (by rw [hn]; rfl), fetchDescriptor_outside h, error_bind]

theorem selNull_of_lt_four {sel : Word} (h : sel.toNat < 4) : selNull sel = true := by
  rw [selNull, beq_iff_eq]
  apply BitVec.eq_of_toNat_eq
  rw [BitVec.extractLsb'_toNat, Nat.shiftRight_eq_div_pow, Nat.div_eq_of_lt h]
  rfl

/-! ### A code segment reached directly (R159, R160) -/

/-- The privilege check of a code segment reached directly: of a conforming one, and of a nonconforming one. -/
def CodeRights (s : State) (sel : Word) (d : Desc) (conf : Bool) : Prop :=
  if conf then descDpl d.bits ≤ s.cpl else selRpl sel ≤ s.cpl ∧ descDpl d.bits = s.cpl

variable {d : Desc}

theorem farByKind_code {conf : Bool} (hk : descKind d.bits = .code conf) (hr : CodeRights s ptr.sel d conf) :
    farByKind pads z ret ptr d s = require (descPresent d.bits) (raiseSel s .np ptr.sel) >>= fun _ =>
      enterSegment pads z ret ptr.sel d (farTarget z ptr.off) s := by
  rw [farByKind, hk]
  cases conf with
  | true =>
    have hdpl : descDpl d.bits ≤ s.cpl := hr
    exact require_bind_of_true (decide_eq_true hdpl) _ _
  | false =>
    obtain ⟨hrpl, hdpl⟩ := hr
    exact (require_bind_of_true (decide_eq_true hrpl) _ _).trans (require_bind_of_true (beq_iff_eq.mpr hdpl) _ _)

theorem farByKind_code_denied {conf : Bool} (hk : descKind d.bits = .code conf) (hr : ¬ CodeRights s ptr.sel d conf) :
    farByKind pads z ret ptr d s = .error (raiseSel s .gp ptr.sel) := by
  rw [farByKind, hk]
  cases conf with
  | true =>
    have hdpl : ¬ descDpl d.bits ≤ s.cpl := hr
    exact require_bind_of_false (decide_eq_false hdpl) _ _
  | false =>
    show farNonconforming pads z ret ptr d s = _
    rw [farNonconforming]
    by_cases hrpl : selRpl ptr.sel ≤ s.cpl
    · rw [require_bind_of_true (decide_eq_true hrpl)]
      exact require_bind_of_false (beq_eq_false_iff_ne.mpr fun hdpl => hr ⟨hrpl, hdpl⟩) _ _
    · exact require_bind_of_false (decide_eq_false hrpl) _ _

theorem farByKind_uncallable (h : descKind d.bits = .other ∨ ∃ w, descKind d.bits = .data w) :
    farByKind pads z ret ptr d s = .error (raiseSel s .gp ptr.sel) := by
  rw [farByKind]
  rcases h with h | ⟨w, h⟩ <;> rw [h]

theorem enterSegment_noRoom {sel : Word} {tgt : DWord} (h : stackRoom s (2 * z.bytes) z.bytes = false) :
    enterSegment pads z ret sel d tgt s = .error (raiseSel s .ss 0) :=
  require_bind_of_false h _ _

theorem enterSegment_beyond {sel : Word} {tgt : DWord} (h : stackRoom s (2 * z.bytes) z.bytes = true)
    (htgt : descLimit d.bits < tgt) : enterSegment pads z ret sel d tgt s = .error (raiseSel s .gp 0) := by
  rw [enterSegment, require_bind_of_true h]
  exact require_bind_of_false (decide_eq_false (BitVec.not_le.mpr htgt)) _ _

end Path

/-- Settles O57: each check is the first of the path that the ones before it leave. -/
theorem protectedDirectCallFaults : Obligations.ProtectedDirectCallFaults := by
  intro s i z ptr hptr hm sel fault
  have hfault {x : Exc} {c : Word} (h : farProtected Config.padBits z (s.nEip i) ptr s = .error (raiseSel s x c)) :
      fault x c := exec_fault_of_raiseSel hptr hm h
  refine ⟨fun h => hfault (farProtected_null (selNull_of_lt_four h)),
    fun hn h => hfault (farProtected_outside hn h), fun d hn hd => ?_⟩
  rw [farProtected_at hn hd] at hfault
  refine ⟨fun h => hfault (farByKind_uncallable h),
    fun hk h => hfault (farByKind_code_denied hk (BitVec.not_le.mpr h)),
    fun hk h => hfault (farByKind_code_denied hk fun ⟨hrpl, hdpl⟩ => ?_), fun conf hk hr => ?_⟩
  · exact h.elim (fun hlt => BitVec.not_le.mpr hlt hrpl) (fun hne => hne hdpl)
  · rw [farByKind_code hk hr] at hfault
    refine ⟨fun hp => hfault (require_bind_of_false hp _ _), fun hp hroom => hfault ?_,
      fun hp hroom htgt => hfault ?_⟩
    · rw [require_bind_of_true hp, enterSegment_noRoom hroom]
    · rw [require_bind_of_true hp, enterSegment_beyond hroom htgt]

/-! ### Rights to a gate or a TSS (R161, R175, R176) -/

/-- The privilege check of gates and TSSs: neither CPL nor the selector's RPL is above the DPL. -/
def GateRights (s : State) (sel : Word) (d : Desc) : Prop := s.cpl ≤ descDpl d.bits ∧ selRpl sel ≤ descDpl d.bits

section Rights

variable {α : Type} {s : State} {sel : Word} {d : Desc} (f : Fault) (g : Res α)

theorem require_rights (h : GateRights s sel d) :
    (require (decide (s.cpl ≤ descDpl d.bits)) f >>= fun _ =>
      require (decide (selRpl sel ≤ descDpl d.bits)) f >>= fun _ => g) = g := by
  obtain ⟨hcpl, hrpl⟩ := h
  rw [require_bind_of_true (decide_eq_true hcpl), require_bind_of_true (decide_eq_true hrpl)]

theorem require_rights_denied (h : ¬ GateRights s sel d) :
    (require (decide (s.cpl ≤ descDpl d.bits)) f >>= fun _ =>
      require (decide (selRpl sel ≤ descDpl d.bits)) f >>= fun _ => g) = .error f := by
  by_cases hcpl : s.cpl ≤ descDpl d.bits
  · rw [require_bind_of_true (decide_eq_true hcpl)]
    exact require_bind_of_false (decide_eq_false fun hrpl => h ⟨hcpl, hrpl⟩) _ _
  · exact require_bind_of_false (decide_eq_false hcpl) _ _

theorem not_gateRights_of_lt (h : descDpl d.bits < s.cpl ∨ descDpl d.bits < selRpl sel) : ¬ GateRights s sel d :=
  fun ⟨hcpl, hrpl⟩ => h.elim (fun hlt => BitVec.not_le.mpr hlt hcpl) fun hlt => BitVec.not_le.mpr hlt hrpl

end Rights

/-! ### A call gate and its code segment (R161) -/

section CallGate

variable {pads : Nat → Word} {gs : Size} {ret : DWord} {ptr : FarPtr} {s : State} {g : Desc}

theorem farCallGate_denied (h : ¬ GateRights s ptr.sel g) :
    farCallGate pads gs ret ptr g s = .error (raiseSel s .gp ptr.sel) := require_rights_denied _ _ h

theorem farCallGate_notPresent (h : GateRights s ptr.sel g) (hp : descPresent g.bits = false) :
    farCallGate pads gs ret ptr g s = .error (raiseSel s .np ptr.sel) :=
  (require_rights _ _ h).trans (require_bind_of_false hp _ _)

theorem farCallGate_target_error {f : Fault} (h : GateRights s ptr.sel g) (hp : descPresent g.bits = true)
    (hf : gateTarget s (gateSelector g.bits) = .error f) : farCallGate pads gs ret ptr g s = .error f := by
  refine (require_rights _ _ h).trans ((require_bind_of_true hp _ _).trans ?_)
  rw [hf, error_bind]

variable {csel : Word} {c : Desc}

theorem gateTarget_null (h : selNull csel = true) : gateTarget s csel = .error (raiseSel s .gp 0) :=
  require_bind_of_false (by rw [h]; rfl) _ _

theorem gateTarget_outside (hn : selNull csel = false) (h : inTable s csel = false) :
    gateTarget s csel = .error (raiseSel s .gp csel) := by
  rw [gateTarget, require_bind_of_true (by rw [hn]; rfl), fetchDescriptor_outside h, error_bind]

/-- Past selector and table, the checks of the code segment's descriptor. -/
theorem gateTarget_at (hn : selNull csel = false) (h : DescriptorAt s csel c) :
    gateTarget s csel = (do
      require (descKind c.bits == .code true || descKind c.bits == .code false) (raiseSel s .gp csel)
      require (decide (descDpl c.bits ≤ s.cpl)) (raiseSel s .gp csel)
      require (descPresent c.bits) (raiseSel s .np csel)
      .ok c) := by
  rw [gateTarget, require_bind_of_true (by rw [hn]; rfl), fetchDescriptor_eq_ok.mpr h, ok_bind]

theorem gateTarget_notCode (hn : selNull csel = false) (h : DescriptorAt s csel c)
    (hk : ∀ conf, descKind c.bits ≠ .code conf) : gateTarget s csel = .error (raiseSel s .gp csel) := by
  rw [gateTarget_at hn h]
  exact require_bind_of_false (by simp [hk]) _ _

theorem isCode_of_kind {conf : Bool} (hk : descKind c.bits = .code conf) :
    (descKind c.bits == .code true || descKind c.bits == .code false) = true := by
  cases conf <;> simp [hk]

theorem gateTarget_dpl {conf : Bool} (hn : selNull csel = false) (h : DescriptorAt s csel c)
    (hk : descKind c.bits = .code conf) (hd : s.cpl < descDpl c.bits) :
    gateTarget s csel = .error (raiseSel s .gp csel) := by
  rw [gateTarget_at hn h, require_bind_of_true (isCode_of_kind hk)]
  exact require_bind_of_false (decide_eq_false (BitVec.not_le.mpr hd)) _ _

theorem gateTarget_notPresent {conf : Bool} (hn : selNull csel = false) (h : DescriptorAt s csel c)
    (hk : descKind c.bits = .code conf) (hd : descDpl c.bits ≤ s.cpl) (hp : descPresent c.bits = false) :
    gateTarget s csel = .error (raiseSel s .np csel) := by
  rw [gateTarget_at hn h, require_bind_of_true (isCode_of_kind hk), require_bind_of_true (decide_eq_true hd)]
  exact require_bind_of_false hp _ _

end CallGate

/-! ### The new stack of a call to more privilege (R164 to R167) -/

section NewStack

variable {s : State} {nss : Word} {dpl : BitVec 2} {sd : Desc}

theorem newStackSegment_null (h : selNull nss = true) : newStackSegment s nss dpl = .error (raiseSel s .ts 0) :=
  require_bind_of_false (by rw [h]; rfl) _ _

theorem newStackSegment_outside (hn : selNull nss = false) (h : inTable s nss = false) :
    newStackSegment s nss dpl = .error (raiseSel s .ts nss) := by
  rw [newStackSegment, require_bind_of_true (by rw [hn]; rfl), fetchDescriptor_outside h, error_bind]

/-- Past selector and table, the checks of the stack segment's descriptor. -/
theorem newStackSegment_at (hn : selNull nss = false) (h : DescriptorAt s nss sd) :
    newStackSegment s nss dpl = (do
      require (selRpl nss == dpl) (raiseSel s .ts nss)
      require (descDpl sd.bits == dpl) (raiseSel s .ts nss)
      require (descKind sd.bits == .data true) (raiseSel s .ts nss)
      require (descPresent sd.bits) (raiseSel s .ss nss)
      .ok sd) := by
  rw [newStackSegment, require_bind_of_true (by rw [hn]; rfl), fetchDescriptor_eq_ok.mpr h, ok_bind]

theorem newStackSegment_invalid (hn : selNull nss = false) (h : DescriptorAt s nss sd)
    (hbad : selRpl nss ≠ dpl ∨ descDpl sd.bits ≠ dpl ∨ descKind sd.bits ≠ .data true) :
    newStackSegment s nss dpl = .error (raiseSel s .ts nss) := by
  rw [newStackSegment_at hn h]
  by_cases hrpl : selRpl nss = dpl
  · rw [require_bind_of_true (beq_iff_eq.mpr hrpl)]
    by_cases hdpl : descDpl sd.bits = dpl
    · rw [require_bind_of_true (beq_iff_eq.mpr hdpl)]
      have hkind : descKind sd.bits ≠ .data true := by simpa [hrpl, hdpl] using hbad
      exact require_bind_of_false (beq_eq_false_iff_ne.mpr hkind) _ _
    · exact require_bind_of_false (beq_eq_false_iff_ne.mpr hdpl) _ _
  · exact require_bind_of_false (beq_eq_false_iff_ne.mpr hrpl) _ _

theorem newStackSegment_notPresent (hn : selNull nss = false) (h : DescriptorAt s nss sd) (hrpl : selRpl nss = dpl)
    (hdpl : descDpl sd.bits = dpl) (hk : descKind sd.bits = .data true) (hp : descPresent sd.bits = false) :
    newStackSegment s nss dpl = .error (raiseSel s .ss nss) := by
  rw [newStackSegment_at hn h, require_bind_of_true (beq_iff_eq.mpr hrpl), require_bind_of_true (beq_iff_eq.mpr hdpl),
    require_bind_of_true (beq_iff_eq.mpr hk)]
  exact require_bind_of_false hp _ _

variable {pads : Nat → Word} {gs : Size} {ret : DWord} {g : QWord} {csel : Word} {c : Desc} {inner : InnerStack}
  {f : Fault}

theorem morePrivilege_innerStack_error (h : innerStack s (descDpl c.bits).toNat = .error f) :
    morePrivilege pads gs ret g csel c s = .error f := by
  rw [morePrivilege, h, error_bind]

variable (hinner : innerStack s (descDpl c.bits).toNat = .ok inner)

include hinner

theorem morePrivilege_stack_error (h : newStackSegment s inner.ss (descDpl c.bits) = .error f) :
    morePrivilege pads gs ret g csel c s = .error f := by
  rw [morePrivilege, hinner, ok_bind, h, error_bind]

variable (hstack : NewStackOk s inner.ss (descDpl c.bits) sd)

include hstack

/-- Past the TSS and the new stack segment: room, target, parameters, then the actions. -/
theorem morePrivilege_stack :
    morePrivilege pads gs ret g csel c s = (do
      require (stackRoomIn .prot (segOfDesc inner.ss sd.bits) (segStackSize (segOfDesc inner.ss sd.bits)) inner.esp
        ((gateCount g + 4) * gs.bytes) gs.bytes) (stackFault s)
      require (decide (gateOffset gs g ≤ descLimit c.bits)) (raise s .gp 0)
      let params ← readParams s gs.bytes (gateCount g) 0
      let t ← switchStack pads gs ret inner sd params s
      let u ← loadCs csel c t.cpl t
      .ok (u.setEip (gateOffset gs g))) := by
  rw [morePrivilege, hinner, ok_bind, newStackSegment_eq_ok.mpr hstack, ok_bind]

theorem morePrivilege_noRoom
    (h : stackRoomIn .prot (segOfDesc inner.ss sd.bits) (segStackSize (segOfDesc inner.ss sd.bits)) inner.esp
      ((gateCount g + 4) * gs.bytes) gs.bytes = false) :
    morePrivilege pads gs ret g csel c s = .error (raiseSel s .ss 0) := by
  rw [morePrivilege_stack hinner hstack]
  exact require_bind_of_false h _ _

variable (hroom : stackRoomIn .prot (segOfDesc inner.ss sd.bits) (segStackSize (segOfDesc inner.ss sd.bits)) inner.esp
  ((gateCount g + 4) * gs.bytes) gs.bytes = true)

include hroom

theorem morePrivilege_beyond (h : descLimit c.bits < gateOffset gs g) :
    morePrivilege pads gs ret g csel c s = .error (raiseSel s .gp 0) := by
  rw [morePrivilege_stack hinner hstack, require_bind_of_true hroom]
  exact require_bind_of_false (decide_eq_false (BitVec.not_le.mpr h)) _ _

theorem morePrivilege_params_error (h : gateOffset gs g ≤ descLimit c.bits)
    (hf : readParams s gs.bytes (gateCount g) 0 = .error f) : morePrivilege pads gs ret g csel c s = .error f := by
  rw [morePrivilege_stack hinner hstack, require_bind_of_true hroom, require_bind_of_true (decide_eq_true h), hf,
    error_bind]

end NewStack

/-- A gate to a nonconforming segment of a lower DPL goes to more privilege (R161). -/
theorem farProtected_gate_more {pads : Nat → Word} {z : Size} {ret : DWord} {ptr : FarPtr} {s : State} {g c : Desc}
    {gs : Size} (hgate : GateReached s ptr g c gs false) (hless : descDpl c.bits < s.cpl) :
    farProtected pads z ret ptr s = morePrivilege pads gs ret g.bits (gateSelector g.bits) c s := by
  rw [farProtected_gate hgate, if_pos ⟨rfl, hless⟩]

/-- Settles O58: the faults of the gate and its code segment, of the transfer at the same CPL, and of the new stack;
each is the first check that fails of the path that the ones before it leave. -/
theorem callGateFaults : Obligations.CallGateFaults := by
  intro s i z ptr g gs hptr hm hn hg hk sel csel fault
  have hpath (ret : DWord) : farProtected Config.padBits z ret ptr s = farCallGate Config.padBits gs ret ptr g s := by
    rw [farProtected_at hn hg, farByKind, hk]
  have hfault {x : Exc} {c : Word} (h : farProtected Config.padBits z (s.nEip i) ptr s = .error (raiseSel s x c)) :
      fault x c := exec_fault_of_raiseSel hptr hm h
  refine ⟨fun h => hfault ?_, fun hcpl hrpl => ?_, fun c conf hgate => ⟨fun hsame => ?_, ?_, ?_⟩⟩
  · rw [hpath, farCallGate_denied (not_gateRights_of_lt h)]
  · have hrights : GateRights s sel g := ⟨hcpl, hrpl⟩
    have htarget {x : Exc} {e : Word} (hp : descPresent g.bits = true)
        (h : gateTarget s csel = .error (raiseSel s x e)) : fault x e :=
      hfault ((hpath _).trans (farCallGate_target_error hrights hp h))
    refine ⟨fun hp => hfault ((hpath _).trans (farCallGate_notPresent hrights hp)),
      fun hp hnull => htarget hp (gateTarget_null hnull),
      fun hp hcn hout => htarget hp (gateTarget_outside hcn hout),
      fun c hp hcn hc => ⟨fun hkc => htarget hp (gateTarget_notCode hcn hc hkc), fun conf hkc =>
        ⟨fun hd => htarget hp (gateTarget_dpl hcn hc hkc hd),
          fun hd hcp => htarget hp (gateTarget_notPresent hcn hc hkc hd hcp)⟩⟩⟩
  · rw [farProtected_gate_same hgate hsame] at hfault
    exact ⟨fun hroom => hfault (enterSegment_noRoom hroom),
      fun hroom htgt => hfault (enterSegment_beyond hroom htgt)⟩
  · rintro rfl hless f hf
    refine exec_fault_of_farProtected hptr hm ?_
    rw [farProtected_gate_more hgate hless, morePrivilege_innerStack_error hf]
  · rintro rfl hless inner hinner
    rw [farProtected_gate_more hgate hless] at hfault
    refine ⟨fun hnull => hfault (morePrivilege_stack_error hinner (newStackSegment_null hnull)),
      fun hsn hout => hfault (morePrivilege_stack_error hinner (newStackSegment_outside hsn hout)),
      fun sd hsn hsd => ⟨fun hbad => hfault (morePrivilege_stack_error hinner (newStackSegment_invalid hsn hsd hbad)),
        fun hrpl hdpl hkind hp =>
          hfault (morePrivilege_stack_error hinner (newStackSegment_notPresent hsn hsd hrpl hdpl hkind hp))⟩,
      fun sd hstack => ⟨fun hroom => hfault (morePrivilege_noRoom hinner hstack hroom),
        fun hroom htgt => hfault (morePrivilege_beyond hinner hstack hroom htgt), fun hroom htgt f hf => ?_⟩⟩
    refine exec_fault_of_farProtected hptr hm ?_
    rw [farProtected_gate_more hgate hless, morePrivilege_params_error hinner hstack hroom htgt hf]

end Sys2Proof.Machine
end

section
/-! Far CALL to a task, directly or by a task gate (41_call_far_protected.md R175, R176, R178): its checks, and what it
enters. -/

namespace Sys2Proof.Machine

/-! ### An available, present TSS -/

theorem availableTss_eq_some {td : QWord} {f : TssFormat} (h : descKind td = .tss f false) :
    availableTss td = some f := by
  rw [availableTss, h]

theorem availableTss_eq_none {td : QWord} (h : ∀ f, descKind td ≠ .tss f false) : availableTss td = none := by
  rw [availableTss]
  split
  case h_1 f hk => exact absurd hk (h f)
  all_goals rfl

section Tss

variable {ret : DWord} {tsel : Word} {td : QWord} {s : State} {f : TssFormat}

theorem enterTss_unavailable (h : ∀ f, descKind td ≠ .tss f false) :
    enterTss ret tsel td s = .error (raiseSel s .ts tsel) := by
  rw [enterTss, availableTss_eq_none h]

theorem enterTss_available (h : descKind td = .tss f false) :
    enterTss ret tsel td s =
      (require (descPresent td) (raiseSel s .np tsel) >>= fun _ => switchTasks s ret tsel f td) := by
  rw [enterTss, availableTss_eq_some h]

theorem enterTss_notPresent (h : descKind td = .tss f false) (hp : descPresent td = false) :
    enterTss ret tsel td s = .error (raiseSel s .np tsel) := by
  rw [enterTss_available h]
  exact require_bind_of_false hp _ _

theorem enterTss_present (h : descKind td = .tss f false) (hp : descPresent td = true) :
    enterTss ret tsel td s = switchTasks s ret tsel f td := by
  rw [enterTss_available h, require_bind_of_true hp]

end Tss

/-! ### A TSS reached directly (R176) -/

section Paths

variable {ret : DWord} {ptr : FarPtr} {s : State} {g : Desc}

theorem farTss_denied (h : ¬ GateRights s ptr.sel g) : farTss ret ptr g s = .error (raiseSel s .ts ptr.sel) :=
  require_rights_denied _ _ h

theorem farTss_of_rights (h : GateRights s ptr.sel g) : farTss ret ptr g s = enterTss ret ptr.sel g.bits s :=
  require_rights _ _ h

/-! ### A task gate (R175) -/

theorem farTaskGate_denied (h : ¬ GateRights s ptr.sel g) :
    farTaskGate ret ptr g s = .error (raiseSel s .ts ptr.sel) := require_rights_denied _ _ h

theorem farTaskGate_notPresent (h : GateRights s ptr.sel g) (hp : descPresent g.bits = false) :
    farTaskGate ret ptr g s = .error (raiseSel s .np ptr.sel) :=
  (require_rights _ _ h).trans (require_bind_of_false hp _ _)

variable (hrights : GateRights s ptr.sel g) (hp : descPresent g.bits = true)

include hrights hp

theorem farTaskGate_local (hl : selLocal (gateSelector g.bits) = true) :
    farTaskGate ret ptr g s = .error (raiseSel s .ts (gateSelector g.bits)) :=
  (require_rights _ _ hrights).trans ((require_bind_of_true hp _ _).trans
    (require_bind_of_false (by rw [hl]; rfl) _ _))

variable (hl : selLocal (gateSelector g.bits) = false)

include hl

/-- Past the gate's own checks its selector names an entry of the GDT, as `FetchDescriptor` finds it. -/
theorem farTaskGate_global :
    farTaskGate ret ptr g s =
      (fetchDescriptor s (gateSelector g.bits) (raiseSel s .ts (gateSelector g.bits)) >>= fun td =>
        enterTss ret (gateSelector g.bits) td.bits s) := by
  rw [fetchDescriptor, hl]
  exact (require_rights _ _ hrights).trans ((require_bind_of_true hp _ _).trans
    (require_bind_of_true (by rw [hl]; rfl) _ _))

theorem farTaskGate_outside (h : inTable s (gateSelector g.bits) = false) :
    farTaskGate ret ptr g s = .error (raiseSel s .ts (gateSelector g.bits)) := by
  rw [farTaskGate_global hrights hp hl, fetchDescriptor_outside h, error_bind]

theorem farTaskGate_at {d : Desc} (h : DescriptorAt s (gateSelector g.bits) d) :
    farTaskGate ret ptr g s = enterTss ret (gateSelector g.bits) d.bits s := by
  rw [farTaskGate_global hrights hp hl, fetchDescriptor_eq_ok.mpr h, ok_bind]

end Paths

/-- Settles O59: the gate's checks, then its TSS's; the TSS's own when it is called directly. -/
theorem taskCallFaults : Obligations.TaskCallFaults := by
  intro s i z ptr g hptr hm hn hg sel tsel fault rights
  have hfault {x : Exc} {c : Word} (h : farProtected Config.padBits z (s.nEip i) ptr s = .error (raiseSel s x c)) :
      fault x c := exec_fault_of_raiseSel hptr hm h
  rw [farProtected_at hn hg, farByKind] at hfault
  refine ⟨fun hk => ?_, fun f busy hk => ?_⟩
  · rw [hk] at hfault
    refine ⟨fun h => hfault (farTaskGate_denied h), fun h hp => hfault (farTaskGate_notPresent h hp),
      fun h hp => ⟨fun hl => hfault (farTaskGate_local h hp hl),
        fun hl hout => hfault (farTaskGate_outside h hp hl hout), fun d hl hd => ?_⟩⟩
    have htss (ret : DWord) : farTaskGate ret ptr g s = enterTss ret tsel d.bits s := farTaskGate_at h hp hl hd
    exact ⟨fun hkd => hfault ((htss _).trans (enterTss_unavailable hkd)),
      fun f hkd hpd => hfault ((htss _).trans (enterTss_notPresent hkd hpd))⟩
  · rw [hk] at hfault
    refine ⟨fun h => hfault (farTss_denied h), ?_, ?_⟩
    · rintro h rfl
      exact hfault ((farTss_of_rights h).trans (enterTss_unavailable fun f' => by simp [hk]))
    · rintro h rfl hp
      exact hfault ((farTss_of_rights h).trans (enterTss_notPresent hk hp))

/-! ### The task switch (R178) -/

/-- A call to a task whose checks pass is the task switch. -/
theorem farProtected_tss {pads : Nat → Word} {z : Size} {ret : DWord} {ptr : FarPtr} {s : State} {tsel : Word}
    {d : Desc} {f : TssFormat} (h : TssReached s ptr tsel d f) :
    farProtected pads z ret ptr s = switchTasks s ret tsel f d.bits := by
  cases h with
  | direct d f hm hn hd hk hc hr hp =>
    rw [farProtected_at hn hd, farByKind, hk]
    exact (farTss_of_rights ⟨hc, hr⟩).trans (enterTss_present hk hp)
  | gate g d f hm hn hg hk hc hr hp hl hd hkd hpd =>
    rw [farProtected_at hn hg, farByKind, hk]
    exact (farTaskGate_at ⟨hc, hr⟩ hp hl hd).trans (enterTss_present hkd hpd)

theorem TssReached.mode {s : State} {ptr : FarPtr} {tsel : Word} {d : Desc} {f : TssFormat}
    (h : TssReached s ptr tsel d f) : s.mode = .prot := by
  cases h <;> assumption

/-- A new task runs in Protected or Virtual 8086 Mode, so its faults have an error code. -/
theorem raise_enterTask {s : State} (hm : s.mode = .prot) (f : TssFormat) (image : TaskImage) (x : Exc) (c : Word) :
    raise (enterTask s f image) x c = .exception x (some c) := by
  have hmode := mode_enterTask hm f image
  cases hvm : (taskEflags s.eflags f image.eflags).getLsbD Flag.vm.bit with
  | true => exact raise_v86 (by rw [hmode, hvm, if_pos rfl]) x c
  | false => exact raise_prot (by rw [hmode, hvm, if_neg Bool.false_ne_true]) x c

theorem getLsbD_cr0_enterTask (s : State) (f : TssFormat) (image : TaskImage) :
    (enterTask s f image).cr0.getLsbD 3 = true :=
  (getLsbD_setBit s.cr0 (by decide) true 3).trans (if_pos rfl)

/-- Settles O56: the checks passed, the call is `switchTasks`, whose answer and new EIP decide. -/
theorem taskCallEntersTask : Obligations.TaskCallEntersTask := by
  intro s i z ptr tsel d f hptr htss answer
  have hexec : exec i s = outcome (switchTasks s (s.nEip i) tsel f d.bits) := by
    rw [exec_farPointer hptr, farCall_of_prot htss.mode, farProtected_tss htss]
  constructor
  · intro image himage t
    refine ⟨fun heip => ⟨?_, rfl, rfl, getLsbD_cr0_enterTask s f image, (tablesKept_enterTask s f image).cr0, rfl,
      rfl⟩, fun hbeyond => ?_⟩
    · rw [hexec, outcome_eq_next]
      exact switchTasks_eq_ok.mpr ⟨image, himage, rfl, heip⟩
    · have hanswer : Config.switchTasks s (s.nEip i) true tsel d.bits = .switched image := himage
      rw [hexec, outcome_eq_fault, switchTasks, hanswer]
      refine (require_bind_of_false (decide_eq_false (BitVec.not_le.mpr hbeyond)) _ _).trans ?_
      rw [raise_enterTask htss.mode]
  · intro x code hfault
    have hanswer : Config.switchTasks s (s.nEip i) true tsel d.bits = .faulted x code := hfault
    rw [hexec, outcome_eq_fault, switchTasks, hanswer]

end Sys2Proof.Machine
end

section
/-! The stack switch of a call to more privilege with paging off (41_call_far_protected.md R155, R164 to R169): its pushes
are one list of pushes on the new stack. -/

namespace Sys2Proof.Machine

/-! ### The Accessed bit in memory (R155) -/

/-- Where the Accessed bit of a descriptor is stored: its AR byte, if the bit is clear. -/
def accessedMarks (d : Desc) : List DWord := if (descAr d.bits).getLsbD 0 then [] else [d.addr + 5]

theorem AccessedMarked.mem {d : Desc} {s t : State} (h : AccessedMarked d s t) :
    t.mem = storeBytes (accessedMarks d) [descAr d.bits ||| 1] s.mem := by
  unfold AccessedMarked at h
  rw [h, accessedMarks]
  split <;> rfl

theorem AccessedMarked.read_mark {d : Desc} {s t : State} (h : AccessedMarked d s t) (hwf : s.mem.wf = true) {a : DWord}
    (ha : a ∈ accessedMarks d) : t.mem.read a.toNat = descAr d.bits ||| 1 := by
  rw [h.mem]
  unfold accessedMarks at ha ⊢
  split at ha
  · cases ha
  · rename_i hclear
    rw [if_neg hclear, List.mem_singleton.mp ha, storeBytes_cons, storeBytes_nil_left, Memory.read_write hwf, if_pos rfl]

theorem AccessedMarked.read_other {d : Desc} {s t : State} (h : AccessedMarked d s t) (hwf : s.mem.wf = true) {a : Nat}
    (ha : ∀ b ∈ accessedMarks d, b.toNat ≠ a) : t.mem.read a = s.mem.read a := by
  rw [h.mem]
  exact storeBytes_read_other _ _ hwf fun b hb he => ha b hb he.symm

theorem AccessedMarked.reg {d : Desc} {s t : State} (h : AccessedMarked d s t) (r : Reg) : t.reg r = s.reg r := by
  unfold AccessedMarked at h
  rw [h]
  split <;> rfl

theorem AccessedMarked.segs {d : Desc} {s t : State} (h : AccessedMarked d s t) : t.segs = s.segs := by
  unfold AccessedMarked at h
  rw [h]
  split <;> rfl

/-! ### Pads do not touch pushes (R75) -/

theorem setStackPtr_setDraws (s : State) (z : Size) (v : DWord) (d : Nat) :
    (s.setDraws d).setStackPtr z v = (s.setStackPtr z v).setDraws d := by
  cases z <;> rfl

theorem pushedState_drawPad (n v : Nat) (s : State) (z : Size) :
    pushedState n v (s.drawPad z) = (pushedState n v s).drawPad z := by
  cases z with
  | s16 => rfl
  | s32 =>
    refine (setStackPtr_setDraws (s.setMem _) s.stackSize (pushOffset s n) (s.draws + 1)).trans ?_
    have hdraws : (pushedState n v s).draws = s.draws := State.setStackPtr_draws _ _ _
    change _ = (pushedState n v s).setDraws ((pushedState n v s).draws + 1)
    rw [hdraws]
    rfl

/-- With paging off a push does not look at the count of pads. -/
theorem push_drawPad {s : State} (hp : s.pagingOn = false) (n v : Nat) (z : Size) :
    push n v (s.drawPad z) = (push n v s).map (State.drawPad z) := by
  have hframe := pushFrame_drawPad z s
  have hlegal : segLegal (s.drawPad z).mode .ss (s.drawPad z).segs.ss .write (pushOffset (s.drawPad z) n).toNat n =
      segLegal s.mode .ss s.segs.ss .write (pushOffset s n).toNat n := by cases z <;> rfl
  cases hl : segLegal s.mode .ss s.segs.ss .write (pushOffset s n).toNat n with
  | false =>
    rw [push_illegal v hl, push_illegal v (hlegal.trans hl), stackFault, raise_congr hframe.mode]
    rfl
  | true =>
    rw [push_off v hp hl, push_off v (hframe.pagingOn.trans hp) (hlegal.trans hl), pushedState_drawPad]
    rfl

theorem pushList_drawPad {s : State} (hp : s.pagingOn = false) (n : Nat) (vs : List Nat) (z : Size) :
    pushList n vs (s.drawPad z) = (pushList n vs s).map (State.drawPad z) := by
  induction vs generalizing s with
  | nil => rfl
  | cons v r ih =>
    rw [pushList, pushList, push_drawPad hp]
    cases hpush : push n v s with
    | error f => rfl
    | ok t => exact ih ((pushFrame_push hpush).pagingOn.trans hp)

theorem pushList_draws {n : Nat} {vs : List Nat} {s t : State} (h : pushList n vs s = .ok t) : t.draws = s.draws := by
  induction vs generalizing s with
  | nil => rw [Except.ok.inj h]
  | cons v r ih =>
    obtain ⟨u, hpush, hrest⟩ := bind_eq_ok.mp h
    obtain ⟨-, -, hdraws⟩ := push_lowered hpush
    exact (ih hrest).trans hdraws

theorem pushList_append (n : Nat) (xs ys : List Nat) (s : State) :
    pushList n (xs ++ ys) s = pushList n xs s >>= pushList n ys := by
  induction xs generalizing s with
  | nil => rfl
  | cons x xs ih => simp only [List.cons_append, pushList, bind_assoc, ih]

/-! ### The pushes of the stack switch as one list (R167) -/

/-- What the stack switch pushes on the new stack before the return address: old SS, old eSP, the parameters. -/
def oldStackValues (pads : Nat → Word) (z : Size) (params : List Nat) (s t : State) : List Nat :=
  selectorSlot pads z s.segs.ss.sel t :: offsetSlot z (stackTop s.stackSize (s.reg .esp)) :: params.reverse

/-- All that it pushes; the second pad is drawn after the first. -/
def switchedValues (pads : Nat → Word) (z : Size) (ret : DWord) (params : List Nat) (s t : State) : List Nat :=
  oldStackValues pads z params s t ++ [selectorSlot pads z s.segs.cs.sel (t.drawPad z), offsetSlot z ret]

theorem selectorSlot_congr {s t : State} (h : t.draws = s.draws) (pads : Nat → Word) (z : Size) (sel : Word) :
    selectorSlot pads z sel t = selectorSlot pads z sel s := by
  cases z with
  | s16 => rfl
  | s32 => rw [selectorSlot, h, selectorSlot]

theorem pushSwitched_eq_pushList {t : State} (hp : t.pagingOn = false) (pads : Nat → Word) (z : Size) (ret : DWord)
    (params : List Nat) (s : State) :
    pushSwitched pads z ret params s t =
      pushList z.bytes (switchedValues pads z ret params s t) ((t.drawPad z).drawPad z) := by
  have hsplit : pushSwitched pads z ret params s t =
      pushList z.bytes (oldStackValues pads z params s t) (t.drawPad z) >>=
        pushReturn pads z s.segs.cs.sel ret := by
    simp only [pushSwitched, pushSelector_eq_push, pushOffsetValue_eq_push, oldStackValues, pushList, bind_assoc]
  rw [hsplit, switchedValues, pushList_append, pushList_drawPad ((pushFrame_drawPad z t).pagingOn.trans hp)]
  cases hold : pushList z.bytes (oldStackValues pads z params s t) (t.drawPad z) with
  | error f => rfl
  | ok w =>
    change pushReturn pads z s.segs.cs.sel ret w = pushList z.bytes _ (w.drawPad z)
    rw [pushReturn_eq_pushList, selectorSlot_congr (pushList_draws hold)]

section Values

variable (pads : Nat → Word) (z : Size) (ret : DWord) (params : List Nat) (s t : State)

theorem length_switchedValues : (switchedValues pads z ret params s t).length = params.length + 4 := by
  simp [switchedValues, oldStackValues]

theorem switchedValues_ss : (switchedValues pads z ret params s t)[0]? = some (selectorSlot pads z s.segs.ss.sel t) :=
  rfl

theorem switchedValues_esp :
    (switchedValues pads z ret params s t)[1]? = some (offsetSlot z (stackTop s.stackSize (s.reg .esp))) := rfl

/-- The parameters are pushed last to first (R167). -/
theorem switchedValues_param {j : Nat} (hj : j < params.length) :
    (switchedValues pads z ret params s t)[params.length + 1 - j]? = params[j]? := by
  have hidx : params.length + 1 - j = (params.length - 1 - j) + 2 := by omega
  rw [hidx]
  change (params.reverse ++ _)[params.length - 1 - j]? = _
  rw [List.getElem?_append_left (by rw [List.length_reverse]; omega), List.getElem?_reverse (by omega)]
  congr 1
  omega

theorem switchedValues_cs :
    (switchedValues pads z ret params s t)[params.length + 2]? =
      some (selectorSlot pads z s.segs.cs.sel (t.drawPad z)) := by
  change (params.reverse ++ _)[params.length]? = _
  simp

theorem switchedValues_ret :
    (switchedValues pads z ret params s t)[params.length + 3]? = some (offsetSlot z ret) := by
  change (params.reverse ++ _)[params.length + 1]? = _
  simp

end Values

/-! ### The new stack (R166, R167) -/

/-- The linear address of the `j`-th slot of `n` bytes below the stack pointer from the TSS, `j` from 1. -/
def newStackSlot (inner : InnerStack) (sd : Desc) (n j : Nat) : DWord :=
  linearAddr (segOfDesc inner.ss sd.bits) (stackBelow (segStackSize (segOfDesc inner.ss sd.bits)) inner.esp (j * n))

/-- On the new stack at the new CPL, with the two pads drawn that its pushes take. -/
def State.onDrawnStack (z : Size) (inner : InnerStack) (sd : Desc) (s : State) : State :=
  ((s.onNewStack inner sd).drawPad z).drawPad z

section NewStack

variable (z : Size) (inner : InnerStack) (sd : Desc) {w : State} (hm : w.mode = .prot)

theorem pushFrame_onDrawnStack (w : State) : PushFrame (w.onNewStack inner sd) (w.onDrawnStack z inner sd) :=
  (pushFrame_drawPad z _).trans (pushFrame_drawPad z _)

theorem reg_onDrawnStack (w : State) (r : Reg) :
    (w.onDrawnStack z inner sd).reg r =
      (w.setStackPtr (segStackSize (segOfDesc inner.ss sd.bits)) inner.esp).reg r := by
  have hdraw (s : State) : (s.drawPad z).reg r = s.reg r := by cases z <;> rfl
  rw [State.onDrawnStack, hdraw, hdraw, State.onNewStack]
  cases segStackSize (segOfDesc inner.ss sd.bits) <;> rfl

theorem pagingOn_onDrawnStack (w : State) : (w.onDrawnStack z inner sd).pagingOn = w.pagingOn := by
  rw [(pushFrame_onDrawnStack z inner sd w).pagingOn, State.onNewStack, State.pagingOn_setCpl,
    State.pagingOn_setStackPtr, State.pagingOn_setSs]

theorem mem_onDrawnStack (w : State) : (w.onDrawnStack z inner sd).mem = w.mem := by
  have hdraw (s : State) : (s.drawPad z).mem = s.mem := by cases z <;> rfl
  rw [State.onDrawnStack, hdraw, hdraw, State.onNewStack]
  simp

include hm

theorem stackSize_onDrawnStack :
    (w.onDrawnStack z inner sd).stackSize = segStackSize (segOfDesc inner.ss sd.bits) :=
  (pushFrame_onDrawnStack z inner sd w).stackSize.trans (stackSize_onNewStack hm inner sd)

theorem stackSlot_onDrawnStack (n j : Nat) : stackSlot (w.onDrawnStack z inner sd) n j = newStackSlot inner sd n j := by
  rw [stackSlot, stackSize_onDrawnStack z inner sd hm, reg_onDrawnStack, stackBelow_of_setStackPtr,
    (pushFrame_onDrawnStack z inner sd w).segs, segs_onNewStack, newStackSlot]

end NewStack

/-- With room on the new stack and paging off the stack switch is the Accessed bit of its segment and one list of
pushes. -/
theorem switchStack_off {s : State} {z : Size} {inner : InnerStack} {sd : Desc} {params : List Nat}
    (pads : Nat → Word) (ret : DWord) (hm : s.mode = .prot) (hp : s.pagingOn = false) (hwf : s.mem.wf = true)
    (hlen : params.length < 32)
    (hroom : stackRoomIn .prot (segOfDesc inner.ss sd.bits) (segStackSize (segOfDesc inner.ss sd.bits)) inner.esp
      ((params.length + 4) * z.bytes) z.bytes = true) :
    ∃ w u, PushFrame s w ∧ AccessedMarked sd s w ∧ switchStack pads z ret inner sd params s = .ok u ∧
      let vs := switchedValues pads z ret params s (w.onNewStack inner sd)
      ListLowered z.bytes vs (w.onDrawnStack z inner sd) u ∧ ListStored z.bytes vs (w.onDrawnStack z inner sd) u := by
  obtain ⟨w, hmark, hmarked⟩ := markAccessed_off (d := sd) hp
  have hframe := pushFrame_markAccessed hmark
  have hpw : (w.onDrawnStack z inner sd).pagingOn = false :=
    (pagingOn_onDrawnStack z inner sd w).trans (hframe.pagingOn.trans hp)
  have hslots : SlotsLegal (params.length + 4) z.bytes (w.onDrawnStack z inner sd) :=
    ((slotsLegal_onNewStack (hframe.mode.trans hm) z.bytes_pos hroom).drawPad z).drawPad z
  have hn := z.bytes_eq
  have hvs := length_switchedValues pads z ret params s (w.onNewStack inner sd)
  rw [← hvs] at hslots
  obtain ⟨u, hpush, hlow, hstored⟩ := pushList_stored hn _ hpw
    (by rw [mem_onDrawnStack]; exact hframe.wf hwf) (by rw [hvs]; rcases hn with hn | hn <;> rw [hn] <;> omega) hslots
  refine ⟨w, u, hframe, hmarked, ?_, hlow, hstored⟩
  rw [switchStack_eq, hmark, ok_bind,
    pushSwitched_eq_pushList ((pushFrame_onDrawnStack z inner sd w).pagingOn.symm.trans hpw)]
  exact hpush

end Sys2Proof.Machine
end

section
/-! A call through a gate to more privilege, with every check passed and paging off (41_call_far_protected.md R155, R161
to R169): the new stack, the Accessed bits and the transfer. -/

namespace Sys2Proof.Machine

theorem toNat_ne_of_notMem {as : List DWord} {a : DWord} (h : a ∉ as) : ∀ b ∈ as, b.toNat ≠ a.toNat :=
  fun b hb he => h (by rwa [← BitVec.eq_of_toNat_eq he])

/-- The bytes of the first `m` slots of the new stack, from its new top upward. -/
def newStackBytes (inner : InnerStack) (sd : Desc) (n m : Nat) : List DWord :=
  ((List.range m).map fun j => addrRun (newStackSlot inner sd n (m - j)) n).flatten

theorem mem_newStackBytes {inner : InnerStack} {sd : Desc} {n m j : Nat} {b : DWord} (hj : 1 ≤ j) (hjm : j ≤ m)
    (hb : b ∈ addrRun (newStackSlot inner sd n j) n) : b ∈ newStackBytes inner sd n m := by
  refine List.mem_flatten.mpr ⟨_, List.mem_map.mpr ⟨m - j, List.mem_range.mpr (by omega), rfl⟩, ?_⟩
  rwa [show m - (m - j) = j by omega]

/-- What a call to more privilege does to `s` before CS and EIP are loaded: the Accessed bit of the new stack segment
(`w`), the pushes on the new stack (`u`), the Accessed bit of the code segment (`v`). -/
structure StackSwitched (pads : Nat → Word) (z : Size) (ret : DWord) (inner : InnerStack) (sd c : Desc) (count : Nat)
    (params : List Nat) (s w u v : State) : Prop where
  length : params.length = count
  mode : w.mode = .prot
  wf : s.mem.wf = true
  frame : PushFrame s w
  stackMark : AccessedMarked sd s w
  lowered : ListLowered z.bytes (switchedValues pads z ret params s (w.onNewStack inner sd))
    (w.onDrawnStack z inner sd) u
  stored : ListStored z.bytes (switchedValues pads z ret params s (w.onNewStack inner sd)) (w.onDrawnStack z inner sd) u
  codeMark : AccessedMarked c u v

section StackSwitched

variable {pads : Nat → Word} {z : Size} {ret : DWord} {inner : InnerStack} {sd c : Desc} {count : Nat}
  {params : List Nat} {s w u v : State} (h : StackSwitched pads z ret inner sd c count params s w u v)

include h

theorem StackSwitched.wf_marked : w.mem.wf = true := h.frame.wf h.wf

theorem StackSwitched.wf_pushed : u.mem.wf = true :=
  h.lowered.frame.wf (by rw [mem_onDrawnStack]; exact h.wf_marked)

theorem StackSwitched.segs_setCs (cs : Seg) :
    (v.setCs cs).segs = { s.segs with ss := segOfDesc inner.ss sd.bits, cs := cs } := by
  have hsegs : v.segs = { s.segs with ss := segOfDesc inner.ss sd.bits } := by
    rw [h.codeMark.segs, h.lowered.frame.segs, (pushFrame_onDrawnStack z inner sd w).segs, segs_onNewStack, h.frame.segs]
  change { v.segs with cs := cs } = _
  rw [hsegs]

/-- Each pushed value stands in its slot, counted from the top of the new stack upward as the values are from the
first push on, unless the Accessed bit of the code segment was stored over it. -/
theorem StackSwitched.read_value {i j k val : Nat} {b : Byte} (hij : i + j = count + 3)
    (hval : (switchedValues pads z ret params s (w.onNewStack inner sd))[j]? = some val) (hk : k < z.bytes)
    (hb : BitVec.ofNat 8 (val / 2 ^ (8 * k)) = b)
    (hmark : newStackSlot inner sd z.bytes (count + 4 - i) + BitVec.ofNat 32 k ∉ accessedMarks c) :
    v.mem.read (newStackSlot inner sd z.bytes (count + 4 - i) + BitVec.ofNat 32 k).toNat = b := by
  rw [h.codeMark.read_other h.wf_pushed (toNat_ne_of_notMem hmark), ← hb, ← h.stored.values j val k hval hk,
    stackSlot_onDrawnStack z inner sd h.mode, show count + 4 - i = j + 1 by omega]

/-- The pushes leave every byte outside their slots. -/
theorem StackSwitched.read_pushed_other {a : Nat}
    (ha : ∀ b ∈ newStackBytes inner sd z.bytes (count + 4), b.toNat ≠ a) :
    u.mem.read a = w.mem.read a := by
  rw [h.stored.others a, mem_onDrawnStack]
  intro j hj b hb
  rw [length_switchedValues, h.length] at hj
  rw [stackSlot_onDrawnStack z inner sd h.mode] at hb
  exact ha b (mem_newStackBytes (by omega) (by omega) hb)

/-- The Accessed bit of the new stack segment stands where no push overlays it; a code segment's descriptor at the same
entry would be the same descriptor. -/
theorem StackSwitched.read_stackMark (hbits : ∀ a, a ∈ accessedMarks c → a ∈ accessedMarks sd → c.bits = sd.bits)
    {a : DWord} (ha : a ∈ accessedMarks sd) (hout : a ∉ newStackBytes inner sd z.bytes (count + 4)) :
    v.mem.read a.toNat = descAr sd.bits ||| 1 := by
  by_cases hac : a ∈ accessedMarks c
  · rw [h.codeMark.read_mark h.wf_pushed hac, hbits a hac ha]
  · rw [h.codeMark.read_other h.wf_pushed (toNat_ne_of_notMem hac), h.read_pushed_other (toNat_ne_of_notMem hout),
      h.stackMark.read_mark h.wf ha]

theorem StackSwitched.memoryKeptBut :
    MemoryKeptBut (newStackBytes inner sd z.bytes (count + 4) ++ accessedMarks sd ++ accessedMarks c) s v := by
  intro a ha
  simp only [List.mem_append] at ha
  rw [h.codeMark.read_other h.wf_pushed fun b hb => ha b (.inr hb),
    h.read_pushed_other fun b hb => ha b (.inl (.inl hb)),
    h.stackMark.read_other h.wf fun b hb => ha b (.inl (.inr hb))]

theorem StackSwitched.stackLowered : StackLowered ((count + 4) * z.bytes) (w.onDrawnStack z inner sd) u := by
  rw [← h.length, ← length_switchedValues pads z ret params s (w.onNewStack inner sd)]
  exact stackLowered_of_below _ h.lowered.top h.lowered.high

/-- With SP the upper half of ESP stays (R22, R166). -/
theorem StackSwitched.esp16 (hz : segStackSize (segOfDesc inner.ss sd.bits) = .s16) :
    v.reg16 .esp = low16 inner.esp - BitVec.ofNat 16 ((count + 4) * z.bytes) ∧
      (v.reg .esp).extractLsb' 16 16 = (s.reg .esp).extractLsb' 16 16 := by
  have hlow := h.stackLowered
  rw [StackLowered, stackSize_onDrawnStack z inner sd h.mode, hz] at hlow
  obtain ⟨hsp, hhigh⟩ := hlow
  rw [State.reg16, State.reg16, reg_onDrawnStack, hz] at hsp
  rw [reg_onDrawnStack, hz] at hhigh
  rw [State.reg16, h.codeMark.reg, hsp, hhigh]
  simp [State.setStackPtr, h.stackMark.reg]

theorem StackSwitched.esp32 (hz : segStackSize (segOfDesc inner.ss sd.bits) = .s32) :
    v.reg .esp = inner.esp - BitVec.ofNat 32 ((count + 4) * z.bytes) := by
  have hlow := h.stackLowered
  rw [StackLowered, stackSize_onDrawnStack z inner sd h.mode, hz] at hlow
  rw [h.codeMark.reg, hlow, reg_onDrawnStack, hz]
  simp [State.setStackPtr]

end StackSwitched

/-- Two descriptors read from one entry are one. -/
theorem bits_eq_of_accessedMarks {s : State} {sel sel' : Word} {c d : Desc} (hc : DescriptorAt s sel c)
    (hd : DescriptorAt s sel' d) {a : DWord} (hac : a ∈ accessedMarks c) (had : a ∈ accessedMarks d) :
    c.bits = d.bits := by
  have hmark {e : Desc} (he : a ∈ accessedMarks e) : a = e.addr + 5 := by
    unfold accessedMarks at he
    split at he
    · cases he
    · exact List.mem_singleton.mp he
  obtain ⟨-, hcaddr, hcread⟩ := hc
  obtain ⟨-, hdaddr, hdread⟩ := hd
  have haddr : c.addr = d.addr := (BitVec.add_left_inj 5).mp ((hmark hac).symm.trans (hmark had))
  rw [← hcaddr, haddr, hdaddr, hdread] at hcread
  exact (BitVec.eq_of_toNat_eq (Except.ok.inj hcread)).symm

/-- With every check passed and paging off a call to more privilege completes: the stack switch, then CS and EIP. -/
theorem exec_morePrivilege_off {s : State} {i : Instr} {z gs : Size} {ptr : FarPtr} {g c sd : Desc} {inner : InnerStack}
    {params : List Nat} (hptr : FarPointer s i z ptr) (hgate : GateReached s ptr g c gs false)
    (hless : descDpl c.bits < s.cpl) (hp : s.pagingOn = false) (hwf : s.mem.wf = true)
    (hinner : innerStack s (descDpl c.bits).toNat = .ok inner) (hstack : NewStackOk s inner.ss (descDpl c.bits) sd)
    (hroom : stackRoomIn .prot (segOfDesc inner.ss sd.bits) (segStackSize (segOfDesc inner.ss sd.bits)) inner.esp
      ((gateCount g.bits + 4) * gs.bytes) gs.bytes = true)
    (htgt : gateOffset gs g.bits ≤ descLimit c.bits)
    (hparams : readParams s gs.bytes (gateCount g.bits) 0 = .ok params) :
    ∃ w u v, StackSwitched Config.padBits gs (s.nEip i) inner sd c (gateCount g.bits) params s w u v ∧
      v.cpl = descDpl c.bits ∧ exec i s = .next
        ((v.setCs (segOfDesc (withRpl (gateSelector g.bits) (descDpl c.bits)) c.bits)).setEip
          (gateOffset gs g.bits)) := by
  have hcount : gateCount g.bits < 32 := (g.bits.extractLsb' 32 5).isLt
  have hlen := readParams_length hparams
  obtain ⟨w, u, hframe, hmarked, hswitch, hlow, hstored⟩ := switchStack_off (sd := sd) Config.padBits (s.nEip i)
    hgate.mode hp hwf (hlen ▸ hcount) (hlen.symm ▸ hroom)
  have hpu : u.pagingOn = false := by
    rw [hlow.frame.pagingOn, pagingOn_onDrawnStack, hframe.pagingOn, hp]
  obtain ⟨v, hv, hvmarked⟩ := markAccessed_off (d := c) hpu
  obtain ⟨-, -, hgates⟩ := farCallIsPushThenTransfer s i z ptr hptr
  obtain ⟨-, hmore⟩ := hgates g c gs false hgate htgt
  obtain ⟨hdone, -⟩ := hmore rfl hless inner sd params hinner hstack hroom hparams
  obtain ⟨hexec, hcpl, -⟩ := hdone u v hswitch hv
  exact ⟨w, u, v, ⟨hlen, hframe.mode.trans hgate.mode, hwf, hframe, hmarked, hlow, hstored, hvmarked⟩, hcpl, hexec⟩

/-- What a call to more privilege leaves alone (R180). -/
theorem farFrame_exec_more {s t : State} {i : Instr} {z gs : Size} {ptr : FarPtr} {g c : Desc}
    (hptr : FarPointer s i z ptr) (hgate : GateReached s ptr g c gs false) (hless : descDpl c.bits < s.cpl)
    (h : exec i s = .next t) : FarFrame s t := by
  rw [exec_farPointer hptr, farCall_of_prot hgate.mode, farProtected_gate_more hgate hless, outcome_eq_next] at h
  exact (farFrame_morePrivilege h).1

/-- Settles O55: the values of the one list of pushes stand in their slots, slot `j` of the statement being that of
value `count + 3 - j`; the two Accessed bits stand where no later store overlays them. -/
theorem callGateMorePrivilegeCompletes : Obligations.CallGateMorePrivilegeCompletes := by
  intro s i z ptr g c gs inner sd params hptr hgate hless hp hwf hinner hstack n count newSs newSize hroom htgt hparams
    ret slot stack marks
  obtain ⟨w, u, v, hsw, hcpl, hexec⟩ :=
    exec_morePrivilege_off hptr hgate hless hp hwf hinner hstack hroom htgt hparams
  have hframe := farFrame_exec_more hptr hgate hless hexec
  have hlen : params.length = count := hsw.length
  have hret := switchedValues_ret Config.padBits gs ret params s (w.onNewStack inner sd)
  have hcs := switchedValues_cs Config.padBits gs ret params s (w.onNewStack inner sd)
  rw [hlen] at hret hcs
  have hn : 2 ≤ gs.bytes := gs.bytes_eq.elim (·.ge) fun h => by omega
  refine ⟨_, hexec, rfl, hcpl, hsw.segs_setCs _, ?_, hframe.regs, hframe.eflags, hframe.cr0, hframe.system,
    ⟨fun k hk => ?_, fun k hk => ?_, fun j p k hj hk => ?_, fun k hk => ?_, fun k hk => ?_⟩,
    fun a ha => hsw.codeMark.read_mark hsw.wf_pushed ha,
    fun a ha hout => hsw.read_stackMark (fun _ => bits_eq_of_accessedMarks hgate.code hstack.entry) ha hout,
    hsw.memoryKeptBut⟩
  · generalize hsize : newSize = size
    cases size with
    | s16 => exact hsw.esp16 hsize
    | s32 => exact hsw.esp32 hsize
  · exact hsw.read_value (by omega) hret hk (byte_offsetSlot ret hk)
  · exact hsw.read_value (by omega) hcs (by omega) (byte_selectorSlot _ _ _ _ hk)
  · have hjlen : j < params.length := (List.getElem?_eq_some_iff.mp hj).1
    exact hsw.read_value (by omega) ((switchedValues_param _ _ _ _ _ _ hjlen).trans hj) hk rfl
  · exact hsw.read_value (by omega) (switchedValues_esp ..) hk (byte_offsetSlot _ hk)
  · exact hsw.read_value (by omega) (switchedValues_ss ..) (by omega) (byte_selectorSlot _ _ _ _ hk)

end Sys2Proof.Machine
end

section
/-! CBW and CWDE (42_cbw_cwde.md R190, R191): a signed extension written into EAX, and nothing else but EIP. -/

namespace Sys2Proof.Machine

/-- A written register and a new EIP are all that changes. -/
theorem kept_setReg_setEip (s : State) (r : Reg) (v next : DWord) : Kept [r] [] s ((s.setReg r v).setEip next) where
  regs q hq := by simp [List.ne_of_not_mem_cons hq]
  flags _ _ _ := rfl
  segs := rfl
  cr0 := rfl
  system := (localEffect_setReg s r v next).systemKept
  draws := rfl

theorem exec_cbw (p : Prefixes) (s : State) :
    exec (.cbw p) s = .next ((s.setReg16 .eax ((s.reg8 .al).signExtend 16)).setEip (s.nEip (.cbw p))) := rfl

theorem exec_cwde (p : Prefixes) (s : State) :
    exec (.cwde p) s = .next ((s.setReg .eax ((s.reg16 .eax).signExtend 32)).setEip (s.nEip (.cwde p))) := rfl

theorem State.reg16_setEip (s : State) (v : DWord) (q : Reg) : (s.setEip v).reg16 q = s.reg16 q := rfl

/-- Settles O31: each writes a sign extension, which is the same signed number, CBW into the 16-bit view of EAX. -/
theorem cbwAndCwdeSignExtend : Obligations.CbwAndCwdeSignExtend := by
  intro p s
  refine ⟨⟨_, exec_cbw p s, ?ax, ?high, rfl, kept_setReg_setEip s .eax _ _, fun _ => rfl⟩,
    ⟨_, exec_cwde p s, ?eax, rfl, kept_setReg_setEip s .eax _ _, fun _ => rfl⟩⟩
  case ax => rw [State.reg16_setEip, State.reg16_setReg16, BitVec.toInt_signExtend_of_le (by decide)]
  case high => rw [State.reg_setEip, State.reg_setReg16, if_pos rfl, high16_withLow16]
  case eax => rw [State.reg_setEip, State.reg_setReg, if_pos rfl, BitVec.toInt_signExtend_of_le (by decide)]

end Sys2Proof.Machine
end

section
/-! 98 and 99 (42_cbw_cwde.md R192, 46_cwd_cdq.md R252): OperandSize chooses the instruction, and the prefix bytes of an
instruction only its length. -/

namespace Sys2Proof

theorem bySize_eq (osz : Size) (i16 i32 : Instr) : bySize osz i16 i32 = if osz = .s16 then i16 else i32 := by
  cases osz <;> rfl

/-- OperandSize is 16 where it is the default and no 66 byte switches it, or the default is 32 and one does (R93). -/
theorem Prefixes.operandSize_eq_s16 (dflt : Size) (p : Prefixes) :
    p.operandSize dflt = .s16 ↔ dflt = .s16 ∧ p.opsize = false ∨ dflt = .s32 ∧ p.opsize = true := by
  cases dflt <;> cases h : p.opsize <;> simp [Prefixes.operandSize, effSize, Size.other, h]

/-- Where an opcode alone gives one of two instructions by OperandSize, it does so after any prefix bytes (R93, R96). -/
theorem decode_bySize {dflt : Size} {p : Prefixes} {op : Byte} {rest : List Byte} {i16 i32 : Instr}
    (hop : prefixOf op = none)
    (h : decodeOpcode dflt p (op :: rest) = .ok (bySize (p.operandSize dflt) i16 i32, rest)) :
    decode dflt (encodePrefixes p ++ op :: rest) =
      .ok (if dflt = .s16 ∧ p.opsize = false ∨ dflt = .s32 ∧ p.opsize = true then i16 else i32, rest) := by
  rw [decode_encodePrefixes dflt p op rest hop, h, Parse.andThen_ok, bySize_eq]
  simp only [Prefixes.operandSize_eq_s16]

namespace Machine

/-- The default size is 32 in Protected Mode with CS.D set, and 16 elsewhere (R93). -/
theorem State.defaultSize_eq (s : State) :
    s.defaultSize = if s.mode = .prot ∧ s.segs.cs.big = true then .s32 else .s16 := by
  unfold State.defaultSize
  cases s.mode with
  | prot => simp
  | real => rfl
  | v86 => rfl

/-- Two outcomes of one change of the state that go on at two places differ in EIP only. -/
theorem eq_setEip_of_next {x t u : State} {a b : DWord}
    (ht : (.next (x.setEip a) : Host.Outcome State Fault Refusal) = .next t)
    (hu : (.next (x.setEip b) : Host.Outcome State Fault Refusal) = .next u) : u = t.setEip u.eip := by
  cases ht
  cases hu
  rfl

theorem exec_cwd (p : Prefixes) (s : State) :
    exec (.cwd p) s = .next ((s.setReg16 .edx (if (s.reg16 .eax).msb then 0xFFFF else 0)).setEip (s.nEip (.cwd p))) :=
  rfl

theorem exec_cdq (p : Prefixes) (s : State) :
    exec (.cdq p) s = .next ((s.setReg .edx (if (s.reg .eax).msb then 0xFFFFFFFF else 0)).setEip (s.nEip (.cdq p))) :=
  rfl

/-- Settles O17: OperandSize picks the row of each opcode, and the change each of the four instructions makes does not
name its prefix bytes, which only its length does. -/
theorem conversionIsChosenByOperandSize : Obligations.ConversionIsChosenByOperandSize := by
  refine ⟨State.defaultSize_eq, fun dflt p rest =>
    ⟨decode_bySize rfl rfl, decode_bySize rfl rfl, fun q s t u => ?_⟩⟩
  simp only [exec_cbw, exec_cwde, exec_cwd, exec_cdq]
  exact ⟨eq_setEip_of_next, eq_setEip_of_next, eq_setEip_of_next, eq_setEip_of_next⟩

end Machine

end Sys2Proof
end

section
/-! CLC, CLD, CLI, CLTS and CMC (43_flag_control.md R195 to R207): each writes one bit of EFLAGS or CR0, and EIP, if it
may run at all. -/

namespace Sys2Proof.Machine

/-! ### One written bit -/

/-- A written flag and a new EIP are all that changes. -/
theorem kept_setFlag_setEip (s : State) (f : Flag) (b : Bool) (next : DWord) :
    Kept [] [f.bit] s ((s.setFlag f b).setEip next) where
  regs _ _ := rfl
  flags j _ hj := (getLsbD_setBit _ f.bit_lt b j).trans (if_neg (List.ne_of_not_mem_cons hj))
  segs := rfl
  cr0 := rfl
  system := by constructor <;> rfl
  draws := rfl

theorem flag_setFlag_setEip (s : State) (f : Flag) (b : Bool) (next : DWord) :
    ((s.setFlag f b).setEip next).flag f = b :=
  (s.flag_setFlag f f b).trans (if_pos rfl)

/-- A write of CR0 and a new EIP change nothing else. -/
theorem kept_setCr0_setEip (s : State) (v next : DWord) :
    Kept [] [] s { (s.setCr0 v).setEip next with cr0 := s.cr0 } where
  regs _ _ := rfl
  flags _ _ _ := rfl
  segs := rfl
  cr0 := rfl
  system := systemKept_setCr0_setEip s s.cr0 next
  draws := rfl

/-! ### When each may run -/

theorem cliAllowed_iff {s : State} :
    cliAllowed s = true ↔ s.cr0Bit .pe = false ∨ s.cpl.toNat ≤ s.iopl.toNat := by
  simp [cliAllowed, BitVec.le_def]

theorem cltsAllowed_iff {s : State} : cltsAllowed s = true ↔ s.cr0Bit .pe = false ∨ s.cpl = 0 := by
  simp [cltsAllowed]

/-- #GP(0) with PE = 1 (R262). -/
theorem raise_zero_of_pe {s : State} (h : s.cr0Bit .pe = true) (x : Exc) : raise s x 0 = .exception x (some 0) := by
  have hreal : s.mode ≠ .real := fun hm => by simp [(State.mode_eq_real s).mp hm] at h
  rw [raise_zero, if_neg hreal]

/-! ### What each does -/

theorem exec_clc (p : Prefixes) (s : State) :
    exec (.clc p) s = .next ((s.setFlag .cf false).setEip (s.nEip (.clc p))) := rfl

theorem exec_cld (p : Prefixes) (s : State) :
    exec (.cld p) s = .next ((s.setFlag .df false).setEip (s.nEip (.cld p))) := rfl

theorem exec_cmc (p : Prefixes) (s : State) :
    exec (.cmc p) s = .next ((s.setFlag .cf (!s.flag .cf)).setEip (s.nEip (.cmc p))) := rfl

/-- A check and then a result is a choice between the result and the fault of the check. -/
theorem outcome_require (c : Bool) (f : Fault) (t : State) :
    outcome (require c f >>= fun _ => .ok t) = if c then .next t else .fault f := by
  cases c <;> rfl

theorem exec_cli (p : Prefixes) (s : State) :
    exec (.cli p) s =
      if cliAllowed s then .next ((s.setFlag .intr false).setEip (s.nEip (.cli p))) else .fault (raise s .gp 0) :=
  outcome_require _ _ _

theorem exec_clts (p : Prefixes) (s : State) :
    exec (.clts p) s =
      if cltsAllowed s then .next ((s.setCr0 (setBit s.cr0 Cr0Bit.ts.bit false)).setEip (s.nEip (.clts p)))
      else .fault (raise s .gp 0) :=
  outcome_require _ _ _

theorem exec_cli_allowed {s : State} (h : s.cr0Bit .pe = false ∨ s.cpl.toNat ≤ s.iopl.toNat) (p : Prefixes) :
    exec (.cli p) s = .next ((s.setFlag .intr false).setEip (s.nEip (.cli p))) :=
  (exec_cli p s).trans (if_pos (cliAllowed_iff.mpr h))

theorem exec_cli_denied {s : State} (hpe : s.cr0Bit .pe = true) (h : s.iopl.toNat < s.cpl.toNat) (p : Prefixes) :
    exec (.cli p) s = .fault (.exception .gp (some 0)) := by
  have hno : ¬ cliAllowed s = true := by simpa [cliAllowed_iff, hpe] using h
  rw [exec_cli, if_neg hno, raise_zero_of_pe hpe]

theorem exec_clts_allowed {s : State} (h : s.cr0Bit .pe = false ∨ s.cpl = 0) (p : Prefixes) :
    exec (.clts p) s = .next ((s.setCr0 (setBit s.cr0 Cr0Bit.ts.bit false)).setEip (s.nEip (.clts p))) :=
  (exec_clts p s).trans (if_pos (cltsAllowed_iff.mpr h))

theorem exec_clts_denied {s : State} (hpe : s.cr0Bit .pe = true) (h : s.cpl ≠ 0) (p : Prefixes) :
    exec (.clts p) s = .fault (.exception .gp (some 0)) := by
  have hno : ¬ cltsAllowed s = true := by simpa [cltsAllowed_iff, hpe] using h
  rw [exec_clts, if_neg hno, raise_zero_of_pe hpe]

/-! ### CLC, CLD, CMC (R195, R197, R206) -/

/-- Settles O33: each is one write of a flag and of EIP. -/
theorem clcCldCmcWriteOneFlag : Obligations.ClcCldCmcWriteOneFlag := fun p s =>
  ⟨⟨_, exec_clc p s, flag_setFlag_setEip s .cf _ _, rfl, kept_setFlag_setEip s .cf _ _, fun _ => rfl⟩,
    ⟨_, exec_cld p s, flag_setFlag_setEip s .df _ _, rfl, kept_setFlag_setEip s .df _ _, fun _ => rfl⟩,
    ⟨_, exec_cmc p s, flag_setFlag_setEip s .cf _ _, rfl, kept_setFlag_setEip s .cf _ _, fun _ => rfl⟩⟩

/-! ### CLI (R200 to R202) -/

/-- With IF = 0 no maskable interrupt is accepted, and the nonmaskable one is (R201, R266). -/
theorem acceptedInterrupt_of_intr_clear {s : State} (h : s.flag .intr = false) :
    acceptedInterrupt s = if s.intrOffer = some .nonmaskable then some 2 else none := by
  unfold acceptedInterrupt
  rcases s.intrOffer with _ | ⟨v⟩ | _ <;> simp [h, nmiVector]

/-- Settles O34: the write of IF keeps the offer, so what is accepted after it is decided by IF = 0. -/
theorem cliClearsInterruptFlag : Obligations.CliClearsInterruptFlag := by
  refine fun p s => ⟨fun h => ?_, fun hpe h => exec_cli_denied hpe h p⟩
  have hclear := flag_setFlag_setEip s .intr false (s.nEip (.cli p))
  exact ⟨_, exec_cli_allowed h p, hclear, acceptedInterrupt_of_intr_clear hclear, rfl,
    kept_setFlag_setEip s .intr _ _, fun _ => rfl⟩

/-- In a mode other than Real Address Mode PE is 1 (R280). -/
theorem cr0Bit_pe_of_mode {s : State} {m : Mode} (hm : s.mode = m) (hne : m ≠ .real) : s.cr0Bit .pe = true :=
  Bool.eq_true_of_not_eq_false fun hpe => hne (hm.symm.trans ((State.mode_eq_real s).mpr hpe))

theorem cli_clears {s : State} (h : s.cr0Bit .pe = false ∨ s.cpl.toNat ≤ s.iopl.toNat) (p : Prefixes) :
    ∃ t, exec (.cli p) s = .next t ∧ t.flag .intr = false :=
  ⟨_, exec_cli_allowed h p, flag_setFlag_setEip s .intr _ _⟩

/-- Settles O35: each row compares its CPL with its IOPL; in the example IOPL is 0, then 3. -/
theorem cliTable : Obligations.CliTable := by
  refine ⟨fun p s => ?_, fun s hm hc hip => ⟨fun hf => ?fault, fun hf => ?clear⟩⟩
  · have clears (h : s.cpl.toNat ≤ s.iopl.toNat) := cli_clears (.inr h) p
    have faults {m : Mode} (hm : s.mode = m) (hne : m ≠ .real) (h : s.iopl.toNat < s.cpl.toNat) :=
      exec_cli_denied (cr0Bit_pe_of_mode hm hne) h p
    refine ⟨fun hm => cli_clears (.inl ((State.mode_eq_real s).mp hm)) p, fun _ hc => clears ?_,
      fun hm hc hl => faults hm nofun ?_, fun _ hc hl => clears ?_, fun hm hc hl => faults hm nofun ?_,
      fun _ hc hl => clears ?_, fun hm hc hl => faults hm nofun ?_, fun _ hc hl => clears ?_,
      fun hm hc hl => faults hm nofun ?_, fun _ hc hl => clears ?_⟩
    · simp [hc]
    · simp [hc, hl]
    · rcases hl with hl | hl | hl <;> simp [hc, hl]
    · rcases hl with hl | hl <;> simp [hc, hl]
    · rcases hl with hl | hl <;> simp [hc, hl]
    · rcases hl with hl | hl | hl <;> simp [hc, hl]
    · simp [hc, hl]
    · rcases hl with hl | hl | hl <;> simp [hc, hl]
    · simp [hc, hl]
  case fault =>
    have hl : s.iopl = 0 := by rw [State.iopl, hf]; rfl
    exact exec_cli_denied (cr0Bit_pe_of_mode hm nofun) (by simp [hc, hl]) _
  case clear =>
    have hl : s.iopl = 3 := by rw [State.iopl, hf]; rfl
    refine ⟨_, exec_cli_allowed (.inr (by simp [hc, hl])) _, ?_, ?_⟩
    · rw [State.setEip_eflags, State.setFlag_eflags, hf]
      rfl
    · rw [State.setEip_eip, State.nEip, hip]
      rfl

/-! ### CLTS (R203) -/

/-- CPL is 3 in Virtual 8086 Mode (R36). -/
theorem State.Inv.cpl_of_v86 {s : State} (h : s.Inv) (hm : s.mode = .v86) : s.cpl = 3 := by
  obtain ⟨-, -, hmode⟩ := h
  rw [State.modeOk, hm] at hmode
  exact beq_iff_eq.mp (Bool.and_eq_true_iff.mp hmode).1

/-- Settles O36: TS is the bit written; in Virtual 8086 Mode PE = 1 and CPL is 3. -/
theorem cltsClearsTaskSwitched : Obligations.CltsClearsTaskSwitched := by
  refine fun p s => ⟨fun h => ⟨_, exec_clts_allowed h p, ?_, fun j hj => getLsbD_setBit_ts s.cr0 false hj, rfl,
    kept_setCr0_setEip s _ _, fun _ => rfl⟩, fun hpe hc => exec_clts_denied hpe hc p, fun hs hm => ?_⟩
  · exact (getLsbD_setBit s.cr0 (by decide) false 3).trans (if_pos rfl)
  · have hc : s.cpl ≠ 0 := by simp [hs.cpl_of_v86 hm]
    exact exec_clts_denied ((State.mode_eq_v86 s).mp hm).1 hc p

/-! ### What the five have in common (R207) -/

/-- `make` is an instruction that runs where `allowed`, raising #GP(0) elsewhere, and then changes the state by `write`
and moves EIP: neither looks at the general registers, and `write` changes only the listed bits of EFLAGS and CR0. -/
structure WritesBits (make : Prefixes → Instr) (allowed : State → Bool) (write : State → State) (flag ts : List Nat) :
    Prop where
  exec_eq (p : Prefixes) (s : State) :
    exec (make p) s = if allowed s then .next ((write s).setEip (s.nEip (make p))) else .fault (raise s .gp 0)
  allowed_regs (s : State) (g : Regs) : allowed { s with regs := g } = allowed s
  write_regs (s : State) (g : Regs) : write { s with regs := g } = { write s with regs := g }
  cr0 (s : State) (j : Nat) : j ∉ ts → (write s).cr0.getLsbD j = s.cr0.getLsbD j
  kept (s : State) (next : DWord) : Kept [] flag s { (write s).setEip next with cr0 := s.cr0 }
  mem (s : State) : (write s).mem = s.mem

/-- The instructions of this form that write a flag: the check and the new value see no general register. -/
theorem writesBits_setFlag {make : Prefixes → Instr} {allowed : State → Bool} {f : Flag} {b : State → Bool}
    (hexec : ∀ p s, exec (make p) s =
      if allowed s then .next ((s.setFlag f (b s)).setEip (s.nEip (make p))) else .fault (raise s .gp 0))
    (hallowed : ∀ (s : State) (g : Regs), allowed { s with regs := g } = allowed s)
    (hb : ∀ (s : State) (g : Regs), b { s with regs := g } = b s) :
    WritesBits make allowed (fun s => s.setFlag f (b s)) [f.bit] [] where
  exec_eq := hexec
  allowed_regs := hallowed
  write_regs s g := by rw [hb]; rfl
  cr0 _ _ _ := rfl
  kept s next := kept_setFlag_setEip s f (b s) next
  mem _ := rfl

theorem writesBits_clc : WritesBits .clc (fun _ => true) (fun s => s.setFlag .cf false) [0] [] :=
  writesBits_setFlag exec_clc (fun _ _ => rfl) fun _ _ => rfl

theorem writesBits_cld : WritesBits .cld (fun _ => true) (fun s => s.setFlag .df false) [10] [] :=
  writesBits_setFlag exec_cld (fun _ _ => rfl) fun _ _ => rfl

theorem writesBits_cli : WritesBits .cli cliAllowed (fun s => s.setFlag .intr false) [9] [] :=
  writesBits_setFlag exec_cli (fun _ _ => rfl) fun _ _ => rfl

theorem writesBits_clts :
    WritesBits .clts cltsAllowed (fun s => s.setCr0 (setBit s.cr0 Cr0Bit.ts.bit false)) [] [3] where
  exec_eq := exec_clts
  allowed_regs _ _ := rfl
  write_regs _ _ := rfl
  cr0 s _ hj := getLsbD_setBit_ts s.cr0 false (List.ne_of_not_mem_cons hj)
  kept s next := kept_setCr0_setEip s _ next
  mem _ := rfl

theorem writesBits_cmc : WritesBits .cmc (fun _ => true) (fun s => s.setFlag .cf (!s.flag .cf)) [0] [] :=
  writesBits_setFlag exec_cmc (fun _ _ => rfl) fun _ _ => rfl

/-- An outcome of such an instruction: it was allowed, and is the change of the state with EIP moved. -/
theorem WritesBits.exec_eq_next {make : Prefixes → Instr} {allowed : State → Bool} {write : State → State}
    {flag ts : List Nat} (w : WritesBits make allowed write flag ts) {p : Prefixes} {s t : State} :
    exec (make p) s = .next t ↔ allowed s = true ∧ (write s).setEip (s.nEip (make p)) = t := by
  rw [w.exec_eq]
  cases allowed s <;> simp

/-- Settles O37: each of the five writes a bit in the way of `WritesBits`, and there neither the prefix bytes nor the
general registers reach anything but EIP. -/
theorem flagControlTouchesOneBit : Obligations.FlagControlTouchesOneBit := by
  intro make flag ts hmake p q g s t ht
  obtain ⟨allowed, write, w⟩ : ∃ allowed write, WritesBits make allowed write flag ts := by
    obtain ⟨rfl, rfl, rfl⟩ | ⟨rfl, rfl, rfl⟩ | ⟨rfl, rfl, rfl⟩ | ⟨rfl, rfl, rfl⟩ | ⟨rfl, rfl, rfl⟩ := hmake
    · exact ⟨_, _, writesBits_clc⟩
    · exact ⟨_, _, writesBits_cld⟩
    · exact ⟨_, _, writesBits_cli⟩
    · exact ⟨_, _, writesBits_clts⟩
    · exact ⟨_, _, writesBits_cmc⟩
  obtain ⟨hallowed, rfl⟩ := w.exec_eq_next.mp ht
  refine ⟨⟨_, w.exec_eq_next.mpr ⟨hallowed, rfl⟩, rfl⟩, ?_, w.cr0 s, w.kept s _, fun a => ?_⟩
  · refine w.exec_eq_next.mpr ⟨(w.allowed_regs s g).trans hallowed, ?_⟩
    rw [w.write_regs]
    rfl
  · rw [State.setEip_mem, w.mem]

end Sys2Proof.Machine
end

section
/-! Every fault of an instruction and of its fetch is an exception (60_exceptions.md R270), so an external interrupt
stops a step only where it is accepted, before the fetch (R266). -/

namespace Sys2Proof.Machine

/-! ### Results that fail with an exception only -/

/-- The fault is an exception: not the end of the run, not an external interrupt. -/
def Fault.IsException (f : Fault) : Prop := ∃ x code, f = .exception x code

theorem Fault.isException_exception (x : Exc) (code : Option Word) : (Fault.exception x code).IsException :=
  ⟨x, code, rfl⟩

theorem isException_raise (s : State) (x : Exc) (code : Word) : (raise s x code).IsException := by
  unfold raise
  cases s.mode with
  | real | prot | v86 => exact Fault.isException_exception _ _

theorem isException_operandFault (s : State) (name : SegName) : (operandFault s name).IsException := by
  unfold operandFault
  cases name with
  | cs | ds | es | fs | gs => exact isException_raise s .gp 0
  | ss =>
    cases s.mode with
    | prot => exact isException_raise s .ss 0
    | real | v86 =>
      cases s.realSsVector12 with
      | true => exact isException_raise s .ss 0
      | false => exact isException_raise s .gp 0

/-- A result that fails with an exception if it fails. -/
structure ExceptionsOnly {α : Type} (r : Res α) : Prop where
  isException {f : Fault} : r = .error f → f.IsException

namespace ExceptionsOnly

variable {α β : Type}

theorem ok (a : α) : ExceptionsOnly (.ok a : Res α) := ⟨nofun⟩

theorem error {f : Fault} (h : f.IsException) : ExceptionsOnly (.error f : Res α) :=
  ⟨fun hf => Except.error.inj hf ▸ h⟩

theorem check {c : Bool} {f : Fault} (h : f.IsException) : ExceptionsOnly (require c f) := by
  cases c with
  | true => exact ok ()
  | false => exact error h

/-- Most checks raise an exception of their own (R8). -/
theorem check_raise {c : Bool} (s : State) (x : Exc) {code : Word} : ExceptionsOnly (require c (raise s x code)) :=
  check (isException_raise s x code)

theorem bind {r : Res α} {g : α → Res β} (hr : ExceptionsOnly r) (hg : ∀ a, ExceptionsOnly (g a)) :
    ExceptionsOnly (r >>= g) where
  isException h := by
    rcases bind_eq_error.mp h with hf | ⟨a, -, hf⟩
    · exact hr.isException hf
    · exact (hg a).isException hf

theorem map {r : Res α} (hr : ExceptionsOnly r) (g : α → β) : ExceptionsOnly (r.map g) :=
  ⟨fun h => hr.isException (map_eq_error.mp h)⟩

end ExceptionsOnly

open ExceptionsOnly

/-! ### Memory and operands -/

theorem exceptionsOnly_physAddrs (s : State) (k : AccessKind) (c : BitVec 2) (n : Nat) (a : DWord) :
    ExceptionsOnly (physAddrs s k c n a) where
  isException h := by
    obtain ⟨code, rfl⟩ := physAddrs_error h
    exact isException_raise s .pf code

theorem exceptionsOnly_memRead (s : State) (k : AccessKind) (c : BitVec 2) (a : DWord) (n : Nat) :
    ExceptionsOnly (memRead s k c a n) :=
  (exceptionsOnly_physAddrs s k c n a).bind fun _ => ok _

theorem exceptionsOnly_memWrite (s : State) (c : BitVec 2) (a : DWord) (n v : Nat) :
    ExceptionsOnly (memWrite s c a n v) :=
  (exceptionsOnly_physAddrs s .write c n a).bind fun _ => ok _

theorem exceptionsOnly_segRead (s : State) (name : SegName) (off : DWord) (n : Nat) :
    ExceptionsOnly (segRead s name off n) :=
  (check (isException_operandFault s name)).bind fun _ => exceptionsOnly_memRead ..

theorem exceptionsOnly_readRM8 (p : Prefixes) (d : RM Reg8) (s : State) : ExceptionsOnly (readRM8 p d s) := by
  cases d with
  | reg r => exact ok _
  | mem m => exact (exceptionsOnly_segRead ..).map _

theorem exceptionsOnly_readRM16 (p : Prefixes) (d : RM Reg) (s : State) : ExceptionsOnly (readRM16 p d s) := by
  cases d with
  | reg r => exact ok _
  | mem m => exact (exceptionsOnly_segRead ..).map _

theorem exceptionsOnly_readRM32 (p : Prefixes) (d : RM Reg) (s : State) : ExceptionsOnly (readRM32 p d s) := by
  cases d with
  | reg r => exact ok _
  | mem m => exact (exceptionsOnly_segRead ..).map _

theorem exceptionsOnly_readFarPtr (p : Prefixes) (m : Mem) (z : Size) (s : State) :
    ExceptionsOnly (readFarPtr p m z s) where
  isException h := (exceptionsOnly_segRead ..).isException (readFarPtr_eq_error.mp h)

/-! ### The stack -/

theorem exceptionsOnly_push (n v : Nat) (s : State) : ExceptionsOnly (push n v s) :=
  (check_raise s .ss).bind fun _ => (exceptionsOnly_memWrite ..).bind fun _ => ok _

theorem exceptionsOnly_pushSelector (pads : Nat → Word) (z : Size) (sel : Word) (s : State) :
    ExceptionsOnly (pushSelector pads z sel s) := by
  cases z with
  | s16 | s32 => exact exceptionsOnly_push ..

theorem exceptionsOnly_pushOffsetValue (z : Size) (v : DWord) (s : State) :
    ExceptionsOnly (pushOffsetValue z v s) := by
  cases z with
  | s16 | s32 => exact exceptionsOnly_push ..

theorem exceptionsOnly_pushReturn (pads : Nat → Word) (z : Size) (sel : Word) (ret : DWord) (s : State) :
    ExceptionsOnly (pushReturn pads z sel ret s) :=
  (exceptionsOnly_pushSelector ..).bind fun _ => exceptionsOnly_pushOffsetValue ..

theorem exceptionsOnly_pushList (n : Nat) (vs : List Nat) (s : State) : ExceptionsOnly (pushList n vs s) := by
  induction vs generalizing s with
  | nil => exact ok s
  | cons v vs ih => exact (exceptionsOnly_push n v s).bind ih

theorem exceptionsOnly_readParams (s : State) (n count i : Nat) : ExceptionsOnly (readParams s n count i) := by
  induction count generalizing i with
  | zero => exact ok _
  | succ count ih => exact (exceptionsOnly_segRead ..).bind fun _ => (ih (i + 1)).bind fun _ => ok _

/-! ### Descriptors, segments and tasks -/

theorem exceptionsOnly_fetchEntry (s : State) (base limit : DWord) (index : Nat) {outside : Fault}
    (h : outside.IsException) : ExceptionsOnly (fetchEntry s base limit index outside) :=
  (check h).bind fun _ => (exceptionsOnly_memRead ..).bind fun _ => ok _

theorem exceptionsOnly_fetchDescriptor (s : State) (sel : Word) {outside : Fault} (h : outside.IsException) :
    ExceptionsOnly (fetchDescriptor s sel outside) := by
  unfold fetchDescriptor
  split
  · exact (check h).bind fun _ => exceptionsOnly_fetchEntry _ _ _ _ h
  · exact exceptionsOnly_fetchEntry _ _ _ _ h

theorem exceptionsOnly_markAccessed (d : Desc) (s : State) : ExceptionsOnly (markAccessed d s) := by
  unfold markAccessed
  split
  · exact ok s
  · exact exceptionsOnly_memWrite ..

theorem exceptionsOnly_loadCs (sel : Word) (d : Desc) (cpl : BitVec 2) (s : State) :
    ExceptionsOnly (loadCs sel d cpl s) :=
  (exceptionsOnly_markAccessed d s).bind fun _ => ok _

theorem exceptionsOnly_loadSs (sel : Word) (d : Desc) (s : State) : ExceptionsOnly (loadSs sel d s) :=
  (exceptionsOnly_markAccessed d s).bind fun _ => ok _

theorem exceptionsOnly_innerStack (s : State) (l : Nat) : ExceptionsOnly (innerStack s l) := by
  unfold innerStack
  split
  all_goals exact (check_raise s .ts).bind fun _ =>
    (exceptionsOnly_memRead ..).bind fun _ => (exceptionsOnly_memRead ..).bind fun _ => ok _

theorem exceptionsOnly_switchTasks (s : State) (ret : DWord) (tsel : Word) (f : TssFormat) (td : QWord) :
    ExceptionsOnly (switchTasks s ret tsel f td) := by
  unfold switchTasks
  split
  · exact error (Fault.isException_exception _ _)
  · exact (check_raise _ .ts).bind fun _ => ok _

/-! ### CALL -/

theorem exceptionsOnly_nearCall (z : Size) (ret tgt : DWord) (s : State) : ExceptionsOnly (nearCall z ret tgt s) :=
  (check_raise s .ss).bind fun _ => (check_raise s .gp).bind fun _ =>
    (exceptionsOnly_pushOffsetValue ..).bind fun _ => ok _

theorem exceptionsOnly_farReal (pads : Nat → Word) (z : Size) (ret : DWord) (ptr : FarPtr) (s : State) :
    ExceptionsOnly (farReal pads z ret ptr s) :=
  (check_raise s .ss).bind fun _ => (check_raise s .gp).bind fun _ =>
    (exceptionsOnly_pushReturn ..).bind fun _ => ok _

theorem exceptionsOnly_enterSegment (pads : Nat → Word) (z : Size) (ret : DWord) (sel : Word) (d : Desc) (tgt : DWord)
    (s : State) : ExceptionsOnly (enterSegment pads z ret sel d tgt s) :=
  (check_raise s .ss).bind fun _ => (check_raise s .gp).bind fun _ =>
    (exceptionsOnly_pushReturn ..).bind fun _ => (exceptionsOnly_loadCs ..).bind fun _ => ok _

theorem exceptionsOnly_farConforming (pads : Nat → Word) (z : Size) (ret : DWord) (ptr : FarPtr) (d : Desc)
    (s : State) : ExceptionsOnly (farConforming pads z ret ptr d s) :=
  (check_raise s .gp).bind fun _ => (check_raise s .np).bind fun _ => exceptionsOnly_enterSegment ..

theorem exceptionsOnly_farNonconforming (pads : Nat → Word) (z : Size) (ret : DWord) (ptr : FarPtr) (d : Desc)
    (s : State) : ExceptionsOnly (farNonconforming pads z ret ptr d s) :=
  (check_raise s .gp).bind fun _ => (check_raise s .gp).bind fun _ =>
    (check_raise s .np).bind fun _ => exceptionsOnly_enterSegment ..

theorem exceptionsOnly_newStackSegment (s : State) (nss : Word) (dpl : BitVec 2) :
    ExceptionsOnly (newStackSegment s nss dpl) :=
  (check_raise s .ts).bind fun _ =>
    (exceptionsOnly_fetchDescriptor s nss (isException_raise s .ts _)).bind fun _ =>
    (check_raise s .ts).bind fun _ => (check_raise s .ts).bind fun _ =>
    (check_raise s .ts).bind fun _ => (check_raise s .ss).bind fun _ => ok _

theorem exceptionsOnly_switchStack (pads : Nat → Word) (z : Size) (ret : DWord) (inner : InnerStack) (sd : Desc)
    (params : List Nat) (s : State) : ExceptionsOnly (switchStack pads z ret inner sd params s) :=
  (exceptionsOnly_loadSs ..).bind fun _ => (exceptionsOnly_pushSelector ..).bind fun _ =>
    (exceptionsOnly_pushOffsetValue ..).bind fun _ => (exceptionsOnly_pushList ..).bind fun _ =>
    exceptionsOnly_pushReturn ..

theorem exceptionsOnly_morePrivilege (pads : Nat → Word) (gs : Size) (ret : DWord) (g : QWord) (csel : Word) (c : Desc)
    (s : State) : ExceptionsOnly (morePrivilege pads gs ret g csel c s) :=
  (exceptionsOnly_innerStack ..).bind fun _ => (exceptionsOnly_newStackSegment ..).bind fun _ =>
    (check_raise s .ss).bind fun _ => (check_raise s .gp).bind fun _ =>
    (exceptionsOnly_readParams ..).bind fun _ => (exceptionsOnly_switchStack ..).bind fun _ =>
    (exceptionsOnly_loadCs ..).bind fun _ => ok _

theorem exceptionsOnly_gateTarget (s : State) (csel : Word) : ExceptionsOnly (gateTarget s csel) :=
  (check_raise s .gp).bind fun _ =>
    (exceptionsOnly_fetchDescriptor s csel (isException_raise s .gp _)).bind fun _ =>
    (check_raise s .gp).bind fun _ => (check_raise s .gp).bind fun _ =>
    (check_raise s .np).bind fun _ => ok _

theorem exceptionsOnly_farCallGate (pads : Nat → Word) (gs : Size) (ret : DWord) (ptr : FarPtr) (g : Desc) (s : State) :
    ExceptionsOnly (farCallGate pads gs ret ptr g s) := by
  refine (check_raise s .gp).bind fun _ => (check_raise s .gp).bind fun _ =>
    (check_raise s .np).bind fun _ => (exceptionsOnly_gateTarget ..).bind fun c => ?_
  split
  · exact exceptionsOnly_morePrivilege ..
  · exact exceptionsOnly_enterSegment ..

theorem exceptionsOnly_enterTss (ret : DWord) (tsel : Word) (td : QWord) (s : State) :
    ExceptionsOnly (enterTss ret tsel td s) := by
  unfold enterTss
  split
  · exact error (isException_raise s .ts _)
  · exact (check_raise s .np).bind fun _ => exceptionsOnly_switchTasks ..

theorem exceptionsOnly_farTaskGate (ret : DWord) (ptr : FarPtr) (g : Desc) (s : State) :
    ExceptionsOnly (farTaskGate ret ptr g s) :=
  (check_raise s .ts).bind fun _ => (check_raise s .ts).bind fun _ =>
    (check_raise s .np).bind fun _ => (check_raise s .ts).bind fun _ =>
    (exceptionsOnly_fetchEntry _ _ _ _ (isException_raise s .ts _)).bind fun _ => exceptionsOnly_enterTss ..

theorem exceptionsOnly_farTss (ret : DWord) (ptr : FarPtr) (d : Desc) (s : State) :
    ExceptionsOnly (farTss ret ptr d s) :=
  (check_raise s .ts).bind fun _ => (check_raise s .ts).bind fun _ => exceptionsOnly_enterTss ..

theorem exceptionsOnly_farByKind (pads : Nat → Word) (z : Size) (ret : DWord) (ptr : FarPtr) (d : Desc) (s : State) :
    ExceptionsOnly (farByKind pads z ret ptr d s) := by
  unfold farByKind
  split
  · exact exceptionsOnly_farConforming ..
  · exact exceptionsOnly_farNonconforming ..
  · exact exceptionsOnly_farCallGate ..
  · exact exceptionsOnly_farTaskGate ..
  · exact exceptionsOnly_farTss ..
  · exact error (isException_raise s .gp _)
  · exact error (isException_raise s .gp _)

theorem exceptionsOnly_farProtected (pads : Nat → Word) (z : Size) (ret : DWord) (ptr : FarPtr) (s : State) :
    ExceptionsOnly (farProtected pads z ret ptr s) :=
  (check_raise s .gp).bind fun _ =>
    (exceptionsOnly_fetchDescriptor s _ (isException_raise s .gp _)).bind fun _ => exceptionsOnly_farByKind ..

theorem exceptionsOnly_farCall (pads : Nat → Word) (z : Size) (ret : DWord) (ptr : FarPtr) (s : State) :
    ExceptionsOnly (farCall pads z ret ptr s) := by
  unfold farCall
  split
  · exact exceptionsOnly_farReal ..
  · exact exceptionsOnly_farReal ..
  · exact exceptionsOnly_farProtected ..

/-! ### CMP and CMPS -/

theorem exceptionsOnly_compareOperands {n : Nat} (s : State) (next : DWord) {l r : Res (BitVec n)}
    (hl : ExceptionsOnly l) (hr : ExceptionsOnly r) : ExceptionsOnly (compareOperands s next l r) :=
  hl.bind fun _ => hr.bind fun _ => ok _

theorem exceptionsOnly_stringRead (s : State) (asz : Size) (name : SegName) (off : DWord) (n : Nat) :
    ExceptionsOnly (stringRead s asz name off n) :=
  (check (isException_operandFault s name)).bind fun _ => exceptionsOnly_segRead ..

theorem exceptionsOnly_compareStrings (p : Prefixes) (asz : Size) (n : Nat) (next : DWord) (s : State) :
    ExceptionsOnly (compareStrings p asz n next s) :=
  (exceptionsOnly_stringRead ..).bind fun _ => (exceptionsOnly_stringRead ..).bind fun _ => ok _

/-! ### Every instruction, its fetch, and the step -/

/-- A fault of an instruction is the fault of the result that the instruction is the outcome of. -/
theorem isException_of_outcome {r : Res State} (hr : ExceptionsOnly r) {f : Fault} (h : outcome r = .fault f) :
    f.IsException :=
  hr.isException (outcome_eq_fault.mp h)

/-- Every fault of an instruction is an exception (R270). -/
theorem isException_of_exec {i : Instr} {s : State} {f : Fault} (h : exec i s = .fault f) : f.IsException := by
  cases i with
  | cbw | cwde | cwd | cdq | clc | cld | cmc => cases h
  | cli | clts => exact isException_of_outcome ((check_raise s .gp).bind fun _ => ok _) h
  | callRel16 | callRel32 => exact isException_of_outcome (exceptionsOnly_nearCall ..) h
  | callRm16 p d =>
    exact isException_of_outcome ((exceptionsOnly_readRM16 p d s).bind fun _ => exceptionsOnly_nearCall ..) h
  | callRm32 p d =>
    exact isException_of_outcome ((exceptionsOnly_readRM32 p d s).bind fun _ => exceptionsOnly_nearCall ..) h
  | callPtr1616 | callPtr1632 => exact isException_of_outcome (exceptionsOnly_farCall ..) h
  | callM1616 p m | callM1632 p m =>
    exact isException_of_outcome ((exceptionsOnly_readFarPtr p m _ s).bind fun _ => exceptionsOnly_farCall ..) h
  | cmpAlImm8 | cmpAxImm16 | cmpEaxImm32 =>
    exact isException_of_outcome (exceptionsOnly_compareOperands s _ (ok _) (ok _)) h
  | cmpRm8Imm8 p d | cmpRm8R8 p d =>
    exact isException_of_outcome (exceptionsOnly_compareOperands s _ (exceptionsOnly_readRM8 p d s) (ok _)) h
  | cmpRm16Imm16 p d | cmpRm16Imm8 p d | cmpRm16R16 p d =>
    exact isException_of_outcome (exceptionsOnly_compareOperands s _ (exceptionsOnly_readRM16 p d s) (ok _)) h
  | cmpRm32Imm32 p d | cmpRm32Imm8 p d | cmpRm32R32 p d =>
    exact isException_of_outcome (exceptionsOnly_compareOperands s _ (exceptionsOnly_readRM32 p d s) (ok _)) h
  | cmpR8Rm8 p r d =>
    exact isException_of_outcome (exceptionsOnly_compareOperands s _ (ok _) (exceptionsOnly_readRM8 p d s)) h
  | cmpR16Rm16 p r d =>
    exact isException_of_outcome (exceptionsOnly_compareOperands s _ (ok _) (exceptionsOnly_readRM16 p d s)) h
  | cmpR32Rm32 p r d =>
    exact isException_of_outcome (exceptionsOnly_compareOperands s _ (ok _) (exceptionsOnly_readRM32 p d s)) h
  | cmpsM8 | cmpsM16 | cmpsM32 => exact isException_of_outcome (exceptionsOnly_compareStrings ..) h

theorem exceptionsOnly_fetchByte (s : State) (k : Nat) : ExceptionsOnly (fetchByte s k) :=
  (check_raise s .gp).bind fun _ => (exceptionsOnly_memRead ..).bind fun _ => ok _

/-- The fault that a need for more bytes meets is that of a byte or of too long an instruction (R92, R95). -/
theorem isException_fetchFrom (s : State) (fuel k : Nat) : (fetchFrom s fuel k).2.IsException := by
  induction fuel generalizing k with
  | zero => exact isException_raise s .gp 0
  | succ fuel ih =>
    rw [fetchFrom]
    split
    next f h => exact (exceptionsOnly_fetchByte s k).isException h
    next => exact ih (k + 1)

theorem isException_of_fetchedOf {more f : Fault} (hmore : more.IsException) {x : Parse Instr}
    (h : fetchedOf more x = .fault f) : f.IsException := by
  unfold fetchedOf at h
  split at h <;> cases h
  · exact hmore
  · exact Fault.isException_exception _ _

theorem isException_of_fetchInstr {s : State} {f : Fault} (h : fetchInstr s = .fault f) : f.IsException :=
  isException_of_fetchedOf (isException_fetchFrom s _ 0) h

theorem atHalt_eq_true {s : State} : atHalt s = true ↔ s.haltAddr = some s.eip := beq_iff_eq

/-- An accepted interrupt stops the step unless the run is over (R266). -/
theorem step_interrupted {s : State} {v : Byte} (hhalt : s.haltAddr ≠ some s.eip)
    (hv : acceptedInterrupt s = some v) : step s = .fault (.externalInterrupt v) := by
  rw [step, if_neg (mt atHalt_eq_true.mp hhalt), hv]

/-- A step that fetches ends with no external interrupt. -/
theorem step_ne_externalInterrupt {s : State} (h : acceptedInterrupt s = none) (v : Byte) :
    step s ≠ .fault (.externalInterrupt v) := by
  intro hstep
  cases hhalt : atHalt s with
  | true => simp [step, hhalt] at hstep
  | false =>
    rw [step_fetched hhalt h] at hstep
    have hexc : (Fault.externalInterrupt v).IsException := by
      split at hstep
      next => exact isException_of_exec hstep
      next hfetch => cases hstep; exact isException_of_fetchInstr hfetch
      next => cases hstep
    obtain ⟨_, _, hne⟩ := hexc
    cases hne

/-- Settles O24: the step asks first for the end of the run, then for an accepted interrupt; past both it can only raise
exceptions. -/
theorem haltAddressAndInterruptComeFirst : Obligations.HaltAddressAndInterruptComeFirst := by
  refine fun s v => ⟨fun hhalt => ?_, fun hhalt hoffer hif => ?_, fun hhalt hoffer => ?_, fun hif hoffer => ?_⟩
  · rw [step, if_pos (atHalt_eq_true.mpr hhalt)]
  · exact step_interrupted hhalt (acceptedInterrupt_eq_some.mpr (.inr ⟨hoffer, hif⟩))
  · exact step_interrupted hhalt (acceptedInterrupt_eq_some.mpr (.inl ⟨hoffer, rfl⟩))
  · exact step_ne_externalInterrupt ((acceptedInterrupt_of_intr_clear hif).trans (if_neg hoffer)) v

end Sys2Proof.Machine
end

section
/-! What the six flags of a subtraction say of its operands (44_cmp.md R211). -/

namespace Sys2Proof.Machine

/-! ### Parity -/

/-- The XOR of a row of bits is 1 when an odd number of them is set. -/
theorem foldl_xor_eq_decide (f : Nat → Bool) (ks : List Nat) (b : Bool) :
    ks.foldl (fun acc k => acc ^^ f k) b = decide (((ks.filter f).length + b.toNat) % 2 = 1) := by
  induction ks generalizing b with
  | nil => cases b <;> rfl
  | cons k ks ih =>
    rw [List.foldl_cons, ih, List.filter_cons]
    cases f k with
    | false => simp
    | true =>
      cases b with
      | false => simp
      | true => simp; omega

theorem evenParity_eq (v : Byte) :
    evenParity v = decide (((List.range 8).filter fun k => v.getLsbD k).length % 2 = 0) := by
  have hfold : evenParity v = !(List.range 8).foldl (fun acc k => acc ^^ v.getLsbD k) false := by
    simp [evenParity, List.range_succ]
  rw [hfold, foldl_xor_eq_decide, Bool.toNat_false, Nat.add_zero, ← decide_not]
  exact decide_eq_decide.mpr Nat.mod_two_ne_one

/-- PF looks at the low byte of the result only (R211). -/
theorem evenParity_setWidth {n : Nat} (v : BitVec n) :
    evenParity (v.setWidth 8) = decide (((List.range 8).filter fun k => v.getLsbD k).length % 2 = 0) := by
  have hlow : ∀ k ∈ List.range 8, (v.setWidth 8).getLsbD k = v.getLsbD k := fun k hk => by
    rw [BitVec.getLsbD_setWidth, decide_eq_true (List.mem_range.mp hk), Bool.true_and]
  rw [evenParity_eq, List.filter_congr hlow]

/-! ### Borrows and order -/

/-- Two numbers below `m` reach `m` exactly when their sum modulo `m` falls below the second. -/
theorem add_mod_lt_right_iff {a b m : Nat} (ha : a < m) (hb : b < m) : (a + b) % m < b ↔ m ≤ a + b := by
  rcases Nat.lt_or_ge (a + b) m with hlt | hge
  · rw [Nat.mod_eq_of_lt hlt]
    omega
  · rw [Nat.mod_eq_sub_mod hge, Nat.mod_eq_of_lt (by omega)]
    omega

/-- `left` is `res + right`, and the carry of that addition into bit `i` is the borrow of the subtraction. -/
theorem carry_sub {n i : Nat} (hi : i < n) (left right : BitVec n) :
    BitVec.carry i (left - right) right false = decide (left.toNat % 2 ^ i < right.toNat % 2 ^ i) := by
  have hpos : 0 < 2 ^ i := Nat.two_pow_pos i
  have hmod : left.toNat % 2 ^ i = ((left - right).toNat % 2 ^ i + right.toNat % 2 ^ i) % 2 ^ i := by
    rw [← Nat.add_mod, ← Nat.mod_mod_of_dvd (_ + _) (Nat.pow_dvd_pow 2 hi.le), ← BitVec.toNat_add,
      BitVec.sub_add_cancel]
  rw [hmod]
  exact decide_eq_decide.mpr (add_mod_lt_right_iff (Nat.mod_lt _ hpos) (Nat.mod_lt _ hpos)).symm

/-- Bit `i` of left XOR right XOR res is the borrow into it. -/
theorem getLsbD_xor_sub {n i : Nat} (hi : i < n) (left right : BitVec n) :
    (left ^^^ right ^^^ (left - right)).getLsbD i = decide (left.toNat % 2 ^ i < right.toNat % 2 ^ i) := by
  have hbit := BitVec.getLsbD_add hi (left - right) right
  rw [BitVec.sub_add_cancel, carry_sub hi] at hbit
  rw [BitVec.getLsbD_xor, BitVec.getLsbD_xor, hbit]
  cases (left - right).getLsbD i <;> cases right.getLsbD i <;> simp

theorem msb_sub_of_msb_eq {n : Nat} {left right : BitVec n} (hn : 0 < n) (h : left.msb = right.msb) :
    (left - right).msb = left.ult right := by
  obtain ⟨m, rfl⟩ := Nat.exists_eq_succ_of_ne_zero hn.ne'
  have hpow := Nat.pow_succ (n := 2) (m := m)
  have hl := left.isLt
  have hr := right.isLt
  rw [BitVec.msb_eq_decide, BitVec.msb_eq_decide, decide_eq_decide, Nat.succ_sub_one] at h
  rw [BitVec.msb_eq_decide, BitVec.ult_eq_decide, decide_eq_decide, Nat.succ_sub_one]
  rcases Nat.lt_or_ge left.toNat right.toNat with hlt | hge
  · rw [BitVec.toNat_sub_of_lt hlt]
    omega
  · rw [BitVec.toNat_sub_of_le hge]
    omega

/-- Signed order: with equal signs there is no overflow and the sign of the difference decides, with different signs
the sign of `left` does. -/
theorem slt_eq_sf_ne_ov {n : Nat} (hn : 0 < n) (left right : BitVec n) :
    left.slt right = ((subFlags left right).sf != (subFlags left right).ov) := by
  by_cases h : left.msb = right.msb
  · rw [BitVec.slt_eq_ult_of_msb_eq h, ← msb_sub_of_msb_eq hn h]
    simp [subFlags, h]
  · rw [BitVec.slt_eq_not_ult_of_msb_neq h, BitVec.ult_eq_msb_of_msb_neq h]
    have hleft : left.msb = !right.msb := Bool.eq_not_of_ne h
    cases hres : (left - right).msb <;> cases hright : right.msb <;> simp [subFlags, hleft, hres, hright]

/-! ### The values of R211's table -/

theorem subFlags_af {n : Nat} (left right : BitVec n) :
    (subFlags left right).af = decide (left.toNat % 16 < right.toNat % 16) := by
  simp [subFlags, BitVec.ult_eq_decide]

theorem subFlags_zf {n : Nat} (left right : BitVec n) :
    (subFlags left right).zf = decide ((left - right).toNat = 0) :=
  Bool.eq_iff_iff.mpr (by simp [subFlags, ← BitVec.toNat_inj])

theorem subFlags_zf_iff {n : Nat} {left right : BitVec n} : (subFlags left right).zf = true ↔ left = right := by
  simp [subFlags, BitVec.sub_eq_iff_eq_add]

theorem comparedFlags_withSubFlags {n : Nat} (left right : BitVec n) (e : DWord) :
    ComparedFlags (withSubFlags e (subFlags left right)) left right where
  cf := getLsbD_withSubFlags e _ 0
  pf := (getLsbD_withSubFlags e _ 2).trans (evenParity_setWidth _)
  af := (getLsbD_withSubFlags e _ 4).trans (subFlags_af left right)
  zf := (getLsbD_withSubFlags e _ 6).trans (subFlags_zf left right)
  sf := (getLsbD_withSubFlags e _ 7).trans (BitVec.msb_eq_getLsbD_last _)
  ov := by
    rw [getLsbD_withSubFlags, ← BitVec.msb_eq_getLsbD_last, ← BitVec.msb_eq_getLsbD_last, ← BitVec.msb_eq_getLsbD_last]
    rfl

/-- Settles O40: unsigned order is the borrow CF, signed order is `slt_eq_sf_ne_ov`, and AF is the borrow into bit 4. -/
theorem subtractionFlagsOrderNumbers : Obligations.SubtractionFlagsOrderNumbers := by
  intro n left right e hn f
  refine ⟨comparedFlags_withSubFlags left right e, BitVec.ult_iff_toNat_lt.symm, ?_, subFlags_zf_iff.symm, ?_⟩
  · rw [← BitVec.slt_iff_toInt_lt, slt_eq_sf_ne_ov (by omega), bne_iff_ne]
  · exact (subFlags_af left right).trans (getLsbD_xor_sub (i := 4) (by omega) left right).symm

end Sys2Proof.Machine
end

section
/-! The fourteen forms of CMP (44_cmp.md R210 to R228): one shared operation, its two ends, and which operands each form
gives it. -/

namespace Sys2Proof.Machine

/-! ### What the shared operation does (R210) -/

/-- The state after a comparison: six flags and EIP. -/
def State.compared {n : Nat} (s : State) (next : DWord) (left right : BitVec n) : State :=
  (s.setEflags (withSubFlags s.eflags (subFlags left right))).setEip next

theorem compareOperands_eq_ok {n : Nat} {s t : State} {next : DWord} {l r : Res (BitVec n)} :
    compareOperands s next l r = .ok t ↔ ∃ a b, l = .ok a ∧ r = .ok b ∧ t = s.compared next a b := by
  simp only [compareOperands, bind_eq_ok, Except.ok.injEq]
  exact ⟨fun ⟨a, ha, b, hb, ht⟩ => ⟨a, b, ha, hb, ht.symm⟩, fun ⟨a, b, ha, hb, ht⟩ => ⟨a, ha, b, hb, ht.symm⟩⟩

/-- Two operands that can be read are compared. -/
theorem outcome_compareOperands {n : Nat} {s : State} {next : DWord} {l r : Res (BitVec n)} {a b : BitVec n}
    (hl : l = .ok a) (hr : r = .ok b) : outcome (compareOperands s next l r) = .next (s.compared next a b) :=
  outcome_eq_next.mpr (compareOperands_eq_ok.mpr ⟨a, b, hl, hr, rfl⟩)

/-- A left operand that cannot be read stops the comparison (R213). -/
theorem outcome_compareOperands_left {n : Nat} {s : State} {next : DWord} {l r : Res (BitVec n)} {f : Fault}
    (hl : l = .error f) : outcome (compareOperands s next l r) = .fault f :=
  outcome_eq_fault.mpr (bind_eq_error.mpr (.inl hl))

/-- So does a right operand, the left one being read. -/
theorem outcome_compareOperands_right {n : Nat} {s : State} {next : DWord} {l r : Res (BitVec n)} {a : BitVec n}
    {f : Fault} (hl : l = .ok a) (hr : r = .error f) : outcome (compareOperands s next l r) = .fault f :=
  outcome_eq_fault.mpr (bind_eq_error.mpr (.inr ⟨a, hl, bind_eq_error.mpr (.inl hr)⟩))

/-! ### Completion (R210 to R212, R214 to R227) -/

/-- Each form hands its left and its right operand to the comparison. -/
theorem exec_of_cmpOperands {s : State} {i : Instr} {n : Nat} {left right : BitVec n}
    (h : CmpOperands s i n left right) : exec i s = .next (s.compared (s.nEip i) left right) := by
  cases h with
  | alImm8 | axImm16 | eaxImm32 => rfl
  | rm8Imm8 _ _ _ _ hread | rm8R8 _ _ _ _ hread => exact outcome_compareOperands hread rfl
  | rm16Imm16 _ _ _ _ hread | rm16Imm8 _ _ _ _ hread | rm16R16 _ _ _ _ hread =>
    exact outcome_compareOperands hread rfl
  | rm32Imm32 _ _ _ _ hread | rm32Imm8 _ _ _ _ hread | rm32R32 _ _ _ _ hread =>
    exact outcome_compareOperands hread rfl
  | r8Rm8 _ _ _ _ hread | r16Rm16 _ _ _ _ hread | r32Rm32 _ _ _ _ hread =>
    exact outcome_compareOperands rfl hread

/-- A comparison writes the six flags and EIP only. -/
theorem kept_compared {n : Nat} (s : State) (next : DWord) (left right : BitVec n) :
    Kept [] statusBits s (s.compared next left right) where
  regs _ _ := rfl
  flags j _ hj := by
    simp only [statusBits, List.mem_cons, List.not_mem_nil, or_false, not_or] at hj
    simp [State.compared, getLsbD_withSubFlags, hj]
  segs := rfl
  cr0 := rfl
  system := by constructor <;> rfl
  draws := rfl

/-- Settles O38: with both operands read, the next state is `State.compared`. -/
theorem compareCompletes : Obligations.CompareCompletes := by
  intro s i n left right h
  exact ⟨_, exec_of_cmpOperands h,
    { next := rfl
      flags := comparedFlags_withSubFlags left right s.eflags
      kept := kept_compared s _ left right
      memory := fun _ => rfl }⟩

/-! ### Faults (R213) -/

/-- The fault of the memory operand is the instruction's, whichever side the operand is on. -/
theorem exec_of_cmpMemory_error {s : State} {i : Instr} {p : Prefixes} {m : Mem} {n : Nat} {f : Fault}
    (h : CmpMemory i p m n) (hread : segRead s (segOf p m) (effAddr s m) n = .error f) : exec i s = .fault f := by
  cases h with
  | rm8Imm8 | rm16Imm16 | rm32Imm32 | rm16Imm8 | rm32Imm8 | rm8R8 | rm16R16 | rm32R32 =>
    exact outcome_compareOperands_left (map_eq_error.mpr hread)
  | r8Rm8 | r16Rm16 | r32Rm32 => exact outcome_compareOperands_right rfl (map_eq_error.mpr hread)

/-- Settles O39: a read fails by the segment check, with the fault of R70, or past it by #PF only. -/
theorem compareFaultsOnIllegalOperand : Obligations.CompareFaultsOnIllegalOperand := by
  intro s i p m n h name legal
  exact ⟨fun hlegal => exec_of_cmpMemory_error h (segRead_illegal hlegal),
    fun _ hread => exec_of_cmpMemory_error h hread, fun _ hlegal hread => segRead_error hlegal hread⟩

/-! ### Equivalent encodings (R228) -/

/-- The same comparison by an instruction one byte longer ends one byte further on. -/
theorem exec_of_cmpOperands_longer {s t : State} {i j : Instr} {n : Nat} {left right : BitVec n}
    (hi : CmpOperands s i n left right) (hj : CmpOperands s j n left right) (hlen : j.length = i.length + 1)
    (h : exec i s = .next t) : exec j s = .next (t.setEip (t.eip + 1)) := by
  have hnext : s.nEip j = s.nEip i + 1 := by
    rw [State.nEip, State.nEip, hlen, BitVec.ofNat_add, ← BitVec.add_assoc]
    rfl
  rw [exec_of_cmpOperands hi] at h
  rw [exec_of_cmpOperands hj, hnext, ← Host.Outcome.next.inj h]
  rfl

/-- Settles O41: the forms of each pair compare the same operands, and have the same length or differ in it by one. -/
theorem equivalentCompareEncodings : Obligations.EquivalentCompareEncodings := by
  refine fun p s t => ⟨fun _ _ => rfl, fun _ _ => rfl, fun _ _ => rfl, fun v h => ?_, fun d v h => ?_,
    by decide, by decide, by decide⟩
  · exact exec_of_cmpOperands_longer (.alImm8 p v) (.rm8Imm8 p (.reg .al) v _ rfl) rfl h
  · obtain ⟨w, _, hread, _, _⟩ := compareOperands_eq_ok.mp (outcome_eq_next.mp h)
    exact exec_of_cmpOperands_longer (.rm16Imm8 p d v w hread) (.rm16Imm16 p d (v.signExtend 16) w hread) rfl h

end Sys2Proof.Machine
end

section
/-! CMPS on bytes, words and doublewords (45_cmps.md R235 to R242): where its two operands are, what the shared operation
does with them, and the first fault of the two reads. -/

namespace Sys2Proof.Machine

/-! ### The operands (R235, R237, R241) -/

/-- The offset is SI or DI extended with zeros, or the whole register (R235, R241). -/
theorem indexOffset_eq (s : State) (asz : Size) (r : Reg) :
    indexOffset s asz r = if asz = .s16 then (s.reg16 r).setWidth 32 else s.reg r := by
  cases asz <;> rfl

/-- An operand inside the offset range is a segment read. -/
theorem stringRead_inside {s : State} {asz : Size} {g : SegName} {off : DWord} {n : Nat}
    (h : off.toNat + n ≤ if asz = .s16 then 0x10000 else 0x100000000) :
    stringRead s asz g off n = segRead s g off n := by
  cases asz with
  | s16 | s32 => exact (stringRead_eq s _ g off n).trans (if_pos h)

/-- An operand across the end of the offset range is not wrapped: it has the fault of an illegal address (R241). -/
theorem stringRead_across {s : State} {asz : Size} {g : SegName} {off : DWord} {n : Nat}
    (h : ¬ off.toNat + n ≤ if asz = .s16 then 0x10000 else 0x100000000) :
    stringRead s asz g off n = .error (operandFault s g) := by
  cases asz with
  | s16 | s32 => exact (stringRead_eq s _ g off n).trans (if_neg h)

/-! ### The index registers (R236) -/

theorem reg_stepIndex_ne (asz : Size) {r q : Reg} (h : q ≠ r) (n : Nat) (down : Bool) (t : State) :
    (stepIndex asz r n down t).reg q = t.reg q := by
  obtain ⟨v, hv⟩ := stepIndex_eq_setReg asz r n down t
  rw [hv, State.reg_setReg, if_neg h]

/-- An index register that still holds its first value is moved by a step, in the direction DF gave at the start. -/
theorem indexMoved_stepIndex {s t : State} {r : Reg} (h : t.reg r = s.reg r) (asz : Size) (n : Nat) :
    IndexMoved asz r n s (stepIndex asz r n (s.flag .df) t) := by
  have h16 : t.reg16 r = s.reg16 r := congrArg low16 h
  cases asz with
  | s16 =>
    constructor
    · rw [stepIndex, State.reg16_setReg16, h16]
    · rw [stepIndex, State.reg_setReg16, if_pos rfl, high16_withLow16, h]
  | s32 => rw [IndexMoved, stepIndex, State.reg_setReg, if_pos rfl, h]

/-- Whether an index register was moved is seen on that register alone. -/
theorem IndexMoved.congr {asz : Size} {r : Reg} {n : Nat} {s t u : State} (h : IndexMoved asz r n s t)
    (hr : u.reg r = t.reg r) : IndexMoved asz r n s u := by
  cases asz with
  | s16 =>
    obtain ⟨hlow, hhigh⟩ := h
    exact ⟨(congrArg low16 hr).trans hlow, hr ▸ hhigh⟩
  | s32 => exact hr.trans h

/-- A step of a register that may be written keeps the rest. -/
theorem Kept.stepIndex {regs : List Reg} {flags : List Nat} {s t : State} (h : Kept regs flags s t) {r : Reg}
    (hr : r ∈ regs) (asz : Size) (n : Nat) (down : Bool) : Kept regs flags s (stepIndex asz r n down t) := by
  obtain ⟨v, hv⟩ := stepIndex_eq_setReg asz r n down t
  rw [hv]
  refine { h with regs := fun q hq => ?_, system := { h.system with } }
  have hne : q ≠ r := fun e => hq (e ▸ hr)
  rw [State.reg_setReg, if_neg hne, h.regs q hq]

/-! ### What the shared operation does (R235) -/

/-- The state after a comparison of strings: the six flags, both index registers, EIP. -/
def State.comparedStrings {w : Nat} (s : State) (asz : Size) (n : Nat) (next : DWord) (left right : BitVec w) : State :=
  (stepIndex asz .edi n (s.flag .df) (stepIndex asz .esi n (s.flag .df)
    (s.setEflags (withSubFlags s.eflags (subFlags left right))))).setEip next

/-- It is the state after a comparison with both index registers moved. -/
theorem State.comparedStrings_eq {w : Nat} (s : State) (asz : Size) (n : Nat) (next : DWord) (left right : BitVec w) :
    s.comparedStrings asz n next left right =
      stepIndex asz .edi n (s.flag .df) (stepIndex asz .esi n (s.flag .df) (s.compared next left right)) := by
  cases asz <;> rfl

/-- The three instructions are the shared operation at their widths (R238 to R240). -/
theorem exec_of_cmpsForm {i : Instr} {p : Prefixes} {asz : Size} {n : Nat} (h : CmpsForm i p asz n) (s : State) :
    exec i s = outcome (compareStrings p asz n (s.nEip i) s) := by
  cases h with
  | m8 | m16 | m32 => rfl

section
variable {s : State} {i : Instr} {p : Prefixes} {asz : Size} {n : Nat}

/-- Two operands that can be read are compared. -/
theorem exec_cmps {l r : Nat} (h : CmpsForm i p asz n)
    (hl : stringRead s asz (p.seg.getD .ds) (indexOffset s asz .esi) n = .ok l)
    (hr : stringRead s asz .es (indexOffset s asz .edi) n = .ok r) :
    exec i s = .next (s.comparedStrings asz n (s.nEip i) (BitVec.ofNat (8 * n) l) (BitVec.ofNat (8 * n) r)) :=
  (exec_of_cmpsForm h s).trans
    (outcome_eq_next.mpr (bind_eq_ok.mpr ⟨l, hl, bind_eq_ok.mpr ⟨r, hr, rfl⟩⟩))

/-- A source that cannot be read stops the comparison, whatever the destination (R235, R242). -/
theorem exec_cmps_source_error {f : Fault} (h : CmpsForm i p asz n)
    (hl : stringRead s asz (p.seg.getD .ds) (indexOffset s asz .esi) n = .error f) : exec i s = .fault f :=
  (exec_of_cmpsForm h s).trans (outcome_eq_fault.mpr (bind_eq_error.mpr (.inl hl)))

/-- So does a destination, the source being read. -/
theorem exec_cmps_destination_error {l : Nat} {f : Fault} (h : CmpsForm i p asz n)
    (hl : stringRead s asz (p.seg.getD .ds) (indexOffset s asz .esi) n = .ok l)
    (hr : stringRead s asz .es (indexOffset s asz .edi) n = .error f) : exec i s = .fault f :=
  (exec_of_cmpsForm h s).trans
    (outcome_eq_fault.mpr (bind_eq_error.mpr (.inr ⟨l, hl, bind_eq_error.mpr (.inl hr)⟩)))

end

/-! ### What the state after it is (R236, R242) -/

section
variable {w : Nat} (s : State) (asz : Size) (n : Nat) (next : DWord) (left right : BitVec w)

theorem indexMoved_esi_comparedStrings : IndexMoved asz .esi n s (s.comparedStrings asz n next left right) := by
  have hreg : (s.compared next left right).reg .esi = s.reg .esi := rfl
  have hne : Reg.esi ≠ .edi := by decide
  rw [State.comparedStrings_eq]
  exact (indexMoved_stepIndex hreg asz n).congr (reg_stepIndex_ne asz hne n _ _)

theorem indexMoved_edi_comparedStrings : IndexMoved asz .edi n s (s.comparedStrings asz n next left right) := by
  have hreg : (s.compared next left right).reg .edi = s.reg .edi := rfl
  have hne : Reg.edi ≠ .esi := by decide
  rw [State.comparedStrings_eq]
  exact indexMoved_stepIndex ((reg_stepIndex_ne asz hne n _ _).trans hreg) asz n

theorem comparedStrings_eflags :
    (s.comparedStrings asz n next left right).eflags = withSubFlags s.eflags (subFlags left right) := by
  cases asz <;> rfl

theorem comparedStrings_mem : (s.comparedStrings asz n next left right).mem = s.mem := by
  cases asz <;> rfl

/-- A comparison of strings writes the index registers, the six flags and EIP only. -/
theorem kept_comparedStrings : Kept [.esi, .edi] statusBits s (s.comparedStrings asz n next left right) := by
  have hcmp : Kept [.esi, .edi] statusBits s (s.compared next left right) :=
    { kept_compared s next left right with regs := fun _ _ => rfl }
  rw [State.comparedStrings_eq]
  exact (hcmp.stepIndex (by decide) asz n _).stepIndex (by decide) asz n _

end

/-! ### Completion and faults (R235 to R242) -/

/-- Settles O42: both reads answer, and the next state is `State.comparedStrings`. -/
theorem compareStringsCompletes : Obligations.CompareStringsCompletes := by
  intro s i p asz n l r hform
  simp only [← indexOffset_eq s asz]
  intro hsrc hdst hl hr
  rw [← stringRead_inside hsrc] at hl
  rw [← stringRead_inside hdst] at hr
  refine ⟨_, exec_cmps hform hl hr, rfl, ?flags, indexMoved_esi_comparedStrings .., indexMoved_edi_comparedStrings ..,
    kept_comparedStrings .., ?memory⟩
  case flags =>
    rw [comparedStrings_eflags]
    exact comparedFlags_withSubFlags _ _ s.eflags
  case memory =>
    intro a
    rw [comparedStrings_mem]

/-- Settles O43: the source is read first, and each read checks the offset range before the segment. -/
theorem compareStringsFaultsSourceFirst : Obligations.CompareStringsFaultsSourceFirst := by
  intro s i p asz n hform
  simp only [← indexOffset_eq s asz]
  refine ⟨fun hsrc => exec_cmps_source_error hform (stringRead_across hsrc),
    fun hsrc f hl => exec_cmps_source_error hform ((stringRead_inside hsrc).trans hl), fun hsrc l hl => ?_⟩
  have hread := (stringRead_inside hsrc).trans hl
  exact ⟨fun hdst => exec_cmps_destination_error hform hread (stringRead_across hdst),
    fun hdst f hr => exec_cmps_destination_error hform hread ((stringRead_inside hdst).trans hr)⟩

end Sys2Proof.Machine
end

section
/-! CWD and CDQ (46_cwd_cdq.md R250, R251): the sign of the accumulator in every bit of EDX or its low half, and nothing
else but EIP. -/

namespace Sys2Proof.Machine

/-- A word below copies of its sign bit is the same signed number. -/
theorem toInt_signFill_append {w : Nat} (n : Nat) (x : BitVec w) :
    ((if x.msb then BitVec.allOnes n else 0) ++ x).toInt = x.toInt := by
  cases n with
  | zero => exact BitVec.toInt_append
  | succ n =>
    cases hmsb : x.msb with
    | true => simp [BitVec.toInt_append, BitVec.toInt_eq_msb_cond x, hmsb, neg_add_eq_sub]
    | false => simp [BitVec.toInt_append, BitVec.toInt_eq_toNat_of_msb hmsb]

theorem State.reg_setReg_ne (s : State) {r q : Reg} (h : q ≠ r) (v : DWord) : (s.setReg r v).reg q = s.reg q := by
  rw [State.reg_setReg, if_neg h]

theorem State.reg16_setReg16_ne (s : State) {r q : Reg} (h : q ≠ r) (v : Word) :
    (s.setReg16 r v).reg16 q = s.reg16 q :=
  congrArg low16 (s.reg_setReg_ne h _)

/-- Settles O32: each fills the upper half of its pair with the sign of the lower half, which it does not write; CWD
fills the 16-bit view of EDX only. -/
theorem cwdAndCdqExtendIntoPair : Obligations.CwdAndCdqExtendIntoPair := by
  intro p s
  refine ⟨⟨_, exec_cwd p s, ?pair16, ?high, rfl, kept_setReg_setEip s .edx _ _, fun _ => rfl⟩,
    ⟨_, exec_cdq p s, ?pair32, rfl, kept_setReg_setEip s .edx _ _, fun _ => rfl⟩⟩
  case pair16 =>
    rw [State.reg16_setEip, State.reg16_setEip, State.reg16_setReg16, State.reg16_setReg16_ne s (by decide)]
    exact toInt_signFill_append 16 (s.reg16 .eax)
  case high => rw [State.reg_setEip, State.reg_setReg16, if_pos rfl, high16_withLow16]
  case pair32 =>
    rw [State.reg_setEip, State.reg_setEip, State.reg_setReg, if_pos rfl, State.reg_setReg_ne s (by decide)]
    exact toInt_signFill_append 32 (s.reg .eax)

end Sys2Proof.Machine
end

section
/-! What a step does to the mode and to CPL (60_exceptions.md R280, R283, 41_call_far_protected.md R178). -/

namespace Sys2Proof.Machine

/-! ### A new task (R178) -/

theorem cr0Bit_ts_of_taskEntered {s t : State} (h : TaskEntered s t) : t.cr0Bit .ts = true := by
  obtain ⟨_, _, _, f, image, _, rfl⟩ := h
  exact getLsbD_cr0_enterTask s f image

/-- PE stays set, so VM of the new task decides. -/
theorem mode_of_taskEntered {s t : State} (hm : s.mode = .prot) (h : TaskEntered s t) :
    t.mode = .prot ∨ t.mode = .v86 := by
  obtain ⟨_, _, _, f, image, _, rfl⟩ := h
  rw [mode_enterTask hm]
  split
  · exact .inr rfl
  · exact .inl rfl

/-! ### Every instruction -/

/-- Outside a task switch an instruction keeps PE and VM, so the mode. -/
theorem ExecDone.mode_or_task {i : Instr} {s t : State} (h : ExecDone i s t) :
    t.mode = s.mode ∨ s.mode = .prot ∧ TaskEntered s t := by
  cases h with
  | plain _ effect => exact .inl effect.mode
  | clts _ _ _ state => exact .inl (state ▸ mode_setCr0_ts s false)
  | near _ _ _ _ frame state => exact .inl (state ▸ frame.mode)
  | farReal _ _ _ _ frame state => exact .inl (state ▸ frame.mode)
  | farProtected _ mode _ _ path =>
    obtain task | ⟨frame, -⟩ := path.task_or_frame
    · exact .inr ⟨mode, task⟩
    · exact .inl frame.mode

/-- Settles O5: a step runs an instruction; it keeps the mode or enters a task from Protected Mode, and a CPL that is
not the same is a new task's or that of a gate's code segment, which is smaller. -/
theorem modeChangesOnlyByTaskSwitch : Obligations.ModeChangesOnlyByTaskSwitch := by
  intro s t h
  obtain ⟨i, -, hi⟩ := exec_of_step h
  constructor
  · obtain same | ⟨hprot, task⟩ := (execDone_of_exec hi).mode_or_task
    · exact .inl same
    · obtain prot | v86 := mode_of_taskEntered hprot task
      · exact .inl (prot.trans hprot.symm)
      · exact .inr ⟨hprot, v86, task, cr0Bit_ts_of_taskEntered task⟩
  · obtain same | task | ⟨lower, -⟩ := (callChangesPrivilegeOnlyByGate i s t hi).2
    · exact .inl (BitVec.le_of_eq same)
    · exact .inr task
    · exact .inl (BitVec.le_of_lt lower)

end Sys2Proof.Machine
end

section
/-! The faults of an instruction outside Protected Mode (60_exceptions.md R261, R262, R270, R275): those of a check,
which are #GP and #SS with the code 0, and those of translation. -/

namespace Sys2Proof.Machine

/-- A fault of R261 that needs no descriptor: #GP(0), #SS(0), or with paging on #PF; outside Protected Mode there is no
other. In Real Address Mode `raise` drops the code (R262). -/
inductive PlainFault (s : State) : Fault → Prop where
  | gp : PlainFault s (raise s .gp 0)
  | ss : PlainFault s (raise s .ss 0)
  | pf (paging : s.pagingOn = true) (code : Word) : PlainFault s (raise s .pf code)

theorem PlainFault.congr {s t : State} {f : Fault} (h : PlainFault t f) (hm : t.mode = s.mode)
    (hp : t.pagingOn = s.pagingOn) : PlainFault s f := by
  cases h with
  | gp => exact raise_congr hm _ _ ▸ .gp
  | ss => exact raise_congr hm _ _ ▸ .ss
  | pf paging code => exact raise_congr hm _ _ ▸ .pf (hp ▸ paging) code

/-- Paging is off in Real Address Mode, and no fault has a code there (R262). -/
theorem PlainFault.real {s : State} {f : Fault} (h : PlainFault s f) (hm : s.mode = .real) :
    ∃ x, f = .exception x none ∧ (x = .gp ∨ x = .ss) := by
  cases h with
  | gp => exact ⟨.gp, raise_real hm .gp 0, .inl rfl⟩
  | ss => exact ⟨.ss, raise_real hm .ss 0, .inr rfl⟩
  | pf paging => simp [State.pagingOff_of_real hm] at paging

/-- In Virtual 8086 Mode every fault has its code. -/
theorem PlainFault.v86 {s : State} {f : Fault} (h : PlainFault s f) (hm : s.mode = .v86) :
    ∃ x code, f = .exception x (some code) ∧ ((x = .gp ∨ x = .ss) ∧ code = 0 ∨ x = .pf) := by
  cases h with
  | gp => exact ⟨.gp, 0, raise_v86 hm .gp 0, .inl ⟨.inl rfl, rfl⟩⟩
  | ss => exact ⟨.ss, 0, raise_v86 hm .ss 0, .inl ⟨.inr rfl, rfl⟩⟩
  | pf _ code => exact ⟨.pf, code, raise_v86 hm .pf code, .inr rfl⟩

/-- The fault for an illegal address is #GP(0) or #SS(0) (R70). -/
theorem plainFault_operandFault (s : State) (name : SegName) : PlainFault s (operandFault s name) := by
  unfold operandFault
  split
  · exact .ss
  · split
    · exact .ss
    · exact .gp
  · split
    · exact .ss
    · exact .gp
  all_goals exact .gp

/-! ### Results that fail with such a fault only -/

/-- A result, computed at `s`, that fails with a plain fault if it fails. -/
structure PlainFaultsOnly {α : Type} (s : State) (r : Res α) : Prop where
  plainFault {f : Fault} : r = .error f → PlainFault s f

namespace PlainFaultsOnly

variable {α β : Type} {s t : State}

theorem ok (a : α) : PlainFaultsOnly s (.ok a : Res α) := ⟨nofun⟩

theorem check {c : Bool} {f : Fault} (h : PlainFault s f) : PlainFaultsOnly s (require c f) := by
  cases c with
  | true => exact ok ()
  | false => exact ⟨fun hf => Except.error.inj hf ▸ h⟩

theorem bind {r : Res α} {g : α → Res β} (hr : PlainFaultsOnly s r)
    (hg : ∀ a, r = .ok a → PlainFaultsOnly s (g a)) : PlainFaultsOnly s (r >>= g) where
  plainFault h := by
    rcases bind_eq_error.mp h with hf | ⟨a, ha, hf⟩
    · exact hr.plainFault hf
    · exact (hg a ha).plainFault hf

theorem map {r : Res α} (hr : PlainFaultsOnly s r) (g : α → β) : PlainFaultsOnly s (r.map g) :=
  ⟨fun h => hr.plainFault (map_eq_error.mp h)⟩

/-- What follows a push raises the faults of the state before it. -/
theorem of_pushFrame {r : Res α} (h : PlainFaultsOnly t r) (frame : PushFrame s t) : PlainFaultsOnly s r :=
  ⟨fun hf => (h.plainFault hf).congr frame.mode frame.pagingOn⟩

end PlainFaultsOnly

open PlainFaultsOnly

/-! ### Memory, operands and the stack -/

/-- With paging off translation does not fail, with paging on it fails with #PF (R72, R264). -/
theorem plainFaultsOnly_physAddrs (s : State) (k : AccessKind) (c : BitVec 2) (n : Nat) (a : DWord) :
    PlainFaultsOnly s (physAddrs s k c n a) where
  plainFault h := by
    cases paging : s.pagingOn with
    | false => simp [physAddrs_off paging] at h
    | true =>
      obtain ⟨code, rfl⟩ := physAddrs_error h
      exact .pf paging code

theorem plainFaultsOnly_segRead (s : State) (name : SegName) (off : DWord) (n : Nat) :
    PlainFaultsOnly s (segRead s name off n) :=
  (check (plainFault_operandFault s name)).bind fun _ _ => (plainFaultsOnly_physAddrs ..).bind fun _ _ => ok _

theorem plainFaultsOnly_readRM8 (p : Prefixes) (d : RM Reg8) (s : State) : PlainFaultsOnly s (readRM8 p d s) := by
  cases d with
  | reg r => exact ok _
  | mem m => exact (plainFaultsOnly_segRead ..).map _

theorem plainFaultsOnly_readRM16 (p : Prefixes) (d : RM Reg) (s : State) : PlainFaultsOnly s (readRM16 p d s) := by
  cases d with
  | reg r => exact ok _
  | mem m => exact (plainFaultsOnly_segRead ..).map _

theorem plainFaultsOnly_readRM32 (p : Prefixes) (d : RM Reg) (s : State) : PlainFaultsOnly s (readRM32 p d s) := by
  cases d with
  | reg r => exact ok _
  | mem m => exact (plainFaultsOnly_segRead ..).map _

theorem plainFaultsOnly_readFarPtr (p : Prefixes) (m : Mem) (z : Size) (s : State) :
    PlainFaultsOnly s (readFarPtr p m z s) where
  plainFault h := (plainFaultsOnly_segRead ..).plainFault (readFarPtr_eq_error.mp h)

theorem plainFaultsOnly_stringRead (s : State) (asz : Size) (name : SegName) (off : DWord) (n : Nat) :
    PlainFaultsOnly s (stringRead s asz name off n) :=
  (check (plainFault_operandFault s name)).bind fun _ _ => plainFaultsOnly_segRead ..

theorem plainFaultsOnly_push (n v : Nat) (s : State) : PlainFaultsOnly s (push n v s) :=
  (check .ss).bind fun _ _ =>
    ((plainFaultsOnly_physAddrs ..).bind fun _ _ => ok _).bind fun _ _ => ok _

theorem plainFaultsOnly_pushOffsetValue (z : Size) (v : DWord) (s : State) :
    PlainFaultsOnly s (pushOffsetValue z v s) := by
  rw [pushOffsetValue_eq_push]
  exact plainFaultsOnly_push ..

theorem plainFaultsOnly_pushReturn (pads : Nat → Word) (z : Size) (sel : Word) (ret : DWord) (s : State) :
    PlainFaultsOnly s (pushReturn pads z sel ret s) := by
  refine .bind ?selector fun t ht => (plainFaultsOnly_pushOffsetValue z ret t).of_pushFrame (pushFrame_pushSelector ht)
  case selector =>
    rw [pushSelector_eq_push]
    exact (plainFaultsOnly_push ..).of_pushFrame (pushFrame_drawPad z s)

/-! ### Instructions -/

theorem plainFaultsOnly_nearCall (z : Size) (ret tgt : DWord) (s : State) : PlainFaultsOnly s (nearCall z ret tgt s) :=
  (check .ss).bind fun _ _ => (check .gp).bind fun _ _ =>
    (plainFaultsOnly_pushOffsetValue ..).bind fun _ _ => ok _

/-- A far CALL outside Protected Mode reads no descriptor (R143). -/
theorem plainFaultsOnly_farCall {s : State} (hm : s.mode ≠ .prot) (pads : Nat → Word) (z : Size) (ret : DWord)
    (ptr : FarPtr) : PlainFaultsOnly s (farCall pads z ret ptr s) := by
  rw [farCall_of_ne_prot hm]
  exact (check .ss).bind fun _ _ => (check .gp).bind fun _ _ =>
    (plainFaultsOnly_pushReturn ..).bind fun _ _ => ok _

theorem plainFaultsOnly_compareOperands {n : Nat} {s : State} (next : DWord) {l r : Res (BitVec n)}
    (hl : PlainFaultsOnly s l) (hr : PlainFaultsOnly s r) : PlainFaultsOnly s (compareOperands s next l r) :=
  hl.bind fun _ _ => hr.bind fun _ _ => ok _

theorem plainFaultsOnly_compareStrings (p : Prefixes) (asz : Size) (n : Nat) (next : DWord) (s : State) :
    PlainFaultsOnly s (compareStrings p asz n next s) :=
  (plainFaultsOnly_stringRead ..).bind fun _ _ => (plainFaultsOnly_stringRead ..).bind fun _ _ => ok _

/-- Every arm of `exec` is the outcome of a result, so none refuses, and outside Protected Mode the result fails with a
plain fault only. -/
theorem exec_eq_outcome (i : Instr) (s : State) :
    ∃ r, exec i s = outcome r ∧ (s.mode ≠ .prot → PlainFaultsOnly s r) := by
  cases i with
  | cbw | cwde | cwd | cdq | clc | cld | cmc => exact ⟨.ok _, rfl, fun _ => ok _⟩
  | cli | clts => exact ⟨_, rfl, fun _ => (check .gp).bind fun _ _ => ok _⟩
  | callRel16 | callRel32 => exact ⟨_, rfl, fun _ => plainFaultsOnly_nearCall ..⟩
  | callRm16 => exact ⟨_, rfl, fun _ => (plainFaultsOnly_readRM16 ..).bind fun _ _ => plainFaultsOnly_nearCall ..⟩
  | callRm32 => exact ⟨_, rfl, fun _ => (plainFaultsOnly_readRM32 ..).bind fun _ _ => plainFaultsOnly_nearCall ..⟩
  | callPtr1616 | callPtr1632 => exact ⟨_, rfl, fun hm => plainFaultsOnly_farCall hm ..⟩
  | callM1616 | callM1632 =>
    exact ⟨_, rfl, fun hm => (plainFaultsOnly_readFarPtr ..).bind fun _ _ => plainFaultsOnly_farCall hm ..⟩
  | cmpAlImm8 | cmpAxImm16 | cmpEaxImm32 => exact ⟨_, rfl, fun _ => plainFaultsOnly_compareOperands _ (ok _) (ok _)⟩
  | cmpRm8Imm8 | cmpRm8R8 =>
    exact ⟨_, rfl, fun _ => plainFaultsOnly_compareOperands _ (plainFaultsOnly_readRM8 ..) (ok _)⟩
  | cmpRm16Imm16 | cmpRm16Imm8 | cmpRm16R16 =>
    exact ⟨_, rfl, fun _ => plainFaultsOnly_compareOperands _ (plainFaultsOnly_readRM16 ..) (ok _)⟩
  | cmpRm32Imm32 | cmpRm32Imm8 | cmpRm32R32 =>
    exact ⟨_, rfl, fun _ => plainFaultsOnly_compareOperands _ (plainFaultsOnly_readRM32 ..) (ok _)⟩
  | cmpR8Rm8 => exact ⟨_, rfl, fun _ => plainFaultsOnly_compareOperands _ (ok _) (plainFaultsOnly_readRM8 ..)⟩
  | cmpR16Rm16 => exact ⟨_, rfl, fun _ => plainFaultsOnly_compareOperands _ (ok _) (plainFaultsOnly_readRM16 ..)⟩
  | cmpR32Rm32 => exact ⟨_, rfl, fun _ => plainFaultsOnly_compareOperands _ (ok _) (plainFaultsOnly_readRM32 ..)⟩
  | cmpsM8 | cmpsM16 | cmpsM32 => exact ⟨_, rfl, fun _ => plainFaultsOnly_compareStrings ..⟩

theorem exec_ne_refused (i : Instr) (s : State) (r : Refusal) : exec i s ≠ .refused r := by
  obtain ⟨res, hres, -⟩ := exec_eq_outcome i s
  exact hres ▸ outcome_ne_refused res r

theorem plainFault_of_exec {i : Instr} {s : State} {f : Fault} (hm : s.mode ≠ .prot) (h : exec i s = .fault f) :
    PlainFault s f := by
  obtain ⟨r, hr, hplain⟩ := exec_eq_outcome i s
  exact (hplain hm).plainFault (outcome_eq_fault.mp (hr.symm.trans h))

/-- Settles O9: every fault is an exception, and outside Protected Mode it is plain. -/
theorem execRaisesOnlyExceptions : Obligations.ExecRaisesOnlyExceptions := by
  refine fun i s => ⟨exec_ne_refused i s, fun f h => ?_⟩
  obtain ⟨x, code, rfl⟩ := isException_of_exec h
  refine ⟨x, code, rfl, fun hm => ?real, fun hm => ?v86⟩
  case real =>
    obtain ⟨_, ⟨⟩, hx⟩ := (plainFault_of_exec (by simp [hm]) h).real hm
    exact ⟨hx, rfl⟩
  case v86 =>
    obtain ⟨_, c, ⟨⟩, ⟨hx, rfl⟩ | rfl⟩ := (plainFault_of_exec (by simp [hm]) h).v86 hm
    · exact .inl ⟨hx, rfl⟩
    · exact .inr ⟨rfl, Option.some_ne_none c⟩

end Sys2Proof.Machine
end
